-- ==== Sys2Proof/Word.lean ====
section
/-! DEFINITION. The bit-vector widths the specification names (00_scope R9: every value is unsigned). -/

namespace Sys2Proof

/-- A 4-bit ICSP command code (30_encoding R104). -/
abbrev Nibble := BitVec 4

/-- A byte: what one read transaction returns, one EEPROM cell, one host opcode. -/
abbrev Byte := BitVec 8

/-- A 16-bit word: a link payload, a code word, a configuration slot. -/
abbrev Word := BitVec 16

/-- A 24-bit target address (00_scope R9: it wraps modulo `2^24`). -/
abbrev Addr := BitVec 24

/-- A 32-bit host register or buffer word (10_state R30). -/
abbrev HostWord := BitVec 32

/-- A byte offset on the host bus, 21 bits wide (20_memory R60). -/
abbrev HostOffset := BitVec 21

end Sys2Proof
end

