-- ==== Sys2Proof/Config.lean ====
section
/-! DEFINITION. The parameters of 00_scope R7. A parameter with a default is a field of `Config` whose
default the rule gives; an OPEN parameter is a field whose value at reset is an opaque constant. Also the
free values of 93_implementation_defined: opaque constants that nothing in Lean can evaluate. -/

namespace Sys2Proof

/-- The 4-bit code of each ICSP command, with the defaults of 30_encoding R104 (PRESUMED there: from
general knowledge). -/
structure IcspCodes where
  core : Nibble := 0x0
  shiftOutTablat : Nibble := 0x2
  tblrd : Nibble := 0x8
  tblrdPostinc : Nibble := 0x9
  tblrdPostdec : Nibble := 0xA
  tblrdPreinc : Nibble := 0xB
  tblwt : Nibble := 0xC
  tblwtPostinc2 : Nibble := 0xD
  tblwtPostinc2Startp : Nibble := 0xE
  tblwtStartp : Nibble := 0xF
deriving DecidableEq, Repr

/-- The core instruction words the engines send, with the defaults of 30_encoding R108 (PRESUMED there:
from general knowledge). `movlw` is the word with literal 0. -/
structure CoreWords where
  nop : Word := 0x0000
  movlw : Word := 0x0E00
  movwfTblptru : Word := 0x6EF8
  movwfTblptrh : Word := 0x6EF7
  movwfTblptrl : Word := 0x6EF6
  movwfTablat : Word := 0x6EF5
  movwfEeadr : Word := 0x6E74
  movwfEeadrh : Word := 0x6E75
  movwfEedata : Word := 0x6E73
  movfEedataW : Word := 0x5073
  movfEecon1W : Word := 0x507F
  bsfEepgd : Word := 0x8E7F
  bcfEepgd : Word := 0x9E7F
  bsfCfgs : Word := 0x8C7F
  bcfCfgs : Word := 0x9C7F
  bsfWren : Word := 0x847F
  bcfWren : Word := 0x947F
  bsfRd : Word := 0x807F
  bsfWr : Word := 0x827F
deriving DecidableEq, Repr

/-- Both link encodings' code values. -/
structure Codes where
  icsp : IcspCodes := {}
  core : CoreWords := {}
deriving DecidableEq, Repr

/-- The literal is or-ed into the MOVLW word (30_encoding R108). -/
def CoreWords.movlwOf (c : CoreWords) (k : Byte) : Word := c.movlw ||| k.setWidth 16

/-- The delays of 00_scope R7: named constants, not operands (41_signal R143). -/
inductive DelayName where
  | tSetup | tHold | tDv | tRdLow | tTurn | tCmdData | tDataCmd
  | tEn1 | tEn2 | tEn3 | tKeyEnd | tEnDone
  | tEx1 | tEx2
  | tProg | tProgSettle
  | tErase
deriving DecidableEq, Repr

/-- One entry of the catalog (00_scope R7, 44_identity R170). -/
structure CatalogEntry where
  maskedId : Word
  name : String
  codeSize : Addr
  eraseBlocks : BitVec 4
  wbufWords : BitVec 7
deriving DecidableEq, Repr

/-- The one entry the source gives (44_identity R170). -/
def CatalogEntry.source : CatalogEntry :=
  { maskedId := 0x6180, name := "PIC18F25K80", codeSize := 0x8000, eraseBlocks := 4, wbufWords := 64 }

/-- One entry's part of 00_scope R8, for a code image buffer of `maxWords` words. -/
def CatalogEntry.wf (maxWords : Nat) (e : CatalogEntry) : Bool :=
  (e.maskedId &&& 0x1F == 0) && (e.codeSize.toNat % 2 == 0) && (e.codeSize != 0) &&
  decide (e.codeSize.toNat ≤ 0x200000) && decide (e.codeSize.toNat ≤ 2 * maxWords) &&
  ((e.codeSize.toNat / 2) % e.wbufWords.toNat == 0) &&
  (e.eraseBlocks == 4 || e.eraseBlocks == 8) && (e.wbufWords == 32 || e.wbufWords == 64)

/-- The parameters of the device family that 00_scope R7 leaves OPEN. -/
structure DeviceParams where
  catalog : List CatalogEntry
  maxCodeWords : Nat
  /-- The 24-bit selector of each of the 11 erase regions (30_encoding R112). -/
  regionCode : Vector Addr 11
  eePollMaxReset : Word
deriving DecidableEq, Repr

/-- 00_scope R8 and the bounds of R7 and 44_identity R170: what a model may be built for. -/
def DeviceParams.wf (d : DeviceParams) : Bool :=
  d.catalog.all (CatalogEntry.wf d.maxCodeWords) &&
  decide ((d.catalog.map CatalogEntry.maskedId).Nodup) &&
  decide (d.catalog.length ≤ 255) && d.catalog.contains CatalogEntry.source &&
  decide (d.maxCodeWords ≤ 0x40000) && (d.eePollMaxReset != 0)

/-- Where the erase hold stands (45_erase R190). -/
inductive EraseHold where
  | afterNops | inSecondNop
deriving DecidableEq, Repr

/-- How code verify treats absent words (46_program_verify R214). -/
inductive VerifyAbsent where
  | skip | expectFfff
deriving DecidableEq, Repr

/-- Where the high configuration byte stands in its payload (48_config R256). -/
inductive CfgHiPayload where
  | msb | lsb
deriving DecidableEq, Repr

/-- The parameters of 00_scope R7, fixed at model construction (70_reset R324). The two proofs are R8's
"an ill-formed catalog is refused at configuration time", and the size the EE_IMG window can back. -/
structure Config where
  codes : Codes := {}
  magicKey : BitVec 32 := 0x4D434850
  eraseCtrlBase : Addr := 0x3C0004
  eeSize : Nat := 1024
  eeBusyBit : Fin 8 := 1
  eraseHold : EraseHold := .afterNops
  pulseTrailingOperand : Bool := true
  verifyAbsent : VerifyAbsent := .skip
  cfgHiPayload : CfgHiPayload := .msb
  eeZeroBug : Bool := false
  /-- FLOAT_LEVEL, EE_BUSY_POLLS, BOOT_SIZE: read by the reference target only (20_memory R86 to R91). -/
  floatLevel : Bool := true
  eeBusyPolls : Nat := 2
  bootSize : Nat := 0x800
  dev : DeviceParams
  dev_wf : dev.wf = true
  ee_wf : eeSize ≤ 1024
deriving DecidableEq, Repr

namespace Config

/-- CATALOG before the source's entry: OPEN, and with it the place of that entry (00_scope R7, 44_identity R170, 91 N5;
log 2). -/
opaque catalogBefore : List CatalogEntry

/-- CATALOG after the source's entry: OPEN (00_scope R7, 91 N5). -/
opaque catalogRest : List CatalogEntry

/-- MAX_CODE_WORDS: OPEN (00_scope R7). -/
opaque maxCodeWords : Nat

/-- REGION_CODE: OPEN (00_scope R7, 30_encoding R112). -/
opaque regionCode : Nat → Addr

/-- EE_POLL_MAX_RESET: OPEN (00_scope R7). -/
opaque eePollMaxReset : Word

/-- The least time of each delay in microseconds: OPEN, a lower bound only (00_scope R7, 70_reset R335). -/
opaque micros : DelayName → Nat

/-- The answer to the `n`-th PGD sample that no pending answer and no reference target settles: any value
(20_memory R64, 93 U5, U6). -/
opaque freeBit : Nat → Bool

/-- The level that the reference target takes from PGD where nobody drives it, for the `n`-th time: any value (93 U21;
log 13). -/
opaque freeLevel : Nat → Bool

/-- What the `n`-th read of a buffer entry during an operation returns: any value (20_memory R63, 93 U14). -/
opaque freeEntry : Nat → HostWord

end Config

/-- The OPEN parameters as the opaque constants give them. CATALOG "must contain" the source's entry (00_scope R7,
44_identity R170); at which index is not said, and is left free with the entries before it (DESIGN CHOICE, log 2). -/
def DeviceParams.unchecked : DeviceParams :=
  { catalog := Config.catalogBefore ++ CatalogEntry.source :: Config.catalogRest
    maxCodeWords := Config.maxCodeWords
    regionCode := Vector.ofFn fun i => Config.regionCode i.val
    eePollMaxReset := Config.eePollMaxReset }

/-- A well-formed stand-in for OPEN parameters that are not: the catalog of the source's one entry, which so stands at
index 0, a code image buffer that just holds it, and a poll cap in `1..0xFFFF` (DESIGN CHOICE, log 2). -/
def DeviceParams.sourceOnly : DeviceParams :=
  { catalog := [CatalogEntry.source]
    maxCodeWords := 0x4000
    regionCode := Vector.ofFn fun i => Config.regionCode i.val
    eePollMaxReset := if Config.eePollMaxReset = 0 then 1 else Config.eePollMaxReset }

/-- The OPEN parameters, refused where they are ill-formed (00_scope R8). -/
def DeviceParams.opened : DeviceParams :=
  if DeviceParams.unchecked.wf then DeviceParams.unchecked else DeviceParams.sourceOnly

theorem DeviceParams.sourceOnly_wf : DeviceParams.sourceOnly.wf = true := by
  unfold DeviceParams.wf DeviceParams.sourceOnly
  have h : ((if Config.eePollMaxReset = 0 then (1 : Word) else Config.eePollMaxReset) != 0) = true := by
    split <;> simp_all
  rw [h]
  decide

theorem DeviceParams.opened_wf : DeviceParams.opened.wf = true := by
  unfold DeviceParams.opened
  split
  · assumption
  · exact DeviceParams.sourceOnly_wf

/-- The configuration of `State.reset`: the defaults of R7, and the OPEN parameters free. -/
def Config.standard : Config :=
  { dev := DeviceParams.opened, dev_wf := DeviceParams.opened_wf, ee_wf := by decide }

end Sys2Proof
end

