-- ==== Sys2Proof/Syntax.lean ====
section
/-! DEFINITION. The instructions: one constructor for each row of spec/opcode_table.json, and the words
they are written in. The table holds three encodings (30_encoding): the host opcodes, the ICSP commands
of the link, and the core instruction words a CORE transaction carries. -/

namespace Sys2Proof

/-- One constructor per row of the opcode table. A host opcode carries no operand: its operands are the
latches of 10_state R23. A link command of shape W carries its 16-bit payload (30_encoding R100). -/
inductive Instr where
  -- host opcodes (30_encoding R101)
  | enter
  | exit
  | identify
  | sendCmd
  | sendWord
  | readWord
  | sendInsn
  | gotoAddr
  | gotoShort
  | blankCheck
  | bulkErase
  | eraseBlock
  | read
  | write
  | eepromRead
  | eepromWrite
  | dumpUserId
  | dumpConfig
  /-- Any opcode outside the table of R101 (R103). -/
  | reservedHostOpcode (op : Byte)
  -- ICSP commands (30_encoding R104)
  | core (payload : Word)
  | shiftOutTablat
  | tblrd
  | tblrdPostinc
  | tblrdPostdec
  | tblrdPreinc
  | tblwt (payload : Word)
  | tblwtPostinc2 (payload : Word)
  | tblwtPostinc2Startp (payload : Word)
  | tblwtStartp (payload : Word)
  /-- A 4-bit code that names no command (R106). -/
  | reservedIcspCommand (code : Nibble) (payload : Word)
  -- core instruction words (30_encoding R108)
  | nop
  | movlw (k : Byte)
  | movwfTblptru
  | movwfTblptrh
  | movwfTblptrl
  | movwfTablat
  | movwfEeadr
  | movwfEeadrh
  | movwfEedata
  | movfEedataW
  | movfEecon1W
  | bsfEepgd
  | bcfEepgd
  | bsfCfgs
  | bcfCfgs
  | bsfWren
  | bcfWren
  | bsfRd
  | bsfWr
deriving DecidableEq, Repr

/-- A word of the link encodings: an ICSP command with its payload (30_encoding R100), or a core
instruction word, which is the payload of a CORE transaction (R108). -/
inductive LinkWord where
  | icsp (code : Nibble) (payload : Word)
  | coreWord (w : Word)
deriving DecidableEq, Repr

/-- A word of one of the three encodings of the opcode table. -/
inductive CodeWord where
  | hostOpcode (op : Byte)
  | link (w : LinkWord)
deriving DecidableEq, Repr

end Sys2Proof
end

