-- ==== Sys2Proof/WellFormed.lean ====
section
/-! DEFINITION. Which terms of `Instr` stand for a row: the two rows of reserved values hold only values
that name no other row (30_encoding R103, R106). Also when the code values of a configuration can be told
apart at all. -/

namespace Sys2Proof

/-- The opcodes of the table of 30_encoding R101. -/
def hostOpcodes : List Byte :=
  [0x01, 0x02, 0x03, 0x10, 0x11, 0x12, 0x13, 0x14, 0x15, 0x20, 0x21, 0x22, 0x30, 0x31, 0x40, 0x41, 0x50, 0x51]

/-- The ten named command codes (30_encoding R104). -/
def IcspCodes.all (c : IcspCodes) : List Nibble :=
  [c.core, c.shiftOutTablat, c.tblrd, c.tblrdPostinc, c.tblrdPostdec, c.tblrdPreinc, c.tblwt, c.tblwtPostinc2,
    c.tblwtPostinc2Startp, c.tblwtStartp]

/-- The eighteen core words without a literal (30_encoding R108). -/
def CoreWords.fixed (c : CoreWords) : List Word :=
  [c.nop, c.movwfTblptru, c.movwfTblptrh, c.movwfTblptrl, c.movwfTablat, c.movwfEeadr, c.movwfEeadrh, c.movwfEedata,
    c.movfEedataW, c.movfEecon1W, c.bsfEepgd, c.bcfEepgd, c.bsfCfgs, c.bcfCfgs, c.bsfWren, c.bcfWren, c.bsfRd, c.bsfWr]

/-- No two commands share a code, no two core words share a word, and MOVLW leaves its low byte to the
literal. -/
def Codes.distinct (c : Codes) : Bool :=
  decide c.icsp.all.Nodup && decide c.core.fixed.Nodup && (c.core.movlw &&& 0x00FF == 0) &&
  c.core.fixed.all fun w => w &&& 0xFF00 != c.core.movlw

/-- An instruction is well formed when its fields do not name another row. -/
def Instr.wf (c : Codes) : Instr → Bool
  | .reservedHostOpcode op => !hostOpcodes.contains op
  | .reservedIcspCommand code _ => !c.icsp.all.contains code
  | .enter | .exit | .identify | .sendCmd | .sendWord | .readWord | .sendInsn | .gotoAddr | .gotoShort
  | .blankCheck | .bulkErase | .eraseBlock | .read | .write | .eepromRead | .eepromWrite | .dumpUserId | .dumpConfig
  | .core _ | .shiftOutTablat | .tblrd | .tblrdPostinc | .tblrdPostdec | .tblrdPreinc | .tblwt _ | .tblwtPostinc2 _
  | .tblwtPostinc2Startp _ | .tblwtStartp _ | .nop | .movlw _ | .movwfTblptru | .movwfTblptrh | .movwfTblptrl
  | .movwfTablat | .movwfEeadr | .movwfEeadrh | .movwfEedata | .movfEedataW | .movfEecon1W | .bsfEepgd | .bcfEepgd
  | .bsfCfgs | .bcfCfgs | .bsfWren | .bcfWren | .bsfRd | .bsfWr => true

end Sys2Proof
end

