-- ==== Sys2Proof/Decode.lean ====
section
/-! DEFINITION. The decoder of the three encodings (30_encoding R101, R104, R108), total and rejecting by
name, then the encoder, then the reading of an opcode-table row's bits. -/

namespace Sys2Proof

/-- Why a word is no instruction. -/
inductive DecodeError where
  /-- A 16-bit word that is none of the core words of 30_encoding R108. -/
  | unknownCoreWord (w : Word)
deriving DecidableEq, Repr

/-- The first row of a table whose code is `w`. No rule keeps the values of ICSP_CODE or of CORE_WORD distinct; where
two are equal, a word that carries them is read as the first row that has it (DESIGN CHOICE, log 25). -/
def findRow {n : Nat} (w : BitVec n) : List (BitVec n × Instr) → Option Instr
  | [] => none
  | (code, i) :: rows => if code = w then some i else findRow w rows

/-- The opcode map of 30_encoding R101. -/
def hostRows : List (Byte × Instr) :=
  [(0x01, .enter), (0x02, .exit), (0x03, .identify), (0x10, .sendCmd), (0x11, .sendWord), (0x12, .readWord),
    (0x13, .sendInsn), (0x14, .gotoAddr), (0x15, .gotoShort), (0x20, .blankCheck), (0x21, .bulkErase),
    (0x22, .eraseBlock), (0x30, .read), (0x31, .write), (0x40, .eepromRead), (0x41, .eepromWrite),
    (0x50, .dumpUserId), (0x51, .dumpConfig)]

/-- The command codes of 30_encoding R104, each with the payload that follows it. The five of shape R come first: a
code that equals one of theirs is of shape R, whatever else it equals (R105). -/
def icspRows (c : IcspCodes) (payload : Word) : List (Nibble × Instr) :=
  [(c.shiftOutTablat, .shiftOutTablat), (c.tblrd, .tblrd), (c.tblrdPostinc, .tblrdPostinc),
    (c.tblrdPostdec, .tblrdPostdec), (c.tblrdPreinc, .tblrdPreinc), (c.core, .core payload), (c.tblwt, .tblwt payload),
    (c.tblwtPostinc2, .tblwtPostinc2 payload), (c.tblwtPostinc2Startp, .tblwtPostinc2Startp payload),
    (c.tblwtStartp, .tblwtStartp payload)]

/-- The core words of 30_encoding R108 that carry no literal. -/
def coreRows (c : CoreWords) : List (Word × Instr) :=
  [(c.nop, .nop), (c.movwfTblptru, .movwfTblptru), (c.movwfTblptrh, .movwfTblptrh), (c.movwfTblptrl, .movwfTblptrl),
    (c.movwfTablat, .movwfTablat), (c.movwfEeadr, .movwfEeadr), (c.movwfEeadrh, .movwfEeadrh),
    (c.movwfEedata, .movwfEedata), (c.movfEedataW, .movfEedataW), (c.movfEecon1W, .movfEecon1W),
    (c.bsfEepgd, .bsfEepgd), (c.bcfEepgd, .bcfEepgd), (c.bsfCfgs, .bsfCfgs), (c.bcfCfgs, .bcfCfgs),
    (c.bsfWren, .bsfWren), (c.bcfWren, .bcfWren), (c.bsfRd, .bsfRd), (c.bsfWr, .bsfWr)]

/-- A value of CMD.OPCODE: every value outside the table is the reserved row's (30_encoding R103). -/
def decodeHost (op : Byte) : Instr :=
  (findRow op hostRows).getD (.reservedHostOpcode op)

/-- A command code and its payload: every unnamed code is the reserved row's (30_encoding R106). -/
def decodeIcsp (c : IcspCodes) (code : Nibble) (payload : Word) : Instr :=
  (findRow code (icspRows c payload)).getD (.reservedIcspCommand code payload)

/-- A core instruction word (30_encoding R108). A word of the table that also has the form of MOVLW is the table's
(DESIGN CHOICE, log 25). -/
def decodeCore (c : CoreWords) (w : Word) : Except DecodeError Instr :=
  match findRow w (coreRows c) with
  | some i => .ok i
  | none => if c.movlwOf (w.setWidth 8) = w then .ok (.movlw (w.setWidth 8)) else .error (.unknownCoreWord w)

/-- A word of the link encodings. -/
def decodeLink (c : Codes) : LinkWord → Except DecodeError Instr
  | .icsp code payload => .ok (decodeIcsp c.icsp code payload)
  | .coreWord w => decodeCore c.core w

/-- The decoder. -/
def decode (c : Codes) : CodeWord → Except DecodeError Instr
  | .hostOpcode op => .ok (decodeHost op)
  | .link w => decodeLink c w

/-- The encoder: the word of each row, from the same tables of the specification. A command of shape R has
no payload bits of its own (30_encoding R100); they are written as 0. -/
def encode (c : Codes) : Instr → CodeWord
  | .enter => .hostOpcode 0x01
  | .exit => .hostOpcode 0x02
  | .identify => .hostOpcode 0x03
  | .sendCmd => .hostOpcode 0x10
  | .sendWord => .hostOpcode 0x11
  | .readWord => .hostOpcode 0x12
  | .sendInsn => .hostOpcode 0x13
  | .gotoAddr => .hostOpcode 0x14
  | .gotoShort => .hostOpcode 0x15
  | .blankCheck => .hostOpcode 0x20
  | .bulkErase => .hostOpcode 0x21
  | .eraseBlock => .hostOpcode 0x22
  | .read => .hostOpcode 0x30
  | .write => .hostOpcode 0x31
  | .eepromRead => .hostOpcode 0x40
  | .eepromWrite => .hostOpcode 0x41
  | .dumpUserId => .hostOpcode 0x50
  | .dumpConfig => .hostOpcode 0x51
  | .reservedHostOpcode op => .hostOpcode op
  | .core p => .link (.icsp c.icsp.core p)
  | .shiftOutTablat => .link (.icsp c.icsp.shiftOutTablat 0)
  | .tblrd => .link (.icsp c.icsp.tblrd 0)
  | .tblrdPostinc => .link (.icsp c.icsp.tblrdPostinc 0)
  | .tblrdPostdec => .link (.icsp c.icsp.tblrdPostdec 0)
  | .tblrdPreinc => .link (.icsp c.icsp.tblrdPreinc 0)
  | .tblwt p => .link (.icsp c.icsp.tblwt p)
  | .tblwtPostinc2 p => .link (.icsp c.icsp.tblwtPostinc2 p)
  | .tblwtPostinc2Startp p => .link (.icsp c.icsp.tblwtPostinc2Startp p)
  | .tblwtStartp p => .link (.icsp c.icsp.tblwtStartp p)
  | .reservedIcspCommand code p => .link (.icsp code p)
  | .nop => .link (.coreWord c.core.nop)
  | .movlw k => .link (.coreWord (c.core.movlwOf k))
  | .movwfTblptru => .link (.coreWord c.core.movwfTblptru)
  | .movwfTblptrh => .link (.coreWord c.core.movwfTblptrh)
  | .movwfTblptrl => .link (.coreWord c.core.movwfTblptrl)
  | .movwfTablat => .link (.coreWord c.core.movwfTablat)
  | .movwfEeadr => .link (.coreWord c.core.movwfEeadr)
  | .movwfEeadrh => .link (.coreWord c.core.movwfEeadrh)
  | .movwfEedata => .link (.coreWord c.core.movwfEedata)
  | .movfEedataW => .link (.coreWord c.core.movfEedataW)
  | .movfEecon1W => .link (.coreWord c.core.movfEecon1W)
  | .bsfEepgd => .link (.coreWord c.core.bsfEepgd)
  | .bcfEepgd => .link (.coreWord c.core.bcfEepgd)
  | .bsfCfgs => .link (.coreWord c.core.bsfCfgs)
  | .bcfCfgs => .link (.coreWord c.core.bcfCfgs)
  | .bsfWren => .link (.coreWord c.core.bsfWren)
  | .bcfWren => .link (.coreWord c.core.bcfWren)
  | .bsfRd => .link (.coreWord c.core.bsfRd)
  | .bsfWr => .link (.coreWord c.core.bsfWr)

/-- Which of the three encodings an opcode-table row's bits are read in (log 6). The table gives a host
opcode 8 bits, an ICSP command 4 (8 in whole bytes) and a core word 16. Of 8 bits, a value of R101's table
is a host opcode, any other value that names an ICSP command is that command with a payload of zeros, and
the rest are reserved host opcodes. 24 bits hold a command (bits 3..0) and its payload (bits 19..4). -/
def tableWord (nbits w : Nat) : Option CodeWord :=
  if nbits ≤ 8 then
    let op := BitVec.ofNat 8 w
    if 256 ≤ w then none
    else if 4 < nbits && hostOpcodes.contains op then some (.hostOpcode op)
    else if w < 16 && (nbits ≤ 4 || ({} : IcspCodes).all.contains (op.setWidth 4)) then
      some (.link (.icsp (op.setWidth 4) 0))
    else some (.hostOpcode op)
  else if nbits ≤ 16 then
    if w < 0x10000 then some (.link (.coreWord (BitVec.ofNat 16 w))) else none
  else if w < 0x100000 then some (.link (.icsp (BitVec.ofNat 4 w) (BitVec.ofNat 16 (w / 16))))
  else none

/-- The instruction the decoder reads from an opcode-table row's bits, at the default code values. -/
def decodeTableWord (nbits w : Nat) : Option Instr :=
  match tableWord nbits w with
  | some cw => (decode {} cw).toOption
  | none => none

end Sys2Proof
end

