-- ==== Sys2Proof/Machine/Link.lean ====
section
/-! DEFINITION. The link lines (10_state R21), the link events (20_memory R64), and the event sequences of
the pseudocode procedures that only drive the link (41_signal R130 to R136). -/

namespace Sys2Proof.Machine

/-- The three driven lines (10_state R21). -/
inductive Pin where
  | pgc | pgd | mclr
deriving DecidableEq, Repr

/-- `inp` is undriven, high impedance (10_state R21). -/
inductive Direction where
  | inp | out
deriving DecidableEq, Repr

/-- One line's state bits. -/
structure Line where
  dir : Direction := .inp
  lat : Bool := false
deriving DecidableEq, Repr

/-- The three lines; the default is the reset state (10_state R21). -/
structure Lines where
  pgc : Line := {}
  pgd : Line := {}
  mclr : Line := {}
deriving DecidableEq, Repr

/-- The four link events (20_memory R64). A delay is named, since its value is an OPEN lower bound (log 3). -/
inductive LinkEvent where
  | dir (p : Pin) (d : Direction)
  | pin (p : Pin) (v : Bool)
  | delay (t : DelayName)
  | sample (b : Bool)
deriving DecidableEq, Repr

/-- Change one line. -/
def Lines.update (l : Lines) (p : Pin) (f : Line → Line) : Lines :=
  match p with
  | .pgc => { l with pgc := f l.pgc }
  | .pgd => { l with pgd := f l.pgd }
  | .mclr => { l with mclr := f l.mclr }

/-- What an event does to the lines (20_memory R64). -/
def Lines.apply (l : Lines) : LinkEvent → Lines
  | .dir p d => l.update p fun x => { x with dir := d }
  | .pin p v => l.update p fun x => { x with lat := v }
  | .delay _ => l
  | .sample _ => l

/-- The lines after a sequence of events. -/
def Lines.applyAll (l : Lines) (es : List LinkEvent) : Lines := es.foldl Lines.apply l

/-- A line that the block drives to `v`. -/
def Line.drives (l : Line) (v : Bool) : Bool := l.dir == .out && l.lat == v

/-- The first `n` bits, least significant first (20_memory R69). -/
def bitsLsbFirst {w : Nat} (n : Nat) (v : BitVec w) : List Bool := (List.range n).map v.getLsbD

/-- The bits of the magic key, most significant first (42_session R150). -/
def bitsMsbFirst {w : Nat} (n : Nat) (v : BitVec w) : List Bool := (bitsLsbFirst n v).reverse

/-- The byte whose bits are given least significant first (41_signal R134). -/
def byteOfBits (bs : List Bool) : Byte :=
  bs.foldr (fun b acc => (acc <<< 1) ||| (BitVec.ofBool b).setWidth 8) 0

/-- `OutCell(b)` (41_signal R130). -/
def outCellEvents (b : Bool) : List LinkEvent :=
  [.pin .pgd b, .delay .tSetup, .pin .pgc true, .delay .tHold, .pin .pgc false]

/-- One output cell for each bit, in order. -/
def outBitsEvents (bs : List Bool) : List LinkEvent := bs.flatMap outCellEvents

/-- `SendCmd(c)` (41_signal R132). -/
def sendCmdEvents (c : Nibble) : List LinkEvent := outBitsEvents (bitsLsbFirst 4 c) ++ [.delay .tCmdData]

/-- `SendWord(w)` (41_signal R133). -/
def sendWordEvents (w : Word) : List LinkEvent := outBitsEvents (bitsLsbFirst 16 w) ++ [.delay .tDataCmd]

/-- `SendInsn(c, w)` (41_signal R135). -/
def sendInsnEvents (c : Nibble) (w : Word) : List LinkEvent := sendCmdEvents c ++ sendWordEvents w

/-- `ReadWord()` up to its first sample cell: eight driven zeros and the turnaround (41_signal R134). -/
def readLeadEvents : List LinkEvent :=
  outBitsEvents (List.replicate 8 false) ++ [.dir .pgd .inp, .delay .tTurn]

/-- `InCell()` up to its sample (41_signal R131). -/
def inCellLeadEvents : List LinkEvent := [.pin .pgc true, .delay .tDv]

/-- `InCell()` after its sample (41_signal R131). -/
def inCellTailEvents : List LinkEvent := [.delay .tHold, .pin .pgc false, .delay .tRdLow]

/-- `InCell()` with the bit it samples (41_signal R131). -/
def inCellEvents (b : Bool) : List LinkEvent := inCellLeadEvents ++ [.sample b] ++ inCellTailEvents

/-- `ReadWord()` after its last sample cell (41_signal R134). -/
def readTailEvents : List LinkEvent := [.delay .tDataCmd, .dir .pgd .out]

/-- `ReadWord()` with the bits it samples (41_signal R134). -/
def readWordEvents (bs : List Bool) : List LinkEvent :=
  readLeadEvents ++ bs.flatMap inCellEvents ++ readTailEvents

/-- `ReadTxn(c)` with the bits it samples (41_signal R136). -/
def readTxnEvents (c : Nibble) (bs : List Bool) : List LinkEvent := sendCmdEvents c ++ readWordEvents bs

/-- `GotoAddress(A)`: upper, high, low (43_addressing R160). -/
def gotoAddressEvents (c : Codes) (a : Addr) : List LinkEvent :=
  sendInsnEvents c.icsp.core (c.core.movlwOf ((a >>> 16).setWidth 8)) ++ sendInsnEvents c.icsp.core c.core.movwfTblptru ++
  sendInsnEvents c.icsp.core (c.core.movlwOf ((a >>> 8).setWidth 8)) ++ sendInsnEvents c.icsp.core c.core.movwfTblptrh ++
  sendInsnEvents c.icsp.core (c.core.movlwOf (a.setWidth 8)) ++ sendInsnEvents c.icsp.core c.core.movwfTblptrl

/-- `GotoShort(o)` (43_addressing R161). -/
def gotoShortEvents (c : Codes) (o : Byte) : List LinkEvent :=
  sendInsnEvents c.icsp.core (c.core.movlwOf o) ++ sendInsnEvents c.icsp.core c.core.movwfTblptrl

/-- `ProgPulse()` (46_program_verify R210). -/
def progPulseEvents (cfg : Config) : List LinkEvent :=
  outBitsEvents (List.replicate 3 false) ++
  [.pin .pgd false, .delay .tSetup, .pin .pgc true, .delay .tProg, .pin .pgc false, .delay .tProgSettle] ++
  (if cfg.pulseTrailingOperand then sendWordEvents 0 else [])

/-- The bits sampled in a sequence of events, in order. -/
def samplesOf : List LinkEvent → List Bool
  | [] => []
  | .sample b :: es => b :: samplesOf es
  | .dir _ _ :: es => samplesOf es
  | .pin _ _ :: es => samplesOf es
  | .delay _ :: es => samplesOf es

/-- How often PGC rises in a sequence of events that starts with it low: each `Pin(PGC) <- 1` of the
procedures is one clock pulse (30_encoding R100). -/
def clockPulses : List LinkEvent → Nat
  | [] => 0
  | .pin .pgc true :: es => clockPulses es + 1
  | .pin _ _ :: es => clockPulses es
  | .dir _ _ :: es => clockPulses es
  | .delay _ :: es => clockPulses es
  | .sample _ :: es => clockPulses es

/-- The least time a sequence of events takes, in microseconds (20_memory R64, 70_reset R335): the sum of
its delays' lower bounds. The specification gives no upper bound. -/
def leastMicros : List LinkEvent → Nat
  | [] => 0
  | .delay t :: es => Config.micros t + leastMicros es
  | .dir _ _ :: es => leastMicros es
  | .pin _ _ :: es => leastMicros es
  | .sample _ :: es => leastMicros es

end Sys2Proof.Machine
end

