-- ==== Sys2Proof/Machine/Memory.lean ====
section
/-! DEFINITION. Sparse byte memories in one canonical form, and the block's five local buffers as one such
memory over the host bus (20_memory R62). -/

namespace Sys2Proof.Machine

/-- A sparse memory: (address, byte) pairs, addresses strictly rising, none equal to what an unlisted
address reads as. -/
abbrev Cells := List Host.Cell

/-- What address `a` reads as: its cell, or what `unlisted` says of an address with none. -/
def Cells.get (unlisted : Nat → Option Byte) : Cells → Nat → Option Byte
  | [], a => unlisted a
  | (k, v) :: m, a => if k = a then some v else Cells.get unlisted m a

/-- Put a cell at its place. -/
def Cells.insert (a : Nat) (v : Byte) : Cells → Cells
  | [] => [(a, v)]
  | (k, w) :: m => if a < k then (a, v) :: (k, w) :: m else if a = k then (a, v) :: m else (k, w) :: Cells.insert a v m

/-- Take a cell away. -/
def Cells.erase (a : Nat) (m : Cells) : Cells := m.filter fun c => c.1 != a

/-- Write one byte, keeping the canonical form. -/
def Cells.put (unlisted : Nat → Option Byte) (a : Nat) (v : Byte) (m : Cells) : Cells :=
  if unlisted a = some v then Cells.erase a m else Cells.insert a v m

/-- The canonical form. -/
abbrev Cells.wf (unlisted : Nat → Option Byte) (m : Cells) : Prop :=
  List.Pairwise (fun c d => c.1 < d.1) m ∧ ∀ c ∈ m, unlisted c.1 ≠ some c.2

/-- The five buffer windows of 20_memory R62. -/
inductive Window where
  | cfgImg | cfgRb | uidBuf | eeImg | codeImg
deriving DecidableEq, Repr

/-- The host byte offset of a window's entry 0 (20_memory R62). -/
def Window.base : Window → Nat
  | .cfgImg => 0x000100
  | .cfgRb => 0x000120
  | .uidBuf => 0x000140
  | .eeImg => 0x001000
  | .codeImg => 0x100000

/-- How many offsets the window spans (20_memory R62). -/
def Window.span : Window → Nat
  | .cfgImg => 8
  | .cfgRb => 8
  | .uidBuf => 8
  | .eeImg => 1024
  | .codeImg => 0x40000

/-- How many of them the buffer backs (20_memory R62). -/
def Window.backed (cfg : Config) : Window → Nat
  | .cfgImg => 8
  | .cfgRb => 8
  | .uidBuf => 8
  | .eeImg => cfg.eeSize
  | .codeImg => cfg.dev.maxCodeWords

/-- The host byte offset of entry `i`: one 32-bit word per entry (20_memory R62). -/
def Window.addr (w : Window) (i : Nat) : Nat := w.base + 4 * i

/-- The byte that holds a present bit: bits 16 and up of a CFG_IMG or CODE_IMG entry (20_memory R62). -/
def isPresentByte (a : Nat) : Bool :=
  (decide (0x100 ≤ a ∧ a < 0x120) || decide (0x100000 ≤ a ∧ a < 0x200000)) && a % 4 == 2

/-- What a buffer byte with no cell reads as: a present bit is 0 at reset, and no other byte holds a value
until something writes it (10_state R27). -/
def unlisted (a : Nat) : Option Byte := if isPresentByte a then some 0 else none

/-- The local buffers, keyed by host byte offset (log 8). -/
abbrev Memory := Cells

/-- The canonical form of the buffers. -/
abbrev Memory.wf (m : Memory) : Prop := Cells.wf unlisted m

/-- One byte of the buffers. -/
def Memory.byte (m : Memory) (a : Nat) : Option Byte := Cells.get unlisted m a

/-- Write one byte of the buffers. -/
def Memory.putByte (m : Memory) (a : Nat) (v : Byte) : Memory := Cells.put unlisted a v m

/-- An entry of CODE_IMG or CFG_IMG (10_state R27). -/
structure ImgEntry where
  value : Word
  present : Bool
deriving DecidableEq, Repr

/-- An 8-bit entry; `none` where nothing wrote it (10_state R27). -/
def Memory.entry8 (m : Memory) (w : Window) (i : Nat) : Option Byte := m.byte (w.addr i)

/-- A 16-bit entry, little-endian in its host word (20_memory R62). -/
def Memory.entry16 (m : Memory) (w : Window) (i : Nat) : Option Word :=
  match m.byte (w.addr i), m.byte (w.addr i + 1) with
  | some lo, some hi => some (hi ++ lo)
  | _, _ => none

/-- The present bit of an entry. -/
def Memory.present (m : Memory) (w : Window) (i : Nat) : Bool :=
  match m.byte (w.addr i + 2) with
  | some p => p.getLsbD 0
  | none => false

/-- A 17-bit entry `{value, present}`: no value where nothing wrote it (10_state R27). -/
def Memory.img (m : Memory) (w : Window) (i : Nat) : Option ImgEntry :=
  match m.entry16 w i with
  | some v => some { value := v, present := m.present w i }
  | none => none

/-- Write an 8-bit entry. -/
def Memory.setEntry8 (m : Memory) (w : Window) (i : Nat) (v : Byte) : Memory := m.putByte (w.addr i) v

/-- Write a 16-bit entry. -/
def Memory.setEntry16 (m : Memory) (w : Window) (i : Nat) (v : Word) : Memory :=
  (m.putByte (w.addr i) (v.setWidth 8)).putByte (w.addr i + 1) ((v >>> 8).setWidth 8)

/-- Write a value and its present bit together (20_memory R65). -/
def Memory.setImg (m : Memory) (w : Window) (i : Nat) (e : ImgEntry) : Memory :=
  (m.setEntry16 w i e.value).putByte (w.addr i + 2) ((BitVec.ofBool e.present).setWidth 8)

end Sys2Proof.Machine
end

