-- ==== Sys2Proof/Machine/Target.lean ====
section
/-! DEFINITION. The reference target of 20_memory R85 to R92: the specification's own deterministic answerer
of PGD samples. It is not part of the block (00_scope R5): a state holds one only where it says so, and no
meaning of an instruction looks inside it (log 13). -/

namespace Sys2Proof.Machine

/-- An erased byte of the reference target (20_memory R89, R91). -/
def erasedByte (_ : Nat) : Option Byte := some 0xFF

/-- The fixture's state (20_memory R85), its geometry, and where it stands in a transaction (R87) and in the
key (R86). Byte arrays list the bytes that are not `0xFF`. Of the start values R85 gives LATCH's; the others, where a
state does not name its own, are the field defaults here (DESIGN CHOICE, log 26): OFF, registers and counts 0, arrays
`0xFF`. -/
structure RefTarget where
  codeSize : Nat
  eraseBlocks : Nat
  wbufWords : Nat
  /-- `tmode = PROG`. -/
  prog : Bool := false
  /-- The fixture has stopped: "unknown instruction" (R88), or a reserved command (log 14). -/
  stopped : Bool := false
  tblptr : Addr := 0
  tablat : Byte := 0
  w : Byte := 0
  /-- EEPGD bit 7, CFGS bit 6, WREN bit 2; WR and RD are not held (R88). -/
  eecon1 : Byte := 0
  eeadr : Byte := 0
  eeadrh : Byte := 0
  eedata : Byte := 0
  ectl0 : Byte := 0
  ectl1 : Byte := 0
  ectl2 : Byte := 0
  latch : Cells := []
  code : Cells := []
  uid : Cells := []
  cfgBytes : Cells := []
  devb : Cells := []
  ee : Cells := []
  busyLeft : Nat := 0
  /-- `none` until ECTL[2] is written (R91). -/
  nopCount : Option Nat := none
  /-- PGC rising edges of the transaction in progress, 0 to 20 (R87). -/
  clocks : Nat := 0
  cmd : Nibble := 0
  payload : Word := 0
  /-- The last 32 bits clocked while MCLR is driven low outside PROG, and how many (R86). -/
  key : BitVec 32 := 0
  keyClocks : Nat := 0
  /-- How many levels it has taken from PGD while nobody drove it (log 13). -/
  floats : Nat := 0
deriving DecidableEq, Repr

/-- A byte of one of the fixture's arrays. -/
def targetByte (m : Cells) (a : Nat) : Byte := (Cells.get erasedByte m a).getD 0xFF

/-- Write a byte of one of the fixture's arrays. -/
def setTargetByte (m : Cells) (a : Nat) (v : Byte) : Cells := Cells.put erasedByte a v m

/-- `byte(a)` (20_memory R89). -/
def RefTarget.byteAt (t : RefTarget) (a : Nat) : Byte :=
  if a < t.codeSize then targetByte t.code a
  else if 0x200000 ≤ a ∧ a ≤ 0x200007 then targetByte t.uid (a - 0x200000)
  else if 0x300000 ≤ a ∧ a ≤ 0x30000F then targetByte t.cfgBytes (a - 0x300000)
  else if 0x3FFFFE ≤ a ∧ a ≤ 0x3FFFFF then targetByte t.devb (a - 0x3FFFFE)
  else 0xFF

/-- Whether a code is of shape R (30_encoding R105). -/
def isReadCode (c : IcspCodes) (code : Nibble) : Bool :=
  code == c.shiftOutTablat || code == c.tblrd || code == c.tblrdPostinc || code == c.tblrdPostdec ||
  code == c.tblrdPreinc

/-- The table reads (20_memory R89). Of equal codes the first in this order is meant (DESIGN CHOICE, log 25). -/
def RefTarget.readAction (c : IcspCodes) (t : RefTarget) : RefTarget :=
  if t.cmd = c.shiftOutTablat then t
  else if t.cmd = c.tblrd then { t with tablat := t.byteAt t.tblptr.toNat }
  else if t.cmd = c.tblrdPostinc then { t with tablat := t.byteAt t.tblptr.toNat, tblptr := t.tblptr + 1 }
  else if t.cmd = c.tblrdPostdec then { t with tablat := t.byteAt t.tblptr.toNat, tblptr := t.tblptr - 1 }
  else { t with tablat := t.byteAt (t.tblptr + 1).toNat, tblptr := t.tblptr + 1 }

/-- Set every byte of an address range to `0xFF`, except those below `keep`. -/
def eraseRange (keep lo hi : Nat) (m : Cells) : Cells :=
  m.filter fun c => decide (c.1 < keep) || !(decide (lo ≤ c.1) && decide (c.1 < hi))

/-- Which region a selector names (30_encoding R112). Where two entries of the OPEN REGION_CODE are equal, which 20_memory
R91 does not settle, it is the lowest region index (DESIGN CHOICE, log 13). -/
def regionOf (d : DeviceParams) (sel : Addr) : Option Nat := d.regionCode.toList.findIdx? (· == sel)

/-- The erase of region `r` (20_memory R91). In a fixture without erase blocks a code block has no bytes (DESIGN CHOICE,
log 31). -/
def RefTarget.eraseRegion (cfg : Config) (t : RefTarget) (r : Nat) : RefTarget :=
  match r with
  | 0 => { t with cfgBytes := [] }
  | 1 => { t with code := eraseRange 0 0 cfg.bootSize t.code }
  | 2 => { t with ee := [] }
  | k + 3 =>
    let bs := t.codeSize / t.eraseBlocks
    { t with code := eraseRange cfg.bootSize (k * bs) ((k + 1) * bs) t.code, ee := [] }

/-- A CORE NOP: the second one after a write of ECTL[2] erases (20_memory R91). -/
def RefTarget.nopAction (cfg : Config) (t : RefTarget) : RefTarget :=
  match t.nopCount with
  | none => t
  | some n =>
    let t := { t with nopCount := some (n + 1) }
    if n + 1 = 2 then
      match regionOf cfg.dev (t.ectl2 ++ t.ectl1 ++ t.ectl0) with
      | some r => t.eraseRegion cfg r
      | none => t
    else t

/-- The EEPROM cell that EEADRH and EEADR name (20_memory R88). No rule keeps EE_SIZE from being 0, and 00_scope R9 gives
`mod 0` no value; the cell is then the whole 16-bit address (DESIGN CHOICE, log 31). -/
def RefTarget.eeCell (cfg : Config) (t : RefTarget) : Nat := (t.eeadrh ++ t.eeadr).toNat % cfg.eeSize

/-- EECON1 as MOVF_EECON1_W reads it: WR is 1 while the write is busy (20_memory R88). -/
def RefTarget.eecon1Read (t : RefTarget) : Byte := if 0 < t.busyLeft then t.eecon1 ||| 0x02 else t.eecon1

/-- The core instructions (20_memory R88); the words are the fixture's own. `0x827F` starts the busy count whatever WREN
is: R88's parenthesis on WREN = 0 speaks of the cell only (DEDUCED, log 29). -/
def RefTarget.coreAction (cfg : Config) (t : RefTarget) (p : Word) : RefTarget :=
  if p = 0x0000 then t.nopAction cfg
  else if p &&& 0xFF00 = 0x0E00 then { t with w := p.setWidth 8 }
  else if p = 0x6EF8 then { t with tblptr := t.w ++ t.tblptr.setWidth 16 }
  else if p = 0x6EF7 then { t with tblptr := (t.tblptr >>> 16).setWidth 8 ++ t.w ++ t.tblptr.setWidth 8 }
  else if p = 0x6EF6 then { t with tblptr := (t.tblptr >>> 8).setWidth 16 ++ t.w }
  else if p = 0x6EF5 then { t with tablat := t.w }
  else if p = 0x6E74 then { t with eeadr := t.w }
  else if p = 0x6E75 then { t with eeadrh := t.w }
  else if p = 0x6E73 then { t with eedata := t.w }
  else if p = 0x8E7F then { t with eecon1 := t.eecon1 ||| 0x80 }
  else if p = 0x9E7F then { t with eecon1 := t.eecon1 &&& 0x7F }
  else if p = 0x8C7F then { t with eecon1 := t.eecon1 ||| 0x40 }
  else if p = 0x9C7F then { t with eecon1 := t.eecon1 &&& 0xBF }
  else if p = 0x847F then { t with eecon1 := t.eecon1 ||| 0x04 }
  else if p = 0x947F then { t with eecon1 := t.eecon1 &&& 0xFB }
  else if p = 0x807F then { t with eedata := targetByte t.ee (t.eeCell cfg) }
  else if p = 0x827F then
    { t with
      ee := if t.eecon1.getLsbD 2 then setTargetByte t.ee (t.eeCell cfg) t.eedata else t.ee
      busyLeft := cfg.eeBusyPolls }
  else if p = 0x5073 then { t with w := t.eedata }
  else if p = 0x507F then { t with w := t.eecon1Read, busyLeft := t.busyLeft - 1 }
  else { t with stopped := true }

/-- TBLWT: an erase-control register or the write latches (20_memory R90). The erase-control addresses are target
addresses, so the range from ERASE_CTRL_BASE wraps modulo `2^24` (DEDUCED from 00_scope R9, log 27). In a fixture whose
write buffer has no words the latch's index is the whole address (DESIGN CHOICE, log 31). -/
def RefTarget.tableWrite (cfg : Config) (t : RefTarget) (p : Word) : RefTarget :=
  let lo : Byte := p.setWidth 8
  let hi : Byte := (p >>> 8).setWidth 8
  let o := t.tblptr.toNat % (2 * t.wbufWords)
  if t.tblptr = cfg.eraseCtrlBase then { t with ectl0 := lo }
  else if t.tblptr = cfg.eraseCtrlBase + 1 then { t with ectl1 := lo }
  else if t.tblptr = cfg.eraseCtrlBase + 2 then { t with ectl2 := lo, nopCount := some 0 }
  else if o % 2 = 0 then { t with latch := setTargetByte (setTargetByte t.latch o lo) (o + 1) hi }
  else { t with latch := setTargetByte t.latch o hi }

/-- Commit the row that holds address `a`: programming only clears bits (20_memory R90). -/
def RefTarget.commit (t : RefTarget) (a : Nat) : RefTarget :=
  let row := a - a % (2 * t.wbufWords)
  { t with
    code := t.latch.foldl
      (fun m c => if row + c.1 < t.codeSize then setTargetByte m (row + c.1) (targetByte m (row + c.1) &&& c.2) else m)
      t.code
    latch := [] }

/-- The table writes (20_memory R90), the core instructions (R88), and a stop on a reserved command. Of equal codes the
first in this order is meant (DESIGN CHOICE, log 25). -/
def RefTarget.writeAction (cfg : Config) (t : RefTarget) (p : Word) : RefTarget :=
  let c := cfg.codes.icsp
  let a := t.tblptr.toNat
  if t.cmd = c.core then t.coreAction cfg p
  else if t.cmd = c.tblwt then t.tableWrite cfg p
  else if t.cmd = c.tblwtPostinc2 then
    let t1 := t.tableWrite cfg p
    { t1 with tblptr := t.tblptr + 2 }
  else if t.cmd = c.tblwtPostinc2Startp then
    let t1 := (t.tableWrite cfg p).commit a
    { t1 with tblptr := t.tblptr + 2 }
  else if t.cmd = c.tblwtStartp then
    if t.eecon1.getLsbD 6 ∧ 0x300000 ≤ a ∧ a ≤ 0x30000F then
      { t with
        cfgBytes := setTargetByte t.cfgBytes (a - 0x300000) (if a % 2 = 0 then p.setWidth 8 else (p >>> 8).setWidth 8) }
    else (t.tableWrite cfg p).commit a
  else { t with stopped := true }

/-- The level the fixture takes from PGD at a clock: the one the block drives, or any level where PGD is an input and
nobody drives it, as when READ_WORD follows a command of shape W (93 U21; log 13). -/
def RefTarget.hear (pgd : Line) (t : RefTarget) : Bool × RefTarget :=
  match pgd.dir with
  | .out => (pgd.lat, t)
  | .inp => (Config.freeLevel t.floats, { t with floats := t.floats + 1 })

/-- A PGC rising edge in PROG: four command bits, then sixteen payload clocks, which a read command ignores (20_memory
R87). -/
def RefTarget.clockIn (cfg : Config) (pgd : Line) (t : RefTarget) : RefTarget :=
  let t := if t.clocks = 0 ∨ t.clocks = 20 then { t with clocks := 0, cmd := 0, payload := 0 } else t
  if t.clocks < 4 then
    let (bit, t) := t.hear pgd
    let t := { t with cmd := t.cmd ||| ((BitVec.ofBool bit).setWidth 4 <<< t.clocks), clocks := t.clocks + 1 }
    if t.clocks = 4 ∧ isReadCode cfg.codes.icsp t.cmd then t.readAction cfg.codes.icsp else t
  else if isReadCode cfg.codes.icsp t.cmd then { t with clocks := t.clocks + 1 }
  else
    let (bit, t) := t.hear pgd
    let t := { t with
      payload := t.payload ||| ((BitVec.ofBool bit).setWidth 16 <<< (t.clocks - 4)), clocks := t.clocks + 1 }
    if t.clocks = 20 then t.writeAction cfg t.payload else t

/-- A PGC rising edge while MCLR is driven low outside PROG: a bit of the key, MSB first (20_memory R86). -/
def RefTarget.keyIn (pgd : Line) (t : RefTarget) : RefTarget :=
  let (bit, t) := t.hear pgd
  { t with key := (t.key <<< 1) ||| (BitVec.ofBool bit).setWidth 32, keyClocks := t.keyClocks + 1 }

/-- What the fixture does at a link event; `before` are the lines before it (20_memory R86, R87). -/
def RefTarget.onEvent (cfg : Config) (before : Lines) (e : LinkEvent) (t : RefTarget) : RefTarget :=
  let after := before.apply e
  let t := if after.mclr.drives false && !before.mclr.drives false then
      { t with prog := false, key := 0, keyClocks := 0 } else t
  match e with
  | .pin .pgc true =>
    if t.stopped || !before.pgc.drives false then t
    else if t.prog then t.clockIn cfg after.pgd
    else if after.mclr.drives false then t.keyIn after.pgd
    else t
  | .delay .tEnDone =>
    if !t.prog && t.keyClocks == 32 && t.key == cfg.magicKey && after.mclr.drives true then
      { t with prog := true, clocks := 0, cmd := 0, payload := 0, keyClocks := 0 } else t
  | .pin _ _ => t
  | .dir _ _ => t
  | .delay _ => t
  | .sample _ => t

/-- The level the fixture gives PGD: FLOAT_LEVEL outside PROG (20_memory R86), TABLAT during payload clocks
9 to 16 of a read (R87), and nothing it settles otherwise (93 U6). -/
def RefTarget.drive (cfg : Config) (t : RefTarget) : Option Bool :=
  if t.stopped then none
  else if !t.prog then some cfg.floatLevel
  else if isReadCode cfg.codes.icsp t.cmd ∧ 13 ≤ t.clocks then some (t.tablat.getLsbD (t.clocks - 13))
  else none

/-- Who answers the controller's samples: an oracle under no law, whose next answers are pending and whose
later ones are free (20_memory R64), or the reference target. -/
inductive Partner where
  | oracle (answers : List Bool)
  | reference (t : RefTarget)
deriving DecidableEq, Repr

/-- What a link event does to the partner: the oracle is under no law. -/
def Partner.onEvent (cfg : Config) (before : Lines) (e : LinkEvent) : Partner → Partner
  | .oracle answers => .oracle answers
  | .reference t => .reference (t.onEvent cfg before e)

end Sys2Proof.Machine
end

