-- ==== Sys2Proof/Machine/State.lean ====
section
/-! DEFINITION. Everything the block holds (10_state), the outside world it acts with, and the reasons a
step can stop. Plain data throughout. -/

namespace Sys2Proof.Machine

/-- The session states (10_state R24). -/
inductive Session where
  | idle | enteringKey | programming
deriving DecidableEq, Repr

/-- The identity states (10_state R25). -/
inductive IdentStatus where
  | unresolved | resolved | notFound
deriving DecidableEq, Repr

/-- The cause codes 0 to 7 (10_state R35, 60_exceptions R283); 8 to 15 are never written. -/
inductive Cause where
  | none | badop | state | ident | badarg | verify | nonblank | eeTimeout
deriving DecidableEq, Repr

/-- The progress phases 0 to 5 (10_state R37); 6 and 7 are never written. -/
inductive Phase where
  | none | erase | program | verify | read | blank
deriving DecidableEq, Repr

/-- The host registers that are stored as such (10_state R30 to R40). STATUS, PROGRESS, PINS and the
identity registers are views of other state (R34, R37, R38, R41). -/
structure HostRegs where
  cmd : Byte := 0
  arg0 : Addr := 0
  arg1 : Word := 0
  /-- VERIFY_EN bit 0, DONE_IE bit 1, PROG_IE bit 2. -/
  ctrl : BitVec 3 := 0
  done : Bool := false
  progEvt : Bool := false
  overrun : Bool := false
  accErr : Bool := false
  cause : Cause := .none
  faultAddr : Addr := 0
  faultExp : Word := 0
  faultAct : Word := 0
  result : Word := 0
  eePollMax : Word
  cfgMm : Byte := 0
deriving DecidableEq, Repr

/-- Where a running operation stands in its pseudocode (10_state R22), as what it has behind it: one action is a
link event, an assignment, a buffer write or a progress report (log 11). -/
structure Position where
  /-- How many actions it has performed. -/
  taken : Nat := 0
  /-- The bits it has sampled, newest first. -/
  sampled : List Bool := []
  /-- Of the actions performed, those that a resumed run has still to pass over (log 11). -/
  again : Nat := 0
  /-- Of the bits sampled, those that a resumed run has still to take again, oldest first. -/
  past : List Bool := []
deriving DecidableEq, Repr

/-- The sequencer: busy, the latched operation and the position in its pseudocode, where `none` is idle (10_state
R22); the operand latches (R23); and the progress and poll state (R29). -/
structure Sequencer where
  busy : Bool := false
  op : Byte := 0
  position : Option Position := Option.none
  arg0 : Addr := 0
  arg1 : Word := 0
  ctrl : BitVec 3 := 0
  pollMax : Word := 0
  lastPct : Option (BitVec 7) := Option.none
  phase : Phase := .none
  polls : Word := 0
deriving DecidableEq, Repr

/-- Identity and geometry latches (10_state R25, R26). -/
structure Identity where
  status : IdentStatus := .unresolved
  devid : Word := 0
  rev : BitVec 5 := 0
  index : Byte := 0xFF
  codeSize : Addr := 0
  eraseBlocks : BitVec 4 := 0
  wbufWords : BitVec 7 := 0
deriving DecidableEq, Repr

/-- The link side: the lines (10_state R21), the trace of link events, newest first (20_memory R64), and the
model's own fields: the shifter's receive register (log 7), the partner and the counter of free samples
(log 4). -/
structure LinkSide where
  lines : Lines := {}
  trace : List LinkEvent := []
  rx : Word := 0
  partner : Partner := .oracle []
  draws : Nat := 0
deriving DecidableEq, Repr

/-- What the host or the platform can do to the block (70_reset R332). The width is in bytes. -/
inductive HostAct where
  | read (offset : HostOffset) (width : Nat)
  | write (offset : HostOffset) (width : Nat) (value : HostWord)
  /-- The reset input (70_reset R320). -/
  | reset
deriving DecidableEq, Repr

/-- A pending input. `gap = none`: it waits until no operation runs. `gap = some n`: it arrives after `n`
more actions of the running operation, or at once if none runs (logs 5, 11). -/
structure Input where
  gap : Option Nat := Option.none
  act : HostAct
deriving DecidableEq, Repr

/-- The host bus: the inputs still to come, oldest first; what the reads returned, newest first; and the
counter of free values (logs 5, 9). -/
structure HostBus where
  inputs : List Input := []
  reads : List (HostOffset × HostWord) := []
  draws : Nat := 0
deriving DecidableEq, Repr

/-- The machine's state. `cfg` is fixed: no step writes it (log 1). `txns` holds link words placed for the
next steps (log 6). -/
structure State where
  cfg : Config
  regs : HostRegs
  seq : Sequencer
  session : Session
  ident : Identity
  mem : Memory
  link : LinkSide
  bus : HostBus
  txns : List LinkWord
deriving DecidableEq, Repr

/-- Why the machine stops with a fault. -/
inductive Fault where
  /-- A buffer entry that nothing has written was read, by the host while no operation runs or by an
  operation; the address is the entry's host offset (10_state R27, conflict C23). Safe: the model stops
  where the block would use an unspecified value. -/
  | unwrittenEntry (addr : Nat)
deriving DecidableEq, Repr

/-- Why the machine has no meaning for what it is asked. -/
inductive Refusal where
  /-- An instruction without a meaning: no arm of `exec` raises it. Safe. -/
  | notModelled (mnemonic : String)
  /-- A host access that is not 32 bits wide or not aligned: "the model has no step for it" (20_memory R61).
  Raised by the host bus operations. Safe. -/
  | undefinedAccess (offset : HostOffset) (width : Nat)
  /-- A word placed as a core instruction word that is none of 30_encoding R108 (log 20). Raised by `step`.
  Safe. -/
  | unknownCoreWord (w : Word)
deriving DecidableEq, Repr

/-- The block after reset, for a configuration (70_reset R320). -/
def State.resetFor (cfg : Config) : State where
  cfg := cfg
  regs := { eePollMax := cfg.dev.eePollMaxReset }
  seq := {}
  session := .idle
  ident := {}
  mem := []
  link := {}
  bus := {}
  txns := []

/-- The machine right after reset (70_reset R320), with nothing pending on the host bus. -/
def State.reset : State := State.resetFor Config.standard

end Sys2Proof.Machine
end

