-- ==== Sys2Proof/Machine/Flags.lean ====
section
/-! DEFINITION. Every flag and status view the specification computes: the STATUS bits (10_state R34), the
register words that are views of other state (R37, R38, R41), the IRQ output (60_exceptions R290), the
progress reporter's change rule (46_program_verify R211), and the W1C write of STATUS. -/

namespace Sys2Proof.Machine

/-- STATUS.SESSION (10_state R24). -/
def Session.code : Session → BitVec 2
  | .idle => 0
  | .enteringKey => 1
  | .programming => 2

/-- STATUS.IDENT (10_state R25). -/
def IdentStatus.code : IdentStatus → BitVec 2
  | .unresolved => 0
  | .resolved => 1
  | .notFound => 2

/-- CAUSE.CODE (10_state R35). -/
def Cause.code : Cause → BitVec 4
  | .none => 0
  | .badop => 1
  | .state => 2
  | .ident => 3
  | .badarg => 4
  | .verify => 5
  | .nonblank => 6
  | .eeTimeout => 7

/-- PROGRESS.PHASE (10_state R37). -/
def Phase.code : Phase → BitVec 3
  | .none => 0
  | .erase => 1
  | .program => 2
  | .verify => 3
  | .read => 4
  | .blank => 5

/-- A field of a host word, its bit 0 at bit `at_`. -/
def fieldAt {n : Nat} (v : BitVec n) (at_ : Nat) : HostWord := v.setWidth 32 <<< at_

/-- A one-bit field of a host word. -/
def flagAt (b : Bool) (at_ : Nat) : HostWord := fieldAt (BitVec.ofBool b) at_

/-- STATUS.FAULT: "reads 1 exactly when CAUSE.CODE ≠ 0" (10_state R34). -/
def faultFlag (r : HostRegs) : Bool := r.cause != .none

/-- STATUS.CFG_MISMATCH: "reads 1 exactly when CFG_MM.SLOT ≠ 0" (10_state R34). -/
def cfgMismatchFlag (r : HostRegs) : Bool := r.cfgMm != 0

/-- The STATUS register (10_state R30, R34). -/
def statusWord (s : State) : HostWord :=
  flagAt s.seq.busy 0 ||| fieldAt s.session.code 1 ||| fieldAt s.ident.status.code 3 ||| flagAt s.regs.done 5 |||
  flagAt (faultFlag s.regs) 6 ||| flagAt (cfgMismatchFlag s.regs) 7 ||| flagAt s.regs.progEvt 8 |||
  flagAt s.regs.overrun 9 ||| flagAt s.regs.accErr 10

/-- The PROGRESS register: PCT, VALID, PHASE (10_state R29, R37; log 16). -/
def progressWord (q : Sequencer) : HostWord :=
  match q.lastPct with
  | none => fieldAt q.phase.code 8
  | some p => fieldAt p 0 ||| flagAt true 7 ||| fieldAt q.phase.code 8

/-- The IDINFO register (10_state R38). -/
def idinfoWord (i : Identity) : HostWord := fieldAt i.rev 0 ||| fieldAt i.index 8

/-- The GEOM register (10_state R38). -/
def geomWord (i : Identity) : HostWord := fieldAt i.eraseBlocks 0 ||| fieldAt i.wbufWords 8

/-- The PINS register (10_state R41). -/
def pinsWord (l : Lines) : HostWord :=
  flagAt (l.pgc.dir == .out) 0 ||| flagAt l.pgc.lat 1 ||| flagAt (l.pgd.dir == .out) 2 ||| flagAt l.pgd.lat 3 |||
  flagAt (l.mclr.dir == .out) 4 ||| flagAt l.mclr.lat 5

/-- CTRL.VERIFY_EN (10_state R33). -/
def verifyEn (ctrl : BitVec 3) : Bool := ctrl.getLsbD 0

/-- CTRL.DONE_IE (10_state R33). -/
def doneIe (ctrl : BitVec 3) : Bool := ctrl.getLsbD 1

/-- CTRL.PROG_IE (10_state R33). -/
def progIe (ctrl : BitVec 3) : Bool := ctrl.getLsbD 2

/-- The IRQ output: a level computed from the live CTRL and STATUS (60_exceptions R290). -/
def irq (r : HostRegs) : Bool := (r.done && doneIe r.ctrl) || (r.progEvt && progIe r.ctrl)

/-- A host write of STATUS: a 1 clears DONE, PROG_EVT, OVERRUN or ACC_ERR, and no other bit has effect
(10_state R30, R34). It is also how the host acknowledges a completion (60_exceptions R288). -/
def HostRegs.w1c (r : HostRegs) (v : HostWord) : HostRegs :=
  { r with
    done := r.done && !v.getLsbD 5
    progEvt := r.progEvt && !v.getLsbD 8
    overrun := r.overrun && !v.getLsbD 9
    accErr := r.accErr && !v.getLsbD 10 }

/-- Whether `emit Progress(ph, p)` reports: the phase changes, or the value does (46_program_verify R211). -/
def progressChanges (q : Sequencer) (ph : Phase) (p : BitVec 7) : Bool := ph != q.phase || q.lastPct != some p

/-- `p = (done * 200) div code_size` (46_program_verify R211). -/
def walkPct (doneWords : Nat) (codeSize : Addr) : BitVec 7 := BitVec.ofNat 7 (doneWords * 200 / codeSize.toNat)

/-- `((j + 1) * 100) div K`, with `j + 1` regions done (45_erase R192). -/
def erasePct (doneRegions total : Nat) : BitVec 7 := BitVec.ofNat 7 (doneRegions * 100 / total)

/-- The CFG_MM bit of slot `i` (48_config R258). -/
def slotBit (i : Nat) : Byte := 1 <<< i

end Sys2Proof.Machine
end

