-- ==== Sys2Proof/Machine/Operands.lean ====
section
/-! DEFINITION. Every operand form: the fields of the operand latches (30_encoding R101, R102), the regions
and scopes of erase (R112, R113), the geometry an operation walks (44_identity R174), the issue check's
operands (60_exceptions R281, R282), and where a host offset leads (20_memory R60 to R62). -/

namespace Sys2Proof.Machine

/-- `n = arg0[3:0]` (41_signal R137, R140). -/
def Sequencer.nibble (q : Sequencer) : Nibble := q.arg0.setWidth 4

/-- `w = arg1[15:0]` (41_signal R138, R140). -/
def Sequencer.word (q : Sequencer) : Word := q.arg1

/-- `A = arg0[23:0]` (43_addressing R162). -/
def Sequencer.address (q : Sequencer) : Addr := q.arg0

/-- `o = arg0[7:0]` (43_addressing R163). -/
def Sequencer.offset (q : Sequencer) : Byte := q.arg0.setWidth 8

/-- `r = arg0[3:0]` (45_erase R191). -/
def Sequencer.region (q : Sequencer) : Nat := (q.arg0.setWidth 4).toNat

/-- `s = arg0[1:0]` (45_erase R192). -/
def Sequencer.scope (q : Sequencer) : BitVec 2 := q.arg0.setWidth 2

/-- The poll cap `max(poll_max, 1)` (47_eeprom R241). -/
def Sequencer.pollCap (q : Sequencer) : Nat := max q.pollMax.toNat 1

/-- `n_words = code_size / 2` (10_state R26). -/
def Identity.nWords (i : Identity) : Nat := i.codeSize.toNat / 2

/-- `n_chunks = n_words / wbuf_words` (10_state R26). -/
def Identity.nChunks (i : Identity) : Nat := i.nWords / i.wbufWords.toNat

/-- The active length of CODE_IMG (10_state R27). -/
def Identity.activeLength (i : Identity) : Nat := if i.status = .resolved then i.nWords else 0

/-- Whether an ERASE_BLOCK region is legal (45_erase R191, 44_identity R174). -/
def Identity.regionLegal (i : Identity) (r : Nat) : Bool :=
  decide (r ≤ 10) && (decide (r < 3) || decide (r - 3 < i.eraseBlocks.toNat))

/-- The code-block regions `3 + k` (45_erase R192). -/
def Identity.codeRegions (i : Identity) : List Nat := (List.range i.eraseBlocks.toNat).map (3 + ·)

/-- The regions of a bulk-erase scope, in order (30_encoding R113, 45_erase R192). -/
def Identity.scopeRegions (i : Identity) (scope : BitVec 2) : List Nat :=
  if scope = 0 then [1]
  else if scope = 1 then i.codeRegions
  else if scope = 2 then [2]
  else [0, 1] ++ i.codeRegions

/-- `REGION_CODE[r]` (30_encoding R112). -/
def regionSelector (cfg : Config) (r : Nat) : Addr := cfg.dev.regionCode.toList.getD r 0

/-- `Lookup(m)` from index `k` on (44_identity R173). -/
def lookupFrom (m : Word) (k : Nat) : List CatalogEntry → Option (Nat × CatalogEntry)
  | [] => none
  | e :: es => if e.maskedId = m then some (k, e) else lookupFrom m (k + 1) es

/-- `Lookup(m)` (44_identity R173). -/
def lookup (m : Word) (catalog : List CatalogEntry) : Option (Nat × CatalogEntry) := lookupFrom m 0 catalog

/-- The masked ID (30_encoding R111). -/
def maskedId (d : Word) : Word := d &&& 0xFFE0

/-- The revision (30_encoding R111). -/
def revision (d : Word) : BitVec 5 := d.setWidth 5

/-- `b << 8 | b`, the payload of an erase-control write (30_encoding R107). -/
def doubled (b : Byte) : Word := b ++ b

/-- The payload of a high configuration byte (30_encoding R107). -/
def cfgHighPayload (cfg : Config) (hi : Byte) : Word :=
  match cfg.cfgHiPayload with
  | .msb => hi ++ (0 : Byte)
  | .lsb => hi.setWidth 16

/-- The byte address of configuration slot `i` (48_config R259). -/
def slotAddr (i : Nat) : Addr := 0x300000 + BitVec.ofNat 24 (2 * i)

/-- What the issue check distinguishes (60_exceptions R281, R282). -/
inductive OpClass where
  | reserved | enter | exit | identify | raw | engine | eraseBlock
deriving DecidableEq, Repr

/-- The session an operation requires (60_exceptions R281). -/
def OpClass.session : OpClass → Session
  | .enter => .idle
  | .reserved | .exit | .identify | .raw | .engine | .eraseBlock => .programming

/-- The engine operations (44_identity R175). -/
def OpClass.isEngine : OpClass → Bool
  | .engine | .eraseBlock => true
  | .reserved | .enter | .exit | .identify | .raw => false

/-- `IssueCheck(op)`, the first cause that applies, on the latched operands (60_exceptions R282). -/
def issueCheck (k : OpClass) (s : State) : Cause :=
  if k = .reserved then .badop
  else if s.session ≠ k.session then .state
  else if k = .identify ∧ s.ident.status ≠ .unresolved then .state
  else if k.isEngine ∧ s.ident.status = .unresolved then .state
  else if k.isEngine ∧ s.ident.status = .notFound then .ident
  else if k = .eraseBlock ∧ !s.ident.regionLegal s.seq.region then .badarg
  else .none

/-- The registers of 10_state R30, in the order of their offsets. -/
inductive Reg where
  | cmd | arg0 | arg1 | ctrl | status | cause | faultAddr | faultExp | faultAct | result | progress | devid | idinfo
  | codeSize | geom | eePollMax | cfgMm | pins
deriving DecidableEq, Repr

/-- The register at word offset `n` (10_state R30). -/
def regAt : Nat → Option Reg
  | 0x00 => some .cmd
  | 0x01 => some .arg0
  | 0x02 => some .arg1
  | 0x03 => some .ctrl
  | 0x04 => some .status
  | 0x05 => some .cause
  | 0x06 => some .faultAddr
  | 0x07 => some .faultExp
  | 0x08 => some .faultAct
  | 0x09 => some .result
  | 0x0A => some .progress
  | 0x0B => some .devid
  | 0x0C => some .idinfo
  | 0x0D => some .codeSize
  | 0x0E => some .geom
  | 0x0F => some .eePollMax
  | 0x10 => some .cfgMm
  | 0x11 => some .pins
  | _ => none

/-- Where an aligned host offset leads (20_memory R60, R61, R62). -/
inductive Place where
  | reg (r : Reg)
  | entry (w : Window) (i : Nat)
  /-- A window entry beyond its buffer. -/
  | beyond (w : Window)
  | unmapped
deriving DecidableEq, Repr

/-- The entry of a window at a host byte address, if the window spans it. -/
def Window.entryAt (cfg : Config) (w : Window) (a : Nat) : Option Place :=
  if w.base ≤ a ∧ a < w.base + 4 * w.span then
    let i := (a - w.base) / 4
    some (if i < w.backed cfg then .entry w i else .beyond w)
  else none

/-- The place of a host byte address (20_memory R60 to R62). -/
def placeAt (cfg : Config) (a : Nat) : Place :=
  match regAt (a / 4) with
  | some r => .reg r
  | none =>
    match [Window.cfgImg, .cfgRb, .uidBuf, .eeImg, .codeImg].findSome? fun w => w.entryAt cfg a with
    | some p => p
    | none => .unmapped

/-- Whether a host access is one the block defines: 32 bits wide and aligned (20_memory R61). -/
def accessDefined (offset : HostOffset) (width : Nat) : Bool := width == 4 && offset.toNat % 4 == 0

end Sys2Proof.Machine
end

