-- ==== Sys2Proof/Machine/Ops.lean ====
section
/-! DEFINITION. The named operations an operation's pseudocode is made of (00_scope R10): its actions, each with
the host accesses that arrive after it; emitting link events and sampling; the local buffers; progress; issue,
raising a fault, completion, and reset. -/

namespace Sys2Proof.Machine

/-- How a pseudocode run stops before its end: the operation is over (a `raise` has completed it, or a reset
has ended it) and the state is the next one, or the model itself stops. -/
inductive Halt where
  | ended
  | fault (f : Fault)
  | refused (r : Refusal)
deriving DecidableEq, Repr

/-- A piece of pseudocode: it answers a value and the state after it, or halts with the state it leaves. -/
abbrev Op (α : Type) := EStateM Halt State α

/-- Change the state. -/
def update (f : State → State) : Op Unit := fun s => .ok () (f s)

/-- Look at the state. -/
def ask {α : Type} (f : State → α) : Op α := fun s => .ok (f s) s

/-- Stop the run. -/
def halt {α : Type} (h : Halt) : Op α := fun s => .error h s

/-! ## Completion, fault, reset -/

/-- Completion of every operation (60_exceptions R285); the sequencer returns to idle (10_state R22). -/
def State.complete (s : State) : State :=
  { s with seq := { s.seq with busy := false, position := none }, regs := { s.regs with done := true } }

/-- The four registers a fault writes (60_exceptions R286). -/
def State.withCause (s : State) (c : Cause) (a : Addr) (e v : Word) : State :=
  { s with regs := { s.regs with cause := c, faultAddr := a, faultExp := e, faultAct := v } }

/-- `raise Fault(c, a, e, v)`: the block's exception entry. It saves nothing but the four registers, and it
ends and completes the running operation (60_exceptions R286, R287). The way back is the host's W1C write of
STATUS, `HostRegs.w1c` (R288). -/
def raise {α : Type} (c : Cause) (a : Addr) (e v : Word) : Op α :=
  fun s => .error .ended (s.withCause c a e v).complete

/-- Reset (70_reset R320, R322, R323): every piece of the block's state takes its reset value and no link
event is emitted. The outside world stays: the configuration, the partner and its free samples, the host's
pending inputs and what it has read, and the trace of the events that were emitted (log 15). -/
def State.hardReset (s : State) : State :=
  { State.resetFor s.cfg with
    link := { trace := s.link.trace, partner := s.link.partner, draws := s.link.draws }
    bus := s.bus }

/-! ## The host's reads and writes -/

/-- A register as the host reads it (10_state R30). -/
def regWord (s : State) : Reg → HostWord
  | .cmd => fieldAt s.regs.cmd 0
  | .arg0 => fieldAt s.regs.arg0 0
  | .arg1 => fieldAt s.regs.arg1 0
  | .ctrl => fieldAt s.regs.ctrl 0
  | .status => statusWord s
  | .cause => fieldAt s.regs.cause.code 0
  | .faultAddr => fieldAt s.regs.faultAddr 0
  | .faultExp => fieldAt s.regs.faultExp 0
  | .faultAct => fieldAt s.regs.faultAct 0
  | .result => fieldAt s.regs.result 0
  | .progress => progressWord s.seq
  | .devid => fieldAt s.ident.devid 0
  | .idinfo => idinfoWord s.ident
  | .codeSize => fieldAt s.ident.codeSize 0
  | .geom => geomWord s.ident
  | .eePollMax => fieldAt s.regs.eePollMax 0
  | .cfgMm => fieldAt s.regs.cfgMm 0
  | .pins => pinsWord s.link.lines

/-- A buffer entry as the host reads it; `none` where nothing wrote it (20_memory R62, 10_state R27). -/
def entryWord (m : Memory) (w : Window) (i : Nat) : Option HostWord :=
  match w with
  | .cfgImg | .codeImg => (m.img w i).map fun e => fieldAt e.value 0 ||| flagAt e.present 16
  | .cfgRb => (m.entry16 w i).map fun v => fieldAt v 0
  | .uidBuf | .eeImg => (m.entry8 w i).map fun v => fieldAt v 0

/-- The bits of a window's entries; the others read 0 (20_memory R62). -/
def Window.mask : Window → HostWord
  | .cfgImg | .codeImg => 0x1FFFF
  | .cfgRb => 0xFFFF
  | .uidBuf | .eeImg => 0xFF

/-- Give the host a read's value. -/
def State.gotRead (s : State) (offset : HostOffset) (v : HostWord) : State :=
  { s with bus := { s.bus with reads := (offset, v) :: s.bus.reads } }

/-- Set STATUS.OVERRUN (10_state R31). -/
def State.setOverrun (s : State) : State := { s with regs := { s.regs with overrun := true } }

/-- Set STATUS.ACC_ERR (10_state R34). -/
def State.setAccErr (s : State) : State := { s with regs := { s.regs with accErr := true } }

/-- A host write of STATUS (10_state R34). -/
def State.writeStatus (s : State) (v : HostWord) : State := { s with regs := s.regs.w1c v }

/-- A host write of a register other than CMD while no operation runs (10_state R30 to R33, R39): read-only
registers ignore it, unlisted bits are dropped. -/
def State.writeReg (s : State) (r : Reg) (v : HostWord) : State :=
  match r with
  | .arg0 => { s with regs := { s.regs with arg0 := v.setWidth 24 } }
  | .arg1 => { s with regs := { s.regs with arg1 := v.setWidth 16 } }
  | .ctrl => { s with regs := { s.regs with ctrl := v.setWidth 3 } }
  | .eePollMax => { s with regs := { s.regs with eePollMax := v.setWidth 16 } }
  | .status => s.writeStatus v
  | .cmd | .cause | .faultAddr | .faultExp | .faultAct | .result | .progress | .devid | .idinfo | .codeSize | .geom
  | .cfgMm | .pins => s

/-- A host write of a buffer entry while no operation runs (20_memory R62): value and present together. -/
def State.writeEntry (s : State) (w : Window) (i : Nat) (v : HostWord) : State :=
  match w with
  | .cfgImg | .codeImg => { s with mem := s.mem.setImg w i { value := v.setWidth 16, present := v.getLsbD 16 } }
  | .eeImg => { s with mem := s.mem.setEntry8 w i (v.setWidth 8) }
  | .cfgRb | .uidBuf => s

/-- A host write other than of CMD while no operation runs (20_memory R60, R61, R62). -/
def State.hostWrite (s : State) (offset : HostOffset) (v : HostWord) : State :=
  match placeAt s.cfg offset.toNat with
  | .reg r => s.writeReg r v
  | .entry w i => s.writeEntry w i v
  | .beyond _ => s.setAccErr
  | .unmapped => s

/-- A host read while no operation runs (20_memory R60, R61): an entry nothing wrote is a fault of the model
(10_state R27). -/
def State.hostRead (s : State) (offset : HostOffset) : Except Fault State :=
  match placeAt s.cfg offset.toNat with
  | .reg r => .ok (s.gotRead offset (regWord s r))
  | .entry w i =>
    match entryWord s.mem w i with
    | some v => .ok (s.gotRead offset v)
    | none => .error (.unwrittenEntry (w.addr i))
  | .beyond _ => .ok (s.gotRead offset 0)
  | .unmapped => .ok (s.gotRead offset 0)

/-- A host read while an operation runs: a register gives its current value, a buffer entry any value of its
bits (20_memory R63; log 9). Of an entry that nothing has written, which 10_state R27 makes a fault and R63 any value,
such a read is any value too (DESIGN CHOICE, log 9). -/
def State.busyRead (s : State) (offset : HostOffset) : State :=
  match placeAt s.cfg offset.toNat with
  | .reg r => s.gotRead offset (regWord s r)
  | .entry w _ =>
    { s with bus := { s.bus with
        reads := (offset, Config.freeEntry s.bus.draws &&& w.mask) :: s.bus.reads, draws := s.bus.draws + 1 } }
  | .beyond _ => s.gotRead offset 0
  | .unmapped => s.gotRead offset 0

/-- A host write while an operation runs: STATUS applies its W1C bits, CMD sets OVERRUN, any other write is
ignored and sets ACC_ERR (20_memory R63; log 10). -/
def State.busyWrite (s : State) (offset : HostOffset) (v : HostWord) : State :=
  match placeAt s.cfg offset.toNat with
  | .reg .status => s.writeStatus v
  | .reg .cmd => s.setOverrun
  | _ => s.setAccErr

/-- What the outside does while an operation runs (20_memory R61, R63, 70_reset R322). -/
def busyAct : HostAct → Op Unit
  | .read offset width => fun s =>
    if accessDefined offset width then .ok () (s.busyRead offset)
    else .error (.refused (.undefinedAccess offset width)) s
  | .write offset width v => fun s =>
    if accessDefined offset width then .ok () (s.busyWrite offset v)
    else .error (.refused (.undefinedAccess offset width)) s
  | .reset => fun s => .error .ended s.hardReset

/-! ## Actions -/

/-- Set the pending inputs. -/
def State.withInputs (s : State) (inputs : List Input) : State := { s with bus := { s.bus with inputs := inputs } }

/-- One action passes: an input that waits for actions of the running operation comes one nearer (log 5). -/
def State.tick (s : State) : State :=
  match s.bus.inputs with
  | { gap := some (n + 1), act := a } :: rest => s.withInputs ({ gap := some n, act := a } :: rest)
  | _ => s

/-- Serve the inputs at the head of the list that are due. -/
def serveDue : List Input → Op Unit
  | { gap := some 0, act := a } :: rest => do
    update fun s => s.withInputs rest
    busyAct a
    serveDue rest
  | _ => pure ()

/-- Between two actions of a running operation the host's due accesses take place (20_memory R63, R64, R76;
log 11). -/
def hostWindow : Op Unit := fun s => if s.seq.busy then serveDue s.bus.inputs s else .ok () s

/-- Whether the run is passing over actions that its operation has performed already. -/
def Sequencer.replaying (q : Sequencer) : Bool :=
  match q.position with
  | some p => p.again != 0
  | none => false

/-- The position one action further on, with the bits that the action sampled. -/
def Position.forth (p : Position) (bits : List Bool) : Position :=
  { p with taken := p.taken + 1, sampled := bits ++ p.sampled }

/-- The sequencer one action further on; an idle one has no position to move (10_state R22). -/
def Sequencer.forth (q : Sequencer) (bits : List Bool) : Sequencer :=
  { q with position := q.position.map fun p => p.forth bits }

/-- One action further on. -/
def State.forth (s : State) (bits : List Bool) : State := { s with seq := s.seq.forth bits }

/-- One performed action, and the bits it took, passed over. -/
def State.passOver (s : State) : State :=
  { s with seq := { s.seq with position := s.seq.position.map fun p => { p with again := p.again - 1 } } }

/-- An action of the pseudocode: its effect, then what the host does before the next one. -/
def act (f : State → State) : Op Unit := fun s =>
  if s.seq.replaying then .ok () s.passOver else hostWindow (f s).tick

/-- An action that assigns to the block's state. -/
def assign (f : State → State) : Op Unit := act fun s => (f s).forth []

/-! ## Link events -/

/-- An event's effect on the link side (20_memory R64). -/
def LinkSide.observe (cfg : Config) (e : LinkEvent) (l : LinkSide) : LinkSide :=
  { l with lines := l.lines.apply e, trace := e :: l.trace, partner := l.partner.onEvent cfg l.lines e }

/-- An event's effect on the state. -/
def State.record (s : State) (e : LinkEvent) : State :=
  { s with link := s.link.observe s.cfg e, seq := s.seq.forth (samplesOf [e]) }

/-- A sequence of events' effect on the state, with no host access between them. -/
def State.recordAll (s : State) (es : List LinkEvent) : State := es.foldl State.record s

/-- Emit one link event; "each event takes effect before the next event begins" (20_memory R64). -/
def emit (e : LinkEvent) : Op Unit := act fun s => s.record e

/-- Emit a sequence of link events. -/
def emitAll : List LinkEvent → Op Unit
  | [] => pure ()
  | e :: es => do
    emit e
    emitAll es

/-- The bit the next PGD sample reads: the oracle's next answer, the reference target's level, or a free
value (20_memory R64; log 4). -/
def LinkSide.draw (cfg : Config) (l : LinkSide) : Bool × LinkSide :=
  match l.partner with
  | .oracle (b :: answers) => (b, { l with partner := .oracle answers })
  | .oracle [] => (Config.freeBit l.draws, { l with draws := l.draws + 1 })
  | .reference t =>
    match t.drive cfg with
    | some b => (b, l)
    | none => (Config.freeBit l.draws, { l with draws := l.draws + 1 })

/-- Take that bit. -/
def drawBit : Op Bool := fun s => .ok (s.link.draw s.cfg).1 { s with link := (s.link.draw s.cfg).2 }

/-- The bit that a sample passed over took. -/
def takeAgain : Op Bool := fun s =>
  match s.seq.position.map Position.past with
  | some (b :: past) =>
    .ok b { s with seq := { s.seq with position := s.seq.position.map fun p => { p with past := past } } }
  | _ => .ok false s

/-- The bit of the sample that comes now. -/
def sampledBit : Op Bool := fun s => if s.seq.replaying then takeAgain s else drawBit s

/-- `Sample(PGD)` (20_memory R64). -/
def sample : Op Bool := do
  let b ← sampledBit
  emit (.sample b)
  return b

/-- `InCell()` (41_signal R131). -/
def inCell : Op Bool := do
  emitAll inCellLeadEvents
  let b ← sample
  emitAll inCellTailEvents
  return b

/-- `n` input cells, in order. -/
def inBits : Nat → Op (List Bool)
  | 0 => pure []
  | n + 1 => do
    let b ← inCell
    let bs ← inBits n
    return b :: bs

/-! ## Transactions -/

/-- `SendCmd(c)` (41_signal R132). -/
def sendCmd (c : Nibble) : Op Unit := emitAll (sendCmdEvents c)

/-- `SendWord(w)` (41_signal R133). -/
def sendWord (w : Word) : Op Unit := emitAll (sendWordEvents w)

/-- `SendInsn(c, w)` (41_signal R135). -/
def sendInsn (c : Nibble) (w : Word) : Op Unit := emitAll (sendInsnEvents c w)

/-- Put a word into the receive register (log 7). -/
def State.setRx (s : State) (w : Word) : State := { s with link := { s.link with rx := w } }

/-- The receive register keeps a word that is received now; one received before the position is in it already
(log 7). -/
def keepRx (w : Word) : Op Unit := fun s => .ok () (if s.seq.replaying then s else s.setRx w)

/-- `ReadWord()` (41_signal R134); the receive register keeps the word (log 7). -/
def readWord : Op Word := do
  emitAll readLeadEvents
  let bs ← inBits 8
  emitAll readTailEvents
  let w : Word := (byteOfBits bs).setWidth 16
  keepRx w
  return w

/-- `ReadTxn(c)` (41_signal R136). -/
def readTxn (c : Nibble) : Op Byte := do
  sendCmd c
  let w ← readWord
  return w.setWidth 8

/-- A CORE transaction with the core word `f` picks (30_encoding R108). -/
def sendCore (f : CoreWords → Word) : Op Unit := do
  let c ← ask fun s => s.cfg.codes
  sendInsn c.icsp.core (f c.core)

/-- A write transaction with the command `f` picks (30_encoding R104). -/
def sendIcsp (f : IcspCodes → Nibble) (p : Word) : Op Unit := do
  let c ← ask fun s => s.cfg.codes.icsp
  sendInsn (f c) p

/-- A read transaction with the command `f` picks (30_encoding R104). -/
def readIcsp (f : IcspCodes → Nibble) : Op Byte := do
  let c ← ask fun s => s.cfg.codes.icsp
  readTxn (f c)

/-- `ProgPulse()` (46_program_verify R210). -/
def progPulse : Op Unit := do
  let cfg ← ask State.cfg
  emitAll (progPulseEvents cfg)

/-- A start-programming write "and the controller follows it with ProgPulse" (30_encoding R124, R125). -/
def sendStartp (f : IcspCodes → Nibble) (p : Word) : Op Unit := do
  sendIcsp f p
  progPulse

/-- `GotoAddress(A)` (43_addressing R160). -/
def gotoAddress (a : Addr) : Op Unit := do
  let c ← ask fun s => s.cfg.codes
  emitAll (gotoAddressEvents c a)

/-- `GotoShort(o)` (43_addressing R161). -/
def gotoShort (o : Byte) : Op Unit := do
  let c ← ask fun s => s.cfg.codes
  emitAll (gotoShortEvents c o)

/-! ## Loops, buffers, progress -/

/-- `for i in start .. start + n - 1`. -/
def forUp (f : Nat → Op Unit) : (n : Nat) → (start : Nat) → Op Unit
  | 0, _ => pure ()
  | n + 1, start => do
    f start
    forUp f n (start + 1)

/-- `MemRead(S, i, 17)`: reading an entry nothing wrote is a fault of the model (10_state R27). -/
def memReadImg (w : Window) (i : Nat) : Op ImgEntry := fun s =>
  match s.mem.img w i with
  | some e => .ok e s
  | none => .error (.fault (.unwrittenEntry (w.addr i))) s

/-- `MemRead(S, i, 8)`. -/
def memRead8 (w : Window) (i : Nat) : Op Byte := fun s =>
  match s.mem.entry8 w i with
  | some v => .ok v s
  | none => .error (.fault (.unwrittenEntry (w.addr i))) s

/-- `MemWrite(S, i, 17, e)` (20_memory R65). -/
def memWriteImg (w : Window) (i : Nat) (e : ImgEntry) : Op Unit := assign fun s => { s with mem := s.mem.setImg w i e }

/-- `MemWrite(S, i, 16, v)`. -/
def memWrite16 (w : Window) (i : Nat) (v : Word) : Op Unit := assign fun s => { s with mem := s.mem.setEntry16 w i v }

/-- `MemWrite(S, i, 8, v)`. -/
def memWrite8 (w : Window) (i : Nat) (v : Byte) : Op Unit := assign fun s => { s with mem := s.mem.setEntry8 w i v }

/-- `emit Progress(ph, p)` (46_program_verify R211). -/
def State.reportProgress (s : State) (ph : Phase) (p : BitVec 7) : State :=
  if progressChanges s.seq ph p then
    { s with seq := { s.seq with lastPct := some p, phase := ph }, regs := { s.regs with progEvt := true } }
  else s

/-- `emit Progress(ph, p)` as an action of a pseudocode run. -/
def emitProgress (ph : Phase) (p : BitVec 7) : Op Unit := assign fun s => s.reportProgress ph p

/-- Write CFG_MM (10_state R40). -/
def State.setCfgMm (s : State) (v : Byte) : State := { s with regs := { s.regs with cfgMm := v } }

/-! ## Issue -/

/-- Acceptance: the opcode and the operands are latched, the results of the last operation are cleared, and
`busy` is 1 with the pseudocode all ahead (60_exceptions R280, 10_state R22, R23). -/
def State.accept (s : State) (op : Byte) : State :=
  { s with
    regs := { s.regs with
      cmd := op, cause := .none, faultAddr := 0, faultExp := 0, faultAct := 0, result := 0 }
    seq :=
      { busy := true, op := op, position := some {}, arg0 := s.regs.arg0, arg1 := s.regs.arg1, ctrl := s.regs.ctrl
        pollMax := s.regs.eePollMax, lastPct := none, phase := .none, polls := 0 } }

/-- How a pseudocode run ends the step: it completes the operation (60_exceptions R280, R285), or a `raise`
or a reset has ended it, or the model stops. -/
def finish : EStateM.Result Halt State Unit → Host.Outcome State Fault Refusal
  | .ok _ s => .next s.complete
  | .error .ended s => .next s
  | .error (.fault f) _ => .fault f
  | .error (.refused r) _ => .refused r

/-- A host write of CMD with opcode `op` (60_exceptions R280): OVERRUN while busy; otherwise acceptance, the
issue check, and the operation's pseudocode to its end. `first` is what the pseudocode does before anything else
and in the same step as the acceptance. -/
def issueFrom (op : Byte) (k : OpClass) (first : State → State) (body : Op Unit) (s : State) :
    Host.Outcome State Fault Refusal :=
  if s.seq.busy then .next s.setOverrun
  else
    let s1 := s.accept op
    let c := issueCheck k s1
    if c = .none then
      finish ((do hostWindow; body : Op Unit) (first s1))
    else .next { s1 with regs := { s1.regs with cause := c } }.complete

/-- An issue of an operation whose pseudocode begins on the link. -/
def issue (op : Byte) (k : OpClass) (body : Op Unit) (s : State) : Host.Outcome State Fault Refusal :=
  issueFrom op k id body s

/-- One link word run by itself (log 6): it completes nothing, since it is no operation. -/
def runLink (body : Op Unit) (s : State) : Host.Outcome State Fault Refusal :=
  match body s with
  | .ok _ s' => .next s'
  | .error .ended s' => .next s'
  | .error (.fault f) _ => .fault f
  | .error (.refused r) _ => .refused r

end Sys2Proof.Machine
end

