-- ==== Sys2Proof/Machine/Addressing.lean ====
section
/-! DEFINITION. The addressing operations: GOTO_ADDR and GOTO_SHORT (43_addressing R162, R163). -/

namespace Sys2Proof.Machine

/-- GOTO_ADDR (43_addressing R162). -/
def gotoAddrBody : Op Unit := do
  let a ← ask fun s => s.seq.address
  gotoAddress a

/-- GOTO_SHORT (43_addressing R163). -/
def gotoShortBody : Op Unit := do
  let o ← ask fun s => s.seq.offset
  gotoShort o

/-- GOTO_ADDR: opcode 0x14. -/
def execGotoAddr (s : State) : Host.Outcome State Fault Refusal := issue 0x14 .raw gotoAddrBody s

/-- GOTO_SHORT: opcode 0x15. -/
def execGotoShort (s : State) : Host.Outcome State Fault Refusal := issue 0x15 .raw gotoShortBody s

end Sys2Proof.Machine
end

