-- ==== Sys2Proof/Machine/ConfigRegs.lean ====
section
/-! DEFINITION. The configuration register engine and the user-ID read: DUMP_CONFIG, DUMP_USER_ID and the
configuration passes of WRITE (48_config R255 to R261). -/

namespace Sys2Proof.Machine

/-- `CfgReadSlot(i)` (48_config R255). -/
def cfgReadSlot (i : Nat) : Op Word := do
  gotoAddress (slotAddr i)
  let lo ← readIcsp IcspCodes.tblrdPostinc
  let hi ← readIcsp IcspCodes.tblrd
  return hi ++ lo

/-- `CfgWriteSlot(i, v)` (48_config R256). -/
def cfgWriteSlot (i : Nat) (v : Word) : Op Unit := do
  let cfg ← ask State.cfg
  gotoAddress (slotAddr i)
  sendStartp IcspCodes.tblwtStartp ((v.setWidth 8).setWidth 16)
  gotoShort (BitVec.ofNat 8 (2 * i + 1))
  sendStartp IcspCodes.tblwtStartp (cfgHighPayload cfg ((v >>> 8).setWidth 8))

/-- Whether some configuration slot is present (48_config R257). -/
def anySlotPresent (m : Memory) : Bool := (List.range 8).any fun i => m.present .cfgImg i

/-- One slot of the write pass: an absent slot gets no link event (48_config R257). -/
def cfgWriteOne (i : Nat) : Op Unit := do
  let c ← memReadImg .cfgImg i
  if c.present then cfgWriteSlot i c.value else pure ()

/-- `CfgWritePass()` (48_config R257). -/
def cfgWritePass : Op Unit := do
  let any ← ask fun s => anySlotPresent s.mem
  if any then
    sendCore CoreWords.bsfEepgd
    sendCore CoreWords.bsfCfgs
    forUp cfgWriteOne 8 0
  else pure ()

/-- The slots from `i` on, with the mismatch bits found so far (48_config R258). -/
def cfgVerifySlots : (n : Nat) → (i : Nat) → (mm : Byte) → Op Byte
  | 0, _, mm => pure mm
  | n + 1, i, mm => do
    let c ← memReadImg .cfgImg i
    if c.present then do
      let d ← cfgReadSlot i
      memWrite16 .cfgRb i d
      cfgVerifySlots n (i + 1) (if d ≠ c.value then mm ||| slotBit i else mm)
    else cfgVerifySlots n (i + 1) mm

/-- `CfgVerifyPass()` (48_config R258). -/
def cfgVerifyPass : Op Unit := do
  let mm ← cfgVerifySlots 8 0 0
  assign fun s => s.setCfgMm mm

/-- One slot of DUMP_CONFIG (48_config R260). -/
def dumpSlot (i : Nat) : Op Unit := do
  let d ← cfgReadSlot i
  memWrite16 .cfgRb i d

/-- DUMP_CONFIG (48_config R260). -/
def dumpConfigBody : Op Unit := forUp dumpSlot 8 0

/-- One byte of DUMP_USER_ID (48_config R261). -/
def dumpUserByte (i : Nat) : Op Unit := do
  let b ← readIcsp IcspCodes.tblrdPostinc
  memWrite8 .uidBuf i b

/-- DUMP_USER_ID (48_config R261). -/
def dumpUserIdBody : Op Unit := do
  gotoAddress 0x200000
  forUp dumpUserByte 8 0

/-- DUMP_CONFIG: opcode 0x51. -/
def execDumpConfig (s : State) : Host.Outcome State Fault Refusal := issue 0x51 .engine dumpConfigBody s

/-- DUMP_USER_ID: opcode 0x50. -/
def execDumpUserId (s : State) : Host.Outcome State Fault Refusal := issue 0x50 .engine dumpUserIdBody s

end Sys2Proof.Machine
end

