-- ==== Sys2Proof/Machine/CoreWordOps.lean ====
section
/-! DEFINITION. The core instruction words (30_encoding R108), each as the CORE transaction that carries it
(R116). What the target does with the word is the partner's side. -/

namespace Sys2Proof.Machine

/-- MOVLW(k) (30_encoding R108). -/
def execMovlw (k : Byte) (s : State) : Host.Outcome State Fault Refusal :=
  runLink (sendCore fun c => c.movlwOf k) s

/-- NOP (30_encoding R108). -/
def execNop (s : State) : Host.Outcome State Fault Refusal := runLink (sendCore CoreWords.nop) s

/-- MOVWF_TBLPTRU (30_encoding R108). -/
def execMovwfTblptru (s : State) : Host.Outcome State Fault Refusal := runLink (sendCore CoreWords.movwfTblptru) s

/-- MOVWF_TBLPTRH (30_encoding R108). -/
def execMovwfTblptrh (s : State) : Host.Outcome State Fault Refusal := runLink (sendCore CoreWords.movwfTblptrh) s

/-- MOVWF_TBLPTRL (30_encoding R108). -/
def execMovwfTblptrl (s : State) : Host.Outcome State Fault Refusal := runLink (sendCore CoreWords.movwfTblptrl) s

/-- MOVWF_TABLAT (30_encoding R108). -/
def execMovwfTablat (s : State) : Host.Outcome State Fault Refusal := runLink (sendCore CoreWords.movwfTablat) s

/-- MOVWF_EEADR (30_encoding R108). -/
def execMovwfEeadr (s : State) : Host.Outcome State Fault Refusal := runLink (sendCore CoreWords.movwfEeadr) s

/-- MOVWF_EEADRH (30_encoding R108). -/
def execMovwfEeadrh (s : State) : Host.Outcome State Fault Refusal := runLink (sendCore CoreWords.movwfEeadrh) s

/-- MOVWF_EEDATA (30_encoding R108). -/
def execMovwfEedata (s : State) : Host.Outcome State Fault Refusal := runLink (sendCore CoreWords.movwfEedata) s

/-- MOVF_EEDATA_W (30_encoding R108). -/
def execMovfEedataW (s : State) : Host.Outcome State Fault Refusal := runLink (sendCore CoreWords.movfEedataW) s

/-- MOVF_EECON1_W (30_encoding R108). -/
def execMovfEecon1W (s : State) : Host.Outcome State Fault Refusal := runLink (sendCore CoreWords.movfEecon1W) s

/-- BSF_EEPGD (30_encoding R108). -/
def execBsfEepgd (s : State) : Host.Outcome State Fault Refusal := runLink (sendCore CoreWords.bsfEepgd) s

/-- BCF_EEPGD (30_encoding R108). -/
def execBcfEepgd (s : State) : Host.Outcome State Fault Refusal := runLink (sendCore CoreWords.bcfEepgd) s

/-- BSF_CFGS (30_encoding R108). -/
def execBsfCfgs (s : State) : Host.Outcome State Fault Refusal := runLink (sendCore CoreWords.bsfCfgs) s

/-- BCF_CFGS (30_encoding R108). -/
def execBcfCfgs (s : State) : Host.Outcome State Fault Refusal := runLink (sendCore CoreWords.bcfCfgs) s

/-- BSF_WREN (30_encoding R108). -/
def execBsfWren (s : State) : Host.Outcome State Fault Refusal := runLink (sendCore CoreWords.bsfWren) s

/-- BCF_WREN (30_encoding R108). -/
def execBcfWren (s : State) : Host.Outcome State Fault Refusal := runLink (sendCore CoreWords.bcfWren) s

/-- BSF_RD (30_encoding R108). -/
def execBsfRd (s : State) : Host.Outcome State Fault Refusal := runLink (sendCore CoreWords.bsfRd) s

/-- BSF_WR (30_encoding R108). -/
def execBsfWr (s : State) : Host.Outcome State Fault Refusal := runLink (sendCore CoreWords.bsfWr) s

end Sys2Proof.Machine
end

