-- ==== Sys2Proof/Machine/Eeprom.lean ====
section
/-! DEFINITION. The EEPROM cell engine: EEPROM_READ and EEPROM_WRITE (47_eeprom R240 to R243). -/

namespace Sys2Proof.Machine

/-- Access mode and cell address, which both cell procedures begin with (47_eeprom R240, R241). -/
def eeAddress (e : Nat) : Op Unit := do
  let cell : Word := BitVec.ofNat 16 e
  sendCore CoreWords.bcfEepgd
  sendCore CoreWords.bcfCfgs
  sendCore fun c => c.movlwOf (cell.setWidth 8)
  sendCore CoreWords.movwfEeadr
  sendCore fun c => c.movlwOf ((cell >>> 8).setWidth 8)
  sendCore CoreWords.movwfEeadrh

/-- `EeReadCell(e)` (47_eeprom R240). Its NOP sends CORE_WORD[NOP] (DESIGN CHOICE, log 28). -/
def eeReadCell (e : Nat) : Op Byte := do
  eeAddress e
  sendCore CoreWords.bsfRd
  sendCore CoreWords.movfEedataW
  sendCore CoreWords.movwfTablat
  sendCore CoreWords.nop
  readIcsp IcspCodes.shiftOutTablat

/-- Set the poll counter (10_state R29). -/
def State.setPolls (s : State) (n : Word) : State := { s with seq := { s.seq with polls := n } }

/-- One poll of the EEPROM control byte (47_eeprom R241). Its NOP sends CORE_WORD[NOP] (DESIGN CHOICE, log 28). -/
def eePoll : Op Byte := do
  sendCore CoreWords.movfEecon1W
  sendCore CoreWords.movwfTablat
  sendCore CoreWords.nop
  let st ← readIcsp IcspCodes.shiftOutTablat
  assign fun s => s.setPolls (s.seq.polls + 1)
  return st

/-- Whether the polled byte says that the write is done (47_eeprom R241). -/
def eeDone (cfg : Config) (st : Byte) : Bool := !st.getLsbD cfg.eeBusyBit

/-- The poll loop, with `more` polls allowed after this one; at the cap it times out (47_eeprom R241). -/
def eePollLoop (e : Nat) (d : Byte) : (more : Nat) → Op Unit
  | 0 => do
    let st ← eePoll
    let cfg ← ask State.cfg
    if eeDone cfg st then pure () else raise .eeTimeout (BitVec.ofNat 24 e) (d.setWidth 16) (st.setWidth 16)
  | more + 1 => do
    let st ← eePoll
    let cfg ← ask State.cfg
    if eeDone cfg st then pure () else eePollLoop e d more

/-- `EeWriteCell(e, d)` (47_eeprom R241). -/
def eeWriteCell (e : Nat) (d : Byte) : Op Unit := do
  eeAddress e
  sendCore fun c => c.movlwOf d
  sendCore CoreWords.movwfEedata
  sendCore CoreWords.bsfWren
  sendCore CoreWords.bsfWr
  assign fun s => s.setPolls 0
  let cap ← ask fun s => s.seq.pollCap
  eePollLoop e d (cap - 1)
  sendCore CoreWords.bcfWren

/-- One cell of EEPROM_READ (47_eeprom R242). -/
def eepromReadOne (e : Nat) : Op Unit := do
  let d ← eeReadCell e
  memWrite8 .eeImg e d

/-- EEPROM_READ (47_eeprom R242). -/
def eepromReadBody : Op Unit := do
  let n ← ask fun s => s.cfg.eeSize
  forUp eepromReadOne n 0

/-- The byte EEPROM_WRITE programs: the source's all-zero behaviour reads no entry (47_eeprom R243). -/
def eeSourceByte (e : Nat) : Op Byte := do
  let zero ← ask fun s => s.cfg.eeZeroBug
  if zero then pure 0x00 else memRead8 .eeImg e

/-- One cell of EEPROM_WRITE (47_eeprom R243). -/
def eepromWriteOne (e : Nat) : Op Unit := do
  let d ← eeSourceByte e
  eeWriteCell e d

/-- EEPROM_WRITE (47_eeprom R243). -/
def eepromWriteBody : Op Unit := do
  let n ← ask fun s => s.cfg.eeSize
  forUp eepromWriteOne n 0

/-- EEPROM_READ: opcode 0x40. -/
def execEepromRead (s : State) : Host.Outcome State Fault Refusal := issue 0x40 .engine eepromReadBody s

/-- EEPROM_WRITE: opcode 0x41. -/
def execEepromWrite (s : State) : Host.Outcome State Fault Refusal := issue 0x41 .engine eepromWriteBody s

end Sys2Proof.Machine
end

