-- ==== Sys2Proof/Machine/Erase.lean ====
section
/-! DEFINITION. The erase engine: ERASE_BLOCK and BULK_ERASE (45_erase R190 to R192). -/

namespace Sys2Proof.Machine

/-- The latching NOPs and the erase hold (45_erase R190). A whole NOP sends the parameter CORE_WORD[NOP] also where that
is not `0x0000`, which is what 30_encoding R107 says a NOP's operand is (DESIGN CHOICE, log 28); the operand of the split
NOP is R190's own `SendWord(0x0000)`. -/
def eraseHoldEvents (cfg : Config) : List LinkEvent :=
  let c := cfg.codes
  match cfg.eraseHold with
  | .afterNops =>
    sendInsnEvents c.icsp.core c.core.nop ++ sendInsnEvents c.icsp.core c.core.nop ++ [.pin .pgd false, .delay .tErase]
  | .inSecondNop =>
    sendInsnEvents c.icsp.core c.core.nop ++ sendCmdEvents c.icsp.core ++ [.pin .pgd false, .delay .tErase] ++
    sendWordEvents 0x0000

/-- `EraseBlock(r)` (45_erase R190). -/
def eraseBlockEvents (cfg : Config) (r : Nat) : List LinkEvent :=
  let c := cfg.codes
  let sel := regionSelector cfg r
  let baseLo : Byte := cfg.eraseCtrlBase.setWidth 8
  gotoAddressEvents c cfg.eraseCtrlBase ++
  sendInsnEvents c.icsp.tblwt (doubled (sel.setWidth 8)) ++
  gotoShortEvents c (baseLo + 1) ++
  sendInsnEvents c.icsp.tblwt (doubled ((sel >>> 8).setWidth 8)) ++
  gotoShortEvents c (baseLo + 2) ++
  sendInsnEvents c.icsp.tblwt (doubled ((sel >>> 16).setWidth 8)) ++
  eraseHoldEvents cfg

/-- `EraseBlock(r)` as a step of a pseudocode run. -/
def eraseRegion (r : Nat) : Op Unit := do
  let cfg ← ask State.cfg
  emitAll (eraseBlockEvents cfg r)

/-- ERASE_BLOCK (45_erase R191). -/
def eraseBlockBody : Op Unit := do
  let r ← ask fun s => s.seq.region
  eraseRegion r
  emitProgress .erase 100

/-- The regions of a bulk erase in turn, `finished` of `total` being done (45_erase R192). -/
def eraseRegions (total : Nat) : (finished : Nat) → List Nat → Op Unit
  | _, [] => pure ()
  | finished, r :: rs => do
    eraseRegion r
    emitProgress .erase (erasePct (finished + 1) total)
    eraseRegions total (finished + 1) rs

/-- BULK_ERASE (45_erase R192). -/
def bulkEraseBody : Op Unit := do
  let regions ← ask fun s => s.ident.scopeRegions s.seq.scope
  eraseRegions regions.length 0 regions

/-- ERASE_BLOCK: opcode 0x22. -/
def execEraseBlock (s : State) : Host.Outcome State Fault Refusal := issue 0x22 .eraseBlock eraseBlockBody s

/-- BULK_ERASE: opcode 0x21. -/
def execBulkErase (s : State) : Host.Outcome State Fault Refusal := issue 0x21 .engine bulkEraseBody s

end Sys2Proof.Machine
end

