-- ==== Sys2Proof/Machine/IcspCommands.lean ====
section
/-! DEFINITION. The ICSP commands (30_encoding R104, R116 to R125), each as the link transaction the controller
emits for it. What the target does with it is the partner's side (20_memory R64). -/

namespace Sys2Proof.Machine

/-- A read transaction by itself; the byte it returns stays in the receive register. -/
def readAlone (f : IcspCodes → Nibble) : Op Unit := do
  let _ ← readIcsp f
  return ()

/-- CORE: shape W (30_encoding R116). -/
def execCore (payload : Word) (s : State) : Host.Outcome State Fault Refusal :=
  runLink (sendIcsp IcspCodes.core payload) s

/-- TBLWT: shape W (30_encoding R122). -/
def execTblwt (payload : Word) (s : State) : Host.Outcome State Fault Refusal :=
  runLink (sendIcsp IcspCodes.tblwt payload) s

/-- TBLWT_POSTINC2: shape W (30_encoding R123). -/
def execTblwtPostinc2 (payload : Word) (s : State) : Host.Outcome State Fault Refusal :=
  runLink (sendIcsp IcspCodes.tblwtPostinc2 payload) s

/-- TBLWT_POSTINC2_STARTP: shape W, then the programming pulse (30_encoding R124; log 12). -/
def execTblwtPostinc2Startp (payload : Word) (s : State) : Host.Outcome State Fault Refusal :=
  runLink (sendStartp IcspCodes.tblwtPostinc2Startp payload) s

/-- TBLWT_STARTP: shape W, then the programming pulse (30_encoding R125; log 12). -/
def execTblwtStartp (payload : Word) (s : State) : Host.Outcome State Fault Refusal :=
  runLink (sendStartp IcspCodes.tblwtStartp payload) s

/-- SHIFT_OUT_TABLAT: shape R (30_encoding R117). -/
def execShiftOutTablat (s : State) : Host.Outcome State Fault Refusal := runLink (readAlone IcspCodes.shiftOutTablat) s

/-- TBLRD: shape R (30_encoding R118). -/
def execTblrd (s : State) : Host.Outcome State Fault Refusal := runLink (readAlone IcspCodes.tblrd) s

/-- TBLRD_POSTINC: shape R (30_encoding R119). -/
def execTblrdPostinc (s : State) : Host.Outcome State Fault Refusal := runLink (readAlone IcspCodes.tblrdPostinc) s

/-- TBLRD_POSTDEC: shape R (30_encoding R120). -/
def execTblrdPostdec (s : State) : Host.Outcome State Fault Refusal := runLink (readAlone IcspCodes.tblrdPostdec) s

/-- TBLRD_PREINC: shape R (30_encoding R121). -/
def execTblrdPreinc (s : State) : Host.Outcome State Fault Refusal := runLink (readAlone IcspCodes.tblrdPreinc) s

/-- A code that names no command: the controller emits it as any other, in shape W (30_encoding R105, R106). -/
def execReservedIcspCommand (code : Nibble) (payload : Word) (s : State) : Host.Outcome State Fault Refusal :=
  runLink (sendInsn code payload) s

end Sys2Proof.Machine
end

