-- ==== Sys2Proof/Machine/Identity.lean ====
section
/-! DEFINITION. The device-ID comparator and capability decoder: IDENTIFY (44_identity R170 to R175). -/

namespace Sys2Proof.Machine

/-- `ReadDevId()` (44_identity R171). -/
def readDevId : Op Word := do
  gotoAddress 0x3FFFFE
  let lo ← readIcsp IcspCodes.tblrdPostinc
  let hi ← readIcsp IcspCodes.tblrdPostinc
  return hi ++ lo

/-! The identity and geometry latches (10_state R25, R26), which only IDENTIFY and ENTER write. -/

/-- Write `ident`. -/
def State.setIdentStatus (s : State) (x : IdentStatus) : State := { s with ident := { s.ident with status := x } }

/-- Write `devid`. -/
def State.setDevId (s : State) (d : Word) : State := { s with ident := { s.ident with devid := d } }

/-- Write `rev`. -/
def State.setRev (s : State) (r : BitVec 5) : State := { s with ident := { s.ident with rev := r } }

/-- Write `index`. -/
def State.setIndex (s : State) (k : Byte) : State := { s with ident := { s.ident with index := k } }

/-- Write `code_size`. -/
def State.setCodeSize (s : State) (n : Addr) : State := { s with ident := { s.ident with codeSize := n } }

/-- Write `erase_blocks`. -/
def State.setEraseBlocks (s : State) (n : BitVec 4) : State := { s with ident := { s.ident with eraseBlocks := n } }

/-- Write `wbuf_words`. -/
def State.setWbufWords (s : State) (n : BitVec 7) : State := { s with ident := { s.ident with wbufWords := n } }

/-- `code_size, erase_blocks, wbuf_words <- 0`: one action each, as 44_identity R172 writes them; 42_session R150 writes
them as one statement (DESIGN CHOICE, log 30). -/
def clearGeometry : Op Unit := do
  assign fun s => s.setCodeSize 0
  assign fun s => s.setEraseBlocks 0
  assign fun s => s.setWbufWords 0

/-- No catalog entry matches the ID `d` (44_identity R172). -/
def identNotFound (d : Word) : Op Unit := do
  assign fun s => s.setIndex 0xFF
  clearGeometry
  assign fun s => s.setIdentStatus .notFound
  raise .ident 0x3FFFFE 0 d

/-- The entry `e` at index `k` matches (44_identity R172). -/
def identResolved (k : Nat) (e : CatalogEntry) : Op Unit := do
  assign fun s => s.setIndex (BitVec.ofNat 8 k)
  assign fun s => s.setCodeSize e.codeSize
  assign fun s => s.setEraseBlocks e.eraseBlocks
  assign fun s => s.setWbufWords e.wbufWords
  assign fun s => s.setIdentStatus .resolved

/-- Allocation: the code image's `words` entries below the active length, and the configuration image, become
absent `0xFFFF` (10_state R28, 44_identity R172). -/
def allocate (words : Nat) : Op Unit := do
  forUp (fun a => memWriteImg .codeImg a { value := 0xFFFF, present := false }) words 0
  forUp (fun i => memWriteImg .cfgImg i { value := 0xFFFF, present := false }) 8 0

/-- IDENTIFY after the ID is read (44_identity R172). -/
def resolveDevId (d : Word) : Op Unit := do
  assign fun s => s.setDevId d
  assign fun s => s.setRev (revision d)
  let found ← ask fun s => lookup (maskedId d) s.cfg.dev.catalog
  match found with
  | none => identNotFound d
  | some (k, e) => do
    identResolved k e
    allocate (e.codeSize.toNat / 2)
    assign fun s => s.setCfgMm 0

/-- IDENTIFY (44_identity R172). -/
def identifyBody : Op Unit := do
  let d ← readDevId
  resolveDevId d

/-- IDENTIFY: opcode 0x03. CFG_MM is cleared when it is accepted (10_state R40, decision D29; logs 23, 24). -/
def execIdentify (s : State) : Host.Outcome State Fault Refusal :=
  issueFrom 0x03 .identify (fun t => t.setCfgMm 0) identifyBody s

end Sys2Proof.Machine
end

