-- ==== Sys2Proof/Machine/Program.lean ====
section
/-! DEFINITION. The program/verify engine, code read and blank check: READ, BLANK_CHECK and WRITE
(46_program_verify R212 to R217). -/

namespace Sys2Proof.Machine

/-- `ReadCodeWord()` (46_program_verify R212). -/
def readCodeWord : Op Word := do
  let lo ← readIcsp IcspCodes.tblrdPostinc
  let hi ← readIcsp IcspCodes.tblrdPostinc
  return hi ++ lo

/-- The report of a code-memory walk with `finished` words done (46_program_verify R211). -/
def walkProgress (ph : Phase) (finished : Nat) : Op Unit := do
  let size ← ask fun s => s.ident.codeSize
  emitProgress ph (walkPct finished size)

/-- The byte address of code word `a` (46_program_verify R214). -/
def wordAddr (a : Nat) : Addr := BitVec.ofNat 24 (2 * a)

/-- The payload of a code word: absent words are `0xFFFF` (46_program_verify R213). -/
def ImgEntry.payload (e : ImgEntry) : Word := if e.present then e.value else 0xFFFF

/-- Word `i` of a chunk that starts at word `base` (46_program_verify R213). -/
def programWord (width base i : Nat) : Op Unit := do
  let e ← memReadImg .codeImg (base + i)
  if i < width - 1 then sendIcsp IcspCodes.tblwtPostinc2 e.payload
  else sendStartp IcspCodes.tblwtPostinc2Startp e.payload

/-- Chunk `j` (46_program_verify R213). -/
def programChunk (width j : Nat) : Op Unit := do
  forUp (programWord width (j * width)) width 0
  walkProgress .program ((j + 1) * width)

/-- `ProgramCode()` (46_program_verify R213). -/
def programCode : Op Unit := do
  sendCore CoreWords.bsfEepgd
  sendCore CoreWords.bcfCfgs
  sendCore CoreWords.bsfWren
  gotoAddress 0x000000
  let geom ← ask State.ident
  forUp (programChunk geom.wbufWords.toNat) geom.nChunks 0

/-- What code verify expects of an entry, or nothing if it does not compare (46_program_verify R214). -/
def expectedWord (cfg : Config) (e : ImgEntry) : Option Word :=
  if e.present then some e.value
  else
    match cfg.verifyAbsent with
    | .skip => none
    | .expectFfff => some 0xFFFF

/-- Word `a` of `VerifyCode()` (46_program_verify R214). -/
def verifyWord (a : Nat) : Op Unit := do
  let d ← readCodeWord
  let e ← memReadImg .codeImg a
  let cfg ← ask State.cfg
  match expectedWord cfg e with
  | some v => if d ≠ v then raise .verify (wordAddr a) v d else walkProgress .verify (a + 1)
  | none => walkProgress .verify (a + 1)

/-- `VerifyCode()` (46_program_verify R214). -/
def verifyCode : Op Unit := do
  gotoAddress 0x000000
  let n ← ask fun s => s.ident.nWords
  forUp verifyWord n 0

/-- Word `a` of READ (46_program_verify R215). -/
def readImageWord (a : Nat) : Op Unit := do
  let d ← readCodeWord
  memWriteImg .codeImg a { value := d, present := true }
  walkProgress .read (a + 1)

/-- READ (46_program_verify R215). -/
def readBody : Op Unit := do
  gotoAddress 0x000000
  let n ← ask fun s => s.ident.nWords
  forUp readImageWord n 0

/-- Word `a` of BLANK_CHECK (46_program_verify R216). -/
def blankWord (a : Nat) : Op Unit := do
  let d ← readCodeWord
  if d ≠ 0xFFFF then raise .nonblank (wordAddr a) 0xFFFF d else walkProgress .blank (a + 1)

/-- BLANK_CHECK (46_program_verify R216). -/
def blankCheckBody : Op Unit := do
  gotoAddress 0x000000
  let n ← ask fun s => s.ident.nWords
  forUp blankWord n 0

/-- WRITE after it has cleared CFG_MM (46_program_verify R217). -/
def writeBody : Op Unit := do
  programCode
  let verify ← ask fun s => verifyEn s.seq.ctrl
  if verify then verifyCode else pure ()
  cfgWritePass
  if verify then cfgVerifyPass else pure ()

/-- READ: opcode 0x30. -/
def execRead (s : State) : Host.Outcome State Fault Refusal := issue 0x30 .engine readBody s

/-- BLANK_CHECK: opcode 0x20. -/
def execBlankCheck (s : State) : Host.Outcome State Fault Refusal := issue 0x20 .engine blankCheckBody s

/-- WRITE: opcode 0x31. CFG_MM is cleared when it is accepted (10_state R40). -/
def execWrite (s : State) : Host.Outcome State Fault Refusal :=
  issueFrom 0x31 .engine (fun t => t.setCfgMm 0) writeBody s

end Sys2Proof.Machine
end

