-- ==== Sys2Proof/Machine/Reserved.lean ====
section
/-! DEFINITION. The reserved host opcodes: refused at issue with cause BADOP (30_encoding R103, 60_exceptions
R282). -/

namespace Sys2Proof.Machine

/-- Any opcode outside the map: "issuing it completes at once with cause BADOP and no link event" (30_encoding
R103). Its issue check never passes, so it has no pseudocode. -/
def execReservedHostOpcode (op : Byte) (s : State) : Host.Outcome State Fault Refusal := issue op .reserved (pure ()) s

end Sys2Proof.Machine
end

