-- ==== Sys2Proof/Machine/Session.lean ====
section
/-! DEFINITION. The session state machine: ENTER and EXIT (42_session R150, R151). -/

namespace Sys2Proof.Machine

/-- The MCLR sequence and the magic key of ENTER (42_session R150). -/
def enterEvents (cfg : Config) : List LinkEvent :=
  [.pin .pgc false, .dir .pgc .out, .pin .pgd false, .dir .pgd .out, .dir .mclr .inp, .delay .tEn1,
    .pin .mclr true, .dir .mclr .out, .delay .tEn2, .pin .mclr false, .delay .tEn3] ++
  outBitsEvents (bitsMsbFirst 32 cfg.magicKey) ++
  [.pin .pgd false, .delay .tKeyEnd, .pin .mclr true, .delay .tEnDone]

/-- The sequence of EXIT (42_session R151). -/
def exitEvents : List LinkEvent :=
  [.pin .pgc false, .pin .pgd false, .delay .tEx1, .pin .mclr false, .delay .tEx2, .dir .mclr .inp]

/-- Change the session state (10_state R24). -/
def State.setSession (s : State) (x : Session) : State := { s with session := x }

/-- ENTER after it has taken the session to ENTERING_KEY (42_session R150). R150 clears the latches in one statement; here
each latch is an action of its own, in the order R150 lists them, and a host read can fall between two (DESIGN CHOICE,
log 30). -/
def enterBody : Op Unit := do
  let cfg ← ask State.cfg
  emitAll (enterEvents cfg)
  assign fun s => s.setIdentStatus .unresolved
  assign fun s => s.setDevId 0
  assign fun s => s.setRev 0
  clearGeometry
  assign fun s => s.setIndex 0xFF
  assign fun s => s.setSession .programming

/-- EXIT (42_session R151). -/
def exitBody : Op Unit := do
  emitAll exitEvents
  assign fun s => s.setSession .idle

/-- ENTER: opcode 0x01. The session is ENTERING_KEY from the acceptance on (10_state R24, conflict C18). -/
def execEnter (s : State) : Host.Outcome State Fault Refusal :=
  issueFrom 0x01 .enter (fun t => t.setSession .enteringKey) enterBody s

/-- EXIT: opcode 0x02. -/
def execExit (s : State) : Host.Outcome State Fault Refusal := issue 0x02 .exit exitBody s

end Sys2Proof.Machine
end

