-- ==== Sys2Proof/Machine/Signal.lean ====
section
/-! DEFINITION. The raw host operations of the command/data shifter: SEND_CMD, SEND_WORD, READ_WORD, SEND_INSN
(41_signal R137 to R140). -/

namespace Sys2Proof.Machine

/-- SEND_CMD (41_signal R137). -/
def sendCmdBody : Op Unit := do
  let n ← ask fun s => s.seq.nibble
  sendCmd n

/-- SEND_WORD (41_signal R138). -/
def sendWordBody : Op Unit := do
  let w ← ask fun s => s.seq.word
  sendWord w

/-- Write RESULT (10_state R36). -/
def State.setResult (s : State) (w : Word) : State := { s with regs := { s.regs with result := w } }

/-- READ_WORD (41_signal R139). -/
def readWordBody : Op Unit := do
  let w ← readWord
  assign fun s => s.setResult w

/-- SEND_INSN (41_signal R140). -/
def sendInsnBody : Op Unit := do
  let n ← ask fun s => s.seq.nibble
  let w ← ask fun s => s.seq.word
  sendInsn n w

/-- SEND_CMD: opcode 0x10. -/
def execSendCmd (s : State) : Host.Outcome State Fault Refusal := issue 0x10 .raw sendCmdBody s

/-- SEND_WORD: opcode 0x11. -/
def execSendWord (s : State) : Host.Outcome State Fault Refusal := issue 0x11 .raw sendWordBody s

/-- READ_WORD: opcode 0x12. -/
def execReadWord (s : State) : Host.Outcome State Fault Refusal := issue 0x12 .raw readWordBody s

/-- SEND_INSN: opcode 0x13. -/
def execSendInsn (s : State) : Host.Outcome State Fault Refusal := issue 0x13 .raw sendInsnBody s

end Sys2Proof.Machine
end

