-- ==== Sys2Proof/Machine/Dispatch.lean ====
section
/-! DEFINITION. The meaning of each instruction: one arm per constructor. -/

namespace Sys2Proof.Machine

def exec (i : Instr) (s : State) : Host.Outcome State Fault Refusal :=
  match i with
  -- host opcodes (30_encoding R101, R103)
  | .enter => Sys2Proof.Machine.execEnter s
  | .exit => Sys2Proof.Machine.execExit s
  | .identify => Sys2Proof.Machine.execIdentify s
  | .sendCmd => Sys2Proof.Machine.execSendCmd s
  | .sendWord => Sys2Proof.Machine.execSendWord s
  | .readWord => Sys2Proof.Machine.execReadWord s
  | .sendInsn => Sys2Proof.Machine.execSendInsn s
  | .gotoAddr => Sys2Proof.Machine.execGotoAddr s
  | .gotoShort => Sys2Proof.Machine.execGotoShort s
  | .blankCheck => Sys2Proof.Machine.execBlankCheck s
  | .bulkErase => Sys2Proof.Machine.execBulkErase s
  | .eraseBlock => Sys2Proof.Machine.execEraseBlock s
  | .read => Sys2Proof.Machine.execRead s
  | .write => Sys2Proof.Machine.execWrite s
  | .eepromRead => Sys2Proof.Machine.execEepromRead s
  | .eepromWrite => Sys2Proof.Machine.execEepromWrite s
  | .dumpUserId => Sys2Proof.Machine.execDumpUserId s
  | .dumpConfig => Sys2Proof.Machine.execDumpConfig s
  | .reservedHostOpcode op => Sys2Proof.Machine.execReservedHostOpcode op s
  -- ICSP commands (30_encoding R104, R106)
  | .core payload => Sys2Proof.Machine.execCore payload s
  | .shiftOutTablat => Sys2Proof.Machine.execShiftOutTablat s
  | .tblrd => Sys2Proof.Machine.execTblrd s
  | .tblrdPostinc => Sys2Proof.Machine.execTblrdPostinc s
  | .tblrdPostdec => Sys2Proof.Machine.execTblrdPostdec s
  | .tblrdPreinc => Sys2Proof.Machine.execTblrdPreinc s
  | .tblwt payload => Sys2Proof.Machine.execTblwt payload s
  | .tblwtPostinc2 payload => Sys2Proof.Machine.execTblwtPostinc2 payload s
  | .tblwtPostinc2Startp payload => Sys2Proof.Machine.execTblwtPostinc2Startp payload s
  | .tblwtStartp payload => Sys2Proof.Machine.execTblwtStartp payload s
  | .reservedIcspCommand code payload => Sys2Proof.Machine.execReservedIcspCommand code payload s
  -- core instruction words (30_encoding R108)
  | .nop => Sys2Proof.Machine.execNop s
  | .movlw k => Sys2Proof.Machine.execMovlw k s
  | .movwfTblptru => Sys2Proof.Machine.execMovwfTblptru s
  | .movwfTblptrh => Sys2Proof.Machine.execMovwfTblptrh s
  | .movwfTblptrl => Sys2Proof.Machine.execMovwfTblptrl s
  | .movwfTablat => Sys2Proof.Machine.execMovwfTablat s
  | .movwfEeadr => Sys2Proof.Machine.execMovwfEeadr s
  | .movwfEeadrh => Sys2Proof.Machine.execMovwfEeadrh s
  | .movwfEedata => Sys2Proof.Machine.execMovwfEedata s
  | .movfEedataW => Sys2Proof.Machine.execMovfEedataW s
  | .movfEecon1W => Sys2Proof.Machine.execMovfEecon1W s
  | .bsfEepgd => Sys2Proof.Machine.execBsfEepgd s
  | .bcfEepgd => Sys2Proof.Machine.execBcfEepgd s
  | .bsfCfgs => Sys2Proof.Machine.execBsfCfgs s
  | .bcfCfgs => Sys2Proof.Machine.execBcfCfgs s
  | .bsfWren => Sys2Proof.Machine.execBsfWren s
  | .bcfWren => Sys2Proof.Machine.execBcfWren s
  | .bsfRd => Sys2Proof.Machine.execBsfRd s
  | .bsfWr => Sys2Proof.Machine.execBsfWr s

end Sys2Proof.Machine
end

