-- ==== Sys2Proof/Machine/HostTurn.lean ====
section
/-! DEFINITION. What one host access or a reset does between operations (70_reset R332), which of them issues
an operation, and the specification's notation for host programs (30_encoding R127, R128). -/

namespace Sys2Proof.Machine

/-- A host access or a reset, other than an issue, as a step of its own. While `busy` is 1 the access has the
meaning it has during an operation (20_memory R63). -/
def hostTurn (a : HostAct) (s : State) : Host.Outcome State Fault Refusal :=
  match a with
  | .reset => .next s.hardReset
  | .read offset width =>
    if accessDefined offset width then
      if s.seq.busy then .next (s.busyRead offset)
      else
        match s.hostRead offset with
        | .ok s' => .next s'
        | .error f => .fault f
    else .refused (.undefinedAccess offset width)
  | .write offset width v =>
    if accessDefined offset width then
      .next (if s.seq.busy then s.busyWrite offset v else s.hostWrite offset v)
    else .refused (.undefinedAccess offset width)

/-- The opcode a host access issues: bits 7..0 of a defined write of CMD (10_state R31). -/
def issuedOpcode (a : HostAct) : Option Byte :=
  match a with
  | .write offset width v => if accessDefined offset width && offset.toNat == 0 then some (v.setWidth 8) else none
  | .read _ _ => none
  | .reset => none

/-- The host offset of a register of 10_state R30, from its place in the map. -/
def Reg.offset : Reg → HostOffset
  | .cmd => 0x000
  | .arg0 => 0x004
  | .arg1 => 0x008
  | .ctrl => 0x00C
  | .status => 0x010
  | .cause => 0x014
  | .faultAddr => 0x018
  | .faultExp => 0x01C
  | .faultAct => 0x020
  | .result => 0x024
  | .progress => 0x028
  | .devid => 0x02C
  | .idinfo => 0x030
  | .codeSize => 0x034
  | .geom => 0x038
  | .eePollMax => 0x03C
  | .cfgMm => 0x040
  | .pins => 0x044

/-- A 32-bit host write that waits until no operation runs. -/
def writeInput (offset : HostOffset) (v : HostWord) : Input := { act := .write offset 4 v }

/-- A 32-bit host read that waits until no operation runs. -/
def readInput (offset : HostOffset) : Input := { act := .read offset 4 }

/-- A write of CMD. -/
def issueInput (op : Byte) : Input := writeInput Reg.cmd.offset (op.setWidth 32)

/-- A line of a host program: an operation with its operands in the order of 30_encoding R101, or a host
access (R127). -/
inductive HostLine where
  | enter | exit | identify
  | sendCmd (n : Nibble)
  | sendWord (w : Word)
  | readWord
  | sendInsn (n : Nibble) (w : Word)
  | gotoAddr (a : Addr)
  | gotoShort (o : Byte)
  | blankCheck
  | bulkErase (scope : BitVec 2)
  | eraseBlock (region : Nibble)
  | read | write | eepromRead | eepromWrite | dumpUserId | dumpConfig
  | hostWr (offset : HostOffset) (v : HostWord)
  | hostRd (offset : HostOffset)
deriving DecidableEq, Repr

/-- "A line assembles to: write each operand register the opcode reads, write CMD with the opcode, then wait
until STATUS.BUSY = 0" (30_encoding R127); the waiting is the inputs' having no gap. -/
def HostLine.inputs : HostLine → List Input
  | .enter => [issueInput 0x01]
  | .exit => [issueInput 0x02]
  | .identify => [issueInput 0x03]
  | .sendCmd n => [writeInput Reg.arg0.offset (n.setWidth 32), issueInput 0x10]
  | .sendWord w => [writeInput Reg.arg1.offset (w.setWidth 32), issueInput 0x11]
  | .readWord => [issueInput 0x12]
  | .sendInsn n w => [writeInput Reg.arg0.offset (n.setWidth 32), writeInput Reg.arg1.offset (w.setWidth 32), issueInput 0x13]
  | .gotoAddr a => [writeInput Reg.arg0.offset (a.setWidth 32), issueInput 0x14]
  | .gotoShort o => [writeInput Reg.arg0.offset (o.setWidth 32), issueInput 0x15]
  | .blankCheck => [issueInput 0x20]
  | .bulkErase x => [writeInput Reg.arg0.offset (x.setWidth 32), issueInput 0x21]
  | .eraseBlock r => [writeInput Reg.arg0.offset (r.setWidth 32), issueInput 0x22]
  | .read => [issueInput 0x30]
  | .write => [issueInput 0x31]
  | .eepromRead => [issueInput 0x40]
  | .eepromWrite => [issueInput 0x41]
  | .dumpUserId => [issueInput 0x50]
  | .dumpConfig => [issueInput 0x51]
  | .hostWr offset v => [writeInput offset v]
  | .hostRd offset => [readInput offset]

/-- The pseudo-instructions of 30_encoding R128. The image loads of `write` and `eepromWrite` are given as
lines. -/
inductive PseudoInsn where
  | identify | blankCheck
  | bulkErase (scope : BitVec 2)
  | read
  | write (load : List HostLine)
  | eepromRead
  | eepromWrite (load : List HostLine)
  | dumpUserId | dumpConfigurationRegisters
deriving DecidableEq, Repr

/-- The host lines of a pseudo-instruction: the operations after IDENTIFY are skipped where it faults, and
EXIT is issued in every case (30_encoding R128). -/
def PseudoInsn.lines (identified : Bool) (p : PseudoInsn) : List HostLine :=
  let session (before after : List HostLine) : List HostLine :=
    before ++ [.enter, .identify] ++ (if identified then after else []) ++ [.exit]
  match p with
  | .identify => session [] []
  | .blankCheck => session [] [.blankCheck]
  | .bulkErase x => session [] [.bulkErase x]
  | .read => session [] [.read]
  | .write load => session [] (load ++ [.write])
  | .eepromRead => session [] [.eepromRead]
  | .eepromWrite load => session load [.eepromWrite]
  | .dumpUserId => session [] [.dumpUserId]
  | .dumpConfigurationRegisters => session [] [.dumpConfig]

end Sys2Proof.Machine
end

