-- ==== Sys2Proof/Machine/Resume.lean ====
section
/-! DEFINITION. How a running operation goes on from its position (10_state R22): its pseudocode is run again over
the actions it has performed, which change nothing now, and from there to its end. -/

namespace Sys2Proof.Machine

/-- The pseudocode that each operation runs after its acceptance; an instruction that is no operation has none. -/
def pseudocode : Instr → Op Unit
  | .enter => enterBody
  | .exit => exitBody
  | .identify => identifyBody
  | .sendCmd => sendCmdBody
  | .sendWord => sendWordBody
  | .readWord => readWordBody
  | .sendInsn => sendInsnBody
  | .gotoAddr => gotoAddrBody
  | .gotoShort => gotoShortBody
  | .blankCheck => blankCheckBody
  | .bulkErase => bulkEraseBody
  | .eraseBlock => eraseBlockBody
  | .read => readBody
  | .write => writeBody
  | .eepromRead => eepromReadBody
  | .eepromWrite => eepromWriteBody
  | .dumpUserId => dumpUserIdBody
  | .dumpConfig => dumpConfigBody
  | .reservedHostOpcode _ => pure ()
  | .core _ | .shiftOutTablat | .tblrd | .tblrdPostinc | .tblrdPostdec | .tblrdPreinc | .tblwt _ | .tblwtPostinc2 _
  | .tblwtPostinc2Startp _ | .tblwtStartp _ | .reservedIcspCommand _ _ | .nop | .movlw _ | .movwfTblptru | .movwfTblptrh
  | .movwfTblptrl | .movwfTablat | .movwfEeadr | .movwfEeadrh | .movwfEedata | .movfEedataW | .movfEecon1W | .bsfEepgd
  | .bcfEepgd | .bsfCfgs | .bcfCfgs | .bsfWren | .bcfWren | .bsfRd | .bsfWr => pure ()

/-- The position with every action it has performed still to pass over. -/
def Position.rewound (p : Position) : Position := { p with again := p.taken, past := p.sampled.reverse }

/-- The state from which the running operation's pseudocode is passed over up to its position; an operation with no
position stands at its start. -/
def State.rewound (s : State) : State :=
  { s with seq := { s.seq with position := some (s.seq.position.getD {}).rewound } }

/-- The running operation goes on to its end, after the host accesses that are due. -/
def resume (s : State) : Host.Outcome State Fault Refusal :=
  finish ((do hostWindow; pseudocode (decodeHost s.seq.op) : Op Unit) s.rewound)

end Sys2Proof.Machine
end

