-- ==== Sys2Proof/Machine/Step.lean ====
section
/-! DEFINITION. One step of the machine. The block fetches no instructions (20_memory R79): a step takes the
next host input (70_reset R332), which issues an operation where it is a write of CMD (60_exceptions R280), or
the next link word that has been placed (log 6). In a state with an operation running it takes that operation
from its position to its end (10_state R22). -/

namespace Sys2Proof.Machine

/-- One step: the running operation, else a placed link word, else the next host input, else nothing (the block
is idle, 60_exceptions R298). -/
def step (s : State) : Host.Outcome State Fault Refusal :=
  if s.seq.busy then resume s
  else
    match s.txns with
    | w :: rest =>
      match decodeLink s.cfg.codes w with
      | .ok i => exec i { s with txns := rest }
      | .error (.unknownCoreWord x) => .refused (.unknownCoreWord x)
    | [] =>
      match s.bus.inputs with
      | [] => .next s
      | i :: rest =>
        match issuedOpcode i.act with
        | some op => exec (decodeHost op) (s.withInputs rest)
        | none => hostTurn i.act (s.withInputs rest)

/-- `s` with an opcode-table word where the next step takes its instruction: a host opcode as a host write of
CMD that comes next, a link word as the next placed word (logs 5, 6). -/
def State.withFetchWord (s : State) (nbits w : Nat) : State :=
  match tableWord nbits w with
  | some (.hostOpcode op) => { s.withInputs (issueInput op :: s.bus.inputs) with txns := [] }
  | some (.link lw) => { s with txns := lw :: s.txns }
  | none => s

end Sys2Proof.Machine
end

