-- ==== Sys2Proof/Safety.lean ====
section
/-! DEFINITION. The terms statements about the machine use: when nothing disturbs an operation, what a link
run emits and samples, what an operation leaves, and the invariants every step keeps. -/

namespace Sys2Proof.Machine

/-! ## Conditions on a state -/

/-- No host access or reset arrives while an operation runs: the next input, if there is one, waits for the
operation to complete (log 5). -/
abbrev State.quiet (s : State) : Prop := s.bus.inputs.head?.bind Input.gap = none

/-- What may arrive during an operation without ending the step: a 32-bit aligned access (20_memory R61). -/
def HostAct.benign : HostAct → Bool
  | .read offset width => accessDefined offset width
  | .write offset width _ => accessDefined offset width
  | .reset => false

/-- The block is idle in a session, undisturbed (60_exceptions R281). -/
abbrev State.sessionReady (s : State) : Prop := s.seq.busy = false ∧ s.session = .programming ∧ s.quiet

/-- The block is idle in a session with a resolved identity, undisturbed (60_exceptions R281). -/
abbrev State.engineReady (s : State) : Prop := s.sessionReady ∧ s.ident.status = .resolved

/-- The geometry is one a well-formed catalog gives: `n` words in `k` full write buffers (00_scope R8). -/
abbrev Identity.shape (i : Identity) (n k : Nat) : Prop :=
  i.codeSize.toNat = 2 * n ∧ n = k * i.wbufWords.toNat ∧ 0 < n

/-- Every entry of the code image below the active length, and of the configuration image, has been written
(10_state R28). -/
abbrev State.imagesWritten (s : State) : Prop :=
  (∀ a < s.ident.nWords, (s.mem.img .codeImg a).isSome) ∧ ∀ i < 8, (s.mem.img .cfgImg i).isSome

/-- Every entry of the EEPROM image has been written (70_reset R331 duty 6). -/
abbrev State.eeLoaded (s : State) : Prop := ∀ e < s.cfg.eeSize, (s.mem.entry8 .eeImg e).isSome

/-! ## What a link run emits and samples -/

/-- The link side after a sequence of events with no sample drawn. -/
def LinkSide.observeAll (cfg : Config) (es : List LinkEvent) (l : LinkSide) : LinkSide :=
  es.foldl (fun x e => x.observe cfg e) l

/-- From `l` to `l'` exactly the events `es` were emitted, in order; the lines are as they left them; and where
an oracle had its answers pending, the bits sampled are its answers (20_memory R64). -/
def LinkSide.Ran (l l' : LinkSide) (es : List LinkEvent) : Prop :=
  l'.trace = es.reverse ++ l.trace ∧ l'.lines = l.lines.applyAll es ∧
  ∀ answers rest, l.partner = .oracle (answers ++ rest) → answers.length = (samplesOf es).length →
    samplesOf es = answers ∧ l'.partner = .oracle rest

/-- Eight sampled bits from place `k` on. -/
def slice8 (bits : List Bool) (k : Nat) : List Bool := (bits.drop k).take 8

/-- The byte sampled from place `k` on. -/
def byteFrom (bits : List Bool) (k : Nat) : Byte := byteOfBits (slice8 bits k)

/-- The word whose low byte is sampled from place `k` on, and whose high byte after it (20_memory R70). -/
def wordFrom (bits : List Bool) (k : Nat) : Word := byteFrom bits (k + 8) ++ byteFrom bits k

/-- Two read transactions with the command codes `c` and `d`, sampling the 16 bits from place `k` on. -/
def readPairEvents (c d : Nibble) (bits : List Bool) (k : Nat) : List LinkEvent :=
  readTxnEvents c (slice8 bits k) ++ readTxnEvents d (slice8 bits (k + 8))

/-- `n` code words read from the pointer on (46_program_verify R212). -/
def codeReadEvents (c : Codes) (bits : List Bool) (n : Nat) : List LinkEvent :=
  (List.range n).flatMap fun a => readPairEvents c.icsp.tblrdPostinc c.icsp.tblrdPostinc bits (16 * a)

/-- `ReadDevId()` (44_identity R171). -/
def readDevIdEvents (c : Codes) (bits : List Bool) : List LinkEvent :=
  gotoAddressEvents c 0x3FFFFE ++ readPairEvents c.icsp.tblrdPostinc c.icsp.tblrdPostinc bits 0

/-- The eight slots read by DUMP_CONFIG (48_config R255, R260). -/
def dumpConfigEvents (c : Codes) (bits : List Bool) : List LinkEvent :=
  (List.range 8).flatMap fun i =>
    gotoAddressEvents c (slotAddr i) ++ readPairEvents c.icsp.tblrdPostinc c.icsp.tblrd bits (16 * i)

/-- The eight bytes read by DUMP_USER_ID (48_config R261). -/
def dumpUserIdEvents (c : Codes) (bits : List Bool) : List LinkEvent :=
  gotoAddressEvents c 0x200000 ++
  (List.range 8).flatMap fun i => readTxnEvents c.icsp.tblrdPostinc (slice8 bits (8 * i))

/-- A sequence of CORE transactions. -/
def coreEvents (c : Codes) (ws : List Word) : List LinkEvent := ws.flatMap fun w => sendInsnEvents c.icsp.core w

/-- The words that set the access mode and the cell address (47_eeprom R240, R241). -/
def eeAddressWords (c : CoreWords) (e : Nat) : List Word :=
  [c.bcfEepgd, c.bcfCfgs, c.movlwOf (BitVec.ofNat 8 e), c.movwfEeadr, c.movlwOf (BitVec.ofNat 8 (e / 256)),
    c.movwfEeadrh]

/-- `EeReadCell(e)` (47_eeprom R240). -/
def eeReadCellEvents (c : Codes) (e : Nat) (bits : List Bool) : List LinkEvent :=
  coreEvents c (eeAddressWords c.core e ++ [c.core.bsfRd, c.core.movfEedataW, c.core.movwfTablat, c.core.nop]) ++
  readTxnEvents c.icsp.shiftOutTablat bits

/-- The EEPROM cells read by EEPROM_READ (47_eeprom R242). -/
def eepromReadEvents (c : Codes) (n : Nat) (bits : List Bool) : List LinkEvent :=
  (List.range n).flatMap fun e => eeReadCellEvents c e (slice8 bits (8 * e))

/-- The set-up of `EeWriteCell(e, d)`, up to its first poll (47_eeprom R241). -/
def eeWriteSetupEvents (c : Codes) (e : Nat) (d : Byte) : List LinkEvent :=
  coreEvents c (eeAddressWords c.core e ++ [c.core.movlwOf d, c.core.movwfEedata, c.core.bsfWren, c.core.bsfWr])

/-- One poll of `EeWriteCell` (47_eeprom R241). -/
def eePollEvents (c : Codes) (bits : List Bool) : List LinkEvent :=
  coreEvents c [c.core.movfEecon1W, c.core.movwfTablat, c.core.nop] ++ readTxnEvents c.icsp.shiftOutTablat bits

/-- The byte EEPROM_WRITE programs into cell `e` (47_eeprom R243). -/
def eeByte (s : State) (e : Nat) : Byte := if s.cfg.eeZeroBug then 0 else (s.mem.entry8 .eeImg e).getD 0

/-- `EeWriteCell(e, d)` with `k` polls that ends in success, its first poll sampling from the byte at place `at_` on
(47_eeprom R241). -/
def eeWriteCellEvents (c : Codes) (e : Nat) (d : Byte) (bits : List Bool) (at_ k : Nat) : List LinkEvent :=
  eeWriteSetupEvents c e d ++ (List.range k).flatMap (fun j => eePollEvents c (slice8 bits (8 * (at_ + j)))) ++
  coreEvents c [c.core.bcfWren]

/-- What the target answers to a cell's `k` polls, from the byte at place `at_` on: busy at each but the last, where the
write is done (47_eeprom R241). -/
abbrev cellDone (cfg : Config) (bits : List Bool) (at_ k : Nat) : Prop :=
  ∀ j < k, (byteFrom bits (8 * (at_ + j))).getLsbD cfg.eeBusyBit = decide (j + 1 < k)

/-- The cells `0 .. ks.length - 1` of EEPROM_WRITE, cell `e` with `ks[e]` polls (47_eeprom R241, R243). -/
def eeCellsEvents (s : State) (ks : List Nat) (bits : List Bool) : List LinkEvent :=
  (List.range ks.length).flatMap fun e =>
    eeWriteCellEvents s.cfg.codes e (eeByte s e) bits (ks.take e).sum (ks.getD e 0)

/-- Every cell of `ks` is polled at least once and at most `cap` times, and its last poll finds the write done. -/
abbrev cellsDone (cfg : Config) (ks : List Nat) (bits : List Bool) (cap : Nat) : Prop :=
  ∀ e < ks.length, 1 ≤ ks.getD e 0 ∧ ks.getD e 0 ≤ cap ∧ cellDone cfg bits (ks.take e).sum (ks.getD e 0)

/-- The word an image entry is programmed as: `0xFFFF` where it is absent (46_program_verify R213). -/
def imagePayload (m : Memory) (a : Nat) : Word :=
  match m.img .codeImg a with
  | some e => e.payload
  | none => 0xFFFF

/-- Chunk `j` of `ProgramCode()`: every word but the last post-incremented, the last one starting the
programming pulse (46_program_verify R213). -/
def programChunkEvents (cfg : Config) (m : Memory) (width j : Nat) : List LinkEvent :=
  (List.range width).flatMap fun i =>
    if i < width - 1 then sendInsnEvents cfg.codes.icsp.tblwtPostinc2 (imagePayload m (j * width + i))
    else sendInsnEvents cfg.codes.icsp.tblwtPostinc2Startp (imagePayload m (j * width + i)) ++ progPulseEvents cfg

/-- `ProgramCode()` (46_program_verify R213). -/
def programCodeEvents (cfg : Config) (m : Memory) (width chunks : Nat) : List LinkEvent :=
  let c := cfg.codes
  coreEvents c [c.core.bsfEepgd, c.core.bcfCfgs, c.core.bsfWren] ++ gotoAddressEvents c 0x000000 ++
  (List.range chunks).flatMap fun j => programChunkEvents cfg m width j

/-- `CfgWriteSlot(i, v)` (48_config R256). -/
def cfgWriteSlotEvents (cfg : Config) (i : Nat) (v : Word) : List LinkEvent :=
  let c := cfg.codes
  gotoAddressEvents c (slotAddr i) ++
  sendInsnEvents c.icsp.tblwtStartp ((v.setWidth 8).setWidth 16) ++ progPulseEvents cfg ++
  gotoShortEvents c (BitVec.ofNat 8 (2 * i + 1)) ++
  sendInsnEvents c.icsp.tblwtStartp (cfgHighPayload cfg ((v >>> 8).setWidth 8)) ++ progPulseEvents cfg

/-- One slot of the configuration write: an absent slot gets no event (48_config R257, R262). -/
def cfgSlotEvents (cfg : Config) (m : Memory) (i : Nat) : List LinkEvent :=
  match m.img .cfgImg i with
  | some e => if e.present then cfgWriteSlotEvents cfg i e.value else []
  | none => []

/-- `CfgWritePass()` (48_config R257). -/
def cfgWritePassEvents (cfg : Config) (m : Memory) : List LinkEvent :=
  let c := cfg.codes
  if anySlotPresent m then
    coreEvents c [c.core.bsfEepgd, c.core.bsfCfgs] ++ (List.range 8).flatMap fun i => cfgSlotEvents cfg m i
  else []

/-- What code verify compares word `a` with, or nothing: the image value of a present word, and of an absent one
`0xFFFF` where VERIFY_ABSENT says so (46_program_verify R214). -/
def verifyExpects (cfg : Config) (m : Memory) (a : Nat) : Option Word :=
  match m.img .codeImg a with
  | some e => if e.present then some e.value else if cfg.verifyAbsent = .expectFfff then some 0xFFFF else none
  | none => none

/-- Code verify finds no difference in word `a` (46_program_verify R214). -/
abbrev verifyAgrees (cfg : Config) (m : Memory) (a : Nat) (d : Word) : Prop := (verifyExpects cfg m a).all (· == d)

/-- How many of the configuration slots below `i` are present. -/
def presentBelow (m : Memory) (i : Nat) : Nat := ((List.range i).filter fun j => m.present .cfgImg j).length

/-- `CfgVerifyPass()`: the present slots are read, in order (48_config R258). -/
def cfgVerifyEvents (c : Codes) (m : Memory) (bits : List Bool) : List LinkEvent :=
  (List.range 8).flatMap fun i =>
    if m.present .cfgImg i then
      gotoAddressEvents c (slotAddr i) ++ readPairEvents c.icsp.tblrdPostinc c.icsp.tblrd bits (16 * presentBelow m i)
    else []

/-! ## What an operation leaves -/

/-- The host registers after an accepted operation with opcode `op` that raised nothing: CMD, the cleared
results, and DONE (60_exceptions R280, R285). -/
def HostRegs.afterOp (r : HostRegs) (op : Byte) : HostRegs :=
  { r with cmd := op, cause := .none, faultAddr := 0, faultExp := 0, faultAct := 0, result := 0, done := true }

/-- The sequencer after it: idle again, with no position, its latches copied at acceptance (10_state R22, R23,
R29). -/
def State.latched (s : State) (op : Byte) : Sequencer :=
  { busy := false, op := op, position := none, arg0 := s.regs.arg0, arg1 := s.regs.arg1, ctrl := s.regs.ctrl
    pollMax := s.regs.eePollMax, lastPct := none, phase := .none, polls := 0 }

/-- The state after an accepted operation that did nothing but emit `es`: CMD, the latches, the cleared
results, DONE and the link change, and nothing else. -/
def State.afterOutput (s : State) (op : Byte) (es : List LinkEvent) : State :=
  { s with regs := s.regs.afterOp op, seq := s.latched op, link := s.link.observeAll s.cfg es }

/-- The state after an operation refused at issue with cause `c` (60_exceptions R280). -/
def State.afterRefusal (s : State) (op : Byte) (c : Cause) : State :=
  { s with regs := { s.regs.afterOp op with cause := c }, seq := s.latched op }

/-- The state after one link word that emits `es`. -/
def State.afterLink (s : State) (es : List LinkEvent) : State := { s with link := s.link.observeAll s.cfg es }

/-- The opcode and the issue class of each host instruction (30_encoding R101, 60_exceptions R281); `none` for
a link word. -/
def hostOp : Instr → Option (Byte × OpClass)
  | .enter => some (0x01, .enter)
  | .exit => some (0x02, .exit)
  | .identify => some (0x03, .identify)
  | .sendCmd => some (0x10, .raw)
  | .sendWord => some (0x11, .raw)
  | .readWord => some (0x12, .raw)
  | .sendInsn => some (0x13, .raw)
  | .gotoAddr => some (0x14, .raw)
  | .gotoShort => some (0x15, .raw)
  | .blankCheck => some (0x20, .engine)
  | .bulkErase => some (0x21, .engine)
  | .eraseBlock => some (0x22, .eraseBlock)
  | .read => some (0x30, .engine)
  | .write => some (0x31, .engine)
  | .eepromRead => some (0x40, .engine)
  | .eepromWrite => some (0x41, .engine)
  | .dumpUserId => some (0x50, .engine)
  | .dumpConfig => some (0x51, .engine)
  | .reservedHostOpcode op => some (op, .reserved)
  | .core _ | .shiftOutTablat | .tblrd | .tblrdPostinc | .tblrdPostdec | .tblrdPreinc | .tblwt _ | .tblwtPostinc2 _
  | .tblwtPostinc2Startp _ | .tblwtStartp _ | .reservedIcspCommand _ _ | .nop | .movlw _ | .movwfTblptru | .movwfTblptrh
  | .movwfTblptrl | .movwfTablat | .movwfEeadr | .movwfEeadrh | .movwfEedata | .movfEedataW | .movfEecon1W | .bsfEepgd
  | .bcfEepgd | .bsfCfgs | .bcfCfgs | .bsfWren | .bcfWren | .bsfRd | .bsfWr => none

/-- Outside a session the operation is refused with cause STATE (42_session R152, 60_exceptions R281). -/
def sessionGate (i : Instr) (op : Byte) : Prop :=
  ∀ s : State, s.seq.busy = false → s.session ≠ .programming → exec i s = .next (s.afterRefusal op .state)

/-- The gate of an engine operation: STATE outside a session or without an identity, IDENT for an identity that
was not found (44_identity R175, 60_exceptions R281). -/
def engineGate (i : Instr) (op : Byte) : Prop :=
  sessionGate i op ∧
  ∀ s : State, s.seq.busy = false → s.session = .programming →
    (s.ident.status = .unresolved → exec i s = .next (s.afterRefusal op .state)) ∧
    (s.ident.status = .notFound → exec i s = .next (s.afterRefusal op .ident))

/-! ## Where an operation stands -/

/-- The state right after instruction `i` has been accepted with opcode `op`: what its pseudocode does in the
acceptance itself is ENTER's session state and the clearing of CFG_MM (10_state R24, R40; log 24). -/
def State.begun (i : Instr) (op : Byte) (s : State) : State :=
  if i = .enter then (s.accept op).setSession .enteringKey
  else if i = .identify ∨ i = .write then (s.accept op).setCfgMm 0
  else s.accept op

/-- `s` with an access that has no meaning (20_memory R61) as the next input, due after `n` more actions: a run of an
operation stops there. -/
def State.cutAt (s : State) (n : Nat) : State :=
  s.withInputs ({ gap := some n, act := .read 0x000 1 } :: s.bus.inputs)

/-- Where the operation `i`, accepted in `s`, stands with `n` actions of its pseudocode behind it; `none` where it is
refused at issue or has ended before (10_state R22). -/
def State.standing (s : State) (i : Instr) (n : Nat) : Option State :=
  match hostOp i with
  | none => none
  | some (op, k) =>
    if issueCheck k (s.accept op) = .none then
      match (do hostWindow; pseudocode i : Op Unit) ((s.begun i op).cutAt n) with
      | .error (.refused _) t => some t
      | .error .ended _ => none
      | .error (.fault _) _ => none
      | .ok _ _ => none
    else none

/-! ## Invariants -/

/-- The link invariant of 41_signal R141: PGC an output at 0, PGD an output. -/
abbrev Lines.ready (l : Lines) : Prop := l.pgc.dir = .out ∧ l.pgc.lat = false ∧ l.pgd.dir = .out

/-- Between steps no operation runs and the position is idle (10_state R22), so the session is never ENTERING_KEY
(R24); in a session the link invariant holds and MCLR is driven high, and outside one MCLR is undriven (42_session
R150, R151). -/
abbrev State.sessionInv (s : State) : Prop :=
  s.seq.busy = false ∧ s.seq.position = none ∧ s.session ≠ .enteringKey ∧
  (s.session = .programming → s.link.lines.ready ∧ s.link.lines.mclr.drives true = true) ∧
  (s.session = .idle → s.link.lines.mclr.dir = .inp)

/-- The identity and geometry latches are what the catalog gives for the ID that was read (10_state R25, R26,
44_identity R172). -/
def State.identInv (s : State) : Prop :=
  match s.ident.status with
  | .unresolved => s.ident = {}
  | .resolved =>
    ∃ e, s.cfg.dev.catalog[s.ident.index.toNat]? = some e ∧ s.ident.codeSize = e.codeSize ∧
      s.ident.eraseBlocks = e.eraseBlocks ∧ s.ident.wbufWords = e.wbufWords ∧
      maskedId s.ident.devid = e.maskedId ∧ s.ident.rev = revision s.ident.devid
  | .notFound =>
    s.ident.index = 0xFF ∧ s.ident.codeSize = 0 ∧ s.ident.eraseBlocks = 0 ∧ s.ident.wbufWords = 0 ∧
      s.ident.rev = revision s.ident.devid ∧ ∀ e ∈ s.cfg.dev.catalog, e.maskedId ≠ maskedId s.ident.devid

/-- Once an identity is resolved, every image entry an operation may read has been written (10_state R27, R28). -/
def State.imageInv (s : State) : Prop := s.ident.status = .resolved → s.imagesWritten

/-- PROGRESS holds a percentage from 0 to 100, and a phase exactly when it holds one (10_state R37). -/
def State.progressInv (s : State) : Prop :=
  (s.seq.lastPct = none ↔ s.seq.phase = .none) ∧ ∀ p, s.seq.lastPct = some p → p.toNat ≤ 100

/-- The invariant every step keeps. -/
def State.inv (s : State) : Prop :=
  s.mem.wf ∧ s.sessionInv ∧ s.identInv ∧ s.imageInv ∧ s.progressInv

end Sys2Proof.Machine
end

