-- ==== Sys2Proof/Certificates/Slice0/Obligations.lean ====
section
/-! DEFINITION. The statements for the provers. Those about an operation's result say the whole next state; the
undisturbed ones (`quiet`) carry over to runs with host accesses by `HostAccessHarmless`. -/

open Sys2Proof Sys2Proof.Machine

/-! ## Encoding -/

/-- Decoding the encoding of a well-formed instruction gives it back, for every instruction and every operand, at
any code values that can be told apart (30_encoding R101, R104, R108). -/
def Obligations.DecodeEncodeAll : Prop :=
  ∀ (c : Codes) (i : Instr), c.distinct = true → i.wf c = true → decode c (encode c i) = .ok i

/-- What the decoder reads is well formed, and encoding it gives the word back, but for the payload bits that a
command of shape R does not have (30_encoding R100, R105). -/
def Obligations.EncodeDecode : Prop :=
  ∀ (c : Codes) (cw : CodeWord) (i : Instr), decode c cw = .ok i →
    i.wf c = true ∧
    (encode c i = cw ∨
      ∃ code p, cw = .link (.icsp code p) ∧ isReadCode c.icsp code = true ∧ encode c i = .link (.icsp code 0))

/-- Words written out from the tables of 30_encoding R101, R104 and R108, at the default code values, decode to their
instructions. That a core word which R108 does not list is refused by name is the model's choice (log 20). -/
def Obligations.SpecWordsDecode : Prop :=
  decode {} (.hostOpcode 0x01) = .ok .enter ∧ decode {} (.hostOpcode 0x22) = .ok .eraseBlock ∧
  decode {} (.hostOpcode 0x41) = .ok .eepromWrite ∧ decode {} (.hostOpcode 0x51) = .ok .dumpConfig ∧
  decode {} (.hostOpcode 0x04) = .ok (.reservedHostOpcode 0x04) ∧
  decode {} (.link (.icsp 0x0 0x0E3F)) = .ok (.core 0x0E3F) ∧ decode {} (.link (.icsp 0x9 0)) = .ok .tblrdPostinc ∧
  decode {} (.link (.icsp 0xE 0xFFFF)) = .ok (.tblwtPostinc2Startp 0xFFFF) ∧
  decode {} (.link (.icsp 0x3 0x1234)) = .ok (.reservedIcspCommand 0x3 0x1234) ∧
  decode {} (.link (.coreWord 0x6EF8)) = .ok .movwfTblptru ∧ decode {} (.link (.coreWord 0x0E3F)) = .ok (.movlw 0x3F) ∧
  decode {} (.link (.coreWord 0x827F)) = .ok .bsfWr ∧
  decode {} (.link (.coreWord 0x1234)) = .error (.unknownCoreWord 0x1234)

/-- A reserved opcode completes at once with cause BADOP and no link event: CMD, the latches, the cleared results,
CAUSE and DONE change, and nothing else (30_encoding R103). -/
def Obligations.ReservedOpcodeBadop : Prop :=
  (∀ op : Byte, hostOpcodes.contains op = false → decodeHost op = .reservedHostOpcode op) ∧
  ∀ (op : Byte) (s : State), s.seq.busy = false → exec (.reservedHostOpcode op) s = .next (s.afterRefusal op .badop)

/-! ## Reset and the step -/

/-- Reset gives every piece of state its reset value (70_reset R320), emits no link event and leaves the target
alone (R323). -/
def Obligations.ResetState : Prop :=
  ∀ s : State, ∃ r, hostTurn .reset s = .next r ∧
    (∀ line ∈ [r.link.lines.pgc, r.link.lines.pgd, r.link.lines.mclr], line.dir = .inp ∧ line.lat = false) ∧
    r.seq.busy = false ∧ r.seq.position = none ∧ r.seq.op = 0 ∧ r.seq.arg0 = 0 ∧ r.seq.arg1 = 0 ∧ r.seq.ctrl = 0 ∧ r.seq.pollMax = 0 ∧
    r.seq.lastPct = none ∧ r.seq.phase = .none ∧ r.seq.polls = 0 ∧ r.session = .idle ∧ r.ident.status = .unresolved ∧
    r.ident.devid = 0 ∧ r.ident.rev = 0 ∧ r.ident.codeSize = 0 ∧ r.ident.eraseBlocks = 0 ∧ r.ident.wbufWords = 0 ∧
    r.ident.index = 0xFF ∧
    (∀ w i, i < Window.span w → r.mem.present w i = false ∧ r.mem.byte (w.addr i) = none) ∧
    (∀ reg, regWord r reg =
      match reg with
      | .idinfo => 0x0000FF00
      | .eePollMax => s.cfg.dev.eePollMaxReset.setWidth 32
      | _ => 0) ∧
    irq r.regs = false ∧ r.link.trace = s.link.trace ∧ r.link.partner = s.link.partner ∧ r.cfg = s.cfg

/-- The reset state, for every configuration, meets the invariant that every step keeps. -/
def Obligations.ResetMeetsInvariant : Prop := ∀ cfg : Config, (State.resetFor cfg).inv

/-- While no operation runs, a step runs the decoded instruction: a host write of CMD runs the operation of its low byte,
and a placed link word runs the instruction it decodes to; the step takes its own input or word off and adds nothing
else. The queue of inputs and the placed words are the model's (logs 5, 6). -/
def Obligations.StepRunsInstruction : Prop :=
  (∀ (s : State) (gap : Option Nat) (v : HostWord) (rest : List Input), s.seq.busy = false → s.txns = [] →
    s.bus.inputs = { gap := gap, act := .write 0x000 4 v } :: rest →
    step s = exec (decodeHost (v.setWidth 8)) (s.withInputs rest)) ∧
  ∀ (s : State) (w : LinkWord) (rest : List LinkWord) (i : Instr), s.seq.busy = false → s.txns = w :: rest →
    decodeLink s.cfg.codes w = .ok i → step s = exec i { s with txns := rest }

/-- What a step does when it runs no instruction: with an operation running it goes on with that operation; a word that is
no core word is refused, a host access other than an issue is served, and with nothing pending the block is idle. The
resumed operation, the queue, the idle step and that refusal are the model's (logs 5, 11, 17, 20). -/
def Obligations.StepOtherwise : Prop :=
  (∀ s : State, s.seq.busy = true → step s = resume s) ∧
  (∀ (s : State) (w x : Word) (rest : List LinkWord), s.seq.busy = false → s.txns = .coreWord w :: rest →
    decodeLink s.cfg.codes (.coreWord w) = .error (.unknownCoreWord x) →
    step s = .refused (.unknownCoreWord w)) ∧
  (∀ (s : State) (i : Input) (rest : List Input), s.seq.busy = false → s.txns = [] → s.bus.inputs = i :: rest →
    issuedOpcode i.act = none → step s = hostTurn i.act (s.withInputs rest)) ∧
  ∀ s : State, s.seq.busy = false → s.txns = [] → s.bus.inputs = [] → step s = .next s

/-- A running operation goes on from its position to its end: for every one of the 18 operations and every number `n` of
actions it can have behind it, a step from the state in which it then stands ends as the whole operation does. Of the
operations that only emit events and then complete, and of ENTER while it emits, that state is given in full. (10_state
R22; the resumed operation and what an action is are the model's, log 11.) -/
def Obligations.RunningOperationGoesOn : Prop :=
  (∀ (s t : State) (i : Instr) (n : Nat), s.seq.busy = false → s.quiet → s.standing i n = some t →
    t.seq.busy = true ∧ t.seq.position.map Position.taken = some n ∧ step t = exec i s) ∧
  ∀ (s : State) (i : Instr) (op : Byte) (es : List LinkEvent) (n : Nat), s.seq.busy = false → s.quiet →
    (let mid (x : Session) : State := { s.accept op with
        session := x
        link := s.link.observeAll s.cfg (es.take n)
        seq := { (s.accept op).seq with position := some { taken := n } } }
    n ≤ es.length →
    (s.session = .idle → (i, op, es) = (.enter, 0x01, enterEvents s.cfg) →
      s.standing i n = some (mid .enteringKey) ∧ step (mid .enteringKey) = exec i s) ∧
    (s.session = .programming →
      (i, op, es) ∈ [(.exit, 0x02, exitEvents), (.sendCmd, 0x10, sendCmdEvents (s.regs.arg0.setWidth 4)),
        (.sendWord, 0x11, sendWordEvents s.regs.arg1),
        (.sendInsn, 0x13, sendInsnEvents (s.regs.arg0.setWidth 4) s.regs.arg1),
        (.gotoAddr, 0x14, gotoAddressEvents s.cfg.codes s.regs.arg0),
        (.gotoShort, 0x15, gotoShortEvents s.cfg.codes (s.regs.arg0.setWidth 8))] →
      s.standing i n = some (mid .programming) ∧ step (mid .programming) = exec i s))

/-! ## The host bus -/

/-- Every STATUS bit at its place (10_state R30, R34), with the codes of R24, R25. -/
def Obligations.StatusRegisterFields : Prop :=
  ∀ s : State,
    (statusWord s).getLsbD 0 = s.seq.busy ∧
    (statusWord s).extractLsb' 1 2 =
      (match s.session with
        | .idle => 0
        | .enteringKey => 1
        | .programming => 2) ∧
    (statusWord s).extractLsb' 3 2 =
      (match s.ident.status with
        | .unresolved => 0
        | .resolved => 1
        | .notFound => 2) ∧
    (statusWord s).getLsbD 5 = s.regs.done ∧ ((statusWord s).getLsbD 6 = true ↔ s.regs.cause ≠ .none) ∧
    ((statusWord s).getLsbD 7 = true ↔ s.regs.cfgMm ≠ 0) ∧ (statusWord s).getLsbD 8 = s.regs.progEvt ∧
    (statusWord s).getLsbD 9 = s.regs.overrun ∧ (statusWord s).getLsbD 10 = s.regs.accErr ∧ statusWord s >>> 11 = 0

/-- The fields of the registers that are views of other state: PROGRESS, IDINFO, GEOM and PINS (10_state R30, R37,
R38, R41). -/
def Obligations.ViewRegisterFields : Prop :=
  ∀ s : State,
    ((regWord s .progress).getLsbD 7 = s.seq.lastPct.isSome ∧
      (regWord s .progress).extractLsb' 0 7 = s.seq.lastPct.getD 0 ∧
      (regWord s .progress).extractLsb' 8 3 =
        (match s.seq.phase with
          | .none => 0
          | .erase => 1
          | .program => 2
          | .verify => 3
          | .read => 4
          | .blank => 5) ∧ regWord s .progress >>> 11 = 0) ∧
    ((regWord s .idinfo).extractLsb' 0 8 = s.ident.rev.setWidth 8 ∧ (regWord s .idinfo).extractLsb' 8 8 = s.ident.index ∧
      regWord s .idinfo >>> 16 = 0) ∧
    ((regWord s .geom).extractLsb' 0 8 = s.ident.eraseBlocks.setWidth 8 ∧
      (regWord s .geom).extractLsb' 8 8 = s.ident.wbufWords.setWidth 8 ∧ regWord s .geom >>> 16 = 0) ∧
    (((regWord s .pins).getLsbD 0 = true ↔ s.link.lines.pgc.dir = .out) ∧
      (regWord s .pins).getLsbD 1 = s.link.lines.pgc.lat ∧
      ((regWord s .pins).getLsbD 2 = true ↔ s.link.lines.pgd.dir = .out) ∧
      (regWord s .pins).getLsbD 3 = s.link.lines.pgd.lat ∧
      ((regWord s .pins).getLsbD 4 = true ↔ s.link.lines.mclr.dir = .out) ∧
      (regWord s .pins).getLsbD 5 = s.link.lines.mclr.lat ∧ regWord s .pins >>> 6 = 0)

/-- A host read of a register while no operation runs returns its field at its offset and changes nothing: the fields of
each register in terms of the state, with the codes of CAUSE (10_state R30, R35, 20_memory R75, 60_exceptions R283).
STATUS, PROGRESS, IDINFO, GEOM and PINS are given field by field in `StatusRegisterFields` and `ViewRegisterFields`. -/
def Obligations.HostReadsRegister : Prop :=
  ∀ s : State,
    (let view : List (Reg × HostOffset × HostWord) := [
      (.cmd, 0x000, s.regs.cmd.setWidth 32), (.arg0, 0x004, s.regs.arg0.setWidth 32),
      (.arg1, 0x008, s.regs.arg1.setWidth 32), (.ctrl, 0x00C, s.regs.ctrl.setWidth 32), (.status, 0x010, statusWord s),
      (.cause, 0x014,
        match s.regs.cause with
        | .none => 0
        | .badop => 1
        | .state => 2
        | .ident => 3
        | .badarg => 4
        | .verify => 5
        | .nonblank => 6
        | .eeTimeout => 7),
      (.faultAddr, 0x018, s.regs.faultAddr.setWidth 32), (.faultExp, 0x01C, s.regs.faultExp.setWidth 32),
      (.faultAct, 0x020, s.regs.faultAct.setWidth 32), (.result, 0x024, s.regs.result.setWidth 32),
      (.progress, 0x028, regWord s .progress), (.devid, 0x02C, s.ident.devid.setWidth 32),
      (.idinfo, 0x030, regWord s .idinfo), (.codeSize, 0x034, s.ident.codeSize.setWidth 32),
      (.geom, 0x038, regWord s .geom), (.eePollMax, 0x03C, s.regs.eePollMax.setWidth 32),
      (.cfgMm, 0x040, s.regs.cfgMm.setWidth 32), (.pins, 0x044, regWord s .pins)]
    (∀ r : Reg, (r, r.offset, regWord s r) ∈ view) ∧
    ∀ (r : Reg) (o : HostOffset) (v : HostWord), (r, o, v) ∈ view → s.seq.busy = false →
      hostTurn (.read o 4) s = .next { s with bus := { s.bus with reads := (o, v) :: s.bus.reads } })

/-- Host writes while no operation runs: ARG0, ARG1, CTRL and EE_POLL_MAX store their bits, STATUS clears the sticky
bits written 1, and the read-only registers ignore a write (10_state R30, R32, R33, R34, R39). -/
def Obligations.HostWritesRegister : Prop :=
  ∀ (s : State) (v : HostWord), s.seq.busy = false →
    hostTurn (.write 0x004 4 v) s = .next { s with regs := { s.regs with arg0 := v.setWidth 24 } } ∧
    hostTurn (.write 0x008 4 v) s = .next { s with regs := { s.regs with arg1 := v.setWidth 16 } } ∧
    hostTurn (.write 0x00C 4 v) s = .next { s with regs := { s.regs with ctrl := v.setWidth 3 } } ∧
    hostTurn (.write 0x03C 4 v) s = .next { s with regs := { s.regs with eePollMax := v.setWidth 16 } } ∧
    hostTurn (.write 0x010 4 v) s =
      .next { s with regs := { s.regs with
        done := s.regs.done && !v.getLsbD 5
        progEvt := s.regs.progEvt && !v.getLsbD 8
        overrun := s.regs.overrun && !v.getLsbD 9
        accErr := s.regs.accErr && !v.getLsbD 10 } } ∧
    ∀ o ∈ [0x014, 0x018, 0x01C, 0x020, 0x024, 0x028, 0x02C, 0x030, 0x034, 0x038, 0x040, 0x044],
      hostTurn (.write o 4 v) s = .next s

/-- A host write of a buffer entry while no operation runs stores its bits, value and present together, and leaves
every other entry of every buffer and all other state; CFG_RB and UID_BUF ignore a write (20_memory R62). -/
def Obligations.BufferWriteStores : Prop :=
  (∀ (s : State) (w : Window) (i : Nat) (v : HostWord), s.seq.busy = false → w ∈ [.cfgImg, .eeImg, .codeImg] →
    i < w.backed s.cfg → ∃ m,
      hostTurn (.write (BitVec.ofNat 21 (w.addr i)) 4 v) s = .next { s with mem := m } ∧
      entryWord m w i = some (v &&& (if w = .eeImg then 0x000000FF else 0x0001FFFF)) ∧
      (∀ b, ¬(w.addr i ≤ b ∧ b < w.addr i + 3) → m.byte b = s.mem.byte b) ∧
      ∀ w' j, j < w'.backed s.cfg → (w', j) ≠ (w, i) → entryWord m w' j = entryWord s.mem w' j) ∧
  ∀ (s : State) (w : Window) (i : Nat) (v : HostWord), s.seq.busy = false → w ∈ [.cfgRb, .uidBuf] → i < 8 →
    hostTurn (.write (BitVec.ofNat 21 (w.addr i)) 4 v) s = .next s

/-- A host read of a buffer entry while no operation runs returns its bits, and is a fault of the model where nothing has
written it (10_state R27, 20_memory R62): CFG_IMG and CODE_IMG the value and the present bit, CFG_RB the 16-bit value,
UID_BUF and EE_IMG the byte. -/
def Obligations.BufferReadOrFault : Prop :=
  (∀ (s : State) (w : Window) (i : Nat), s.seq.busy = false → i < w.backed s.cfg →
    hostTurn (.read (BitVec.ofNat 21 (w.addr i)) 4) s =
      match entryWord s.mem w i with
      | some v => .next { s with bus := { s.bus with reads := (BitVec.ofNat 21 (w.addr i), v) :: s.bus.reads } }
      | none => .fault (.unwrittenEntry (w.addr i))) ∧
  ∀ (m : Memory) (i : Nat),
    (∀ w ∈ [Window.cfgImg, .codeImg], ∀ v : HostWord, entryWord m w i = some v ↔
      ∃ e, m.img w i = some e ∧ v.extractLsb' 0 16 = e.value ∧ v.getLsbD 16 = e.present ∧ v >>> 17 = 0) ∧
    (∀ v : HostWord, entryWord m .cfgRb i = some v ↔
      ∃ x, m.entry16 .cfgRb i = some x ∧ v.extractLsb' 0 16 = x ∧ v >>> 16 = 0) ∧
    (∀ w ∈ [Window.uidBuf, .eeImg], ∀ v : HostWord, entryWord m w i = some v ↔
      ∃ x, m.entry8 w i = some x ∧ v.extractLsb' 0 8 = x ∧ v >>> 8 = 0) ∧
    Window.cfgImg.addr i = 0x100 + 4 * i ∧ Window.cfgRb.addr i = 0x120 + 4 * i ∧ Window.uidBuf.addr i = 0x140 + 4 * i ∧
    Window.eeImg.addr i = 0x1000 + 4 * i ∧ Window.codeImg.addr i = 0x100000 + 4 * i

/-- Only aligned 32-bit host accesses are defined; an entry beyond its buffer reads 0, and a write of it is ignored
and sets ACC_ERR; each whether an operation runs or not (20_memory R61). That such an entry reads 0 also during an
operation, where R63 makes a buffer read any value, is the model's (log 9). -/
def Obligations.HostAccessWidths : Prop :=
  (∀ (s : State) (o : HostOffset) (width : Nat) (v : HostWord), width ≠ 4 ∨ o.toNat % 4 ≠ 0 →
    hostTurn (.read o width) s = .refused (.undefinedAccess o width) ∧
    hostTurn (.write o width v) s = .refused (.undefinedAccess o width) ∧
    busyAct (.read o width) s = .error (.refused (.undefinedAccess o width)) s ∧
    busyAct (.write o width v) s = .error (.refused (.undefinedAccess o width)) s) ∧
  (∀ (s : State) (w : Window) (i : Nat) (v : HostWord), s.seq.busy = false → w.backed s.cfg ≤ i → i < w.span →
    hostTurn (.read (BitVec.ofNat 21 (w.addr i)) 4) s =
      .next { s with bus := { s.bus with reads := (BitVec.ofNat 21 (w.addr i), 0) :: s.bus.reads } } ∧
    hostTurn (.write (BitVec.ofNat 21 (w.addr i)) 4 v) s = .next { s with regs := { s.regs with accErr := true } }) ∧
  ∀ (s : State) (w : Window) (i : Nat) (v : HostWord), w.backed s.cfg ≤ i → i < w.span →
    busyAct (.read (BitVec.ofNat 21 (w.addr i)) 4) s =
      .ok () { s with bus := { s.bus with reads := (BitVec.ofNat 21 (w.addr i), 0) :: s.bus.reads } } ∧
    busyAct (.write (BitVec.ofNat 21 (w.addr i)) 4 v) s = .ok () { s with regs := { s.regs with accErr := true } }

/-- An offset outside the registers and the windows reads 0, and a write to it is ignored (20_memory R60). -/
def Obligations.UnmappedOffsets : Prop :=
  ∀ (s : State) (o : HostOffset) (v : HostWord), s.seq.busy = false → o.toNat % 4 = 0 →
    ((0x048 ≤ o.toNat ∧ o.toNat < 0x100) ∨ (0x160 ≤ o.toNat ∧ o.toNat < 0x1000) ∨
      (0x2000 ≤ o.toNat ∧ o.toNat < 0x100000)) →
    hostTurn (.read o 4) s = .next { s with bus := { s.bus with reads := (o, 0) :: s.bus.reads } } ∧
    hostTurn (.write o 4 v) s = .next s

/-- Host accesses during an operation: a register reads its current value, a buffer entry any value of its bits, a
write of STATUS clears, a write of CMD sets OVERRUN, any other write is ignored and sets ACC_ERR (20_memory R63). That a
draw keeps to its window's bits and an unmapped offset reads 0 is the model's (log 9), and so is that a write of an
unmapped offset is one of the others (log 10). -/
def Obligations.BusyAccess : Prop :=
  (∀ (s : State) (r : Reg), busyAct (.read r.offset 4) s =
    .ok () { s with bus := { s.bus with reads := (r.offset, regWord s r) :: s.bus.reads } }) ∧
  (∀ (s : State) (w : Window) (i : Nat), i < w.backed s.cfg → ∃ v : HostWord, ∃ draws,
    busyAct (.read (BitVec.ofNat 21 (w.addr i)) 4) s =
      .ok () { s with bus := { s.bus with
        reads := (BitVec.ofNat 21 (w.addr i), v &&& w.mask) :: s.bus.reads, draws := draws } }) ∧
  (∀ (s : State) (o : HostOffset), o.toNat % 4 = 0 →
    ((0x048 ≤ o.toNat ∧ o.toNat < 0x100) ∨ (0x160 ≤ o.toNat ∧ o.toNat < 0x1000) ∨
      (0x2000 ≤ o.toNat ∧ o.toNat < 0x100000)) →
    busyAct (.read o 4) s = .ok () { s with bus := { s.bus with reads := (o, 0) :: s.bus.reads } }) ∧
  (∀ (s : State) (v : HostWord), busyAct (.write 0x010 4 v) s =
    .ok () { s with regs := { s.regs with
      done := s.regs.done && !v.getLsbD 5
      progEvt := s.regs.progEvt && !v.getLsbD 8
      overrun := s.regs.overrun && !v.getLsbD 9
      accErr := s.regs.accErr && !v.getLsbD 10 } }) ∧
  (∀ (s : State) (v : HostWord), busyAct (.write 0x000 4 v) s =
    .ok () { s with regs := { s.regs with overrun := true } }) ∧
  ∀ (s : State) (o : HostOffset) (v : HostWord), o.toNat % 4 = 0 → o ≠ 0x000 → o ≠ 0x010 →
    busyAct (.write o 4 v) s = .ok () { s with regs := { s.regs with accErr := true } }

/-- Host accesses that arrive during an operation change nothing of what it does: from the same state with those
accesses pending, every instruction ends in the same link trace, lines, buffers, identity, session and registers, but
for the four sticky STATUS bits and what the host has read (20_memory R63, R76; 60_exceptions R291, R292). How an
access arrives is the model's (logs 5, 11), and so is it that a read of a buffer entry that nothing has written is then a
free value and the operation goes on (log 9), and what a write of an unmapped offset then does (log 10). -/
def Obligations.HostAccessHarmless : Prop :=
  ∀ (i : Instr) (s t : State), (∀ x ∈ s.bus.inputs, x.act.benign = true) → exec i (s.withInputs []) = .next t →
    ∃ t', exec i s = .next t' ∧ t'.link = t.link ∧ t'.mem = t.mem ∧ t'.ident = t.ident ∧ t'.session = t.session ∧
      t'.seq = t.seq ∧ t'.cfg = t.cfg ∧ t'.txns = t.txns ∧
      { t'.regs with
        done := t.regs.done, progEvt := t.regs.progEvt, overrun := t.regs.overrun, accErr := t.regs.accErr } = t.regs

/-- The IRQ level: DONE under DONE_IE or PROG_EVT under PROG_IE, whatever OVERRUN and ACC_ERR are; acknowledging both
bits lowers it (60_exceptions R288, R290). -/
def Obligations.IrqOutput : Prop :=
  ∀ r : HostRegs,
    (irq r = true ↔ (r.done = true ∧ r.ctrl.getLsbD 1 = true) ∨ (r.progEvt = true ∧ r.ctrl.getLsbD 2 = true)) ∧
    (∀ a b, irq { r with overrun := a, accErr := b } = irq r) ∧ irq (r.w1c 0x00000120) = false ∧
    (r.w1c 0x00000120).cause = r.cause ∧ (r.w1c 0x00000120).faultAddr = r.faultAddr ∧
    (r.w1c 0x00000120).faultExp = r.faultExp ∧ (r.w1c 0x00000120).faultAct = r.faultAct

/-- The progress reporter changes PROGRESS and PROG_EVT exactly when the phase or the percentage changes; a report that a
running operation performs, undisturbed and wherever it stands, does that and moves the position on by one action; and a
walk's percentage never falls, stays within 100, and is 100 exactly at its end (46_program_verify R211). That a report is
one action of the position is the model's (log 11). -/
def Obligations.ProgressEmission : Prop :=
  (∀ (s : State) (ph : Phase) (p : BitVec 7), s.reportProgress ph p =
    (if ph ≠ s.seq.phase ∨ s.seq.lastPct = none ∨ s.seq.lastPct ≠ some p then
      { s with seq := { s.seq with lastPct := some p, phase := ph }, regs := { s.regs with progEvt := true } } else s)) ∧
  (∀ (s : State) (ph : Phase) (p : BitVec 7) (q : Position), s.quiet → s.seq.position = some q → q.again = 0 →
    emitProgress ph p s = .ok () { s.reportProgress ph p with
      seq := { (s.reportProgress ph p).seq with position := some { q with taken := q.taken + 1 } } }) ∧
  ∀ (size : Addr) (n : Nat), size.toNat = 2 * n → 0 < n →
    (∀ d, d ≤ n → (walkPct d size).toNat = d * 200 / size.toNat ∧ (walkPct d size).toNat ≤ 100) ∧
    (∀ d d', d ≤ d' → d' ≤ n → (walkPct d size).toNat ≤ (walkPct d' size).toNat) ∧
    ∀ d, d ≤ n → (walkPct d size = 100 ↔ d = n)

/-! ## Issue -/

/-- A host write of CMD while an operation runs changes nothing but OVERRUN, whatever the opcode (10_state R31,
60_exceptions R280). -/
def Obligations.BusyIssueOverrun : Prop :=
  ∀ (i : Instr) (op : Byte) (k : OpClass) (s : State), hostOp i = some (op, k) → s.seq.busy = true →
    exec i s = .next { s with regs := { s.regs with overrun := true } }

/-- Every refusal at issue, with its cause: the operation emits no link event and changes no state but CMD, the latches,
the cleared registers, CAUSE and DONE (60_exceptions R280, R281, R282). -/
def Obligations.RefusedIssue : Prop :=
  ∀ (i : Instr) (op : Byte) (k : OpClass) (s : State), hostOp i = some (op, k) → s.seq.busy = false →
    (k = .reserved → exec i s = .next (s.afterRefusal op .badop)) ∧
    (i = .enter → s.session ≠ .idle → exec i s = .next (s.afterRefusal op .state)) ∧
    (k ≠ .reserved → i ≠ .enter → s.session ≠ .programming → exec i s = .next (s.afterRefusal op .state)) ∧
    (i = .identify → s.session = .programming → s.ident.status ≠ .unresolved →
      exec i s = .next (s.afterRefusal op .state)) ∧
    (k = .engine ∨ k = .eraseBlock → s.session = .programming → s.ident.status = .unresolved →
      exec i s = .next (s.afterRefusal op .state)) ∧
    (k = .engine ∨ k = .eraseBlock → s.session = .programming → s.ident.status = .notFound →
      exec i s = .next (s.afterRefusal op .ident)) ∧
    (i = .eraseBlock → s.session = .programming → s.ident.status = .resolved →
      10 < (s.regs.arg0 &&& 0xF).toNat ∨
        (3 ≤ (s.regs.arg0 &&& 0xF).toNat ∧ s.ident.eraseBlocks.toNat ≤ (s.regs.arg0 &&& 0xF).toNat - 3) →
      exec i s = .next (s.afterRefusal op .badarg))

/-- A reset that arrives during an operation ends it there: DONE is not set, and every piece of state has its reset value
(70_reset R322). Of an operation that samples nothing, exactly the `n` events before the reset were emitted, from none
right after the acceptance to all of them; of any operation, the events before it stay in the trace. What of the outside
a reset keeps, when it arrives, and the word of a whole NOP in `eraseBlockEvents`, are the model's (logs 5, 11, 15,
28). -/
def Obligations.ResetDuringOperation : Prop :=
  (∀ (s : State) (i : Instr) (es : List LinkEvent) (n : Nat) (rest : List Input), s.seq.busy = false →
    s.bus.inputs = { gap := some n, act := .reset } :: rest → n ≤ es.length →
    (s.session = .idle ∧ i = .enter ∧ es = enterEvents s.cfg) ∨
      (s.session = .programming ∧
        (i, es) ∈ [(.exit, exitEvents), (.sendCmd, sendCmdEvents (s.regs.arg0.setWidth 4)),
          (.sendWord, sendWordEvents s.regs.arg1), (.sendInsn, sendInsnEvents (s.regs.arg0.setWidth 4) s.regs.arg1),
          (.gotoAddr, gotoAddressEvents s.cfg.codes s.regs.arg0),
          (.gotoShort, gotoShortEvents s.cfg.codes (s.regs.arg0.setWidth 8))]) ∨
      (s.session = .programming ∧ s.ident.status = .resolved ∧ i = .eraseBlock ∧
        s.ident.regionLegal (s.regs.arg0 &&& 0xF).toNat = true ∧ es = eraseBlockEvents s.cfg (s.regs.arg0 &&& 0xF).toNat) →
    exec i s =
      .next { State.resetFor s.cfg with
        link := {
          trace := (es.take n).reverse ++ s.link.trace
          partner := (s.link.observeAll s.cfg (es.take n)).partner
          draws := s.link.draws }
        bus := { s.bus with inputs := rest } }) ∧
  ∀ (s t : State) (i : Instr) (n : Nat) (rest : List Input), s.seq.busy = false → (hostOp i).isSome →
    s.bus.inputs = { gap := some n, act := .reset } :: rest → exec i s = .next t → t.bus.inputs = rest →
    ∃ (before : List LinkEvent) (partner : Partner) (draws : Nat),
      t = { State.resetFor s.cfg with
        link := { trace := before ++ s.link.trace, partner := partner, draws := draws }
        bus := { s.bus with inputs := rest } }

/-! ## Signal primitives, session and addressing -/

/-- Bits sampled are assembled least significant first, and a word's low byte comes first (20_memory R69, R70,
41_signal R134). -/
def Obligations.SampledBits : Prop :=
  (∀ (bits : List Bool) (k : Nat), bits.length = 8 → (byteOfBits bits).getLsbD k = bits.getD k false) ∧
  ∀ (bits : List Bool) (j k : Nat), j + 16 ≤ bits.length → k < 16 → (wordFrom bits j).getLsbD k = bits.getD (j + k) false

/-- SEND_CMD, SEND_WORD and SEND_INSN emit the bits of their latched operands, least significant first, and change
nothing else; outside a session they are refused (41_signal R137, R138, R140). -/
def Obligations.SendOperations : Prop :=
  sessionGate .sendCmd 0x10 ∧ sessionGate .sendWord 0x11 ∧ sessionGate .sendInsn 0x13 ∧
  ∀ s : State, s.sessionReady →
    exec .sendCmd s = .next (s.afterOutput 0x10
      (((List.range 4).flatMap fun k => outCellEvents (s.regs.arg0.getLsbD k)) ++ [.delay .tCmdData])) ∧
    exec .sendWord s = .next (s.afterOutput 0x11
      (((List.range 16).flatMap fun k => outCellEvents (s.regs.arg1.getLsbD k)) ++ [.delay .tDataCmd])) ∧
    exec .sendInsn s = .next (s.afterOutput 0x13
      (((List.range 4).flatMap fun k => outCellEvents (s.regs.arg0.getLsbD k)) ++ [.delay .tCmdData] ++
        ((List.range 16).flatMap fun k => outCellEvents (s.regs.arg1.getLsbD k)) ++ [.delay .tDataCmd]))

/-- READ_WORD puts the eight bits it samples into RESULT, least significant first and zero-extended, and changes
nothing else; outside a session it is refused (41_signal R134, R139). -/
def Obligations.ReadWordResult : Prop :=
  sessionGate .readWord 0x12 ∧
  ∀ s : State, s.sessionReady → ∃ (bits : List Bool) (l' : LinkSide) (w : Word),
    bits.length = 8 ∧ s.link.Ran l' (readWordEvents bits) ∧ (∀ k < 16, w.getLsbD k = bits.getD k false) ∧
    exec .readWord s =
      .next { s with regs := { s.regs.afterOp 0x12 with result := w }, seq := s.latched 0x12, link := l' }

/-- GOTO_ADDR sends the three pointer bytes, upper, high, low, each as a MOVLW and a MOVWF; GOTO_SHORT sends the low
one; neither changes anything else; outside a session they are refused (43_addressing R160 to R163). -/
def Obligations.GotoOperations : Prop :=
  sessionGate .gotoAddr 0x14 ∧ sessionGate .gotoShort 0x15 ∧
  ∀ s : State, s.sessionReady →
    exec .gotoAddr s = .next (s.afterOutput 0x14 (coreEvents s.cfg.codes
      [s.cfg.codes.core.movlwOf (s.regs.arg0.extractLsb' 16 8), s.cfg.codes.core.movwfTblptru,
        s.cfg.codes.core.movlwOf (s.regs.arg0.extractLsb' 8 8), s.cfg.codes.core.movwfTblptrh,
        s.cfg.codes.core.movlwOf (s.regs.arg0.extractLsb' 0 8), s.cfg.codes.core.movwfTblptrl])) ∧
    exec .gotoShort s = .next (s.afterOutput 0x15 (coreEvents s.cfg.codes
      [s.cfg.codes.core.movlwOf (s.regs.arg0.extractLsb' 0 8), s.cfg.codes.core.movwfTblptrl]))

/-- ENTER runs the MCLR sequence with the key most significant bit first, forgets the identity, and leaves the link
ready with MCLR driven high in session PROGRAMMING; nothing else changes. From its acceptance to its last event STATUS
reads BUSY and ENTERING_KEY; outside IDLE it is refused (42_session R150, 10_state R24). That the session is ENTERING_KEY
for a read right after the acceptance, and when a read during the operation arrives, is the model's (logs 5, 11, 24). -/
def Obligations.EnterResult : Prop :=
  (∀ s : State, s.seq.busy = false → s.session ≠ .idle → exec .enter s = .next (s.afterRefusal 0x01 .state)) ∧
  (∀ (s : State) (n : Nat) (rest : List Input), s.seq.busy = false → s.session = .idle →
    s.bus.inputs = { gap := some n, act := .read 0x010 4 } :: rest → rest.head?.bind Input.gap = none →
    n ≤ (enterEvents s.cfg).length →
    ∃ (t : State) (w : HostWord), exec .enter s = .next t ∧ t.bus.reads = (0x010, w) :: s.bus.reads ∧
      w.getLsbD 0 = true ∧ w.extractLsb' 1 2 = 1 ∧ t.session = .programming) ∧
  ∀ s : State, s.seq.busy = false → s.session = .idle → s.quiet → ∃ t, exec .enter s = .next t ∧
    t = { s.afterOutput 0x01
        ([.pin .pgc false, .dir .pgc .out, .pin .pgd false, .dir .pgd .out, .dir .mclr .inp, .delay .tEn1, .pin .mclr true,
          .dir .mclr .out, .delay .tEn2, .pin .mclr false, .delay .tEn3] ++
          ((List.range 32).flatMap fun j => outCellEvents (s.cfg.magicKey.getLsbD (31 - j))) ++
          [.pin .pgd false, .delay .tKeyEnd, .pin .mclr true, .delay .tEnDone])
      with session := .programming, ident := {} } ∧
    t.link.lines =
      { pgc := { dir := .out, lat := false }, pgd := { dir := .out, lat := false }, mclr := { dir := .out, lat := true } }

/-- EXIT drops the clock and data lines, drives MCLR low and releases it; the session is IDLE; identity, buffers and all
else are unchanged; outside a session it is refused (42_session R151). -/
def Obligations.ExitResult : Prop :=
  sessionGate .exit 0x02 ∧
  ∀ s : State, s.sessionReady → exec .exit s =
    .next { s.afterOutput 0x02
        [.pin .pgc false, .pin .pgd false, .delay .tEx1, .pin .mclr false, .delay .tEx2, .dir .mclr .inp]
      with session := .idle }

/-! ## Identity -/

/-- The comparator finds the entry with exactly the masked ID, which in a well-formed catalog is the only one, and none
where there is none (44_identity R173). -/
def Obligations.CatalogLookup : Prop :=
  ∀ (d : DeviceParams) (m : Word), d.wf = true →
    (∀ k e, lookup m d.catalog = some (k, e) ↔ d.catalog[k]? = some e ∧ e.maskedId = m) ∧
    (lookup m d.catalog = none ↔ ∀ e ∈ d.catalog, e.maskedId ≠ m) ∧
    ∀ (j k : Nat) (e f : CatalogEntry), d.catalog[j]? = some e → d.catalog[k]? = some f → e.maskedId = f.maskedId → j = k

/-- IDENTIFY of an ID whose masked value a catalog entry has, whatever the revision bits: identity, geometry and
revision are latched, the images below the active length become absent `0xFFFF`, and nothing else changes (10_state R28,
44_identity R171, R172). -/
def Obligations.IdentifyResolves : Prop :=
  ∀ (s : State) (bits rest : List Bool) (k : Nat) (e : CatalogEntry), s.sessionReady → s.ident.status = .unresolved →
    bits.length = 16 → s.link.partner = .oracle (bits ++ rest) → s.cfg.dev.catalog[k]? = some e →
    e.maskedId = wordFrom bits 0 &&& 0xFFE0 →
    ∃ (l' : LinkSide) (m : Memory), s.link.Ran l' (readDevIdEvents s.cfg.codes bits) ∧
      exec .identify s = .next { s with
        regs := { s.regs.afterOp 0x03 with cfgMm := 0 }
        seq := s.latched 0x03
        ident := {
          status := .resolved, devid := wordFrom bits 0, rev := (wordFrom bits 0).setWidth 5, index := BitVec.ofNat 8 k
          codeSize := e.codeSize, eraseBlocks := e.eraseBlocks, wbufWords := e.wbufWords }
        mem := m
        link := l' } ∧
      (∀ a < e.codeSize.toNat / 2, m.img .codeImg a = some { value := 0xFFFF, present := false }) ∧
      (∀ i < 8, m.img .cfgImg i = some { value := 0xFFFF, present := false }) ∧
      ∀ b, (∀ a < e.codeSize.toNat / 2, ¬(0x100000 + 4 * a ≤ b ∧ b < 0x100000 + 4 * a + 3)) →
        (∀ i < 8, ¬(0x100 + 4 * i ≤ b ∧ b < 0x100 + 4 * i + 3)) → m.byte b = s.mem.byte b

/-- IDENTIFY of an ID that no entry matches: the identity is NOT_FOUND, the fault is IDENT with the raw ID, and no buffer
is changed; CFG_MM is cleared, as it is for every IDENTIFY that passes its issue check (10_state R40; log 23).
(44_identity R172, 60_exceptions R286.) -/
def Obligations.IdentifyNotFound : Prop :=
  ∀ (s : State) (bits rest : List Bool), s.sessionReady → s.ident.status = .unresolved →
    bits.length = 16 → s.link.partner = .oracle (bits ++ rest) →
    (∀ e ∈ s.cfg.dev.catalog, e.maskedId ≠ wordFrom bits 0 &&& 0xFFE0) →
    ∃ l' : LinkSide, s.link.Ran l' (readDevIdEvents s.cfg.codes bits) ∧
      exec .identify s = .next { s with
        regs := { s.regs.afterOp 0x03 with
          cause := .ident, faultAddr := 0x3FFFFE, faultExp := 0, faultAct := wordFrom bits 0, cfgMm := 0 }
        seq := s.latched 0x03
        ident := {
          status := .notFound, devid := wordFrom bits 0, rev := (wordFrom bits 0).setWidth 5, index := 0xFF
          codeSize := 0, eraseBlocks := 0, wbufWords := 0 }
        link := l' }

/-! ## Erase -/

/-- ERASE_BLOCK of a legal region writes its selector's three bytes, doubled, to the three erase-control registers, sends
the latching NOPs with the hold where the parameter puts it, reports 100 percent, and changes nothing else; it is refused
without a session or an identity, and for an illegal region (45_erase R190, R191). That a whole NOP is CORE_WORD[NOP] at
every configuration is the model's (log 28). -/
def Obligations.EraseBlockResult : Prop :=
  engineGate .eraseBlock 0x22 ∧
  (∀ s : State, s.engineReady →
    10 < (s.regs.arg0 &&& 0xF).toNat ∨
      (3 ≤ (s.regs.arg0 &&& 0xF).toNat ∧ s.ident.eraseBlocks.toNat ≤ (s.regs.arg0 &&& 0xF).toNat - 3) →
    exec .eraseBlock s = .next (s.afterRefusal 0x22 .badarg)) ∧
  ∀ (s : State) (r : Fin 11), s.engineReady → (s.regs.arg0 &&& 0xF).toNat = r.val →
    r.val < 3 ∨ r.val - 3 < s.ident.eraseBlocks.toNat →
    exec .eraseBlock s =
      (let c := s.cfg.codes
      let sel := s.cfg.dev.regionCode[r]
      let base := s.cfg.eraseCtrlBase
      let nop := c.core.nop
      .next { s.afterOutput 0x22
          (gotoAddressEvents c base ++
            sendInsnEvents c.icsp.tblwt (sel.extractLsb' 0 8 ++ sel.extractLsb' 0 8) ++
            gotoShortEvents c (base.extractLsb' 0 8 + 1) ++
            sendInsnEvents c.icsp.tblwt (sel.extractLsb' 8 8 ++ sel.extractLsb' 8 8) ++
            gotoShortEvents c (base.extractLsb' 0 8 + 2) ++
            sendInsnEvents c.icsp.tblwt (sel.extractLsb' 16 8 ++ sel.extractLsb' 16 8) ++
            (match s.cfg.eraseHold with
              | .afterNops => coreEvents c [nop, nop] ++ [.pin .pgd false, .delay .tErase]
              | .inSecondNop =>
                coreEvents c [nop] ++ sendCmdEvents c.icsp.core ++ [.pin .pgd false, .delay .tErase] ++ sendWordEvents 0))
        with
          regs := { s.regs.afterOp 0x22 with progEvt := true }
          seq := { s.latched 0x22 with lastPct := some 100, phase := .erase } })

/-- BULK_ERASE erases the regions of its scope in order, ends at 100 percent, and changes nothing else (30_encoding R113,
45_erase R192). After region `j` of `K` is erased, `((j + 1) * 100) div K` percent is reported: a host read of STATUS and
one of PROGRESS that arrive there see BUSY and that percentage. When a read arrives, and the word of a whole NOP in
`eraseBlockEvents`, are the model's (logs 5, 11, 28). -/
def Obligations.BulkEraseResult : Prop :=
  ∀ (s : State) (regions : List Nat), s.seq.busy = false → s.session = .programming → s.ident.status = .resolved →
    0 < s.ident.eraseBlocks.toNat →
    regions =
      (match (s.regs.arg0 &&& 3).toNat with
        | 0 => [1]
        | 1 => List.range' 3 s.ident.eraseBlocks.toNat
        | 2 => [2]
        | _ => 0 :: 1 :: List.range' 3 s.ident.eraseBlocks.toNat) →
    (s.quiet → exec .bulkErase s =
      .next { s.afterOutput 0x21 (regions.flatMap fun r => eraseBlockEvents s.cfg r)
        with
          regs := { s.regs.afterOp 0x21 with progEvt := true }
          seq := { s.latched 0x21 with lastPct := some 100, phase := .erase } }) ∧
    ∀ (j n : Nat) (rest : List Input), j < regions.length → rest.head?.bind Input.gap = none →
      n = ((regions.take (j + 1)).map fun r => (eraseBlockEvents s.cfg r).length + 1).sum →
      s.bus.inputs = { gap := some n, act := .read 0x010 4 } :: { gap := some 0, act := .read 0x028 4 } :: rest →
      ∃ (t : State) (status progress : HostWord), exec .bulkErase s = .next t ∧
        t.bus.reads = (0x028, progress) :: (0x010, status) :: s.bus.reads ∧ status.getLsbD 0 = true ∧
        (progress.extractLsb' 0 7).toNat = (j + 1) * 100 / regions.length ∧ progress.getLsbD 7 = true ∧
        progress.extractLsb' 8 3 = 1

/-! ## Code memory -/

/-- READ stores every code word it reads, present, in the image below the active length, ends at 100 percent, and
changes nothing else (46_program_verify R212, R215). -/
def Obligations.ReadResult : Prop :=
  ∀ (s : State) (n k : Nat), s.engineReady → s.ident.shape n k →
    ∃ (bits : List Bool) (l' : LinkSide) (m : Memory), bits.length = 16 * n ∧
      s.link.Ran l' (gotoAddressEvents s.cfg.codes 0 ++ codeReadEvents s.cfg.codes bits n) ∧
      exec .read s = .next { s with
        regs := { s.regs.afterOp 0x30 with progEvt := true }
        seq := { s.latched 0x30 with lastPct := some 100, phase := .read }
        link := l'
        mem := m } ∧
      (∀ a < n, m.img .codeImg a = some { value := wordFrom bits (16 * a), present := true }) ∧
      ∀ b, (∀ a < n, ¬(0x100000 + 4 * a ≤ b ∧ b < 0x100000 + 4 * a + 3)) → m.byte b = s.mem.byte b

/-- BLANK_CHECK of a target that answers ones for every code word ends with cause NONE at 100 percent, and changes
nothing else (46_program_verify R216). -/
def Obligations.BlankCheckBlank : Prop :=
  ∀ (s : State) (n k : Nat) (rest : List Bool), s.engineReady → s.ident.shape n k →
    s.link.partner = .oracle (List.replicate (16 * n) true ++ rest) →
    ∃ l' : LinkSide,
      s.link.Ran l' (gotoAddressEvents s.cfg.codes 0 ++ codeReadEvents s.cfg.codes (List.replicate (16 * n) true) n) ∧
      exec .blankCheck s = .next { s with
        regs := { s.regs.afterOp 0x20 with progEvt := true }
        seq := { s.latched 0x20 with lastPct := some 100, phase := .blank }
        link := l' }

/-- BLANK_CHECK stops at the first word that does not read `0xFFFF`, with its byte address and value, and reads nothing
after it (46_program_verify R216). -/
def Obligations.BlankCheckNonblank : Prop :=
  ∀ (s : State) (n k a : Nat) (bits rest : List Bool), s.engineReady → s.ident.shape n k → a < n → bits.length = 16 →
    wordFrom bits 0 ≠ 0xFFFF → s.link.partner = .oracle (List.replicate (16 * a) true ++ bits ++ rest) →
    ∃ l' : LinkSide,
      s.link.Ran l' (gotoAddressEvents s.cfg.codes 0 ++
        codeReadEvents s.cfg.codes (List.replicate (16 * a) true ++ bits) (a + 1)) ∧
      exec .blankCheck s = .next { s with
        regs := { s.regs.afterOp 0x20 with
          cause := .nonblank, faultAddr := BitVec.ofNat 24 (2 * a), faultExp := 0xFFFF, faultAct := wordFrom bits 0
          progEvt := s.regs.progEvt || decide (0 < a) }
        seq := { s.latched 0x20 with
          lastPct := if a = 0 then none else some (walkPct a s.ident.codeSize)
          phase := if a = 0 then .none else .blank }
        link := l' }

/-- WRITE with VERIFY_EN = 0 programs every chunk of the image, absent words as `0xFFFF`, then the present configuration
slots; it reads nothing back, clears CFG_MM, ends at 100 percent, and changes nothing else (46_program_verify R213, R217,
48_config R256, R257). -/
def Obligations.WriteWithoutVerify : Prop :=
  ∀ (s : State) (n k : Nat), s.engineReady → s.ident.shape n k → s.imagesWritten → s.regs.ctrl.getLsbD 0 = false →
    exec .write s =
      .next { s.afterOutput 0x31
          (programCodeEvents s.cfg s.mem s.ident.wbufWords.toNat k ++ cfgWritePassEvents s.cfg s.mem)
        with
          regs := { s.regs.afterOp 0x31 with cfgMm := 0, progEvt := true }
          seq := { s.latched 0x31 with lastPct := some 100, phase := .program } }

/-- WRITE with VERIFY_EN = 1 against a target that answers the image: no fault, 100 percent of VERIFY; every present
configuration slot is read back into CFG_RB, and its CFG_MM bit is set exactly when it differs; absent slots are not
read; nothing else changes (46_program_verify R214, R217, 48_config R258). -/
def Obligations.WriteVerified : Prop :=
  ∀ (s : State) (n k : Nat) (bits rest : List Bool), s.engineReady → s.ident.shape n k → s.imagesWritten →
    s.regs.ctrl.getLsbD 0 = true → bits.length = 16 * n → s.link.partner = .oracle (bits ++ rest) →
    (∀ a < n, verifyAgrees s.cfg s.mem a (wordFrom bits (16 * a))) →
    ∃ (more : List Bool) (l' : LinkSide) (m : Memory) (mm : Byte), more.length = 16 * (presentBelow s.mem 8) ∧
      s.link.Ran l' (programCodeEvents s.cfg s.mem s.ident.wbufWords.toNat k ++
        gotoAddressEvents s.cfg.codes 0 ++ codeReadEvents s.cfg.codes bits n ++ cfgWritePassEvents s.cfg s.mem ++
        cfgVerifyEvents s.cfg.codes s.mem more) ∧
      exec .write s = .next { s with
        regs := { s.regs.afterOp 0x31 with cfgMm := mm, progEvt := true }
        seq := { s.latched 0x31 with lastPct := some 100, phase := .verify }
        link := l'
        mem := m } ∧
      (∀ i < 8, ∀ e, s.mem.img .cfgImg i = some e →
        if e.present then
          m.entry16 .cfgRb i = some (wordFrom more (16 * presentBelow s.mem i)) ∧
          (mm.getLsbD i = true ↔ wordFrom more (16 * presentBelow s.mem i) ≠ e.value)
        else m.entry16 .cfgRb i = s.mem.entry16 .cfgRb i ∧ mm.getLsbD i = false) ∧
      ∀ b, (∀ i < 8, s.mem.present .cfgImg i = true → b ≠ 0x120 + 4 * i ∧ b ≠ 0x120 + 4 * i + 1) →
        m.byte b = s.mem.byte b

/-- WRITE with VERIFY_EN = 1 stops at the first code word that differs, with its byte address and both values, before any
configuration word is written (46_program_verify R214, R217). -/
def Obligations.WriteVerifyMismatch : Prop :=
  ∀ (s : State) (n k a : Nat) (v : Word) (bits rest : List Bool), s.engineReady → s.ident.shape n k → s.imagesWritten →
    s.regs.ctrl.getLsbD 0 = true → a < n → bits.length = 16 * (a + 1) → s.link.partner = .oracle (bits ++ rest) →
    (∀ b < a, verifyAgrees s.cfg s.mem b (wordFrom bits (16 * b))) → verifyExpects s.cfg s.mem a = some v →
    wordFrom bits (16 * a) ≠ v →
    ∃ l' : LinkSide,
      s.link.Ran l' (programCodeEvents s.cfg s.mem s.ident.wbufWords.toNat k ++
        gotoAddressEvents s.cfg.codes 0 ++ codeReadEvents s.cfg.codes bits (a + 1)) ∧
      exec .write s = .next { s with
        regs := { s.regs.afterOp 0x31 with
          cause := .verify, faultAddr := BitVec.ofNat 24 (2 * a), faultExp := v, faultAct := wordFrom bits (16 * a)
          cfgMm := 0, progEvt := true }
        seq := { s.latched 0x31 with
          lastPct := if a = 0 then some 100 else some (walkPct a s.ident.codeSize)
          phase := if a = 0 then .program else .verify }
        link := l' }

/-! ## EEPROM -/

/-- EEPROM_READ reads every cell into the image and changes nothing else; it is refused without a session or an
identity (47_eeprom R240, R242). That the NOP of a cell's read is CORE_WORD[NOP] at every configuration is the model's
(log 28). -/
def Obligations.EepromReadResult : Prop :=
  engineGate .eepromRead 0x40 ∧
  ∀ s : State, s.engineReady → ∃ (bits : List Bool) (l' : LinkSide) (m : Memory), bits.length = 8 * s.cfg.eeSize ∧
    s.link.Ran l' (eepromReadEvents s.cfg.codes s.cfg.eeSize bits) ∧
    exec .eepromRead s =
      .next { s with regs := s.regs.afterOp 0x40, seq := s.latched 0x40, link := l', mem := m } ∧
    (∀ e < s.cfg.eeSize, m.entry8 .eeImg e = some (byteFrom bits (8 * e))) ∧
    ∀ b, (∀ e < s.cfg.eeSize, b ≠ 0x1000 + 4 * e) → m.byte b = s.mem.byte b

/-- EEPROM_WRITE of a loaded image, against a target that finishes each cell's write within the cap: cell `e` is written
and polled `ks[e]` times, busy at each poll but the last, and nothing else changes (47_eeprom R241, R243). That the NOP of a
poll is CORE_WORD[NOP] at every configuration is the model's (log 28). -/
def Obligations.EepromWriteResult : Prop :=
  ∀ (s : State) (ks : List Nat) (bits rest : List Bool), s.engineReady → s.cfg.eeZeroBug = true ∨ s.eeLoaded →
    ks.length = s.cfg.eeSize → cellsDone s.cfg ks bits (max s.regs.eePollMax.toNat 1) → bits.length = 8 * ks.sum →
    s.link.partner = .oracle (bits ++ rest) →
    ∃ l' : LinkSide, s.link.Ran l' (eeCellsEvents s ks bits) ∧
      exec .eepromWrite s = .next { s with
        regs := s.regs.afterOp 0x41
        seq := { s.latched 0x41 with polls := BitVec.ofNat 16 (ks.getLastD 0) }
        link := l' }

/-- EEPROM_WRITE whose cell `e` still reads busy at the cap, the cells before it being finished after `ks` polls: cause
EE_TIMEOUT with the cell address, the byte and the last polled byte, write-enable is not cleared, and no later cell is
written, whether or not its entry has been loaded (47_eeprom R241, R243). That the NOP of a poll is CORE_WORD[NOP] at every
configuration is the model's (log 28). -/
def Obligations.EepromWriteTimeout : Prop :=
  ∀ (s : State) (e cap : Nat) (ks : List Nat) (bits rest : List Bool), s.engineReady →
    s.cfg.eeZeroBug = true ∨ (∀ j ≤ e, (s.mem.entry8 .eeImg j).isSome) → e < s.cfg.eeSize → cap = max s.regs.eePollMax.toNat 1 → ks.length = e →
    cellsDone s.cfg ks bits cap → bits.length = 8 * (ks.sum + cap) → s.link.partner = .oracle (bits ++ rest) →
    (∀ j < cap, (byteFrom bits (8 * (ks.sum + j))).getLsbD s.cfg.eeBusyBit = true) →
    ∃ l' : LinkSide,
      s.link.Ran l' (eeCellsEvents s ks bits ++ eeWriteSetupEvents s.cfg.codes e (eeByte s e) ++
        (List.range cap).flatMap fun j => eePollEvents s.cfg.codes (slice8 bits (8 * (ks.sum + j)))) ∧
      exec .eepromWrite s = .next { s with
        regs := { s.regs.afterOp 0x41 with
          cause := .eeTimeout, faultAddr := BitVec.ofNat 24 e, faultExp := (eeByte s e).setWidth 16
          faultAct := (byteFrom bits (8 * (ks.sum + cap - 1))).setWidth 16 }
        seq := { s.latched 0x41 with polls := BitVec.ofNat 16 cap }
        link := l' }

/-- Without the source's all-zero behaviour, EEPROM_WRITE of an image whose first entry that nothing has written is entry
`e` is a fault of the model when the engine reaches it, the cells before it being finished after `ks` polls (10_state R27,
47_eeprom R243). -/
def Obligations.EepromWriteUnloaded : Prop :=
  ∀ (s : State) (e : Nat) (ks : List Nat) (bits rest : List Bool), s.engineReady → s.cfg.eeZeroBug = false →
    e < s.cfg.eeSize → (∀ j < e, (s.mem.entry8 .eeImg j).isSome) → s.mem.entry8 .eeImg e = none → ks.length = e →
    cellsDone s.cfg ks bits (max s.regs.eePollMax.toNat 1) → bits.length = 8 * ks.sum →
    s.link.partner = .oracle (bits ++ rest) →
    exec .eepromWrite s = .fault (.unwrittenEntry (0x1000 + 4 * e))

/-! ## Configuration words and user ID -/

/-- DUMP_CONFIG reads all eight slots into CFG_RB, whatever CFG_IMG holds, and changes nothing else; it is refused without
a session or an identity (48_config R255, R259, R260). -/
def Obligations.DumpConfigResult : Prop :=
  engineGate .dumpConfig 0x51 ∧
  ∀ s : State, s.engineReady → ∃ (bits : List Bool) (l' : LinkSide) (m : Memory), bits.length = 128 ∧
    s.link.Ran l' (dumpConfigEvents s.cfg.codes bits) ∧
    exec .dumpConfig s =
      .next { s with regs := s.regs.afterOp 0x51, seq := s.latched 0x51, link := l', mem := m } ∧
    (∀ i < 8, m.entry16 .cfgRb i = some (wordFrom bits (16 * i))) ∧
    ∀ b, (∀ i < 8, b ≠ 0x120 + 4 * i ∧ b ≠ 0x120 + 4 * i + 1) → m.byte b = s.mem.byte b

/-- DUMP_USER_ID reads the eight user-ID bytes into UID_BUF and changes nothing else; it is refused without a session or
an identity (48_config R261). -/
def Obligations.DumpUserIdResult : Prop :=
  engineGate .dumpUserId 0x50 ∧
  ∀ s : State, s.engineReady → ∃ (bits : List Bool) (l' : LinkSide) (m : Memory), bits.length = 64 ∧
    s.link.Ran l' (dumpUserIdEvents s.cfg.codes bits) ∧
    exec .dumpUserId s =
      .next { s with regs := s.regs.afterOp 0x50, seq := s.latched 0x50, link := l', mem := m } ∧
    (∀ i < 8, m.entry8 .uidBuf i = some (byteFrom bits (8 * i))) ∧
    ∀ b, (∀ i < 8, b ≠ 0x140 + 4 * i) → m.byte b = s.mem.byte b

/-! ## Link words -/

/-- The ICSP commands of shape W, and a code that names none, emit their command and payload; the start-programming ones
are followed by the programming pulse; nothing but the link changes (30_encoding R116, R122 to R125, R106). That a
start-programming row includes its pulse, and running a row by itself, are the model's choice (logs 6, 12). -/
def Obligations.LinkWriteRows : Prop :=
  ∀ (s : State) (p : Word) (code : Nibble), s.seq.position = none → s.quiet →
    exec (.core p) s = .next (s.afterLink (sendInsnEvents s.cfg.codes.icsp.core p)) ∧
    exec (.tblwt p) s = .next (s.afterLink (sendInsnEvents s.cfg.codes.icsp.tblwt p)) ∧
    exec (.tblwtPostinc2 p) s = .next (s.afterLink (sendInsnEvents s.cfg.codes.icsp.tblwtPostinc2 p)) ∧
    exec (.tblwtPostinc2Startp p) s =
      .next (s.afterLink (sendInsnEvents s.cfg.codes.icsp.tblwtPostinc2Startp p ++ progPulseEvents s.cfg)) ∧
    exec (.tblwtStartp p) s =
      .next (s.afterLink (sendInsnEvents s.cfg.codes.icsp.tblwtStartp p ++ progPulseEvents s.cfg)) ∧
    exec (.reservedIcspCommand code p) s = .next (s.afterLink (sendInsnEvents code p))

/-- The ICSP commands of shape R emit their command, sample eight bits and keep them in the receive register; nothing but
the link changes (30_encoding R105, R117 to R121). Running one by itself, and the receive register, are the model's
(logs 6, 7). -/
def Obligations.LinkReadRows : Prop :=
  ∀ (s : State) (i : Instr) (code : Nibble), s.seq.position = none → s.quiet →
    (i, code) ∈ [(.shiftOutTablat, s.cfg.codes.icsp.shiftOutTablat), (.tblrd, s.cfg.codes.icsp.tblrd),
      (.tblrdPostinc, s.cfg.codes.icsp.tblrdPostinc), (.tblrdPostdec, s.cfg.codes.icsp.tblrdPostdec),
      (.tblrdPreinc, s.cfg.codes.icsp.tblrdPreinc)] →
    ∃ (bits : List Bool) (l' : LinkSide), bits.length = 8 ∧ s.link.Ran l' (readTxnEvents code bits) ∧
      l'.rx = (byteOfBits bits).setWidth 16 ∧ exec i s = .next { s with link := l' }

/-- A core instruction word is sent as the payload of a CORE transaction, and nothing but the link changes (30_encoding
R108, R116). Running one by itself, and that a NOP carries CORE_WORD[NOP] at every configuration, are the model's (logs 6,
28). -/
def Obligations.CoreWordRows : Prop :=
  ∀ (s : State) (i : Instr) (w : Word) (k : Byte), s.seq.position = none → s.quiet →
    (i, w) ∈
      (let c := s.cfg.codes.core
      [(.nop, c.nop), (.movlw k, c.movlw ||| k.setWidth 16), (.movwfTblptru, c.movwfTblptru),
        (.movwfTblptrh, c.movwfTblptrh), (.movwfTblptrl, c.movwfTblptrl), (.movwfTablat, c.movwfTablat),
        (.movwfEeadr, c.movwfEeadr), (.movwfEeadrh, c.movwfEeadrh), (.movwfEedata, c.movwfEedata),
        (.movfEedataW, c.movfEedataW), (.movfEecon1W, c.movfEecon1W), (.bsfEepgd, c.bsfEepgd), (.bcfEepgd, c.bcfEepgd),
        (.bsfCfgs, c.bsfCfgs), (.bcfCfgs, c.bcfCfgs), (.bsfWren, c.bsfWren), (.bcfWren, c.bcfWren), (.bsfRd, c.bsfRd),
        (.bsfWr, c.bsfWr)] : List (Instr × Word)) →
    exec i s = .next (s.afterLink (sendInsnEvents s.cfg.codes.icsp.core w))

/-- How many PGC pulses each sequence of 70_reset R336 takes (30_encoding R126): a transaction is 20, an erase hold none,
and a programming pulse 4, or 20 with its trailing operand. -/
def Obligations.ClockCounts : Prop :=
  ∀ (cfg : Config) (m : Memory) (bits : List Bool) (c : Nibble) (w : Word) (a : Addr) (o d : Byte) (g : Identity)
    (r i k n width : Nat), 64 ≤ bits.length → 8 * k ≤ bits.length → 16 * n ≤ bits.length → 0 < width →
    (let pulse := if cfg.pulseTrailingOperand then 20 else 4
    clockPulses (sendInsnEvents c w) = 20 ∧ clockPulses (readTxnEvents c (slice8 bits 0)) = 20 ∧
    clockPulses (progPulseEvents cfg) = pulse ∧ clockPulses (enterEvents cfg) = 32 ∧ clockPulses exitEvents = 0 ∧
    clockPulses (gotoAddressEvents cfg.codes a) = 6 * 20 ∧ clockPulses (gotoShortEvents cfg.codes o) = 2 * 20 ∧
    clockPulses (readDevIdEvents cfg.codes bits) = 6 * 20 + 2 * 20 ∧ clockPulses (eraseBlockEvents cfg r) = 15 * 20 ∧
    clockPulses ((g.scopeRegions 3).flatMap fun r => eraseBlockEvents cfg r) = (2 + g.eraseBlocks.toNat) * (15 * 20) ∧
    clockPulses (programCodeEvents cfg m width k) = 9 * 20 + k * width * 20 + k * pulse ∧
    clockPulses (gotoAddressEvents cfg.codes 0 ++ codeReadEvents cfg.codes bits n) = 6 * 20 + 2 * n * 20 ∧
    clockPulses (eeReadCellEvents cfg.codes i (slice8 bits 0)) = 10 * 20 + 20 ∧
    clockPulses (eeWriteCellEvents cfg.codes i d bits 0 k) = 10 * 20 + k * (3 * 20 + 20) + 20 ∧
    clockPulses (eeWriteSetupEvents cfg.codes i d ++
      (List.range k).flatMap fun j => eePollEvents cfg.codes (slice8 bits (8 * j))) = 10 * 20 + k * (3 * 20 + 20) ∧
    clockPulses (gotoAddressEvents cfg.codes (slotAddr i) ++
      readPairEvents cfg.codes.icsp.tblrdPostinc cfg.codes.icsp.tblrd bits 0) = 6 * 20 + 2 * 20 ∧
    clockPulses (cfgWriteSlotEvents cfg i w) = 10 * 20 + 2 * pulse ∧
    clockPulses (dumpUserIdEvents cfg.codes bits) = 6 * 20 + 8 * 20)

/-! ## Invariants and whole-machine rules -/

/-- Every step keeps the invariant: the buffers keep their canonical form; no operation is left running; in a session the
link is ready and MCLR driven high, and outside one MCLR is undriven; the identity latches are what the catalog gives for
the ID that was read; once resolved, every image entry has been written; PROGRESS holds a percentage up to 100. -/
def Obligations.StepKeepsInvariant : Prop := ∀ s t : State, s.inv → step s = .next t → t.inv

/-- Every step keeps the canonical form of the buffers, from any state that has it, and no step changes the
configuration (00_scope R7, 70_reset R324). -/
def Obligations.StepKeepsMemoryForm : Prop :=
  ∀ s t : State, step s = .next t → t.cfg = s.cfg ∧ (s.mem.wf → t.mem.wf)

/-- From a state that meets the invariant only EEPROM_WRITE can read an entry no one wrote (10_state R27). -/
def Obligations.OnlyEepromWriteFaults : Prop :=
  ∀ (i : Instr) (s : State) (f : Fault), s.inv → exec i s = .fault f → i = .eepromWrite

/-- Only ENTER and EXIT, and reset, change the session state, and only from IDLE to PROGRAMMING and back (10_state R24). -/
def Obligations.SessionChangers : Prop :=
  ∀ (i : Instr) (s t : State), exec i s = .next t → (∀ x ∈ s.bus.inputs, x.act ≠ .reset) → t.session ≠ s.session →
    (i = .enter ∧ s.session = .idle ∧ t.session = .programming) ∨
    (i = .exit ∧ s.session = .programming ∧ t.session = .idle)

/-- Only ENTER and IDENTIFY, and reset, change the identity and geometry latches (10_state R25, R26). -/
def Obligations.IdentityChangers : Prop :=
  ∀ (i : Instr) (s t : State), exec i s = .next t → (∀ x ∈ s.bus.inputs, x.act ≠ .reset) → t.ident ≠ s.ident →
    i = .enter ∨ i = .identify

/-- No operation writes ARG0, ARG1, CTRL or EE_POLL_MAX; RESULT is cleared or kept by every one but READ_WORD; CFG_MM is
written by WRITE and IDENTIFY only (10_state R32, R33, R36, R39, R40). -/
def Obligations.RegisterWriters : Prop :=
  ∀ (i : Instr) (s t : State), exec i s = .next t → (∀ x ∈ s.bus.inputs, x.act ≠ .reset) →
    t.regs.arg0 = s.regs.arg0 ∧ t.regs.arg1 = s.regs.arg1 ∧ t.regs.ctrl = s.regs.ctrl ∧
    t.regs.eePollMax = s.regs.eePollMax ∧
    (i ≠ .readWord → t.regs.result = 0 ∨ t.regs.result = s.regs.result) ∧
    (i ≠ .write → i ≠ .identify → t.regs.cfgMm = s.regs.cfgMm)

/-- However the target answers and whatever the host does meanwhile, EEPROM_WRITE polls each cell at most
`max(poll_max, 1)` times: a cell's write that ends well has emitted its `k` polls, and one that a fault or a reset ends
has emitted the beginning of such a sequence, with `k` from 1 to the cap (47_eeprom R241, 70_reset R327). That the NOP of a
poll is CORE_WORD[NOP] at every configuration is the model's (log 28). -/
def Obligations.PollCap : Prop :=
  ∀ (s t : State) (e : Nat) (d : Byte) (cap : Nat), s.seq.replaying = false → cap = max s.seq.pollMax.toNat 1 →
    (eeWriteCell e d s = .ok () t →
      ∃ bits k, 1 ≤ k ∧ k ≤ cap ∧ bits.length = 8 * k ∧ t.seq.polls = BitVec.ofNat 16 k ∧
        t.link.trace = (eeWriteCellEvents s.cfg.codes e d bits 0 k).reverse ++ s.link.trace) ∧
    ∀ h : Halt, eeWriteCell e d s = .error h t →
      ∃ bits k before after, 1 ≤ k ∧ k ≤ cap ∧ bits.length = 8 * k ∧
        before ++ after = eeWriteCellEvents s.cfg.codes e d bits 0 k ∧ t.link.trace = before.reverse ++ s.link.trace

/-! ## Against the reference target -/

/-- With the reference target in programming mode between transactions, before its first or after any, the events of
GotoAddress leave its table pointer at the address, and none of its memories, latches and control registers changed
(20_memory R87, R88, 43_addressing R160). Its framing details are the model's (log 13), and it is said at the default code
values, which the specification took from general knowledge (log 21). -/
def Obligations.GotoAddressSetsPointer : Prop :=
  ∀ (cfg : Config) (l : LinkSide) (t : RefTarget) (a : Addr), cfg.codes = {} → l.lines.ready →
    l.partner = .reference t → t.prog = true → t.stopped = false → t.clocks = 0 ∨ t.clocks = 20 →
    ∃ t', (l.observeAll cfg (gotoAddressEvents cfg.codes a)).partner = .reference t' ∧
      t' = { t with tblptr := a, w := a.extractLsb' 0 8, clocks := 20, cmd := 0, payload := 0x6EF6 }

/-- With the reference target in programming mode between transactions, before its first or after any, TBLRD_POSTINC brings
the byte at its table pointer into the receive register and leaves the pointer one further on (20_memory R87, R89,
30_encoding R119). Running the row by itself, in any session state, is the model's choice (log 6), as are the receive
register and the framing details (logs 7, 13), and it is said at the default code values (log 21). -/
def Obligations.ReferenceTableRead : Prop :=
  ∀ (s : State) (t : RefTarget), s.seq.position = none → s.quiet → s.cfg.codes = {} → s.link.lines.ready →
    s.link.partner = .reference t → t.prog = true → t.stopped = false → t.clocks = 0 ∨ t.clocks = 20 →
    ∃ (l' : LinkSide) (t' : RefTarget), exec .tblrdPostinc s = .next { s with link := l' } ∧
      l'.rx = (t.byteAt t.tblptr.toNat).setWidth 16 ∧ l'.partner = .reference t' ∧
      t'.tblptr = t.tblptr + 1 ∧ t'.tablat = t.byteAt t.tblptr.toNat ∧ t'.clocks = 20 ∧ t'.code = t.code ∧
      t'.cfgBytes = t.cfgBytes ∧ t'.ee = t.ee
end

