-- ==== Sys2Proof/Laws/Memory.lean ====
section
/-! SUPPORT. The laws of sparse memories: a read after a write, and that every memory operation keeps the
canonical form. Then the same for the entries of the local buffers. -/

namespace Sys2Proof.Machine

variable {u : Nat → Option Byte} {m : Cells} {a b : Nat} {v : Byte}

theorem Cells.get_insert (u : Nat → Option Byte) (a : Nat) (v : Byte) (m : Cells) (b : Nat) :
    (m.insert a v).get u b = if b = a then some v else m.get u b := by
  induction m with
  | nil => simp only [Cells.insert, Cells.get, eq_comm]
  | cons c m ih =>
    obtain ⟨k, w⟩ := c
    simp only [Cells.insert]
    split
    · simp only [Cells.get, eq_comm]
    · split
      · subst_vars
        simp only [Cells.get, eq_comm]
        split <;> rfl
      · simp only [Cells.get, ih]
        grind

theorem Cells.get_erase (u : Nat → Option Byte) (a : Nat) (m : Cells) (b : Nat) :
    (m.erase a).get u b = if b = a then u b else m.get u b := by
  induction m with
  | nil => simp [Cells.erase, Cells.get]
  | cons c m ih =>
    obtain ⟨k, w⟩ := c
    have ih' : Cells.get u (List.filter (fun c => c.1 != a) m) b = if b = a then u b else Cells.get u m b := ih
    by_cases h : k = a
    · simp only [Cells.erase, List.filter_cons, h, bne_self_eq_false, Bool.false_eq_true, if_false, ih', Cells.get]
      grind
    · simp only [Cells.erase, List.filter_cons, bne_iff_ne, ne_eq, h, not_false_eq_true, if_true, Cells.get, ih']
      grind

/-- A byte read after a write: the value written there, and what it was elsewhere. -/
theorem Cells.get_put (u : Nat → Option Byte) (a : Nat) (v : Byte) (m : Cells) (b : Nat) :
    (m.put u a v).get u b = if b = a then some v else m.get u b := by
  unfold Cells.put
  split
  · rw [Cells.get_erase]
    grind
  · exact Cells.get_insert u a v m b

theorem Cells.mem_insert {a : Nat} {v : Byte} {m : Cells} {c : Host.Cell} (h : c ∈ m.insert a v) :
    c = (a, v) ∨ c ∈ m := by
  induction m with
  | nil => simpa [Cells.insert] using h
  | cons d m ih =>
    simp only [Cells.insert] at h
    split at h
    · simpa using h
    · split at h
      · rcases List.mem_cons.1 h with h | h
        · exact .inl h
        · exact .inr (List.mem_cons_of_mem _ h)
      · rcases List.mem_cons.1 h with h | h
        · exact .inr (by simp [h])
        · exact (ih h).imp id (List.mem_cons_of_mem _)

theorem Cells.sorted_insert {m : Cells} (a : Nat) (v : Byte) (h : List.Pairwise (fun c d : Host.Cell => c.1 < d.1) m) :
    List.Pairwise (fun c d : Host.Cell => c.1 < d.1) (m.insert a v) := by
  induction m with
  | nil => simp [Cells.insert]
  | cons d m ih =>
    obtain ⟨k, w⟩ := d
    rw [List.pairwise_cons] at h
    simp only [Cells.insert]
    split
    · rw [List.pairwise_cons, List.pairwise_cons]
      refine ⟨fun c hc => ?_, h⟩
      rcases List.mem_cons.1 hc with rfl | hc
      · assumption
      · exact Nat.lt_trans ‹_› (h.1 c hc)
    · split
      · subst_vars
        exact List.pairwise_cons.2 ⟨h.1, h.2⟩
      · refine List.pairwise_cons.2 ⟨fun c hc => ?_, ih h.2⟩
        rcases Cells.mem_insert hc with rfl | hc
        · simp only
          omega
        · exact h.1 c hc

/-- A write keeps the canonical form. -/
theorem Cells.wf_put {u : Nat → Option Byte} {m : Cells} (a : Nat) (v : Byte) (h : m.wf u) : (m.put u a v).wf u := by
  unfold Cells.put
  split
  · exact ⟨h.1.sublist List.filter_sublist, fun c hc => h.2 c (List.mem_of_mem_filter hc)⟩
  · refine ⟨Cells.sorted_insert a v h.1, fun c hc => ?_⟩
    rcases Cells.mem_insert hc with rfl | hc
    · assumption
    · exact h.2 c hc

/-! ## The local buffers -/

@[simp] theorem Memory.byte_putByte (m : Memory) (a : Nat) (v : Byte) (b : Nat) :
    (m.putByte a v).byte b = if b = a then some v else m.byte b := Cells.get_put _ a v m b

theorem Memory.wf_nil : Memory.wf [] := by simp [Memory.wf, Cells.wf]

theorem Memory.wf_putByte {m : Memory} (a : Nat) (v : Byte) (h : m.wf) : (m.putByte a v).wf := Cells.wf_put a v h

theorem Memory.wf_setEntry8 {m : Memory} (w : Window) (i : Nat) (v : Byte) (h : m.wf) : (m.setEntry8 w i v).wf :=
  Memory.wf_putByte _ _ h

theorem Memory.wf_setEntry16 {m : Memory} (w : Window) (i : Nat) (v : Word) (h : m.wf) : (m.setEntry16 w i v).wf :=
  Memory.wf_putByte _ _ (Memory.wf_putByte _ _ h)

theorem Memory.wf_setImg {m : Memory} (w : Window) (i : Nat) (e : ImgEntry) (h : m.wf) : (m.setImg w i e).wf :=
  Memory.wf_putByte _ _ (Memory.wf_setEntry16 w i e.value h)

/-- What an 8-bit write does to every byte. -/
theorem Memory.byte_setEntry8 (m : Memory) (w : Window) (i : Nat) (v : Byte) (b : Nat) :
    (m.setEntry8 w i v).byte b = if b = w.addr i then some v else m.byte b := Memory.byte_putByte m _ v b

/-- What a 16-bit write does to every byte. -/
theorem Memory.byte_setEntry16 (m : Memory) (w : Window) (i : Nat) (v : Word) (b : Nat) :
    (m.setEntry16 w i v).byte b =
      if b = w.addr i + 1 then some ((v >>> 8).setWidth 8)
      else if b = w.addr i then some (v.setWidth 8) else m.byte b := by
  simp [Memory.setEntry16]

/-- What a 17-bit write does to every byte. -/
theorem Memory.byte_setImg (m : Memory) (w : Window) (i : Nat) (e : ImgEntry) (b : Nat) :
    (m.setImg w i e).byte b =
      if b = w.addr i + 2 then some ((BitVec.ofBool e.present).setWidth 8)
      else if b = w.addr i + 1 then some ((e.value >>> 8).setWidth 8)
      else if b = w.addr i then some (e.value.setWidth 8) else m.byte b := by
  simp [Memory.setImg, Memory.byte_setEntry16]

theorem word_of_bytes (v : Word) : ((v >>> 8).setWidth 8 : Byte) ++ (v.setWidth 8 : Byte) = v := by
  ext i hi
  simp only [BitVec.getElem_append, BitVec.getElem_setWidth, BitVec.getLsbD_ushiftRight]
  split
  · simp [BitVec.getLsbD_eq_getElem hi]
  · rw [show 8 + (i - 8) = i from by omega, BitVec.getLsbD_eq_getElem hi]

/-- A 16-bit entry reads back what was written. -/
theorem Memory.entry16_setEntry16 (m : Memory) (w : Window) (i : Nat) (v : Word) :
    (m.setEntry16 w i v).entry16 w i = some v := by
  simp only [Memory.entry16, Memory.byte_setEntry16]
  simp [word_of_bytes]

/-- A 17-bit entry reads back what was written. -/
theorem Memory.img_setImg (m : Memory) (w : Window) (i : Nat) (e : ImgEntry) : (m.setImg w i e).img w i = some e := by
  obtain ⟨v, p⟩ := e
  have hv : (m.setImg w i ⟨v, p⟩).entry16 w i = some v := by
    simp only [Memory.entry16, Memory.byte_setImg]
    simp [word_of_bytes]
  have hp : (m.setImg w i ⟨v, p⟩).present w i = p := by
    simp only [Memory.present, Memory.byte_setImg]
    cases p <;> simp
  simp [Memory.img, hv, hp]

/-- An entry is unchanged by what leaves its bytes. -/
theorem Memory.img_congr {m m' : Memory} (w : Window) (i : Nat) (h0 : m'.byte (w.addr i) = m.byte (w.addr i))
    (h1 : m'.byte (w.addr i + 1) = m.byte (w.addr i + 1)) (h2 : m'.byte (w.addr i + 2) = m.byte (w.addr i + 2)) :
    m'.img w i = m.img w i := by
  simp only [Memory.img, Memory.entry16, Memory.present, h0, h1, h2]

theorem Memory.img_isSome_iff (m : Memory) (w : Window) (i : Nat) :
    (m.img w i).isSome = true ↔ (m.byte (w.addr i)).isSome ∧ (m.byte (w.addr i + 1)).isSome := by
  simp only [Memory.img, Memory.entry16]
  cases m.byte (w.addr i) <;> cases m.byte (w.addr i + 1) <;> simp

/-- No write takes a value away. -/
theorem Memory.isSome_putByte {m : Memory} (a : Nat) (v : Byte) {b : Nat} (h : (m.byte b).isSome) :
    ((m.putByte a v).byte b).isSome := by
  rw [Memory.byte_putByte]
  split <;> simp_all

/-- Every byte that held a value still holds one. -/
def Memory.Grows (m m' : Memory) : Prop := ∀ b, (m.byte b).isSome → (m'.byte b).isSome

theorem Memory.Grows.refl (m : Memory) : m.Grows m := fun _ h => h

theorem Memory.Grows.trans {m₁ m₂ m₃ : Memory} (h : m₁.Grows m₂) (h' : m₂.Grows m₃) : m₁.Grows m₃ :=
  fun b hb => h' b (h b hb)

theorem Memory.grows_putByte (m : Memory) (a : Nat) (v : Byte) : m.Grows (m.putByte a v) :=
  fun _ h => Memory.isSome_putByte a v h

theorem Memory.grows_setEntry8 (m : Memory) (w : Window) (i : Nat) (v : Byte) : m.Grows (m.setEntry8 w i v) :=
  Memory.grows_putByte m _ v

theorem Memory.grows_setEntry16 (m : Memory) (w : Window) (i : Nat) (v : Word) : m.Grows (m.setEntry16 w i v) :=
  (Memory.grows_putByte m _ _).trans (Memory.grows_putByte _ _ _)

theorem Memory.grows_setImg (m : Memory) (w : Window) (i : Nat) (e : ImgEntry) : m.Grows (m.setImg w i e) :=
  (Memory.grows_setEntry16 m w i e.value).trans (Memory.grows_putByte _ _ _)

theorem Memory.Grows.img {m m' : Memory} (h : m.Grows m') {w : Window} {i : Nat} (hi : (m.img w i).isSome) :
    (m'.img w i).isSome := by
  rw [Memory.img_isSome_iff] at hi ⊢
  exact ⟨h _ hi.1, h _ hi.2⟩

/-! ## Allocation -/

/-- `n` image entries from `start` on become `{0xFFFF, absent}` (10_state R28). -/
def Memory.clearImgs (w : Window) : (n : Nat) → (start : Nat) → Memory → Memory
  | 0, _, m => m
  | n + 1, start, m => Memory.clearImgs w n (start + 1) (m.setImg w start { value := 0xFFFF, present := false })

theorem Memory.wf_clearImgs {m : Memory} (w : Window) (n start : Nat) (h : m.wf) :
    (Memory.clearImgs w n start m).wf := by
  induction n generalizing start m with
  | zero => exact h
  | succ n ih => exact ih (start + 1) (Memory.wf_setImg w start _ h)

theorem Memory.grows_clearImgs (w : Window) (n start : Nat) (m : Memory) : m.Grows (Memory.clearImgs w n start m) := by
  induction n generalizing start m with
  | zero => exact Memory.Grows.refl m
  | succ n ih => exact (Memory.grows_setImg m w start _).trans (ih _ _)

/-- Clearing changes no byte outside the entries it clears. -/
theorem Memory.byte_clearImgs (w : Window) (n start : Nat) (m : Memory) (b : Nat)
    (h : ∀ i, start ≤ i → i < start + n → ¬(w.addr i ≤ b ∧ b < w.addr i + 3)) :
    (Memory.clearImgs w n start m).byte b = m.byte b := by
  induction n generalizing start m with
  | zero => rfl
  | succ n ih =>
    have hs := h start (Nat.le_refl _) (by omega)
    rw [Memory.clearImgs, ih _ _ fun i h₁ h₂ => h i (by omega) (by omega), Memory.byte_setImg, if_neg (by omega),
      if_neg (by omega), if_neg (by omega)]

/-- Clearing writes the entries it names, and leaves the window's others alone. -/
theorem Memory.img_clearImgs (w : Window) (n start : Nat) (m : Memory) (i : Nat) :
    (Memory.clearImgs w n start m).img w i =
      if start ≤ i ∧ i < start + n then some { value := 0xFFFF, present := false } else m.img w i := by
  induction n generalizing start m with
  | zero => rw [Memory.clearImgs, if_neg (by omega)]
  | succ n ih =>
    rw [Memory.clearImgs, ih]
    by_cases hi : start + 1 ≤ i ∧ i < start + 1 + n
    · rw [if_pos hi, if_pos (by omega)]
    · by_cases he : i = start
      · subst he
        rw [if_neg hi, if_pos (by omega), Memory.img_setImg]
      · rw [if_neg hi, if_neg (by omega)]
        have hne : w.addr i + 2 < w.addr start ∨ w.addr start + 2 < w.addr i := by
          unfold Window.addr
          omega
        apply Memory.img_congr <;> rw [Memory.byte_setImg, if_neg (by omega), if_neg (by omega), if_neg (by omega)]

end Sys2Proof.Machine
end

