-- ==== Sys2Proof/Laws/State.lean ====
section
/-! SUPPORT. One lemma for each field of the state under each named update, so that no proof unfolds a record
update; then what the named updates leave of the buffers and of the link. -/

namespace Sys2Proof.Machine

/-! ### Completion (60_exceptions R285) -/

@[simp] theorem State.complete_cfg (s : State) : s.complete.cfg = s.cfg := rfl
@[simp] theorem State.complete_regs (s : State) : s.complete.regs = { s.regs with done := true } := rfl
@[simp] theorem State.complete_seq (s : State) : s.complete.seq = { s.seq with busy := false, position := none } := rfl
@[simp] theorem State.complete_session (s : State) : s.complete.session = s.session := rfl
@[simp] theorem State.complete_ident (s : State) : s.complete.ident = s.ident := rfl
@[simp] theorem State.complete_mem (s : State) : s.complete.mem = s.mem := rfl
@[simp] theorem State.complete_link (s : State) : s.complete.link = s.link := rfl
@[simp] theorem State.complete_bus (s : State) : s.complete.bus = s.bus := rfl
@[simp] theorem State.complete_txns (s : State) : s.complete.txns = s.txns := rfl

/-! ### The registers a fault writes (60_exceptions R286) -/

@[simp] theorem State.withCause_cfg (s : State) (c : Cause) (a : Addr) (e v : Word) :
    (s.withCause c a e v).cfg = s.cfg := rfl
@[simp] theorem State.withCause_regs (s : State) (c : Cause) (a : Addr) (e v : Word) :
    (s.withCause c a e v).regs = { s.regs with cause := c, faultAddr := a, faultExp := e, faultAct := v } := rfl
@[simp] theorem State.withCause_seq (s : State) (c : Cause) (a : Addr) (e v : Word) :
    (s.withCause c a e v).seq = s.seq := rfl
@[simp] theorem State.withCause_session (s : State) (c : Cause) (a : Addr) (e v : Word) :
    (s.withCause c a e v).session = s.session := rfl
@[simp] theorem State.withCause_ident (s : State) (c : Cause) (a : Addr) (e v : Word) :
    (s.withCause c a e v).ident = s.ident := rfl
@[simp] theorem State.withCause_mem (s : State) (c : Cause) (a : Addr) (e v : Word) :
    (s.withCause c a e v).mem = s.mem := rfl
@[simp] theorem State.withCause_link (s : State) (c : Cause) (a : Addr) (e v : Word) :
    (s.withCause c a e v).link = s.link := rfl
@[simp] theorem State.withCause_bus (s : State) (c : Cause) (a : Addr) (e v : Word) :
    (s.withCause c a e v).bus = s.bus := rfl
@[simp] theorem State.withCause_txns (s : State) (c : Cause) (a : Addr) (e v : Word) :
    (s.withCause c a e v).txns = s.txns := rfl

/-! ### Reset (70_reset R320) -/

@[simp] theorem State.hardReset_cfg (s : State) : s.hardReset.cfg = s.cfg := rfl
@[simp] theorem State.hardReset_regs (s : State) : s.hardReset.regs = { eePollMax := s.cfg.dev.eePollMaxReset } := rfl
@[simp] theorem State.hardReset_seq (s : State) : s.hardReset.seq = {} := rfl
@[simp] theorem State.hardReset_session (s : State) : s.hardReset.session = .idle := rfl
@[simp] theorem State.hardReset_ident (s : State) : s.hardReset.ident = {} := rfl
@[simp] theorem State.hardReset_mem (s : State) : s.hardReset.mem = [] := rfl
@[simp] theorem State.hardReset_link (s : State) :
    s.hardReset.link = { trace := s.link.trace, partner := s.link.partner, draws := s.link.draws } := rfl
@[simp] theorem State.hardReset_bus (s : State) : s.hardReset.bus = s.bus := rfl
@[simp] theorem State.hardReset_txns (s : State) : s.hardReset.txns = [] := rfl

/-! ### A host read returns (20_memory R60) -/

@[simp] theorem State.gotRead_cfg (s : State) (o : HostOffset) (v : HostWord) : (s.gotRead o v).cfg = s.cfg := rfl
@[simp] theorem State.gotRead_regs (s : State) (o : HostOffset) (v : HostWord) : (s.gotRead o v).regs = s.regs := rfl
@[simp] theorem State.gotRead_seq (s : State) (o : HostOffset) (v : HostWord) : (s.gotRead o v).seq = s.seq := rfl
@[simp] theorem State.gotRead_session (s : State) (o : HostOffset) (v : HostWord) :
    (s.gotRead o v).session = s.session := rfl
@[simp] theorem State.gotRead_ident (s : State) (o : HostOffset) (v : HostWord) : (s.gotRead o v).ident = s.ident := rfl
@[simp] theorem State.gotRead_mem (s : State) (o : HostOffset) (v : HostWord) : (s.gotRead o v).mem = s.mem := rfl
@[simp] theorem State.gotRead_link (s : State) (o : HostOffset) (v : HostWord) : (s.gotRead o v).link = s.link := rfl
@[simp] theorem State.gotRead_bus (s : State) (o : HostOffset) (v : HostWord) :
    (s.gotRead o v).bus = { s.bus with reads := (o, v) :: s.bus.reads } := rfl
@[simp] theorem State.gotRead_txns (s : State) (o : HostOffset) (v : HostWord) : (s.gotRead o v).txns = s.txns := rfl

/-! ### OVERRUN (10_state R31) -/

@[simp] theorem State.setOverrun_cfg (s : State) : s.setOverrun.cfg = s.cfg := rfl
@[simp] theorem State.setOverrun_regs (s : State) : s.setOverrun.regs = { s.regs with overrun := true } := rfl
@[simp] theorem State.setOverrun_seq (s : State) : s.setOverrun.seq = s.seq := rfl
@[simp] theorem State.setOverrun_session (s : State) : s.setOverrun.session = s.session := rfl
@[simp] theorem State.setOverrun_ident (s : State) : s.setOverrun.ident = s.ident := rfl
@[simp] theorem State.setOverrun_mem (s : State) : s.setOverrun.mem = s.mem := rfl
@[simp] theorem State.setOverrun_link (s : State) : s.setOverrun.link = s.link := rfl
@[simp] theorem State.setOverrun_bus (s : State) : s.setOverrun.bus = s.bus := rfl
@[simp] theorem State.setOverrun_txns (s : State) : s.setOverrun.txns = s.txns := rfl

/-! ### ACC_ERR (10_state R34) -/

@[simp] theorem State.setAccErr_cfg (s : State) : s.setAccErr.cfg = s.cfg := rfl
@[simp] theorem State.setAccErr_regs (s : State) : s.setAccErr.regs = { s.regs with accErr := true } := rfl
@[simp] theorem State.setAccErr_seq (s : State) : s.setAccErr.seq = s.seq := rfl
@[simp] theorem State.setAccErr_session (s : State) : s.setAccErr.session = s.session := rfl
@[simp] theorem State.setAccErr_ident (s : State) : s.setAccErr.ident = s.ident := rfl
@[simp] theorem State.setAccErr_mem (s : State) : s.setAccErr.mem = s.mem := rfl
@[simp] theorem State.setAccErr_link (s : State) : s.setAccErr.link = s.link := rfl
@[simp] theorem State.setAccErr_bus (s : State) : s.setAccErr.bus = s.bus := rfl
@[simp] theorem State.setAccErr_txns (s : State) : s.setAccErr.txns = s.txns := rfl

/-! ### A host write of STATUS (10_state R34) -/

@[simp] theorem State.writeStatus_cfg (s : State) (v : HostWord) : (s.writeStatus v).cfg = s.cfg := rfl
@[simp] theorem State.writeStatus_regs (s : State) (v : HostWord) : (s.writeStatus v).regs = s.regs.w1c v := rfl
@[simp] theorem State.writeStatus_seq (s : State) (v : HostWord) : (s.writeStatus v).seq = s.seq := rfl
@[simp] theorem State.writeStatus_session (s : State) (v : HostWord) : (s.writeStatus v).session = s.session := rfl
@[simp] theorem State.writeStatus_ident (s : State) (v : HostWord) : (s.writeStatus v).ident = s.ident := rfl
@[simp] theorem State.writeStatus_mem (s : State) (v : HostWord) : (s.writeStatus v).mem = s.mem := rfl
@[simp] theorem State.writeStatus_link (s : State) (v : HostWord) : (s.writeStatus v).link = s.link := rfl
@[simp] theorem State.writeStatus_bus (s : State) (v : HostWord) : (s.writeStatus v).bus = s.bus := rfl
@[simp] theorem State.writeStatus_txns (s : State) (v : HostWord) : (s.writeStatus v).txns = s.txns := rfl

/-! ### The pending inputs (log 5) -/

@[simp] theorem State.withInputs_cfg (s : State) (is : List Input) : (s.withInputs is).cfg = s.cfg := rfl
@[simp] theorem State.withInputs_regs (s : State) (is : List Input) : (s.withInputs is).regs = s.regs := rfl
@[simp] theorem State.withInputs_seq (s : State) (is : List Input) : (s.withInputs is).seq = s.seq := rfl
@[simp] theorem State.withInputs_session (s : State) (is : List Input) : (s.withInputs is).session = s.session := rfl
@[simp] theorem State.withInputs_ident (s : State) (is : List Input) : (s.withInputs is).ident = s.ident := rfl
@[simp] theorem State.withInputs_mem (s : State) (is : List Input) : (s.withInputs is).mem = s.mem := rfl
@[simp] theorem State.withInputs_link (s : State) (is : List Input) : (s.withInputs is).link = s.link := rfl
@[simp] theorem State.withInputs_bus (s : State) (is : List Input) :
    (s.withInputs is).bus = { s.bus with inputs := is } := rfl
@[simp] theorem State.withInputs_txns (s : State) (is : List Input) : (s.withInputs is).txns = s.txns := rfl

/-! ### One action further on (10_state R22) -/

@[simp] theorem State.forth_cfg (s : State) (bits : List Bool) : (s.forth bits).cfg = s.cfg := rfl
@[simp] theorem State.forth_regs (s : State) (bits : List Bool) : (s.forth bits).regs = s.regs := rfl
@[simp] theorem State.forth_seq (s : State) (bits : List Bool) : (s.forth bits).seq = s.seq.forth bits := rfl
@[simp] theorem State.forth_session (s : State) (bits : List Bool) : (s.forth bits).session = s.session := rfl
@[simp] theorem State.forth_ident (s : State) (bits : List Bool) : (s.forth bits).ident = s.ident := rfl
@[simp] theorem State.forth_mem (s : State) (bits : List Bool) : (s.forth bits).mem = s.mem := rfl
@[simp] theorem State.forth_link (s : State) (bits : List Bool) : (s.forth bits).link = s.link := rfl
@[simp] theorem State.forth_bus (s : State) (bits : List Bool) : (s.forth bits).bus = s.bus := rfl
@[simp] theorem State.forth_txns (s : State) (bits : List Bool) : (s.forth bits).txns = s.txns := rfl

/-! ### One action passed over (log 11) -/

@[simp] theorem State.passOver_cfg (s : State) : s.passOver.cfg = s.cfg := rfl
@[simp] theorem State.passOver_regs (s : State) : s.passOver.regs = s.regs := rfl
@[simp] theorem State.passOver_seq (s : State) :
    s.passOver.seq = { s.seq with position := s.seq.position.map fun p => { p with again := p.again - 1 } } := rfl
@[simp] theorem State.passOver_session (s : State) : s.passOver.session = s.session := rfl
@[simp] theorem State.passOver_ident (s : State) : s.passOver.ident = s.ident := rfl
@[simp] theorem State.passOver_mem (s : State) : s.passOver.mem = s.mem := rfl
@[simp] theorem State.passOver_link (s : State) : s.passOver.link = s.link := rfl
@[simp] theorem State.passOver_bus (s : State) : s.passOver.bus = s.bus := rfl
@[simp] theorem State.passOver_txns (s : State) : s.passOver.txns = s.txns := rfl

/-! ### One link event (20_memory R64) -/

@[simp] theorem State.record_cfg (s : State) (e : LinkEvent) : (s.record e).cfg = s.cfg := rfl
@[simp] theorem State.record_regs (s : State) (e : LinkEvent) : (s.record e).regs = s.regs := rfl
@[simp] theorem State.record_seq (s : State) (e : LinkEvent) : (s.record e).seq = s.seq.forth (samplesOf [e]) := rfl
@[simp] theorem State.record_session (s : State) (e : LinkEvent) : (s.record e).session = s.session := rfl
@[simp] theorem State.record_ident (s : State) (e : LinkEvent) : (s.record e).ident = s.ident := rfl
@[simp] theorem State.record_mem (s : State) (e : LinkEvent) : (s.record e).mem = s.mem := rfl
@[simp] theorem State.record_link (s : State) (e : LinkEvent) : (s.record e).link = s.link.observe s.cfg e := rfl
@[simp] theorem State.record_bus (s : State) (e : LinkEvent) : (s.record e).bus = s.bus := rfl
@[simp] theorem State.record_txns (s : State) (e : LinkEvent) : (s.record e).txns = s.txns := rfl

/-! ### The receive register (log 7) -/

@[simp] theorem State.setRx_cfg (s : State) (w : Word) : (s.setRx w).cfg = s.cfg := rfl
@[simp] theorem State.setRx_regs (s : State) (w : Word) : (s.setRx w).regs = s.regs := rfl
@[simp] theorem State.setRx_seq (s : State) (w : Word) : (s.setRx w).seq = s.seq := rfl
@[simp] theorem State.setRx_session (s : State) (w : Word) : (s.setRx w).session = s.session := rfl
@[simp] theorem State.setRx_ident (s : State) (w : Word) : (s.setRx w).ident = s.ident := rfl
@[simp] theorem State.setRx_mem (s : State) (w : Word) : (s.setRx w).mem = s.mem := rfl
@[simp] theorem State.setRx_link (s : State) (w : Word) : (s.setRx w).link = { s.link with rx := w } := rfl
@[simp] theorem State.setRx_bus (s : State) (w : Word) : (s.setRx w).bus = s.bus := rfl
@[simp] theorem State.setRx_txns (s : State) (w : Word) : (s.setRx w).txns = s.txns := rfl

/-! ### Acceptance (60_exceptions R280) -/

@[simp] theorem State.accept_cfg (s : State) (op : Byte) : (s.accept op).cfg = s.cfg := rfl
@[simp] theorem State.accept_regs (s : State) (op : Byte) :
    (s.accept op).regs =
      { s.regs with cmd := op, cause := .none, faultAddr := 0, faultExp := 0, faultAct := 0, result := 0 } := rfl
@[simp] theorem State.accept_seq (s : State) (op : Byte) :
    (s.accept op).seq = { s.latched op with busy := true, position := some {} } := rfl
@[simp] theorem State.accept_session (s : State) (op : Byte) : (s.accept op).session = s.session := rfl
@[simp] theorem State.accept_ident (s : State) (op : Byte) : (s.accept op).ident = s.ident := rfl
@[simp] theorem State.accept_mem (s : State) (op : Byte) : (s.accept op).mem = s.mem := rfl
@[simp] theorem State.accept_link (s : State) (op : Byte) : (s.accept op).link = s.link := rfl
@[simp] theorem State.accept_bus (s : State) (op : Byte) : (s.accept op).bus = s.bus := rfl
@[simp] theorem State.accept_txns (s : State) (op : Byte) : (s.accept op).txns = s.txns := rfl

/-! ### RESULT (10_state R36) -/

@[simp] theorem State.setResult_cfg (s : State) (w : Word) : (s.setResult w).cfg = s.cfg := rfl
@[simp] theorem State.setResult_regs (s : State) (w : Word) : (s.setResult w).regs = { s.regs with result := w } := rfl
@[simp] theorem State.setResult_seq (s : State) (w : Word) : (s.setResult w).seq = s.seq := rfl
@[simp] theorem State.setResult_session (s : State) (w : Word) : (s.setResult w).session = s.session := rfl
@[simp] theorem State.setResult_ident (s : State) (w : Word) : (s.setResult w).ident = s.ident := rfl
@[simp] theorem State.setResult_mem (s : State) (w : Word) : (s.setResult w).mem = s.mem := rfl
@[simp] theorem State.setResult_link (s : State) (w : Word) : (s.setResult w).link = s.link := rfl
@[simp] theorem State.setResult_bus (s : State) (w : Word) : (s.setResult w).bus = s.bus := rfl
@[simp] theorem State.setResult_txns (s : State) (w : Word) : (s.setResult w).txns = s.txns := rfl

/-! ### The session state (10_state R24) -/

@[simp] theorem State.setSession_cfg (s : State) (x : Session) : (s.setSession x).cfg = s.cfg := rfl
@[simp] theorem State.setSession_regs (s : State) (x : Session) : (s.setSession x).regs = s.regs := rfl
@[simp] theorem State.setSession_seq (s : State) (x : Session) : (s.setSession x).seq = s.seq := rfl
@[simp] theorem State.setSession_session (s : State) (x : Session) : (s.setSession x).session = x := rfl
@[simp] theorem State.setSession_ident (s : State) (x : Session) : (s.setSession x).ident = s.ident := rfl
@[simp] theorem State.setSession_mem (s : State) (x : Session) : (s.setSession x).mem = s.mem := rfl
@[simp] theorem State.setSession_link (s : State) (x : Session) : (s.setSession x).link = s.link := rfl
@[simp] theorem State.setSession_bus (s : State) (x : Session) : (s.setSession x).bus = s.bus := rfl
@[simp] theorem State.setSession_txns (s : State) (x : Session) : (s.setSession x).txns = s.txns := rfl

/-! ### ident (10_state R25) -/

@[simp] theorem State.setIdentStatus_cfg (s : State) (x : IdentStatus) : (s.setIdentStatus x).cfg = s.cfg := rfl
@[simp] theorem State.setIdentStatus_regs (s : State) (x : IdentStatus) : (s.setIdentStatus x).regs = s.regs := rfl
@[simp] theorem State.setIdentStatus_seq (s : State) (x : IdentStatus) : (s.setIdentStatus x).seq = s.seq := rfl
@[simp] theorem State.setIdentStatus_session (s : State) (x : IdentStatus) :
    (s.setIdentStatus x).session = s.session := rfl
@[simp] theorem State.setIdentStatus_ident (s : State) (x : IdentStatus) :
    (s.setIdentStatus x).ident = { s.ident with status := x } := rfl
@[simp] theorem State.setIdentStatus_mem (s : State) (x : IdentStatus) : (s.setIdentStatus x).mem = s.mem := rfl
@[simp] theorem State.setIdentStatus_link (s : State) (x : IdentStatus) : (s.setIdentStatus x).link = s.link := rfl
@[simp] theorem State.setIdentStatus_bus (s : State) (x : IdentStatus) : (s.setIdentStatus x).bus = s.bus := rfl
@[simp] theorem State.setIdentStatus_txns (s : State) (x : IdentStatus) : (s.setIdentStatus x).txns = s.txns := rfl

/-! ### devid (10_state R26) -/

@[simp] theorem State.setDevId_cfg (s : State) (d : Word) : (s.setDevId d).cfg = s.cfg := rfl
@[simp] theorem State.setDevId_regs (s : State) (d : Word) : (s.setDevId d).regs = s.regs := rfl
@[simp] theorem State.setDevId_seq (s : State) (d : Word) : (s.setDevId d).seq = s.seq := rfl
@[simp] theorem State.setDevId_session (s : State) (d : Word) : (s.setDevId d).session = s.session := rfl
@[simp] theorem State.setDevId_ident (s : State) (d : Word) : (s.setDevId d).ident = { s.ident with devid := d } := rfl
@[simp] theorem State.setDevId_mem (s : State) (d : Word) : (s.setDevId d).mem = s.mem := rfl
@[simp] theorem State.setDevId_link (s : State) (d : Word) : (s.setDevId d).link = s.link := rfl
@[simp] theorem State.setDevId_bus (s : State) (d : Word) : (s.setDevId d).bus = s.bus := rfl
@[simp] theorem State.setDevId_txns (s : State) (d : Word) : (s.setDevId d).txns = s.txns := rfl

/-! ### rev (10_state R26) -/

@[simp] theorem State.setRev_cfg (s : State) (r : BitVec 5) : (s.setRev r).cfg = s.cfg := rfl
@[simp] theorem State.setRev_regs (s : State) (r : BitVec 5) : (s.setRev r).regs = s.regs := rfl
@[simp] theorem State.setRev_seq (s : State) (r : BitVec 5) : (s.setRev r).seq = s.seq := rfl
@[simp] theorem State.setRev_session (s : State) (r : BitVec 5) : (s.setRev r).session = s.session := rfl
@[simp] theorem State.setRev_ident (s : State) (r : BitVec 5) : (s.setRev r).ident = { s.ident with rev := r } := rfl
@[simp] theorem State.setRev_mem (s : State) (r : BitVec 5) : (s.setRev r).mem = s.mem := rfl
@[simp] theorem State.setRev_link (s : State) (r : BitVec 5) : (s.setRev r).link = s.link := rfl
@[simp] theorem State.setRev_bus (s : State) (r : BitVec 5) : (s.setRev r).bus = s.bus := rfl
@[simp] theorem State.setRev_txns (s : State) (r : BitVec 5) : (s.setRev r).txns = s.txns := rfl

/-! ### index (10_state R26) -/

@[simp] theorem State.setIndex_cfg (s : State) (k : Byte) : (s.setIndex k).cfg = s.cfg := rfl
@[simp] theorem State.setIndex_regs (s : State) (k : Byte) : (s.setIndex k).regs = s.regs := rfl
@[simp] theorem State.setIndex_seq (s : State) (k : Byte) : (s.setIndex k).seq = s.seq := rfl
@[simp] theorem State.setIndex_session (s : State) (k : Byte) : (s.setIndex k).session = s.session := rfl
@[simp] theorem State.setIndex_ident (s : State) (k : Byte) : (s.setIndex k).ident = { s.ident with index := k } := rfl
@[simp] theorem State.setIndex_mem (s : State) (k : Byte) : (s.setIndex k).mem = s.mem := rfl
@[simp] theorem State.setIndex_link (s : State) (k : Byte) : (s.setIndex k).link = s.link := rfl
@[simp] theorem State.setIndex_bus (s : State) (k : Byte) : (s.setIndex k).bus = s.bus := rfl
@[simp] theorem State.setIndex_txns (s : State) (k : Byte) : (s.setIndex k).txns = s.txns := rfl

/-! ### code_size (10_state R26) -/

@[simp] theorem State.setCodeSize_cfg (s : State) (n : Addr) : (s.setCodeSize n).cfg = s.cfg := rfl
@[simp] theorem State.setCodeSize_regs (s : State) (n : Addr) : (s.setCodeSize n).regs = s.regs := rfl
@[simp] theorem State.setCodeSize_seq (s : State) (n : Addr) : (s.setCodeSize n).seq = s.seq := rfl
@[simp] theorem State.setCodeSize_session (s : State) (n : Addr) : (s.setCodeSize n).session = s.session := rfl
@[simp] theorem State.setCodeSize_ident (s : State) (n : Addr) :
    (s.setCodeSize n).ident = { s.ident with codeSize := n } := rfl
@[simp] theorem State.setCodeSize_mem (s : State) (n : Addr) : (s.setCodeSize n).mem = s.mem := rfl
@[simp] theorem State.setCodeSize_link (s : State) (n : Addr) : (s.setCodeSize n).link = s.link := rfl
@[simp] theorem State.setCodeSize_bus (s : State) (n : Addr) : (s.setCodeSize n).bus = s.bus := rfl
@[simp] theorem State.setCodeSize_txns (s : State) (n : Addr) : (s.setCodeSize n).txns = s.txns := rfl

/-! ### erase_blocks (10_state R26) -/

@[simp] theorem State.setEraseBlocks_cfg (s : State) (n : BitVec 4) : (s.setEraseBlocks n).cfg = s.cfg := rfl
@[simp] theorem State.setEraseBlocks_regs (s : State) (n : BitVec 4) : (s.setEraseBlocks n).regs = s.regs := rfl
@[simp] theorem State.setEraseBlocks_seq (s : State) (n : BitVec 4) : (s.setEraseBlocks n).seq = s.seq := rfl
@[simp] theorem State.setEraseBlocks_session (s : State) (n : BitVec 4) :
    (s.setEraseBlocks n).session = s.session := rfl
@[simp] theorem State.setEraseBlocks_ident (s : State) (n : BitVec 4) :
    (s.setEraseBlocks n).ident = { s.ident with eraseBlocks := n } := rfl
@[simp] theorem State.setEraseBlocks_mem (s : State) (n : BitVec 4) : (s.setEraseBlocks n).mem = s.mem := rfl
@[simp] theorem State.setEraseBlocks_link (s : State) (n : BitVec 4) : (s.setEraseBlocks n).link = s.link := rfl
@[simp] theorem State.setEraseBlocks_bus (s : State) (n : BitVec 4) : (s.setEraseBlocks n).bus = s.bus := rfl
@[simp] theorem State.setEraseBlocks_txns (s : State) (n : BitVec 4) : (s.setEraseBlocks n).txns = s.txns := rfl

/-! ### wbuf_words (10_state R26) -/

@[simp] theorem State.setWbufWords_cfg (s : State) (n : BitVec 7) : (s.setWbufWords n).cfg = s.cfg := rfl
@[simp] theorem State.setWbufWords_regs (s : State) (n : BitVec 7) : (s.setWbufWords n).regs = s.regs := rfl
@[simp] theorem State.setWbufWords_seq (s : State) (n : BitVec 7) : (s.setWbufWords n).seq = s.seq := rfl
@[simp] theorem State.setWbufWords_session (s : State) (n : BitVec 7) : (s.setWbufWords n).session = s.session := rfl
@[simp] theorem State.setWbufWords_ident (s : State) (n : BitVec 7) :
    (s.setWbufWords n).ident = { s.ident with wbufWords := n } := rfl
@[simp] theorem State.setWbufWords_mem (s : State) (n : BitVec 7) : (s.setWbufWords n).mem = s.mem := rfl
@[simp] theorem State.setWbufWords_link (s : State) (n : BitVec 7) : (s.setWbufWords n).link = s.link := rfl
@[simp] theorem State.setWbufWords_bus (s : State) (n : BitVec 7) : (s.setWbufWords n).bus = s.bus := rfl
@[simp] theorem State.setWbufWords_txns (s : State) (n : BitVec 7) : (s.setWbufWords n).txns = s.txns := rfl

/-! ### CFG_MM (10_state R40) -/

@[simp] theorem State.setCfgMm_cfg (s : State) (v : Byte) : (s.setCfgMm v).cfg = s.cfg := rfl
@[simp] theorem State.setCfgMm_regs (s : State) (v : Byte) : (s.setCfgMm v).regs = { s.regs with cfgMm := v } := rfl
@[simp] theorem State.setCfgMm_seq (s : State) (v : Byte) : (s.setCfgMm v).seq = s.seq := rfl
@[simp] theorem State.setCfgMm_session (s : State) (v : Byte) : (s.setCfgMm v).session = s.session := rfl
@[simp] theorem State.setCfgMm_ident (s : State) (v : Byte) : (s.setCfgMm v).ident = s.ident := rfl
@[simp] theorem State.setCfgMm_mem (s : State) (v : Byte) : (s.setCfgMm v).mem = s.mem := rfl
@[simp] theorem State.setCfgMm_link (s : State) (v : Byte) : (s.setCfgMm v).link = s.link := rfl
@[simp] theorem State.setCfgMm_bus (s : State) (v : Byte) : (s.setCfgMm v).bus = s.bus := rfl
@[simp] theorem State.setCfgMm_txns (s : State) (v : Byte) : (s.setCfgMm v).txns = s.txns := rfl

/-! ### The poll counter (10_state R29) -/

@[simp] theorem State.setPolls_cfg (s : State) (n : Word) : (s.setPolls n).cfg = s.cfg := rfl
@[simp] theorem State.setPolls_regs (s : State) (n : Word) : (s.setPolls n).regs = s.regs := rfl
@[simp] theorem State.setPolls_seq (s : State) (n : Word) : (s.setPolls n).seq = { s.seq with polls := n } := rfl
@[simp] theorem State.setPolls_session (s : State) (n : Word) : (s.setPolls n).session = s.session := rfl
@[simp] theorem State.setPolls_ident (s : State) (n : Word) : (s.setPolls n).ident = s.ident := rfl
@[simp] theorem State.setPolls_mem (s : State) (n : Word) : (s.setPolls n).mem = s.mem := rfl
@[simp] theorem State.setPolls_link (s : State) (n : Word) : (s.setPolls n).link = s.link := rfl
@[simp] theorem State.setPolls_bus (s : State) (n : Word) : (s.setPolls n).bus = s.bus := rfl
@[simp] theorem State.setPolls_txns (s : State) (n : Word) : (s.setPolls n).txns = s.txns := rfl

/-! ### One link event passes the pending inputs (log 5) -/

@[simp] theorem State.tick_cfg (s : State) :
    s.tick.cfg = s.cfg := by
  unfold State.tick
  split <;> rfl

@[simp] theorem State.tick_regs (s : State) :
    s.tick.regs = s.regs := by
  unfold State.tick
  split <;> rfl

@[simp] theorem State.tick_seq (s : State) :
    s.tick.seq = s.seq := by
  unfold State.tick
  split <;> rfl

@[simp] theorem State.tick_session (s : State) :
    s.tick.session = s.session := by
  unfold State.tick
  split <;> rfl

@[simp] theorem State.tick_ident (s : State) :
    s.tick.ident = s.ident := by
  unfold State.tick
  split <;> rfl

@[simp] theorem State.tick_mem (s : State) :
    s.tick.mem = s.mem := by
  unfold State.tick
  split <;> rfl

@[simp] theorem State.tick_link (s : State) :
    s.tick.link = s.link := by
  unfold State.tick
  split <;> rfl

@[simp] theorem State.tick_txns (s : State) :
    s.tick.txns = s.txns := by
  unfold State.tick
  split <;> rfl

/-! ### The progress reporter (46_program_verify R211) -/

@[simp] theorem State.reportProgress_cfg (s : State) (ph : Phase) (p : BitVec 7) :
    (s.reportProgress ph p).cfg = s.cfg := by
  unfold State.reportProgress
  split <;> rfl

@[simp] theorem State.reportProgress_session (s : State) (ph : Phase) (p : BitVec 7) :
    (s.reportProgress ph p).session = s.session := by
  unfold State.reportProgress
  split <;> rfl

@[simp] theorem State.reportProgress_ident (s : State) (ph : Phase) (p : BitVec 7) :
    (s.reportProgress ph p).ident = s.ident := by
  unfold State.reportProgress
  split <;> rfl

@[simp] theorem State.reportProgress_mem (s : State) (ph : Phase) (p : BitVec 7) :
    (s.reportProgress ph p).mem = s.mem := by
  unfold State.reportProgress
  split <;> rfl

@[simp] theorem State.reportProgress_link (s : State) (ph : Phase) (p : BitVec 7) :
    (s.reportProgress ph p).link = s.link := by
  unfold State.reportProgress
  split <;> rfl

@[simp] theorem State.reportProgress_bus (s : State) (ph : Phase) (p : BitVec 7) :
    (s.reportProgress ph p).bus = s.bus := by
  unfold State.reportProgress
  split <;> rfl

@[simp] theorem State.reportProgress_txns (s : State) (ph : Phase) (p : BitVec 7) :
    (s.reportProgress ph p).txns = s.txns := by
  unfold State.reportProgress
  split <;> rfl

/-! ### Sequences of link events and the position -/

/-- The sequencer after a sequence of link events. -/
def Sequencer.after (q : Sequencer) (es : List LinkEvent) : Sequencer := es.foldl (fun q e => q.forth (samplesOf [e])) q

/-- The state after a run that only emitted `es` and left the link side `l'`. -/
def State.ran (s : State) (l' : LinkSide) (es : List LinkEvent) : State := { s with link := l', seq := s.seq.after es }

/-- The sequencer with no position. -/
def Sequencer.still (q : Sequencer) : Sequencer := { q with position := none }

/-- Moving on changes the position of the sequencer and nothing else. -/
@[simp] theorem Sequencer.forth_still (q : Sequencer) (bits : List Bool) : (q.forth bits).still = q.still := rfl

@[simp] theorem Sequencer.after_still (q : Sequencer) (es : List LinkEvent) : (q.after es).still = q.still := by
  induction es generalizing q with
  | nil => rfl
  | cons e es ih => exact ih (q.forth (samplesOf [e]))

theorem Sequencer.eq_of_still {q q' : Sequencer} (h : q.still = q'.still) : q = { q' with position := q.position } := by
  cases q
  cases q'
  simp_all [Sequencer.still]

/-- Moving on changes the position of the sequencer and nothing else, field by field. -/
theorem Sequencer.after_eq (q : Sequencer) (es : List LinkEvent) :
    q.after es = { q with position := (q.after es).position } :=
  Sequencer.eq_of_still (q.after_still es)

@[simp] theorem Sequencer.forth_replaying (q : Sequencer) (bits : List Bool) :
    (q.forth bits).replaying = q.replaying := by
  unfold Sequencer.replaying Sequencer.forth
  cases q.position <;> rfl

@[simp] theorem Sequencer.after_replaying (q : Sequencer) (es : List LinkEvent) :
    (q.after es).replaying = q.replaying := by
  induction es generalizing q with
  | nil => rfl
  | cons e es ih => exact (ih (q.forth (samplesOf [e]))).trans (q.forth_replaying _)

@[simp] theorem Sequencer.forth_busy (q : Sequencer) (bits : List Bool) : (q.forth bits).busy = q.busy := rfl
@[simp] theorem Sequencer.forth_op (q : Sequencer) (bits : List Bool) : (q.forth bits).op = q.op := rfl
@[simp] theorem Sequencer.forth_arg0 (q : Sequencer) (bits : List Bool) : (q.forth bits).arg0 = q.arg0 := rfl
@[simp] theorem Sequencer.forth_arg1 (q : Sequencer) (bits : List Bool) : (q.forth bits).arg1 = q.arg1 := rfl
@[simp] theorem Sequencer.forth_ctrl (q : Sequencer) (bits : List Bool) : (q.forth bits).ctrl = q.ctrl := rfl
@[simp] theorem Sequencer.forth_pollMax (q : Sequencer) (bits : List Bool) : (q.forth bits).pollMax = q.pollMax := rfl
@[simp] theorem Sequencer.forth_lastPct (q : Sequencer) (bits : List Bool) : (q.forth bits).lastPct = q.lastPct := rfl
@[simp] theorem Sequencer.forth_phase (q : Sequencer) (bits : List Bool) : (q.forth bits).phase = q.phase := rfl
@[simp] theorem Sequencer.forth_polls (q : Sequencer) (bits : List Bool) : (q.forth bits).polls = q.polls := rfl
@[simp] theorem Sequencer.after_busy (q : Sequencer) (es : List LinkEvent) : (q.after es).busy = q.busy := by
  rw [q.after_eq]
@[simp] theorem Sequencer.after_op (q : Sequencer) (es : List LinkEvent) : (q.after es).op = q.op := by
  rw [q.after_eq]
@[simp] theorem Sequencer.after_arg0 (q : Sequencer) (es : List LinkEvent) : (q.after es).arg0 = q.arg0 := by
  rw [q.after_eq]
@[simp] theorem Sequencer.after_arg1 (q : Sequencer) (es : List LinkEvent) : (q.after es).arg1 = q.arg1 := by
  rw [q.after_eq]
@[simp] theorem Sequencer.after_ctrl (q : Sequencer) (es : List LinkEvent) : (q.after es).ctrl = q.ctrl := by
  rw [q.after_eq]
@[simp] theorem Sequencer.after_pollMax (q : Sequencer) (es : List LinkEvent) : (q.after es).pollMax = q.pollMax := by
  rw [q.after_eq]
@[simp] theorem Sequencer.after_lastPct (q : Sequencer) (es : List LinkEvent) : (q.after es).lastPct = q.lastPct := by
  rw [q.after_eq]
@[simp] theorem Sequencer.after_phase (q : Sequencer) (es : List LinkEvent) : (q.after es).phase = q.phase := by
  rw [q.after_eq]
@[simp] theorem Sequencer.after_polls (q : Sequencer) (es : List LinkEvent) : (q.after es).polls = q.polls := by
  rw [q.after_eq]

@[simp] theorem Sequencer.after_append (q : Sequencer) (es fs : List LinkEvent) :
    (q.after es).after fs = q.after (es ++ fs) := List.foldl_append.symm

@[simp] theorem Sequencer.after_nil (q : Sequencer) : q.after [] = q := rfl

/-- An idle sequencer has no position to move. -/
theorem Sequencer.after_idle {q : Sequencer} (h : q.position = none) (es : List LinkEvent) : q.after es = q := by
  have hf : ∀ bits, q.forth bits = q := fun bits => by
    cases q
    simp_all [Sequencer.forth]
  induction es with
  | nil => rfl
  | cons e es ih => rw [show q.after (e :: es) = (q.forth (samplesOf [e])).after es from rfl, hf, ih]

@[simp] theorem State.ran_ran (s : State) (l l' : LinkSide) (es fs : List LinkEvent) :
    (s.ran l es).ran l' fs = s.ran l' (es ++ fs) := by
  simp [State.ran]

theorem State.setRx_ran (s : State) (l' : LinkSide) (es : List LinkEvent) (w : Word) :
    (s.ran l' es).setRx w = s.ran { l' with rx := w } es := rfl

theorem State.ran_idle {s : State} (h : s.seq.position = none) (l' : LinkSide) (es : List LinkEvent) :
    s.ran l' es = { s with link := l' } := by
  rw [State.ran, Sequencer.after_idle h]

@[simp] theorem State.ran_cfg (s : State) (l' : LinkSide) (es : List LinkEvent) :
    (s.ran l' es).cfg = s.cfg := rfl
@[simp] theorem State.ran_regs (s : State) (l' : LinkSide) (es : List LinkEvent) :
    (s.ran l' es).regs = s.regs := rfl
@[simp] theorem State.ran_seq (s : State) (l' : LinkSide) (es : List LinkEvent) :
    (s.ran l' es).seq = s.seq.after es := rfl
@[simp] theorem State.ran_session (s : State) (l' : LinkSide) (es : List LinkEvent) :
    (s.ran l' es).session = s.session := rfl
@[simp] theorem State.ran_ident (s : State) (l' : LinkSide) (es : List LinkEvent) :
    (s.ran l' es).ident = s.ident := rfl
@[simp] theorem State.ran_mem (s : State) (l' : LinkSide) (es : List LinkEvent) :
    (s.ran l' es).mem = s.mem := rfl
@[simp] theorem State.ran_link (s : State) (l' : LinkSide) (es : List LinkEvent) :
    (s.ran l' es).link = l' := rfl
@[simp] theorem State.ran_bus (s : State) (l' : LinkSide) (es : List LinkEvent) :
    (s.ran l' es).bus = s.bus := rfl
@[simp] theorem State.ran_txns (s : State) (l' : LinkSide) (es : List LinkEvent) :
    (s.ran l' es).txns = s.txns := rfl

@[simp] theorem State.recordAll_cfg (s : State) (es : List LinkEvent) : (s.recordAll es).cfg = s.cfg := by
  induction es generalizing s with
  | nil => rfl
  | cons e es ih => exact ih (s.record e)

@[simp] theorem State.recordAll_regs (s : State) (es : List LinkEvent) : (s.recordAll es).regs = s.regs := by
  induction es generalizing s with
  | nil => rfl
  | cons e es ih => exact ih (s.record e)

@[simp] theorem State.recordAll_session (s : State) (es : List LinkEvent) : (s.recordAll es).session = s.session := by
  induction es generalizing s with
  | nil => rfl
  | cons e es ih => exact ih (s.record e)

@[simp] theorem State.recordAll_ident (s : State) (es : List LinkEvent) : (s.recordAll es).ident = s.ident := by
  induction es generalizing s with
  | nil => rfl
  | cons e es ih => exact ih (s.record e)

@[simp] theorem State.recordAll_mem (s : State) (es : List LinkEvent) : (s.recordAll es).mem = s.mem := by
  induction es generalizing s with
  | nil => rfl
  | cons e es ih => exact ih (s.record e)

@[simp] theorem State.recordAll_bus (s : State) (es : List LinkEvent) : (s.recordAll es).bus = s.bus := by
  induction es generalizing s with
  | nil => rfl
  | cons e es ih => exact ih (s.record e)

@[simp] theorem State.recordAll_txns (s : State) (es : List LinkEvent) : (s.recordAll es).txns = s.txns := by
  induction es generalizing s with
  | nil => rfl
  | cons e es ih => exact ih (s.record e)

@[simp] theorem State.recordAll_link (s : State) (es : List LinkEvent) :
    (s.recordAll es).link = s.link.observeAll s.cfg es := by
  induction es generalizing s with
  | nil => rfl
  | cons e es ih => exact ih (s.record e)

@[simp] theorem State.recordAll_seq (s : State) (es : List LinkEvent) : (s.recordAll es).seq = s.seq.after es := by
  induction es generalizing s with
  | nil => rfl
  | cons e es ih => exact ih (s.record e)

/-- A sequence of events changes the link side, moves the position, and does nothing else. -/
theorem State.recordAll_eq (s : State) (es : List LinkEvent) :
    s.recordAll es = s.ran (s.link.observeAll s.cfg es) es := by
  induction es generalizing s with
  | nil => rfl
  | cons e es ih => exact ih (s.record e)

theorem State.recordAll_append (s : State) (es fs : List LinkEvent) :
    s.recordAll (es ++ fs) = (s.recordAll es).recordAll fs := List.foldl_append

end Sys2Proof.Machine
end

