-- ==== Sys2Proof/Laws/Ops.lean ====
section
/-! SUPPORT. What each shared operation can do, said once: how a pseudocode run composes; what it does when no
host access arrives during it; what it can do when some do; and how an issue ends. -/

namespace Sys2Proof.Machine

/-! ## Running pseudocode -/

theorem Op.pure_run {α : Type} (a : α) (s : State) : (pure a : Op α) s = .ok a s := rfl

theorem Op.bind_run {α β : Type} (x : Op α) (f : α → Op β) (s : State) :
    (x >>= f) s = match x s with
      | .ok a t => f a t
      | .error e t => .error e t := by
  show EStateM.bind x f s = _
  unfold EStateM.bind
  cases x s <;> rfl

theorem Op.bind_ok {α β : Type} {x : Op α} {f : α → Op β} {s t : State} {a : α} (h : x s = .ok a t) :
    (x >>= f) s = f a t := by
  rw [Op.bind_run, h]

theorem Op.bind_error {α β : Type} {x : Op α} {f : α → Op β} {s t : State} {e : Halt} (h : x s = .error e t) :
    (x >>= f) s = .error e t := by
  rw [Op.bind_run, h]

theorem Op.update_run (f : State → State) (s : State) : update f s = .ok () (f s) := rfl

theorem Op.ask_run {α : Type} (f : State → α) (s : State) : ask f s = .ok (f s) s := rfl

theorem Op.raise_run {α : Type} (c : Cause) (a : Addr) (e v : Word) (s : State) :
    (raise c a e v : Op α) s = .error .ended (s.withCause c a e v).complete := rfl

/-! ## Events and lines -/

theorem Lines.applyAll_append (l : Lines) (es fs : List LinkEvent) :
    l.applyAll (es ++ fs) = (l.applyAll es).applyAll fs := List.foldl_append

theorem Lines.applyAll_cons (l : Lines) (e : LinkEvent) (es : List LinkEvent) :
    l.applyAll (e :: es) = (l.apply e).applyAll es := rfl

theorem samplesOf_append (es fs : List LinkEvent) : samplesOf (es ++ fs) = samplesOf es ++ samplesOf fs := by
  induction es with
  | nil => rfl
  | cons e es ih => cases e <;> simp [samplesOf, ih]

theorem samplesOf_outBits (bs : List Bool) : samplesOf (outBitsEvents bs) = [] := by
  induction bs with
  | nil => rfl
  | cons b bs ih =>
    rw [show outBitsEvents (b :: bs) = outCellEvents b ++ outBitsEvents bs from rfl, samplesOf_append, ih]
    rfl

theorem samplesOf_sendCmd (c : Nibble) : samplesOf (sendCmdEvents c) = [] := by
  rw [sendCmdEvents, samplesOf_append, samplesOf_outBits]
  rfl

theorem samplesOf_sendWord (w : Word) : samplesOf (sendWordEvents w) = [] := by
  rw [sendWordEvents, samplesOf_append, samplesOf_outBits]
  rfl

theorem samplesOf_sendInsn (c : Nibble) (w : Word) : samplesOf (sendInsnEvents c w) = [] := by
  rw [sendInsnEvents, samplesOf_append, samplesOf_sendCmd, samplesOf_sendWord]
  rfl

theorem samplesOf_readWord (bs : List Bool) : samplesOf (readWordEvents bs) = bs := by
  have hl : samplesOf readLeadEvents = [] := by
    rw [readLeadEvents, samplesOf_append, samplesOf_outBits]
    rfl
  have hb : samplesOf (bs.flatMap inCellEvents) = bs := by
    induction bs with
    | nil => rfl
    | cons b bs ih =>
      rw [List.flatMap_cons, samplesOf_append, ih]
      rfl
  rw [readWordEvents, samplesOf_append, samplesOf_append, hl, hb]
  simp [readTailEvents, samplesOf]

theorem samplesOf_readTxn (c : Nibble) (bs : List Bool) : samplesOf (readTxnEvents c bs) = bs := by
  rw [readTxnEvents, samplesOf_append, samplesOf_sendCmd, samplesOf_readWord]
  rfl

theorem samplesOf_gotoAddress (c : Codes) (a : Addr) : samplesOf (gotoAddressEvents c a) = [] := by
  simp [gotoAddressEvents, samplesOf_append, samplesOf_sendInsn]

theorem samplesOf_gotoShort (c : Codes) (o : Byte) : samplesOf (gotoShortEvents c o) = [] := by
  simp [gotoShortEvents, samplesOf_append, samplesOf_sendInsn]

theorem samplesOf_progPulse (cfg : Config) : samplesOf (progPulseEvents cfg) = [] := by
  rw [progPulseEvents, samplesOf_append, samplesOf_append, samplesOf_outBits]
  split
  · rw [samplesOf_sendWord]
    rfl
  · rfl

theorem samplesOf_core (c : Codes) (ws : List Word) : samplesOf (coreEvents c ws) = [] := by
  induction ws with
  | nil => rfl
  | cons w ws ih =>
    rw [show coreEvents c (w :: ws) = sendInsnEvents c.icsp.core w ++ coreEvents c ws from rfl, samplesOf_append, ih,
      samplesOf_sendInsn]
    rfl

theorem LinkSide.observeAll_append (cfg : Config) (es fs : List LinkEvent) (l : LinkSide) :
    l.observeAll cfg (es ++ fs) = (l.observeAll cfg es).observeAll cfg fs := List.foldl_append

@[simp] theorem LinkSide.observeAll_trace (cfg : Config) (es : List LinkEvent) (l : LinkSide) :
    (l.observeAll cfg es).trace = es.reverse ++ l.trace := by
  induction es generalizing l with
  | nil => rfl
  | cons e es ih => rw [show l.observeAll cfg (e :: es) = (l.observe cfg e).observeAll cfg es from rfl, ih]; simp [LinkSide.observe]

@[simp] theorem LinkSide.observeAll_lines (cfg : Config) (es : List LinkEvent) (l : LinkSide) :
    (l.observeAll cfg es).lines = l.lines.applyAll es := by
  induction es generalizing l with
  | nil => rfl
  | cons e es ih => exact ih (l.observe cfg e)

@[simp] theorem LinkSide.observeAll_rx (cfg : Config) (es : List LinkEvent) (l : LinkSide) :
    (l.observeAll cfg es).rx = l.rx := by
  induction es generalizing l with
  | nil => rfl
  | cons e es ih => exact ih (l.observe cfg e)

@[simp] theorem LinkSide.observeAll_draws (cfg : Config) (es : List LinkEvent) (l : LinkSide) :
    (l.observeAll cfg es).draws = l.draws := by
  induction es generalizing l with
  | nil => rfl
  | cons e es ih => exact ih (l.observe cfg e)

/-- The oracle is under no law: events change nothing in it. -/
theorem LinkSide.observeAll_oracle (cfg : Config) (es : List LinkEvent) {l : LinkSide} {answers : List Bool}
    (h : l.partner = .oracle answers) : (l.observeAll cfg es).partner = .oracle answers := by
  induction es generalizing l with
  | nil => exact h
  | cons e es ih =>
    exact ih (l := l.observe cfg e) (by simp [LinkSide.observe, h, Partner.onEvent])

/-! ## Link runs -/

theorem LinkSide.Ran.refl (l : LinkSide) : l.Ran l [] :=
  ⟨rfl, rfl, fun answers rest h hl => by
    have : answers = [] := List.length_eq_zero_iff.1 hl
    subst this
    exact ⟨rfl, by simpa using h⟩⟩

/-- Link runs compose. -/
theorem LinkSide.Ran.trans {l₁ l₂ l₃ : LinkSide} {es fs : List LinkEvent} (h : l₁.Ran l₂ es) (h' : l₂.Ran l₃ fs) :
    l₁.Ran l₃ (es ++ fs) := by
  obtain ⟨ht, hl, hp⟩ := h
  obtain ⟨ht', hl', hp'⟩ := h'
  refine ⟨by rw [ht', ht]; simp, by rw [hl', hl, Lines.applyAll_append], fun answers rest ha hn => ?_⟩
  rw [samplesOf_append, List.length_append] at hn
  obtain ⟨hs, hr⟩ := hp (answers.take (samplesOf es).length) (answers.drop (samplesOf es).length ++ rest)
    (by rw [ha, ← List.append_assoc, List.take_append_drop]) (by rw [List.length_take]; omega)
  obtain ⟨hs', hr'⟩ := hp' _ _ hr (by rw [List.length_drop]; omega)
  refine ⟨?_, hr'⟩
  rw [samplesOf_append, hs']
  conv_lhs => rw [hs]
  rw [List.length_take, Nat.min_eq_left (by omega), List.take_append_drop]

/-- Events that are no samples make a link run. -/
theorem LinkSide.ran_observeAll (cfg : Config) (l : LinkSide) {es : List LinkEvent} (h : samplesOf es = []) :
    l.Ran (l.observeAll cfg es) es :=
  ⟨LinkSide.observeAll_trace cfg es l, LinkSide.observeAll_lines cfg es l, fun answers rest ha hn => by
    have : answers = [] := by simpa [h] using hn
    subst this
    exact ⟨h, LinkSide.observeAll_oracle cfg es ha⟩⟩

/-- The receive register is no part of a link run. -/
theorem LinkSide.Ran.withRx {l l' : LinkSide} {es : List LinkEvent} (h : l.Ran l' es) (w : Word) :
    l.Ran { l' with rx := w } es := h

/-! ## No host access arrives during the run -/

theorem State.tick_quiet {s : State} (h : s.quiet) : s.tick = s := by
  unfold State.tick
  rcases hb : s.bus.inputs with _ | ⟨⟨_ | _ | n, a⟩, rest⟩
  · rfl
  · rfl
  · rfl
  · simp [State.quiet, hb] at h

theorem serveDue_quiet {s : State} (h : s.quiet) (t : State) : serveDue s.bus.inputs t = .ok () t := by
  rcases hb : s.bus.inputs with _ | ⟨⟨_ | _ | n, a⟩, rest⟩
  · rfl
  · rfl
  · simp [State.quiet, hb] at h
  · rfl

theorem hostWindow_quiet {s : State} (h : s.quiet) : hostWindow s = .ok () s := by
  unfold hostWindow
  split
  · exact serveDue_quiet h s
  · rfl

/-- No host access arrives, and the run performs its actions: it does not pass over any. -/
def State.calm (s : State) : Prop := s.quiet ∧ s.seq.replaying = false

theorem State.calm.ran {s : State} (h : s.calm) (l' : LinkSide) (es : List LinkEvent) : (s.ran l' es).calm :=
  ⟨h.1, by simpa using h.2⟩

theorem State.calm.recordAll {s : State} (h : s.calm) (es : List LinkEvent) : (s.recordAll es).calm := by
  rw [State.recordAll_eq]
  exact h.ran _ es

theorem State.calm.forth {s : State} (h : s.calm) (bits : List Bool) : (s.forth bits).calm :=
  ⟨h.1, by simpa using h.2⟩

/-- The accepted state is calm where no host access arrives: none of the pseudocode has been performed. -/
theorem State.accept_calm {s : State} (h : s.quiet) (op : Byte) : (s.accept op).calm := ⟨h, rfl⟩

/-- An action that no host access follows has its effect, and nothing else happens. -/
theorem act_calm {s : State} {f : State → State} (h : s.calm) (hf : (f s).quiet) : act f s = .ok () (f s) := by
  rw [act, if_neg (by simp [h.2]), State.tick_quiet hf, hostWindow_quiet hf]

/-- An assignment that no host access follows. -/
theorem assign_calm {s : State} {f : State → State} (h : s.calm) (hf : (f s).quiet) :
    assign f s = .ok () ((f s).forth []) := act_calm (f := fun s => (f s).forth []) h hf

theorem emit_calm {s : State} (h : s.calm) (e : LinkEvent) : emit e s = .ok () (s.record e) :=
  act_calm (f := fun s => s.record e) h h.1

/-- An undisturbed sequence of events is recorded, and nothing else happens. -/
theorem emitAll_calm {s : State} (h : s.calm) (es : List LinkEvent) : emitAll es s = .ok () (s.recordAll es) := by
  induction es generalizing s with
  | nil => rfl
  | cons e es ih =>
    rw [emitAll, Op.bind_ok (emit_calm h e)]
    exact ih (h.recordAll [e])

theorem sendCore_calm {s : State} (h : s.calm) (f : CoreWords → Word) :
    sendCore f s = .ok () (s.recordAll (sendInsnEvents s.cfg.codes.icsp.core (f s.cfg.codes.core))) :=
  emitAll_calm h _

theorem sendIcsp_calm {s : State} (h : s.calm) (f : IcspCodes → Nibble) (p : Word) :
    sendIcsp f p s = .ok () (s.recordAll (sendInsnEvents (f s.cfg.codes.icsp) p)) := emitAll_calm h _

theorem progPulse_calm {s : State} (h : s.calm) : progPulse s = .ok () (s.recordAll (progPulseEvents s.cfg)) :=
  emitAll_calm h _

theorem sendStartp_calm {s : State} (h : s.calm) (f : IcspCodes → Nibble) (p : Word) :
    sendStartp f p s = .ok () (s.recordAll (sendInsnEvents (f s.cfg.codes.icsp) p ++ progPulseEvents s.cfg)) := by
  rw [sendStartp, Op.bind_ok (sendIcsp_calm h f p), State.recordAll_append, progPulse_calm (h.recordAll _)]
  simp

theorem gotoAddress_calm {s : State} (h : s.calm) (a : Addr) :
    gotoAddress a s = .ok () (s.recordAll (gotoAddressEvents s.cfg.codes a)) := emitAll_calm h _

theorem gotoShort_calm {s : State} (h : s.calm) (o : Byte) :
    gotoShort o s = .ok () (s.recordAll (gotoShortEvents s.cfg.codes o)) := emitAll_calm h _

theorem eraseRegion_calm {s : State} (h : s.calm) (r : Nat) :
    eraseRegion r s = .ok () (s.recordAll (eraseBlockEvents s.cfg r)) := by
  rw [eraseRegion, Op.bind_ok (Op.ask_run State.cfg s), emitAll_calm h]

/-- A sampled bit is the oracle's next answer where one is pending. -/
theorem LinkSide.draw_ran (cfg : Config) (l : LinkSide) (es : List LinkEvent) (h : samplesOf es = []) :
    l.Ran ((((l.draw cfg).2.observe cfg (.sample (l.draw cfg).1))).observeAll cfg es)
      (.sample (l.draw cfg).1 :: es) := by
  have ht : (l.draw cfg).2.trace = l.trace := by unfold LinkSide.draw; split <;> (try split) <;> rfl
  have hl : (l.draw cfg).2.lines = l.lines := by unfold LinkSide.draw; split <;> (try split) <;> rfl
  refine ⟨by simp [LinkSide.observe, ht], by simp [LinkSide.observe, hl]; rfl, fun answers rest ha hn => ?_⟩
  rw [samplesOf, h] at hn ⊢
  obtain ⟨b, rfl⟩ := List.length_eq_one_iff.1 hn
  have hd : l.draw cfg = (b, { l with partner := .oracle rest }) := by
    unfold LinkSide.draw
    rw [ha]
    rfl
  rw [hd]
  exact ⟨rfl, LinkSide.observeAll_oracle cfg es (by simp [LinkSide.observe, Partner.onEvent])⟩

/-- `Sample(PGD)` undisturbed: the bit drawn, and its event. -/
theorem sample_calm {s : State} (h : s.calm) :
    sample s = .ok (s.link.draw s.cfg).1
      (s.ran ((s.link.draw s.cfg).2.observe s.cfg (.sample (s.link.draw s.cfg).1)) [.sample (s.link.draw s.cfg).1]) := by
  have hd : ({ s with link := (s.link.draw s.cfg).2 } : State).calm := h
  have hb : sampledBit s = .ok (s.link.draw s.cfg).1 { s with link := (s.link.draw s.cfg).2 } := by
    rw [sampledBit, if_neg (by simp [h.2])]
    rfl
  rw [sample, Op.bind_ok hb, Op.bind_ok (emit_calm hd _)]
  rfl

theorem inCell_calm {s : State} (h : s.calm) :
    ∃ b l', s.link.Ran l' (inCellEvents b) ∧ inCell s = .ok b (s.ran l' (inCellEvents b)) := by
  let l₁ := s.link.observeAll s.cfg inCellLeadEvents
  let d := l₁.draw s.cfg
  refine ⟨d.1, (d.2.observe s.cfg (.sample d.1)).observeAll s.cfg inCellTailEvents, ?_, ?_⟩
  · rw [inCellEvents, List.append_assoc]
    exact (LinkSide.ran_observeAll s.cfg s.link rfl).trans (LinkSide.draw_ran s.cfg l₁ inCellTailEvents rfl)
  · have h₁ := h.ran l₁ inCellLeadEvents
    have hs := sample_calm h₁
    rw [inCell, Op.bind_ok (emitAll_calm h inCellLeadEvents), State.recordAll_eq, Op.bind_ok hs, State.ran_ran,
      Op.bind_ok (emitAll_calm (h.ran _ _) inCellTailEvents), State.recordAll_eq, State.ran_ran, inCellEvents]
    rfl

/-- `n` undisturbed input cells sample `n` bits, which are the oracle's answers where they are pending. -/
theorem inBits_calm {s : State} (h : s.calm) (n : Nat) :
    ∃ bs l', bs.length = n ∧ s.link.Ran l' (bs.flatMap inCellEvents) ∧
      inBits n s = .ok bs (s.ran l' (bs.flatMap inCellEvents)) := by
  induction n generalizing s with
  | zero => exact ⟨[], s.link, rfl, LinkSide.Ran.refl _, rfl⟩
  | succ n ih =>
    obtain ⟨b, l₁, hr, he⟩ := inCell_calm h
    obtain ⟨bs, l₂, hn, hr', he'⟩ := ih (h.ran l₁ (inCellEvents b))
    refine ⟨b :: bs, l₂, by simp [hn], ?_, ?_⟩
    · rw [List.flatMap_cons]
      exact hr.trans hr'
    · rw [inBits, Op.bind_ok he, Op.bind_ok he', State.ran_ran, List.flatMap_cons]
      rfl

/-- A word received by a run that performs its actions is kept. -/
theorem keepRx_calm {s : State} (h : s.calm) (w : Word) : keepRx w s = .ok () (s.setRx w) := by
  rw [keepRx, if_neg (by simp [h.2])]

/-- `ReadWord()` undisturbed (41_signal R134). -/
theorem readWord_calm {s : State} (h : s.calm) :
    ∃ bits l', bits.length = 8 ∧ s.link.Ran l' (readWordEvents bits) ∧ l'.rx = (byteOfBits bits).setWidth 16 ∧
      readWord s = .ok ((byteOfBits bits).setWidth 16) (s.ran l' (readWordEvents bits)) := by
  let l₁ := s.link.observeAll s.cfg readLeadEvents
  obtain ⟨bits, l₂, hn, hr, he⟩ := inBits_calm (h.ran l₁ readLeadEvents) 8
  refine ⟨bits, { l₂.observeAll s.cfg readTailEvents with rx := (byteOfBits bits).setWidth 16 }, hn, ?_, rfl, ?_⟩
  · rw [readWordEvents]
    refine LinkSide.Ran.withRx (LinkSide.Ran.trans ?_ (LinkSide.ran_observeAll s.cfg l₂ rfl)) _
    refine LinkSide.Ran.trans (LinkSide.ran_observeAll s.cfg s.link ?_) hr
    rw [readLeadEvents, samplesOf_append, samplesOf_outBits]
    rfl
  · rw [State.ran_ran] at he
    rw [readWord, Op.bind_ok (emitAll_calm h readLeadEvents), State.recordAll_eq, Op.bind_ok he,
      Op.bind_ok (emitAll_calm (h.ran _ _) readTailEvents), State.recordAll_eq, State.ran_ran, readWordEvents,
      Op.bind_ok (keepRx_calm (h.ran _ _) _), State.setRx_ran]
    rfl

theorem byte_of_word (b : Byte) : ((b.setWidth 16 : Word).setWidth 8 : Byte) = b := by simp

/-- `ReadTxn(c)` undisturbed (41_signal R136). -/
theorem readTxn_calm {s : State} (h : s.calm) (c : Nibble) :
    ∃ bits l', bits.length = 8 ∧ s.link.Ran l' (readTxnEvents c bits) ∧ l'.rx = (byteOfBits bits).setWidth 16 ∧
      readTxn c s = .ok (byteOfBits bits) (s.ran l' (readTxnEvents c bits)) := by
  let l₁ := s.link.observeAll s.cfg (sendCmdEvents c)
  obtain ⟨bits, l₂, hn, hr, hx, he⟩ := readWord_calm (h.ran l₁ (sendCmdEvents c))
  refine ⟨bits, l₂, hn, (LinkSide.ran_observeAll s.cfg s.link (samplesOf_sendCmd c)).trans hr, hx, ?_⟩
  rw [readTxn, Op.bind_ok (show sendCmd c s = _ from emitAll_calm h (sendCmdEvents c)), State.recordAll_eq,
    Op.bind_ok he, byte_of_word, State.ran_ran, readTxnEvents]
  rfl

/-- A read transaction undisturbed. -/
theorem readIcsp_calm {s : State} (h : s.calm) (f : IcspCodes → Nibble) :
    ∃ bits l', bits.length = 8 ∧ s.link.Ran l' (readTxnEvents (f s.cfg.codes.icsp) bits) ∧
      l'.rx = (byteOfBits bits).setWidth 16 ∧
      readIcsp f s = .ok (byteOfBits bits) (s.ran l' (readTxnEvents (f s.cfg.codes.icsp) bits)) :=
  readTxn_calm h _

/-! ## What host accesses during a run can do -/

/-- The registers that a host access during an operation can change are STATUS.DONE, PROG_EVT, OVERRUN and
ACC_ERR (20_memory R63). -/
def HostRegs.statusOnly (r r' : HostRegs) : Prop :=
  r' = { r with done := r'.done, progEvt := r'.progEvt, overrun := r'.overrun, accErr := r'.accErr }

/-- What a run that only drives the link can have changed when host accesses arrive during it: the link side, the
host bus, the position, and the four STATUS bits (20_memory R63). -/
structure State.Drove (s t : State) : Prop where
  cfg : t.cfg = s.cfg
  regs : s.regs.statusOnly t.regs
  seq : t.seq.still = s.seq.still
  session : t.session = s.session
  ident : t.ident = s.ident
  mem : t.mem = s.mem
  txns : t.txns = s.txns

theorem HostRegs.statusOnly.refl (r : HostRegs) : r.statusOnly r := rfl

theorem HostRegs.statusOnly.trans {r₁ r₂ r₃ : HostRegs} (h : r₁.statusOnly r₂) (h' : r₂.statusOnly r₃) :
    r₁.statusOnly r₃ := by
  unfold HostRegs.statusOnly at *
  rw [h'] at *
  rw [h]

theorem State.Drove.refl (s : State) : s.Drove s := ⟨rfl, rfl, rfl, rfl, rfl, rfl, rfl⟩

theorem State.Drove.trans {s t u : State} (h : s.Drove t) (h' : t.Drove u) : s.Drove u :=
  ⟨h'.cfg.trans h.cfg, h.regs.trans h'.regs, h'.seq.trans h.seq, h'.session.trans h.session, h'.ident.trans h.ident,
    h'.mem.trans h.mem, h'.txns.trans h.txns⟩

/-- What a run that performs its actions, and passes over none, does to the lines. -/
def State.Went (L : Lines → Lines → Prop) (s t : State) : Prop :=
  s.seq.replaying = false → t.seq.replaying = false ∧ L s.link.lines t.link.lines

/-- A run that leaves the sequencer and the lines alone. -/
theorem State.Went.of_eq {s t : State} (hs : t.seq = s.seq) (hl : t.link.lines = s.link.lines) : s.Went Eq t :=
  fun h => ⟨hs ▸ h, hl.symm⟩

/-- How a run that only drives the link can end, started in `s`: with the lines related by `L`, or ended by a
reset, or stopped by a host access that has no meaning. It never faults. -/
def State.DroveTo {α : Type} (L : Lines → Lines → Prop) (s : State) : EStateM.Result Halt State α → Prop
  | .ok _ t => s.Drove t ∧ s.Went L t
  | .error .ended t => ∃ u, s.Drove u ∧ t = u.hardReset
  | .error (.refused _) _ => True
  | .error (.fault _) _ => False

/-- Everything a run that only drives the link can do, whatever the host does during it. -/
structure Op.Drives {α : Type} (L : Lines → Lines → Prop) (x : Op α) : Prop where
  run : ∀ s : State, s.DroveTo L (x s)

theorem State.DroveTo.mono {α : Type} {L L' : Lines → Lines → Prop} {s : State} {r : EStateM.Result Halt State α}
    (h : s.DroveTo L r) (hL : ∀ l l', L l l' → L' l l') : s.DroveTo L' r := by
  rcases r with ⟨_, t⟩ | ⟨_ | _ | _, t⟩
  · exact ⟨h.1, fun hs => ⟨(h.2 hs).1, hL _ _ (h.2 hs).2⟩⟩
  · exact h
  · exact h
  · exact h

theorem Op.Drives.mono {α : Type} {L L' : Lines → Lines → Prop} {x : Op α} (h : x.Drives L)
    (hL : ∀ l l', L l l' → L' l l') : x.Drives L' := ⟨fun s => (h.run s).mono hL⟩

theorem State.DroveTo.after {α : Type} {L L' L'' : Lines → Lines → Prop} {s t : State}
    {r : EStateM.Result Halt State α} (hd : s.Drove t) (hl : s.Went L t) (h : t.DroveTo L' r)
    (hL : ∀ l l' l'', L l l' → L' l' l'' → L'' l l'') : s.DroveTo L'' r := by
  rcases r with ⟨_, u⟩ | ⟨_ | _ | _, u⟩
  · refine ⟨hd.trans h.1, fun hs => ?_⟩
    obtain ⟨ht, h₁⟩ := hl hs
    obtain ⟨hu, h₂⟩ := h.2 ht
    exact ⟨hu, hL _ _ _ h₁ h₂⟩
  · obtain ⟨v, hv, rfl⟩ := h
    exact ⟨v, hd.trans hv, rfl⟩
  · exact h
  · exact h

/-- Runs that only drive the link compose. -/
theorem Op.Drives.bind {α β : Type} {L L' L'' : Lines → Lines → Prop} {x : Op α} {f : α → Op β} (hx : x.Drives L)
    (hf : ∀ a, (f a).Drives L') (hL : ∀ l l' l'', L l l' → L' l' l'' → L'' l l'') : (x >>= f).Drives L'' := by
  refine ⟨fun s => ?_⟩
  have h := hx.run s
  rw [Op.bind_run]
  rcases hr : x s with ⟨a, t⟩ | ⟨_ | _ | _, t⟩ <;> rw [hr] at h
  · exact ((hf a).run t).after h.1 h.2 hL
  · exact h
  · exact h
  · exact h

theorem Op.Drives.pure {α : Type} {L : Lines → Lines → Prop} (hL : ∀ l, L l l) (a : α) : (pure a : Op α).Drives L :=
  ⟨fun s => ⟨State.Drove.refl s, fun h => ⟨h, hL _⟩⟩⟩

theorem Op.Drives.ask {α : Type} {L : Lines → Lines → Prop} (hL : ∀ l, L l l) (f : State → α) :
    (Machine.ask f : Op α).Drives L :=
  ⟨fun s => ⟨State.Drove.refl s, fun h => ⟨h, hL _⟩⟩⟩

theorem State.drove_busyRead (s : State) (o : HostOffset) : s.Drove (s.busyRead o) := by
  unfold State.busyRead
  split <;> exact ⟨rfl, rfl, rfl, rfl, rfl, rfl, rfl⟩

theorem State.drove_busyWrite (s : State) (o : HostOffset) (v : HostWord) : s.Drove (s.busyWrite o v) := by
  unfold State.busyWrite
  split <;> exact ⟨rfl, rfl, rfl, rfl, rfl, rfl, rfl⟩

theorem State.went_busyRead (s : State) (o : HostOffset) : s.Went Eq (s.busyRead o) := by
  unfold State.busyRead
  split <;> exact .of_eq rfl rfl

theorem State.went_busyWrite (s : State) (o : HostOffset) (v : HostWord) : s.Went Eq (s.busyWrite o v) := by
  unfold State.busyWrite
  split <;> exact .of_eq rfl rfl

theorem busyAct_drives (a : HostAct) : (busyAct a).Drives Eq := by
  refine ⟨fun s => ?_⟩
  cases a with
  | read o w =>
    by_cases h : accessDefined o w
    · rw [show busyAct (.read o w) s = .ok () (s.busyRead o) from if_pos h]
      exact ⟨s.drove_busyRead o, s.went_busyRead o⟩
    · rw [show busyAct (.read o w) s = .error (.refused (.undefinedAccess o w)) s from if_neg h]
      trivial
  | write o w v =>
    by_cases h : accessDefined o w
    · rw [show busyAct (.write o w v) s = .ok () (s.busyWrite o v) from if_pos h]
      exact ⟨s.drove_busyWrite o v, s.went_busyWrite o v⟩
    · rw [show busyAct (.write o w v) s = .error (.refused (.undefinedAccess o w)) s from if_neg h]
      trivial
  | reset => exact ⟨s, State.Drove.refl s, rfl⟩

theorem State.drove_withInputs (s : State) (is : List Input) : s.Drove (s.withInputs is) :=
  ⟨rfl, rfl, rfl, rfl, rfl, rfl, rfl⟩

theorem serveDue_drives (is : List Input) : (serveDue is).Drives Eq := by
  induction is with
  | nil => exact Op.Drives.pure (fun _ => rfl) ()
  | cons i rest ih =>
    obtain ⟨_ | _ | n, a⟩ := i
    · exact Op.Drives.pure (fun _ => rfl) ()
    · have hu : (update fun s => s.withInputs rest).Drives Eq := ⟨fun s => ⟨s.drove_withInputs rest, .of_eq rfl rfl⟩⟩
      have he : ∀ l l' l'' : Lines, l = l' → l' = l'' → l = l'' := fun _ _ _ h h' => h.trans h'
      exact hu.bind (fun _ => (busyAct_drives a).bind (fun _ => ih) he) he
    · exact Op.Drives.pure (fun _ => rfl) ()

theorem hostWindow_drives : hostWindow.Drives Eq := by
  refine ⟨fun s => ?_⟩
  by_cases h : s.seq.busy
  · rw [show hostWindow s = serveDue s.bus.inputs s from if_pos h]
    exact (serveDue_drives s.bus.inputs).run s
  · rw [show hostWindow s = .ok () s from if_neg h]
    exact ⟨State.Drove.refl s, .of_eq rfl rfl⟩

theorem State.drove_tick (s : State) : s.Drove s.tick := by
  unfold State.tick
  split
  · exact s.drove_withInputs _
  · exact State.Drove.refl s

theorem State.drove_record (s : State) (e : LinkEvent) : s.Drove (s.record e) := ⟨rfl, rfl, rfl, rfl, rfl, rfl, rfl⟩

theorem State.drove_passOver (s : State) : s.Drove s.passOver := ⟨rfl, rfl, rfl, rfl, rfl, rfl, rfl⟩

/-- What a run passes over changes nothing but the position. -/
theorem act_replaying {f : State → State} {s : State} (h : s.seq.replaying = true) : act f s = .ok () s.passOver := by
  rw [act, if_pos h]

/-- An action that is performed has its effect, and then the host's due accesses take place. -/
theorem act_performed {f : State → State} {s : State} (h : s.seq.replaying = false) :
    act f s = hostWindow (f s).tick := by
  rw [act, if_neg (by simp [h])]

/-- Everything emitting one event can do. -/
theorem emit_drives (e : LinkEvent) : (emit e).Drives fun l l' => l' = l.apply e := by
  refine ⟨fun s => ?_⟩
  cases h : s.seq.replaying with
  | true =>
    rw [emit, act_replaying h]
    exact ⟨s.drove_passOver, fun h' => by simp [h] at h'⟩
  | false =>
    rw [emit, act_performed h]
    have hd := (s.drove_record e).trans (State.drove_tick _)
    have hl : s.Went (fun l l' => l' = l.apply e) (s.record e).tick :=
      fun h => ⟨by simpa using h, by rw [State.tick_link]; rfl⟩
    exact (hostWindow_drives.run (s.record e).tick).after hd hl fun _ _ _ h h' => h'.symm.trans h

/-- Everything emitting a sequence of events can do. -/
theorem emitAll_drives (es : List LinkEvent) : (emitAll es).Drives fun l l' => l' = l.applyAll es := by
  induction es with
  | nil => exact Op.Drives.pure (L := fun l l' => l' = l.applyAll []) (fun _ => rfl) ()
  | cons e es ih =>
    refine (emit_drives e).bind (fun _ => ih) ?_
    rintro l _ _ rfl rfl
    rfl

/-- What whole transactions do to the lines: from PGC low and PGD driven they come back to it, and MCLR is not
touched (41_signal R141, R142). -/
def Lines.Kept (l l' : Lines) : Prop := l'.mclr = l.mclr ∧ (l.ready → l'.ready)

theorem Lines.Kept.refl (l : Lines) : l.Kept l := ⟨rfl, id⟩

theorem Lines.Kept.trans {l₁ l₂ l₃ : Lines} (h : l₁.Kept l₂) (h' : l₂.Kept l₃) : l₁.Kept l₃ :=
  ⟨h'.1.trans h.1, h'.2 ∘ h.2⟩

theorem Op.Drives.bindKept {α β : Type} {x : Op α} {f : α → Op β} (hx : x.Drives Lines.Kept)
    (hf : ∀ a, (f a).Drives Lines.Kept) : (x >>= f).Drives Lines.Kept :=
  hx.bind hf fun _ _ _ h h' => h.trans h'

theorem Lines.kept_append {l : Lines} {es fs : List LinkEvent} (h : ∀ l : Lines, l.Kept (l.applyAll es))
    (h' : ∀ l : Lines, l.Kept (l.applyAll fs)) : l.Kept (l.applyAll (es ++ fs)) := by
  rw [Lines.applyAll_append]
  exact (h l).trans (h' _)

theorem Lines.kept_delay (l : Lines) (t : DelayName) : l.Kept (l.applyAll [.delay t]) := Lines.Kept.refl l

theorem Lines.kept_outBits (l : Lines) (bs : List Bool) : l.Kept (l.applyAll (outBitsEvents bs)) := by
  induction bs generalizing l with
  | nil => exact Lines.Kept.refl l
  | cons b bs ih =>
    rw [show outBitsEvents (b :: bs) = outCellEvents b ++ outBitsEvents bs from rfl]
    exact Lines.kept_append (fun l => ⟨rfl, fun h => ⟨h.1, rfl, h.2.2⟩⟩) (fun l => ih l)

theorem Lines.kept_sendCmd (l : Lines) (c : Nibble) : l.Kept (l.applyAll (sendCmdEvents c)) :=
  Lines.kept_append (fun l => l.kept_outBits _) (fun l => l.kept_delay _)

theorem Lines.kept_sendWord (l : Lines) (w : Word) : l.Kept (l.applyAll (sendWordEvents w)) :=
  Lines.kept_append (fun l => l.kept_outBits _) (fun l => l.kept_delay _)

theorem Lines.kept_sendInsn (l : Lines) (c : Nibble) (w : Word) : l.Kept (l.applyAll (sendInsnEvents c w)) :=
  Lines.kept_append (fun l => l.kept_sendCmd c) (fun l => l.kept_sendWord w)

theorem Lines.kept_gotoAddress (l : Lines) (c : Codes) (a : Addr) : l.Kept (l.applyAll (gotoAddressEvents c a)) := by
  have hi : ∀ (w : Word) (l : Lines), l.Kept (l.applyAll (sendInsnEvents c.icsp.core w)) := fun w l =>
    l.kept_sendInsn _ w
  exact Lines.kept_append (fun l => Lines.kept_append (fun l => Lines.kept_append (fun l => Lines.kept_append
    (fun l => Lines.kept_append (hi _) (hi _)) (hi _)) (hi _)) (hi _)) (hi _)

theorem Lines.kept_gotoShort (l : Lines) (c : Codes) (o : Byte) : l.Kept (l.applyAll (gotoShortEvents c o)) :=
  Lines.kept_append (fun l => l.kept_sendInsn _ _) (fun l => l.kept_sendInsn _ _)

theorem Lines.kept_progPulse (l : Lines) (cfg : Config) : l.Kept (l.applyAll (progPulseEvents cfg)) := by
  have ho : ∀ l : Lines, l.Kept (l.applyAll (outBitsEvents (List.replicate 3 false))) := fun l => l.kept_outBits _
  have hp : ∀ l : Lines, l.Kept (l.applyAll [.pin .pgd false, .delay .tSetup, .pin .pgc true, .delay .tProg,
      .pin .pgc false, .delay .tProgSettle]) := fun l => ⟨rfl, fun h => ⟨h.1, rfl, h.2.2⟩⟩
  have ht : ∀ l : Lines, l.Kept (l.applyAll (if cfg.pulseTrailingOperand then sendWordEvents 0 else [])) := by
    intro l
    split
    · exact l.kept_sendWord 0
    · exact Lines.Kept.refl l
  exact Lines.kept_append (fun l => Lines.kept_append ho hp) ht

theorem Lines.kept_pgdLow (l : Lines) (t : DelayName) : l.Kept (l.applyAll [.pin .pgd false, .delay t]) :=
  ⟨rfl, fun h => ⟨h.1, h.2.1, h.2.2⟩⟩

theorem Lines.kept_eraseHold (l : Lines) (cfg : Config) : l.Kept (l.applyAll (eraseHoldEvents cfg)) := by
  have hi : ∀ (c : Nibble) (w : Word) (l : Lines), l.Kept (l.applyAll (sendInsnEvents c w)) := fun c w l =>
    l.kept_sendInsn c w
  unfold eraseHoldEvents
  split
  · exact Lines.kept_append (fun l => Lines.kept_append (hi _ _) (hi _ _)) fun l => l.kept_pgdLow _
  · exact Lines.kept_append (fun l => Lines.kept_append (fun l => Lines.kept_append (hi _ _) fun l => l.kept_sendCmd _)
      fun l => l.kept_pgdLow _) fun l => l.kept_sendWord _

theorem Lines.kept_eraseBlock (l : Lines) (cfg : Config) (r : Nat) : l.Kept (l.applyAll (eraseBlockEvents cfg r)) := by
  have hi : ∀ (c : Nibble) (w : Word) (l : Lines), l.Kept (l.applyAll (sendInsnEvents c w)) := fun c w l =>
    l.kept_sendInsn c w
  have hg : ∀ (o : Byte) (l : Lines), l.Kept (l.applyAll (gotoShortEvents cfg.codes o)) := fun o l =>
    l.kept_gotoShort _ o
  exact Lines.kept_append (fun l => Lines.kept_append (fun l => Lines.kept_append (fun l => Lines.kept_append
    (fun l => Lines.kept_append (fun l => Lines.kept_append (fun l => l.kept_gotoAddress _ _) (hi _ _)) (hg _))
    (hi _ _)) (hg _)) (hi _ _)) fun l => l.kept_eraseHold cfg

theorem emitAll_keeps {es : List LinkEvent} (h : ∀ l : Lines, l.Kept (l.applyAll es)) : (emitAll es).Drives Lines.Kept :=
  (emitAll_drives es).mono fun l _ hl => hl ▸ h l

theorem sendCmd_drives (c : Nibble) : (sendCmd c).Drives Lines.Kept := emitAll_keeps fun l => l.kept_sendCmd c

theorem sendWord_drives (w : Word) : (sendWord w).Drives Lines.Kept := emitAll_keeps fun l => l.kept_sendWord w

theorem sendInsn_drives (c : Nibble) (w : Word) : (sendInsn c w).Drives Lines.Kept :=
  emitAll_keeps fun l => l.kept_sendInsn c w

theorem drawBit_drives : drawBit.Drives Eq := by
  refine ⟨fun s => ⟨⟨rfl, rfl, rfl, rfl, rfl, rfl, rfl⟩, .of_eq rfl ?_⟩⟩
  unfold LinkSide.draw
  split <;> (try split) <;> rfl

/-- Everything a sample can do. -/
theorem sample_drives : sample.Drives Eq := by
  have hb : sampledBit.Drives Eq := by
    refine ⟨fun s => ?_⟩
    cases h : s.seq.replaying with
    | true =>
      rw [sampledBit, if_pos h]
      unfold takeAgain
      split <;> exact ⟨⟨rfl, rfl, rfl, rfl, rfl, rfl, rfl⟩, fun h' => by simp [h] at h'⟩
    | false =>
      rw [sampledBit, if_neg (by simp [h])]
      exact drawBit_drives.run s
  have hp : ∀ b : Bool, (do emit (.sample b); return b : Op Bool).Drives Eq := fun b =>
    (emit_drives (.sample b)).bind (fun _ => Op.Drives.pure (L := Eq) (fun _ => rfl) b) fun _ _ _ h h' => h' ▸ h.symm
  exact hb.bind hp fun _ _ _ h h' => h.trans h'

/-- What an input cell does to the lines: PGC ends low, whatever it was, and no direction changes. -/
def Lines.Clocked (l l' : Lines) : Prop := l' = { l with pgc := { l.pgc with lat := false } }

theorem inCell_drives : inCell.Drives Lines.Clocked := by
  have h₂ : ∀ b : Bool, (do emitAll inCellTailEvents; return b : Op Bool).Drives fun l l' =>
      l' = l.applyAll inCellTailEvents :=
    fun b => (emitAll_drives inCellTailEvents).bind (fun _ => Op.Drives.pure (L := Eq) (fun _ => rfl) b)
      fun _ _ _ h h' => h'.symm.trans h
  have h₁ := sample_drives.bind (L'' := fun l l' => l' = l.applyAll inCellTailEvents) h₂ fun _ _ _ h h' => by
    rw [h', h]
  exact (emitAll_drives inCellLeadEvents).bind (fun _ => h₁) fun _ _ _ h h' => by rw [h', h]; rfl

theorem inBits_drives (n : Nat) : (inBits n).Drives fun l l' => l' = l ∨ l.Clocked l' := by
  induction n with
  | zero => exact Op.Drives.pure (fun _ => .inl rfl) []
  | succ n ih =>
    have hp : ∀ b : Bool, (do let bs ← inBits n; return b :: bs : Op (List Bool)).Drives fun l l' =>
        l' = l ∨ l.Clocked l' :=
      fun b => ih.bind (fun bs => Op.Drives.pure (L := Eq) (fun _ => rfl) (b :: bs)) fun _ _ _ h h' => h' ▸ h
    refine inCell_drives.bind hp ?_
    rintro l _ _ rfl (rfl | rfl)
    · exact .inr rfl
    · exact .inr rfl

/-- The dummy clocks and the turnaround: PGD ends an input, and the clock is as whole transactions keep it. -/
theorem Lines.readLead (l : Lines) : (l.applyAll readLeadEvents).mclr = l.mclr ∧
    (l.ready → (l.applyAll readLeadEvents).pgc.dir = .out ∧ (l.applyAll readLeadEvents).pgc.lat = false) := by
  rw [readLeadEvents, Lines.applyAll_append]
  have h := l.kept_outBits (List.replicate 8 false)
  generalize l.applyAll (outBitsEvents (List.replicate 8 false)) = l₁ at h
  exact ⟨h.1, fun hr => ⟨(h.2 hr).1, (h.2 hr).2.1⟩⟩

theorem keepRx_drives (w : Word) : (keepRx w).Drives Eq := by
  refine ⟨fun s => ?_⟩
  unfold keepRx
  split <;> exact ⟨⟨rfl, rfl, rfl, rfl, rfl, rfl, rfl⟩, .of_eq rfl rfl⟩

theorem readWord_drives : readWord.Drives Lines.Kept := by
  have hu : ∀ w : Word, (do
      keepRx w
      return w : Op Word).Drives Eq := fun w =>
    (keepRx_drives w).bind (fun _ => Op.Drives.pure (L := Eq) (fun _ => rfl) w) fun _ _ _ h h' => h.trans h'
  have ht : ∀ bs : List Bool, (do
      emitAll readTailEvents
      let w : Word := (byteOfBits bs).setWidth 16
      keepRx w
      return w : Op Word).Drives fun l l' => l' = l.applyAll readTailEvents :=
    fun bs => (emitAll_drives readTailEvents).bind (fun _ => hu _) fun _ _ _ h h' => h'.symm.trans h
  have hb := (inBits_drives 8).bind (L'' := fun l l' => l' = l.applyAll readTailEvents ∨
    l' = ({ l with pgc := { l.pgc with lat := false } } : Lines).applyAll readTailEvents) ht (by
      rintro l _ _ (rfl | rfl) rfl
      · exact .inl rfl
      · exact .inr rfl)
  refine (emitAll_drives readLeadEvents).bind (fun _ => hb) ?_
  rintro l l₁ _ h (rfl | rfl) <;> have hl := l.readLead <;> rw [← h] at hl
  · exact ⟨hl.1, fun hr => ⟨(hl.2 hr).1, (hl.2 hr).2, rfl⟩⟩
  · exact ⟨hl.1, fun hr => ⟨(hl.2 hr).1, rfl, rfl⟩⟩

theorem readTxn_drives (c : Nibble) : (readTxn c).Drives Lines.Kept :=
  (sendCmd_drives c).bindKept fun _ => readWord_drives.bindKept fun _ => Op.Drives.pure Lines.Kept.refl _

theorem readIcsp_drives (f : IcspCodes → Nibble) : (readIcsp f).Drives Lines.Kept :=
  (Op.Drives.ask Lines.Kept.refl _).bindKept fun _ => readTxn_drives _

theorem sendCore_drives (f : CoreWords → Word) : (sendCore f).Drives Lines.Kept :=
  (Op.Drives.ask Lines.Kept.refl _).bindKept fun _ => sendInsn_drives _ _

theorem sendIcsp_drives (f : IcspCodes → Nibble) (p : Word) : (sendIcsp f p).Drives Lines.Kept :=
  (Op.Drives.ask Lines.Kept.refl _).bindKept fun _ => sendInsn_drives _ _

theorem progPulse_drives : progPulse.Drives Lines.Kept :=
  (Op.Drives.ask Lines.Kept.refl _).bindKept fun _ => emitAll_keeps fun l => l.kept_progPulse _

theorem sendStartp_drives (f : IcspCodes → Nibble) (p : Word) : (sendStartp f p).Drives Lines.Kept :=
  (sendIcsp_drives f p).bindKept fun _ => progPulse_drives

theorem gotoAddress_drives (a : Addr) : (gotoAddress a).Drives Lines.Kept :=
  (Op.Drives.ask Lines.Kept.refl _).bindKept fun _ => emitAll_keeps fun l => l.kept_gotoAddress _ a

theorem gotoShort_drives (o : Byte) : (gotoShort o).Drives Lines.Kept :=
  (Op.Drives.ask Lines.Kept.refl _).bindKept fun _ => emitAll_keeps fun l => l.kept_gotoShort _ o

theorem eraseRegion_drives (r : Nat) : (eraseRegion r).Drives Lines.Kept :=
  (Op.Drives.ask Lines.Kept.refl State.cfg).bindKept fun cfg => emitAll_keeps fun l => l.kept_eraseBlock cfg r

/-! ## Issue -/

theorem issueFrom_busy {s : State} (h : s.seq.busy = true) (op : Byte) (k : OpClass) (first : State → State)
    (body : Op Unit) : issueFrom op k first body s = .next s.setOverrun := by
  rw [issueFrom, if_pos h]

theorem issueFrom_refused {s : State} (h : s.seq.busy = false) {op : Byte} {k : OpClass} (first : State → State)
    (body : Op Unit) (hc : issueCheck k (s.accept op) ≠ .none) :
    issueFrom op k first body s = .next (s.afterRefusal op (issueCheck k (s.accept op))) := by
  rw [issueFrom, if_neg (by simp [h])]
  simp only [if_neg hc]
  rfl

/-- Everything an accepted issue can do: the operation's pseudocode from the accepted state, after the host accesses
that arrive at once. -/
theorem issueFrom_accepted {s : State} (h : s.seq.busy = false) {op : Byte} {k : OpClass} (first : State → State)
    (body : Op Unit) (hc : issueCheck k (s.accept op) = .none) :
    issueFrom op k first body s = finish ((do hostWindow; body : Op Unit) (first (s.accept op))) := by
  rw [issueFrom, if_neg (by simp [h])]
  simp only [if_pos hc]

/-- An accepted, undisturbed issue runs the operation's pseudocode on the accepted state. -/
theorem issueFrom_quiet {s : State} (h : s.seq.busy = false) {op : Byte} {k : OpClass} {first : State → State}
    (hq : (first (s.accept op)).quiet) (body : Op Unit) (hc : issueCheck k (s.accept op) = .none) :
    issueFrom op k first body s = finish (body (first (s.accept op))) := by
  rw [issueFrom_accepted h first body hc, Op.bind_ok (hostWindow_quiet hq)]

/-- Completion forgets the position: after it, only what a run has emitted and sampled is left of it. -/
theorem State.complete_ran (s : State) (l' : LinkSide) (es : List LinkEvent) :
    (s.ran l' es).complete = { s.complete with link := l' } := by
  simp only [State.complete, State.ran]
  rw [Sequencer.after_eq]

theorem State.complete_forth (s : State) (bits : List Bool) : (s.forth bits).complete = s.complete := rfl

theorem issue_busy {s : State} (h : s.seq.busy = true) (op : Byte) (k : OpClass) (body : Op Unit) :
    issue op k body s = .next s.setOverrun := issueFrom_busy h op k id body

theorem issue_refused {s : State} (h : s.seq.busy = false) {op : Byte} {k : OpClass} (body : Op Unit)
    (hc : issueCheck k (s.accept op) ≠ .none) :
    issue op k body s = .next (s.afterRefusal op (issueCheck k (s.accept op))) := issueFrom_refused h id body hc

theorem issue_quiet {s : State} (h : s.seq.busy = false) (hq : s.quiet) {op : Byte} {k : OpClass} (body : Op Unit)
    (hc : issueCheck k (s.accept op) = .none) : issue op k body s = finish (body (s.accept op)) :=
  issueFrom_quiet (first := id) h hq body hc

/-- An accepted operation that only emits `es` ends in the state `afterOutput` names. -/
theorem issue_output {s : State} (h : s.seq.busy = false) (hq : s.quiet) {op : Byte} {k : OpClass} {body : Op Unit}
    {es : List LinkEvent} (hc : issueCheck k (s.accept op) = .none)
    (hb : body (s.accept op) = .ok () ((s.accept op).recordAll es)) :
    issue op k body s = .next (s.afterOutput op es) := by
  rw [issue_quiet h hq body hc, hb, State.recordAll_eq, finish, State.complete_ran]
  rfl

theorem issueCheck_raw {s : State} {op : Byte} (h : s.session = .programming) :
    issueCheck .raw (s.accept op) = .none := by
  simp [issueCheck, OpClass.session, OpClass.isEngine, h]

theorem issueCheck_engine {s : State} {op : Byte} (h : s.session = .programming) (hi : s.ident.status = .resolved) :
    issueCheck .engine (s.accept op) = .none := by
  simp [issueCheck, OpClass.session, OpClass.isEngine, h, hi]

end Sys2Proof.Machine
end

