-- ==== Sys2Proof/Laws/Engines.lean ====
section
/-! SUPPORT. What the engines' shared procedures do: the loop rule and the rule for runs that host accesses may
disturb, then each read and write procedure undisturbed. -/

namespace Sys2Proof.Machine

/-! ## Loops and disturbed runs -/

/-- The loop rule for undisturbed runs: what each turn takes from `P i` to `P (i + 1)`, the loop takes from `P start`
to `P (start + n)`. -/
theorem forUp_ok {f : Nat → Op Unit} {P : Nat → State → Prop} (n start : Nat)
    (hf : ∀ i s, start ≤ i → i < start + n → P i s → ∃ t, f i s = .ok () t ∧ P (i + 1) t) {s : State} (h : P start s) :
    ∃ t, forUp f n start s = .ok () t ∧ P (start + n) t := by
  induction n generalizing start s with
  | zero => exact ⟨s, rfl, h⟩
  | succ n ih =>
    obtain ⟨t, ht, hP⟩ := hf start s (Nat.le_refl _) (by omega) h
    obtain ⟨u, hu, hP'⟩ := ih (start + 1) (fun i s h1 h2 => hf i s (by omega) (by omega)) hP
    refine ⟨u, ?_, by rwa [Nat.add_right_comm, Nat.add_assoc] at hP'⟩
    rw [forUp, Op.bind_ok ht, hu]

/-- How a run may end: in `Q` with its value, or halted in `E`. -/
def Op.EndsIn {α : Type} (Q : α → State → Prop) (E : Halt → State → Prop) : EStateM.Result Halt State α → Prop
  | .ok a t => Q a t
  | .error h t => E h t

/-- From every state that meets `P` the run ends in `Q`, or halts in `E`, whatever the host does meanwhile. -/
structure Op.Leads {α : Type} (P : State → Prop) (x : Op α) (Q : α → State → Prop) (E : Halt → State → Prop) : Prop where
  run : ∀ s : State, P s → Op.EndsIn Q E (x s)

theorem Op.Leads.bind {α β : Type} {P : State → Prop} {x : Op α} {Q : α → State → Prop} {E : Halt → State → Prop}
    {f : α → Op β} {R : β → State → Prop} (hx : Op.Leads P x Q E) (hf : ∀ a, Op.Leads (Q a) (f a) R E) :
    Op.Leads P (x >>= f) R E := by
  refine ⟨fun s hs => ?_⟩
  have h := hx.run s hs
  rw [Op.bind_run]
  rcases hr : x s with ⟨a, t⟩ | ⟨e, t⟩ <;> rw [hr] at h
  · exact (hf a).run t h
  · exact h

theorem Op.Leads.pure {α : Type} {P : State → Prop} {E : Halt → State → Prop} (a : α) :
    Op.Leads P (Pure.pure a) (fun b t => b = a ∧ P t) E := ⟨fun _ h => ⟨rfl, h⟩⟩

theorem Op.Leads.ask {α : Type} {P : State → Prop} {E : Halt → State → Prop} (f : State → α) :
    Op.Leads P (Machine.ask f) (fun b t => b = f t ∧ P t) E := ⟨fun _ h => ⟨rfl, h⟩⟩

theorem Op.Leads.update {P Q : State → Prop} {E : Halt → State → Prop} {f : State → State} (h : ∀ s, P s → Q (f s)) :
    Op.Leads P (Machine.update f) (fun _ => Q) E := ⟨h⟩

theorem Op.Leads.mono {α : Type} {P P' : State → Prop} {x : Op α} {Q Q' : α → State → Prop} {E E' : Halt → State → Prop}
    (h : Op.Leads P x Q E) (hP : ∀ s, P' s → P s) (hQ : ∀ a s, Q a s → Q' a s) (hE : ∀ e s, E e s → E' e s) :
    Op.Leads P' x Q' E' := by
  refine ⟨fun s hs => ?_⟩
  have h := h.run s (hP s hs)
  rcases hr : x s with ⟨a, t⟩ | ⟨e, t⟩ <;> rw [hr] at h
  · exact hQ a t h
  · exact hE e t h

/-- The loop rule for runs that may be disturbed. -/
theorem Op.Leads.forUp {f : Nat → Op Unit} {P : Nat → State → Prop} {E : Halt → State → Prop} (n start : Nat)
    (hf : ∀ i, start ≤ i → i < start + n → Op.Leads (P i) (f i) (fun _ => P (i + 1)) E) :
    Op.Leads (P start) (Machine.forUp f n start) (fun _ => P (start + n)) E := by
  induction n generalizing start with
  | zero => exact ⟨fun _ h => h⟩
  | succ n ih =>
    refine (hf start (Nat.le_refl _) (by omega)).bind fun _ => ?_
    refine (ih (start + 1) fun i h1 h2 => hf i (by omega) (by omega)).mono (fun _ h => h) (fun _ s h => ?_) fun _ _ h => h
    rwa [Nat.add_right_comm, Nat.add_assoc] at h

/-- A run that only drives the link, as such a rule: it keeps what no host access and no link event changes, unless a
reset or an access with no meaning ends it. -/
theorem Op.Drives.leads {α : Type} {L : Lines → Lines → Prop} {x : Op α} (h : x.Drives L) {P : State → Prop}
    {Q : α → State → Prop} {E : Halt → State → Prop}
    (hQ : ∀ a s t, P s → s.Drove t → s.Went L t → Q a t)
    (hE : ∀ s u, P s → s.Drove u → E .ended u.hardReset) (hR : ∀ r u, E (.refused r) u) : Op.Leads P x Q E := by
  refine ⟨fun s hs => ?_⟩
  have h := h.run s
  rcases hr : x s with ⟨a, t⟩ | ⟨_ | _ | _, t⟩ <;> rw [hr] at h
  · exact hQ a s t hs h.1 h.2
  · obtain ⟨u, hu, rfl⟩ := h
    exact hE s u hs hu
  · exact h.elim
  · exact hR _ _

/-- An assignment, as such a rule: its effect, and then what a host access can do; or it is passed over. -/
theorem Op.Leads.assign {f : State → State} {P Q : State → Prop} {E : Halt → State → Prop}
    (hQ : ∀ s t, P s → s.seq.replaying = false → (f s).Drove t → (f s).Went Eq t → Q t)
    (hP : ∀ s, P s → s.seq.replaying = true → Q s.passOver)
    (hE : ∀ s u, P s → (f s).Drove u → E .ended u.hardReset) (hR : ∀ r u, E (.refused r) u) :
    Op.Leads P (Machine.assign f) (fun _ => Q) E := by
  refine ⟨fun s hs => ?_⟩
  cases hr : s.seq.replaying with
  | true =>
    rw [Machine.assign, act_replaying hr]
    exact hP s hs hr
  | false =>
    have hd : (f s).Drove ((f s).forth []).tick :=
      State.Drove.trans (t := (f s).forth []) ⟨rfl, rfl, rfl, rfl, rfl, rfl, rfl⟩ (State.drove_tick _)
    have hw : (f s).Went Eq ((f s).forth []).tick := fun h => ⟨by simpa using h, by rw [State.tick_link]; rfl⟩
    have h := (hostWindow_drives.run ((f s).forth []).tick).after hd hw fun _ _ _ h h' => h.trans h'
    rw [Machine.assign, act_performed hr]
    rcases hx : hostWindow ((f s).forth []).tick with ⟨a, t⟩ | ⟨_ | _ | _, t⟩ <;> rw [hx] at h
    · exact hQ s t hs hr h.1 h.2
    · obtain ⟨u, hu, rfl⟩ := h
      exact hE s u hs hu
    · exact h.elim
    · exact hR _ _

/-! ## Buffers and progress inside a run -/

theorem memReadImg_ok {s : State} {w : Window} {i : Nat} {e : ImgEntry} (h : s.mem.img w i = some e) :
    memReadImg w i s = .ok e s := by
  unfold memReadImg
  rw [h]

theorem memReadImg_unwritten {s : State} {w : Window} {i : Nat} (h : s.mem.img w i = none) :
    memReadImg w i s = .error (.fault (.unwrittenEntry (w.addr i))) s := by
  unfold memReadImg
  rw [h]

theorem memRead8_ok {s : State} {w : Window} {i : Nat} {v : Byte} (h : s.mem.entry8 w i = some v) :
    memRead8 w i s = .ok v s := by
  unfold memRead8
  rw [h]

theorem memRead8_unwritten {s : State} {w : Window} {i : Nat} (h : s.mem.entry8 w i = none) :
    memRead8 w i s = .error (.fault (.unwrittenEntry (w.addr i))) s := by
  unfold memRead8
  rw [h]

/-- A buffer write undisturbed (20_memory R65). -/
theorem memWriteImg_calm {s : State} (h : s.calm) (w : Window) (i : Nat) (e : ImgEntry) :
    memWriteImg w i e s = .ok () (({ s with mem := s.mem.setImg w i e } : State).forth []) := assign_calm h h.1

theorem memWrite16_calm {s : State} (h : s.calm) (w : Window) (i : Nat) (v : Word) :
    memWrite16 w i v s = .ok () (({ s with mem := s.mem.setEntry16 w i v } : State).forth []) := assign_calm h h.1

theorem memWrite8_calm {s : State} (h : s.calm) (w : Window) (i : Nat) (v : Byte) :
    memWrite8 w i v s = .ok () (({ s with mem := s.mem.setEntry8 w i v } : State).forth []) := assign_calm h h.1

/-- Clearing image entries undisturbed changes the buffers and the position (10_state R28). -/
theorem clearImgs_calm {s : State} (h : s.calm) (w : Window) (n start : Nat) :
    ∃ p, ({ s with seq := { s.seq with position := p } } : State).calm ∧
      forUp (fun i => memWriteImg w i { value := 0xFFFF, present := false }) n start s =
        .ok () { s with seq := { s.seq with position := p }, mem := Memory.clearImgs w n start s.mem } := by
  induction n generalizing start s with
  | zero => exact ⟨s.seq.position, h, rfl⟩
  | succ n ih =>
    have hw := memWriteImg_calm h w start { value := 0xFFFF, present := false }
    obtain ⟨p, hp, he⟩ := ih (s := ({ s with
      mem := s.mem.setImg w start { value := 0xFFFF, present := false } } : State).forth [])
      (State.calm.forth (s := { s with mem := s.mem.setImg w start { value := 0xFFFF, present := false } }) h []) (start + 1)
    exact ⟨p, hp, by rw [forUp, Op.bind_ok hw, he]; rfl⟩

/-- Allocation undisturbed (10_state R28, 44_identity R172). -/
theorem allocate_calm {s : State} (h : s.calm) (words : Nat) :
    ∃ p, ({ s with seq := { s.seq with position := p } } : State).calm ∧
      allocate words s = .ok () { s with
        seq := { s.seq with position := p }
        mem := Memory.clearImgs .cfgImg 8 0 (Memory.clearImgs .codeImg words 0 s.mem) } := by
  obtain ⟨p, hp, he⟩ := clearImgs_calm h .codeImg words 0
  obtain ⟨q, hq, he'⟩ := clearImgs_calm (s := { s with
    seq := { s.seq with position := p }, mem := Memory.clearImgs .codeImg words 0 s.mem }) hp .cfgImg 8 0
  exact ⟨q, hq, by rw [allocate, Op.bind_ok he, he']⟩

/-- A progress report undisturbed (46_program_verify R211). -/
theorem emitProgress_calm {s : State} (h : s.calm) (ph : Phase) (p : BitVec 7) :
    emitProgress ph p s = .ok () ((s.reportProgress ph p).forth []) :=
  assign_calm (f := fun s => s.reportProgress ph p) h (by
    unfold State.reportProgress
    split <;> exact h.1)

/-- After a report the phase and the percentage are the reported ones, whether or not they changed. -/
theorem State.reportProgress_seq (s : State) (ph : Phase) (p : BitVec 7) :
    (s.reportProgress ph p).seq = { s.seq with lastPct := some p, phase := ph } := by
  unfold State.reportProgress progressChanges
  split
  · rfl
  · rename_i h
    simp only [Bool.or_eq_true, bne_iff_ne, ne_eq, not_or, not_not] at h
    obtain ⟨rfl, h⟩ := h
    cases hs : s.seq
    simp_all

/-- A report sets PROG_EVT unless it repeats the last one. -/
theorem State.reportProgress_regs (s : State) (ph : Phase) (p : BitVec 7) :
    (s.reportProgress ph p).regs =
      if progressChanges s.seq ph p then { s.regs with progEvt := true } else s.regs := by
  unfold State.reportProgress
  split <;> rfl

/-! ## Read procedures undisturbed -/

theorem slice8_self {bits : List Bool} (h : bits.length = 8) : slice8 bits 0 = bits := by
  simp [slice8, List.take_of_length_le, h]

theorem slice8_left {bs cs : List Bool} (h : bs.length = 8) : slice8 (bs ++ cs) 0 = bs := by
  simp [slice8, h]

theorem slice8_right {bs cs : List Bool} (h : bs.length = 8) (h' : cs.length = 8) : slice8 (bs ++ cs) 8 = cs := by
  simp [slice8, h, List.take_of_length_le, h']

/-- Two read transactions in a row: a word, its low byte first. -/
theorem readPair_calm {s : State} (h : s.calm) (f g : IcspCodes → Nibble) :
    ∃ bits l', bits.length = 16 ∧
      s.link.Ran l' (readPairEvents (f s.cfg.codes.icsp) (g s.cfg.codes.icsp) bits 0) ∧
      (do
        let lo ← readIcsp f
        let hi ← readIcsp g
        return hi ++ lo : Op Word) s =
        .ok (wordFrom bits 0) (s.ran l' (readPairEvents (f s.cfg.codes.icsp) (g s.cfg.codes.icsp) bits 0)) := by
  obtain ⟨bs, l₁, hn, hr, -, he⟩ := readIcsp_calm h f
  obtain ⟨cs, l₂, hn', hr', -, he'⟩ := readIcsp_calm (h.ran l₁ (readTxnEvents (f s.cfg.codes.icsp) bs)) g
  refine ⟨bs ++ cs, l₂, by simp [hn, hn'], ?_, ?_⟩
  · rw [readPairEvents, slice8_left hn, slice8_right hn hn']
    exact hr.trans hr'
  · rw [Op.bind_ok he, Op.bind_ok he', wordFrom, byteFrom, byteFrom, slice8_left hn, slice8_right hn hn', State.ran_ran,
      readPairEvents, slice8_left hn, slice8_right hn hn']
    rfl

/-- `ReadCodeWord()` undisturbed (46_program_verify R212). -/
theorem readCodeWord_calm {s : State} (h : s.calm) :
    ∃ bits l', bits.length = 16 ∧
      s.link.Ran l' (readPairEvents s.cfg.codes.icsp.tblrdPostinc s.cfg.codes.icsp.tblrdPostinc bits 0) ∧
      readCodeWord s = .ok (wordFrom bits 0)
        (s.ran l' (readPairEvents s.cfg.codes.icsp.tblrdPostinc s.cfg.codes.icsp.tblrdPostinc bits 0)) :=
  readPair_calm h IcspCodes.tblrdPostinc IcspCodes.tblrdPostinc

/-- `ReadDevId()` undisturbed (44_identity R171). -/
theorem readDevId_calm {s : State} (h : s.calm) :
    ∃ bits l', bits.length = 16 ∧ s.link.Ran l' (readDevIdEvents s.cfg.codes bits) ∧
      readDevId s = .ok (wordFrom bits 0) (s.ran l' (readDevIdEvents s.cfg.codes bits)) := by
  obtain ⟨bits, l₂, hn, hr, he⟩ := readPair_calm (h.recordAll (gotoAddressEvents s.cfg.codes 0x3FFFFE))
    IcspCodes.tblrdPostinc IcspCodes.tblrdPostinc
  have hg := LinkSide.ran_observeAll s.cfg s.link (samplesOf_gotoAddress s.cfg.codes 0x3FFFFE)
  rw [State.recordAll_link, State.recordAll_cfg] at hr
  refine ⟨bits, l₂, hn, by rw [readDevIdEvents]; exact hg.trans hr, ?_⟩
  rw [readDevId, Op.bind_ok (gotoAddress_calm h _), readDevIdEvents]
  refine he.trans ?_
  rw [State.recordAll_eq, State.ran_ran]
  rfl

/-- `CfgReadSlot(i)` undisturbed (48_config R255). -/
theorem cfgReadSlot_calm {s : State} (h : s.calm) (i : Nat) :
    ∃ bits l', bits.length = 16 ∧
      s.link.Ran l' (gotoAddressEvents s.cfg.codes (slotAddr i) ++
        readPairEvents s.cfg.codes.icsp.tblrdPostinc s.cfg.codes.icsp.tblrd bits 0) ∧
      cfgReadSlot i s = .ok (wordFrom bits 0) (s.ran l' (gotoAddressEvents s.cfg.codes (slotAddr i) ++
        readPairEvents s.cfg.codes.icsp.tblrdPostinc s.cfg.codes.icsp.tblrd bits 0)) := by
  obtain ⟨bits, l₂, hn, hr, he⟩ := readPair_calm (h.recordAll (gotoAddressEvents s.cfg.codes (slotAddr i)))
    IcspCodes.tblrdPostinc IcspCodes.tblrd
  have hg := LinkSide.ran_observeAll s.cfg s.link (samplesOf_gotoAddress s.cfg.codes (slotAddr i))
  rw [State.recordAll_link, State.recordAll_cfg] at hr
  refine ⟨bits, l₂, hn, hg.trans hr, ?_⟩
  rw [cfgReadSlot, Op.bind_ok (gotoAddress_calm h _)]
  refine he.trans ?_
  rw [State.recordAll_eq, State.ran_ran]
  rfl

theorem coreEvents_append (c : Codes) (ws vs : List Word) : coreEvents c (ws ++ vs) = coreEvents c ws ++ coreEvents c vs :=
  List.flatMap_append

theorem coreEvents_single (c : Codes) (w : Word) : coreEvents c [w] = sendInsnEvents c.icsp.core w := by
  simp [coreEvents]

/-- A CORE transaction after others: the words sent add up. -/
theorem sendCore_after {s : State} (h : s.calm) (ws : List Word) (f : CoreWords → Word) :
    sendCore f (s.recordAll (coreEvents s.cfg.codes ws)) =
      .ok () (s.recordAll (coreEvents s.cfg.codes (ws ++ [f s.cfg.codes.core]))) := by
  rw [sendCore_calm (h.recordAll _), coreEvents_append, coreEvents_single, State.recordAll_append]
  simp

/-- `CfgWriteSlot(i, v)` undisturbed (48_config R256). -/
theorem cfgWriteSlot_calm {s : State} (h : s.calm) (i : Nat) (v : Word) :
    cfgWriteSlot i v s = .ok () (s.recordAll (cfgWriteSlotEvents s.cfg i v)) := by
  have hq : ∀ es, (s.recordAll es).calm := fun es => h.recordAll es
  rw [cfgWriteSlot, Op.bind_ok (Op.ask_run _ s), Op.bind_ok (gotoAddress_calm h _), Op.bind_ok (sendStartp_calm (hq _) _ _),
    ← State.recordAll_append, Op.bind_ok (gotoShort_calm (hq _) _), ← State.recordAll_append, sendStartp_calm (hq _),
    ← State.recordAll_append]
  simp only [State.recordAll_cfg, cfgWriteSlotEvents, List.append_assoc]

/-- The access mode and the cell address (47_eeprom R240, R241). -/
theorem eeAddress_calm {s : State} (h : s.calm) (e : Nat) :
    eeAddress e s = .ok () (s.recordAll (coreEvents s.cfg.codes (eeAddressWords s.cfg.codes.core e))) := by
  have h₀ : sendCore CoreWords.bcfEepgd s = .ok () (s.recordAll (coreEvents s.cfg.codes [s.cfg.codes.core.bcfEepgd])) := by
    rw [sendCore_calm h, coreEvents_single]
  have hlo : (BitVec.ofNat 16 e).setWidth 8 = BitVec.ofNat 8 e := by
    ext i hi
    simp
  have hhi : ((BitVec.ofNat 16 e : Word) >>> 8).setWidth 8 = BitVec.ofNat 8 (e / 256) := by
    apply BitVec.eq_of_toNat_eq
    simp only [BitVec.toNat_setWidth, BitVec.toNat_ushiftRight, BitVec.toNat_ofNat, Nat.shiftRight_eq_div_pow]
    omega
  rw [eeAddress, Op.bind_ok h₀, Op.bind_ok (sendCore_after h _ _), Op.bind_ok (sendCore_after h _ _), Op.bind_ok (sendCore_after h _ _),
    Op.bind_ok (sendCore_after h _ _), sendCore_after h _ _]
  simp only [CoreWords.movlwOf, hlo, hhi]
  rfl

/-- One poll undisturbed: three CORE transactions, a read, and the counter one further on (47_eeprom R241). -/
theorem eePoll_calm {s : State} (h : s.calm) :
    ∃ bits l', bits.length = 8 ∧ s.link.Ran l' (eePollEvents s.cfg.codes bits) ∧
      eePoll s = .ok (byteOfBits bits)
        (((s.ran l' (eePollEvents s.cfg.codes bits)).setPolls (s.seq.polls + 1)).forth []) := by
  let ws := [s.cfg.codes.core.movfEecon1W, s.cfg.codes.core.movwfTablat, s.cfg.codes.core.nop]
  obtain ⟨bits, l₂, hn, hr, -, he⟩ := readIcsp_calm (h.recordAll (coreEvents s.cfg.codes ws)) IcspCodes.shiftOutTablat
  have h₀ : sendCore CoreWords.movfEecon1W s =
      .ok () (s.recordAll (coreEvents s.cfg.codes [s.cfg.codes.core.movfEecon1W])) := by
    rw [sendCore_calm h, coreEvents_single]
  have hc := LinkSide.ran_observeAll s.cfg s.link (samplesOf_core s.cfg.codes ws)
  rw [State.recordAll_link, State.recordAll_cfg] at hr
  rw [State.recordAll_cfg] at he
  refine ⟨bits, l₂, hn, by rw [eePollEvents]; exact hc.trans hr, ?_⟩
  rw [State.recordAll_eq, State.ran_ran] at he
  have ha := assign_calm (f := fun s => s.setPolls (s.seq.polls + 1)) (h.ran l₂ (eePollEvents s.cfg.codes bits)) h.1
  rw [State.ran_seq, Sequencer.after_polls] at ha
  rw [eePoll, Op.bind_ok h₀, Op.bind_ok (sendCore_after h _ _), Op.bind_ok (sendCore_after h _ _), State.recordAll_eq]
  refine (Op.bind_ok he).trans ?_
  rw [← eePollEvents, Op.bind_ok ha]
  rfl

/-- `EeReadCell(e)` undisturbed (47_eeprom R240). -/
theorem eeReadCell_calm {s : State} (h : s.calm) (e : Nat) :
    ∃ bits l', bits.length = 8 ∧ s.link.Ran l' (eeReadCellEvents s.cfg.codes e bits) ∧
      eeReadCell e s = .ok (byteOfBits bits) (s.ran l' (eeReadCellEvents s.cfg.codes e bits)) := by
  let c := s.cfg.codes.core
  let ws := eeAddressWords c e ++ [c.bsfRd, c.movfEedataW, c.movwfTablat, c.nop]
  obtain ⟨bits, l₂, hn, hr, -, he⟩ := readIcsp_calm (h.recordAll (coreEvents s.cfg.codes ws)) IcspCodes.shiftOutTablat
  have hc := LinkSide.ran_observeAll s.cfg s.link (samplesOf_core s.cfg.codes ws)
  rw [State.recordAll_link, State.recordAll_cfg] at hr
  rw [State.recordAll_cfg] at he
  refine ⟨bits, l₂, hn, by rw [eeReadCellEvents]; exact hc.trans hr, ?_⟩
  rw [eeReadCell, Op.bind_ok (eeAddress_calm h e), Op.bind_ok (sendCore_after h _ _), Op.bind_ok (sendCore_after h _ _),
    Op.bind_ok (sendCore_after h _ _), Op.bind_ok (sendCore_after h _ _)]
  refine (show readIcsp IcspCodes.shiftOutTablat (s.recordAll (coreEvents s.cfg.codes ws)) = _ from he).trans ?_
  rw [State.recordAll_eq, State.ran_ran]
  rfl

end Sys2Proof.Machine
end

