-- ==== Sys2Proof/Laws/Resume.lean ====
section
/-! SUPPORT. Why an operation goes on from its position (10_state R22): each procedure, run again over the actions
it has performed, changes nothing until it is where it stood, said once for each shared operation and then put together
by the shape of the pseudocode. -/

namespace Sys2Proof.Machine

/-! ## What a run may look at -/

/-- How much of the state an operation looks at: the configuration and its latches; the identity as well; the buffers
other than CFG_RB as well. -/
inductive Look where
  | latches | identity | buffers
deriving DecidableEq, Repr

/-- `s` and `u` are the same in what an operation looks at. -/
structure State.Alike (k : Look) (s u : State) : Prop where
  cfg : u.cfg = s.cfg
  op : u.seq.op = s.seq.op
  arg0 : u.seq.arg0 = s.seq.arg0
  arg1 : u.seq.arg1 = s.seq.arg1
  ctrl : u.seq.ctrl = s.seq.ctrl
  pollMax : u.seq.pollMax = s.seq.pollMax
  ident : k ≠ .latches → u.ident = s.ident
  mem : k = .buffers → ∀ a, (a < 0x120 ∨ 0x140 ≤ a) → u.mem.byte a = s.mem.byte a

theorem State.Alike.refl (k : Look) (s : State) : s.Alike k s :=
  ⟨rfl, rfl, rfl, rfl, rfl, rfl, fun _ => rfl, fun _ _ _ => rfl⟩

theorem State.Alike.symm {k : Look} {s u : State} (h : s.Alike k u) : u.Alike k s :=
  ⟨h.cfg.symm, h.op.symm, h.arg0.symm, h.arg1.symm, h.ctrl.symm, h.pollMax.symm, fun hk => (h.ident hk).symm,
    fun hk a ha => (h.mem hk a ha).symm⟩

theorem State.Alike.trans {k : Look} {s t u : State} (h : s.Alike k t) (h' : t.Alike k u) : s.Alike k u :=
  ⟨h'.cfg.trans h.cfg, h'.op.trans h.op, h'.arg0.trans h.arg0, h'.arg1.trans h.arg1, h'.ctrl.trans h.ctrl,
    h'.pollMax.trans h.pollMax, fun hk => (h'.ident hk).trans (h.ident hk),
    fun hk a ha => (h'.mem hk a ha).trans (h.mem hk a ha)⟩

/-- An image entry or an EEPROM image entry lies outside CFG_RB. -/
theorem State.Alike.img {s u : State} (h : s.Alike .buffers u) {w : Window} {i : Nat}
    (hw : w.addr i + 3 < 0x120 ∨ 0x140 ≤ w.addr i) : u.mem.img w i = s.mem.img w i :=
  Memory.img_congr w i (h.mem rfl _ (by omega)) (h.mem rfl _ (by omega)) (h.mem rfl _ (by omega))

/-! ## Where a run stands -/

/-- An operation runs, undisturbed, with `n` actions and the samples `bs`, newest first, behind it. -/
structure State.Stands (s : State) (n : Nat) (bs : List Bool) : Prop where
  quiet : s.quiet
  busy : s.seq.busy = true
  position : s.seq.position = some { taken := n, sampled := bs }

/-- The state with `n` actions still to pass over, and the bits they sampled, oldest first. -/
def State.repeating (u : State) (n : Nat) (past : List Bool) : State :=
  { u with seq := { u.seq with position := some { u.seq.position.getD {} with again := n, past := past } } }

theorem State.Stands.calm {s : State} {n : Nat} {bs : List Bool} (h : s.Stands n bs) : s.calm :=
  ⟨h.quiet, by rw [Sequencer.replaying, h.position]; rfl⟩

/-- With nothing to pass over the state is where it stands. -/
theorem State.Stands.repeating_zero {s : State} {n : Nat} {bs : List Bool} (h : s.Stands n bs) :
    s.repeating 0 [] = s := by
  have hp := h.position
  obtain ⟨cfg, regs, ⟨busy, op, pos, a0, a1, c, pm, lp, ph, po⟩, _⟩ := s
  simp only at hp
  subst hp
  rfl

theorem State.repeating_replaying (u : State) (n : Nat) (past : List Bool) :
    (u.repeating (n + 1) past).seq.replaying = true := rfl

@[simp] theorem State.cutAt_cfg (s : State) (n : Nat) : (s.cutAt n).cfg = s.cfg := rfl
@[simp] theorem State.cutAt_seq (s : State) (n : Nat) : (s.cutAt n).seq = s.seq := rfl
@[simp] theorem State.cutAt_mem (s : State) (n : Nat) : (s.cutAt n).mem = s.mem := rfl
@[simp] theorem State.cutAt_ident (s : State) (n : Nat) : (s.cutAt n).ident = s.ident := rfl
@[simp] theorem State.cutAt_link (s : State) (n : Nat) : (s.cutAt n).link = s.link := rfl

theorem State.withInputs_self (s : State) : s.withInputs s.bus.inputs = s := rfl

theorem State.cutAt_tick (s : State) (n : Nat) : (s.cutAt (n + 1)).tick = s.cutAt n := rfl

/-- The host window before the cut is due does nothing. -/
theorem hostWindow_cut (s : State) (n : Nat) : hostWindow (s.cutAt (n + 1)) = .ok () (s.cutAt (n + 1)) := by
  unfold hostWindow
  split <;> rfl

/-- The host window in which the cut is due stops the run. -/
theorem hostWindow_cut_due {s : State} (h : s.seq.busy = true) :
    hostWindow (s.cutAt 0) = .error (.refused (.undefinedAccess 0x000 1)) s := by
  unfold hostWindow
  rw [if_pos (by simpa using h)]
  rfl

/-! ## Resuming a procedure -/

/-- What a procedure that can be resumed does, from a state that stands at `n` with the samples `bs`. It ends after `j`
actions that sampled `cs`, or raises; a run that is cut within those actions does not end; a run that is cut later ends
as it does undisturbed; run again over its actions it changes nothing; and run again from where a cut has stopped it,
over the actions before the cut, it ends as it does undisturbed. -/
structure Op.ResumesAt {α : Type} (k : Look) (m : Op α) (s : State) (n : Nat) (bs : List Bool) : Prop where
  ended : ∀ a t, m s = .ok a t → ∃ j cs, t.Stands (n + j) (cs ++ bs) ∧ s.Alike k t ∧
    (∀ i, m (s.cutAt (j + i + 1)) = .ok a (t.cutAt (i + 1))) ∧
    (∀ i, i < j → ∀ b u, m (s.cutAt (i + 1)) ≠ .ok b u) ∧
    ∀ u r past, s.Alike k u → m (u.repeating (j + r + 1) (cs.reverse ++ past)) = .ok a (u.repeating (r + 1) past)
  halted : ∀ e t, m s = .error e t → ∀ i b u, m (s.cutAt (i + 1)) ≠ .ok b u
  cut : ∀ i r t, m (s.cutAt (i + 1)) = .error (.refused r) t →
    ∃ cs, t.Stands (n + i + 1) (cs ++ bs) ∧ s.Alike k t ∧ m (t.repeating (i + 1) cs.reverse) = m s

/-- A procedure that can be resumed, wherever it is started. -/
def Op.Resumes {α : Type} (k : Look) (m : Op α) : Prop :=
  ∀ s n bs, s.Stands n bs → m.ResumesAt k s n bs

/-- Procedures that can be resumed compose. -/
theorem Op.Resumes.bind {α β : Type} {k : Look} {m : Op α} {f : α → Op β} (hm : m.Resumes k)
    (hf : ∀ a, (f a).Resumes k) : (m >>= f).Resumes k := by
  intro s n bs hs
  have h := hm s n bs hs
  cases hr : m s with
  | ok a t =>
    obtain ⟨j, cs, ht, hst, hlate, hearly, hagain⟩ := h.ended a t hr
    have g := hf a t (n + j) (cs ++ bs) ht
    have hlt : ∀ i, i < j → ∀ b u, (m >>= f) (s.cutAt (i + 1)) ≠ .ok b u := by
      intro i hi b u hbu
      rw [Op.bind_run] at hbu
      cases hc : m (s.cutAt (i + 1)) with
      | ok c v => exact hearly i hi c v hc
      | error e v => rw [hc] at hbu; cases hbu
    have hge : ∀ i, (m >>= f) (s.cutAt (j + i + 1)) = f a (t.cutAt (i + 1)) := fun i => Op.bind_ok (hlate i)
    refine ⟨?_, ?_, ?_⟩
    · intro b w hb
      rw [Op.bind_ok hr] at hb
      obtain ⟨j', cs', hw, htw, hlate', hearly', hagain'⟩ := g.ended b w hb
      refine ⟨j + j', cs' ++ cs, ?_, hst.trans htw, ?_, ?_, ?_⟩
      · rw [← Nat.add_assoc, List.append_assoc]
        exact hw
      · intro i
        rw [show j + j' + i + 1 = j + (j' + i) + 1 by omega, hge]
        exact hlate' i
      · intro i hi b' u'
        rcases Nat.lt_or_ge i j with hij | hij
        · exact hlt i hij b' u'
        · obtain ⟨d, rfl⟩ := Nat.exists_eq_add_of_le hij
          rw [hge]
          exact hearly' d (by omega) b' u'
      · intro u r past hsu
        rw [List.reverse_append, List.append_assoc, show j + j' + r + 1 = j + (j' + r) + 1 by omega,
          Op.bind_ok (hagain u (j' + r) _ hsu)]
        exact hagain' u r past (hst.symm.trans hsu)
    · intro e w hb i b u
      rw [Op.bind_ok hr] at hb
      rcases Nat.lt_or_ge i j with hij | hij
      · exact hlt i hij b u
      · obtain ⟨d, rfl⟩ := Nat.exists_eq_add_of_le hij
        rw [hge]
        exact g.halted e w hb d b u
    · intro i r u hu
      rcases Nat.lt_or_ge i j with hij | hij
      · cases hc : m (s.cutAt (i + 1)) with
        | ok c v => exact absurd hc (hearly i hij c v)
        | error e v =>
          rw [Op.bind_error hc] at hu
          cases hu
          obtain ⟨cs', hv, hsv, he⟩ := h.cut i r u hc
          exact ⟨cs', hv, hsv, by rw [Op.bind_run, Op.bind_run, he]⟩
      · obtain ⟨d, rfl⟩ := Nat.exists_eq_add_of_le hij
        rw [hge] at hu
        obtain ⟨cs', hv, htv, he⟩ := g.cut d r u hu
        refine ⟨cs' ++ cs, ?_, hst.trans htv, ?_⟩
        · rw [← Nat.add_assoc, List.append_assoc]
          exact hv
        · rw [List.reverse_append, Op.bind_ok (hagain u d _ (hst.trans htv)), Op.bind_ok hr]
          exact he
  | error e t =>
    have hno : ∀ i b u, (m >>= f) (s.cutAt (i + 1)) ≠ .ok b u := by
      intro i b u hbu
      rw [Op.bind_run] at hbu
      cases hc : m (s.cutAt (i + 1)) with
      | ok c v => exact h.halted e t hr i c v hc
      | error e' v => rw [hc] at hbu; cases hbu
    refine ⟨?_, fun _ _ _ => hno, ?_⟩
    · intro b w hb
      rw [Op.bind_error hr] at hb
      cases hb
    · intro i r u hu
      cases hc : m (s.cutAt (i + 1)) with
      | ok c v => exact absurd hc (h.halted e t hr i c v)
      | error e' v =>
        rw [Op.bind_error hc] at hu
        cases hu
        obtain ⟨cs, hv, hsv, he⟩ := h.cut i r u hc
        exact ⟨cs, hv, hsv, by rw [Op.bind_run, Op.bind_run, he]⟩

/-- A procedure that performs no action, and answers the same wherever the state is alike. -/
theorem Op.Resumes.still {α : Type} {k : Look} {m : Op α}
    (h : ∀ s : State, (∃ a, ∀ u, s.Alike k u → m u = .ok a u) ∨ ∃ e, (∀ r, e ≠ .refused r) ∧ ∀ u, s.Alike k u → ∃ t, m u = .error e t) :
    m.Resumes k := by
  intro s n bs hs
  have hcut : ∀ i, s.Alike k (s.cutAt i) := fun _ => ⟨rfl, rfl, rfl, rfl, rfl, rfl, fun _ => rfl, fun _ _ _ => rfl⟩
  have hrep : ∀ {u : State} i past, s.Alike k u → s.Alike k (u.repeating i past) := fun i past h =>
    ⟨h.cfg, h.op, h.arg0, h.arg1, h.ctrl, h.pollMax, h.ident, h.mem⟩
  rcases h s with ⟨a, ha⟩ | ⟨e, hne, he⟩
  · have hs' := ha s (State.Alike.refl k s)
    refine ⟨?_, ?_, ?_⟩
    · intro b t hb
      rw [hs'] at hb
      cases hb
      refine ⟨0, [], hs, State.Alike.refl k s, fun i => ?_, fun i hi => absurd hi (Nat.not_lt_zero i), fun u r past hu => ?_⟩
      · rw [Nat.zero_add]
        exact ha _ (hcut _)
      · rw [Nat.zero_add]
        exact ha _ (hrep _ _ hu)
    · intro e t hb
      rw [hs'] at hb
      cases hb
    · intro i r t ht
      rw [ha _ (hcut _)] at ht
      cases ht
  · obtain ⟨t, ht⟩ := he s (State.Alike.refl k s)
    refine ⟨?_, ?_, ?_⟩
    · intro b t' hb
      rw [ht] at hb
      cases hb
    · intro e' t' _ i b u hb
      obtain ⟨v, hv⟩ := he _ (hcut (i + 1))
      rw [hv] at hb
      cases hb
    · intro i r u hu
      obtain ⟨v, hv⟩ := he _ (hcut (i + 1))
      rw [hv] at hu
      cases hu
      exact absurd rfl (hne r)

theorem Op.Resumes.pure {α : Type} {k : Look} (a : α) : (pure a : Op α).Resumes k :=
  .still fun _ => .inl ⟨a, fun _ _ => rfl⟩

theorem Op.Resumes.ask {α : Type} {k : Look} {f : State → α} (h : ∀ s u : State, s.Alike k u → f u = f s) :
    (Machine.ask f).Resumes k :=
  .still fun s => .inl ⟨f s, fun u hu => by rw [Op.ask_run, h s u hu]⟩

theorem raise_resumes {α : Type} {k : Look} (c : Cause) (a : Addr) (e v : Word) : (raise c a e v : Op α).Resumes k :=
  .still fun _ => .inr ⟨.ended, fun _ h => (by cases h), fun u _ => ⟨_, Op.raise_run c a e v u⟩⟩

theorem memReadImg_resumes {w : Window} {i : Nat} (h : w.addr i + 3 < 0x120 ∨ 0x140 ≤ w.addr i) :
    (memReadImg w i).Resumes .buffers := by
  refine .still fun s => ?_
  cases hr : s.mem.img w i with
  | some e => exact .inl ⟨e, fun u hu => memReadImg_ok (by rw [hu.img h, hr])⟩
  | none =>
    exact .inr ⟨_, fun _ h => (by cases h), fun u hu => ⟨u, memReadImg_unwritten (by rw [hu.img h, hr])⟩⟩

theorem memRead8_resumes {w : Window} {i : Nat} (h : w.addr i < 0x120 ∨ 0x140 ≤ w.addr i) :
    (memRead8 w i).Resumes .buffers := by
  refine .still fun s => ?_
  have he : ∀ u, s.Alike .buffers u → u.mem.entry8 w i = s.mem.entry8 w i := fun u hu => hu.mem rfl _ h
  cases hr : s.mem.entry8 w i with
  | some v => exact .inl ⟨v, fun u hu => memRead8_ok (by rw [he u hu, hr])⟩
  | none => exact .inr ⟨_, fun _ h => (by cases h), fun u hu => ⟨u, memRead8_unwritten (by rw [he u hu, hr])⟩⟩

/-- An effect that moves the position one action on, keeps what the operation looks at, and leaves the host's inputs
alone. -/
structure State.Moves (k : Look) (f : State → State) : Prop where
  stands : ∀ (s : State) (n : Nat) (bs : List Bool), s.Stands n bs → (f s).Stands (n + 1) bs
  alike : ∀ s : State, s.Alike k (f s)
  cutAt : ∀ (s : State) (n : Nat), f (s.cutAt n) = (f s).cutAt n

theorem act_resumes {k : Look} {f : State → State} (h : State.Moves k f) : (act f).Resumes k := by
  intro s n bs hs
  have ht := h.stands s n bs hs
  have hc : ∀ i, act f (s.cutAt (i + 1)) = hostWindow ((f s).cutAt i) := fun i => by
    rw [act_performed (by simpa using hs.calm.2), h.cutAt, State.cutAt_tick]
  have hr : act f s = .ok () (f s) := act_calm hs.calm ht.quiet
  refine ⟨?_, ?_, ?_⟩
  · intro a t hat
    rw [hr] at hat
    cases hat
    refine ⟨1, [], ht, h.alike s, fun i => ?_, fun i hi b u hb => ?_, fun u r past _ => ?_⟩
    · rw [hc, show 1 + i = i + 1 by omega, hostWindow_cut]
    · obtain rfl : i = 0 := by omega
      rw [hc, hostWindow_cut_due ht.busy] at hb
      cases hb
    · rw [show 1 + r + 1 = r + 1 + 1 by omega, act_replaying (State.repeating_replaying u _ _)]
      rfl
  · intro e t hat
    rw [hr] at hat
    cases hat
  · intro i r t hat
    rw [hc] at hat
    cases i with
    | zero =>
      rw [hostWindow_cut_due ht.busy] at hat
      cases hat
      refine ⟨[], ht, h.alike s, ?_⟩
      rw [hr, List.reverse_nil, act_replaying (State.repeating_replaying (f s) 0 [])]
      exact congrArg (EStateM.Result.ok ()) ht.repeating_zero
    | succ i =>
      rw [hostWindow_cut] at hat
      cases hat

/-- An effect on the state that neither the sequencer nor the host bus has part in, but for the poll counter and the
progress. -/
structure State.Assigns (k : Look) (f : State → State) : Prop where
  bus : ∀ s : State, (f s).bus = s.bus
  busy : ∀ s : State, (f s).seq.busy = s.seq.busy
  position : ∀ s : State, (f s).seq.position = s.seq.position
  alike : ∀ s : State, s.Alike k (f s)
  cutAt : ∀ (s : State) (n : Nat), f (s.cutAt n) = (f s).cutAt n

theorem assign_resumes {k : Look} {f : State → State} (h : State.Assigns k f) : (assign f).Resumes k := by
  refine act_resumes (f := fun s => (f s).forth []) ⟨fun s n bs hs => ⟨?_, ?_, ?_⟩, fun s => ?_, fun s n => ?_⟩
  · show ((f s).bus.inputs.head?.bind Input.gap) = none
    rw [h.bus]
    exact hs.quiet
  · exact (h.busy s).trans hs.busy
  · show (f s).seq.position.map _ = _
    rw [h.position, hs.position]
    rfl
  · have := h.alike s
    exact ⟨this.cfg, this.op, this.arg0, this.arg1, this.ctrl, this.pollMax, this.ident, this.mem⟩
  · show (f (s.cutAt n)).forth [] = _
    rw [h.cutAt]
    rfl

theorem emit_resumes {k : Look} {e : LinkEvent} (he : samplesOf [e] = []) : (emit e).Resumes k := by
  refine act_resumes (f := fun s => s.record e) ⟨fun s n bs hs => ⟨hs.quiet, hs.busy, ?_⟩, fun s => ?_, fun s n => rfl⟩
  · show s.seq.position.map _ = _
    rw [he, hs.position]
    rfl
  · exact ⟨rfl, rfl, rfl, rfl, rfl, rfl, fun _ => rfl, fun _ _ _ => rfl⟩

theorem samplesOf_cons {e : LinkEvent} {es : List LinkEvent} (h : samplesOf (e :: es) = []) :
    samplesOf [e] = [] ∧ samplesOf es = [] := by
  have := samplesOf_append [e] es
  rw [List.singleton_append, h] at this
  exact List.append_eq_nil_iff.1 this.symm

theorem emitAll_resumes {k : Look} {es : List LinkEvent} (h : samplesOf es = []) : (emitAll es).Resumes k := by
  induction es with
  | nil => exact .pure ()
  | cons e es ih => exact (emit_resumes (samplesOf_cons h).1).bind fun _ => ih (samplesOf_cons h).2

/-- A sample is one action, which keeps the bit it took. -/
theorem sample_resumes {k : Look} : sample.Resumes k := by
  intro s n bs hs
  let d := s.link.draw s.cfg
  let t : State := ({ s with link := d.2 } : State).record (.sample d.1)
  have ht : t.Stands (n + 1) ([d.1] ++ bs) :=
    ⟨hs.quiet, hs.busy, by show s.seq.position.map _ = _; rw [hs.position]; rfl⟩
  have ha : s.Alike k t := ⟨rfl, rfl, rfl, rfl, rfl, rfl, fun _ => rfl, fun _ _ _ => rfl⟩
  have hperf : ∀ u : State, u.seq.replaying = false → u.cfg = s.cfg → u.link = s.link →
      sample u = (do hostWindow; return d.1 : Op Bool) (({ u with link := d.2 } : State).record (.sample d.1)).tick := by
    intro u hu hc hl
    have hb : sampledBit u = .ok d.1 { u with link := d.2 } := by
      rw [sampledBit, if_neg (by simp [hu])]
      show EStateM.Result.ok (u.link.draw u.cfg).1 { u with link := (u.link.draw u.cfg).2 } = _
      rw [hc, hl]
    rw [sample, Op.bind_ok hb, Op.bind_run, emit, act_performed (by exact hu), Op.bind_run]
  have hc : ∀ i, sample (s.cutAt (i + 1)) = (do hostWindow; return d.1 : Op Bool) (t.cutAt i) := fun i =>
    hperf (s.cutAt (i + 1)) hs.calm.2 rfl rfl
  have hr : sample s = .ok d.1 t := by
    rw [hperf s hs.calm.2 rfl rfl, show (({ s with link := d.2 } : State).record (.sample d.1)) = t from rfl,
      State.tick_quiet ht.quiet, Op.bind_ok (hostWindow_quiet ht.quiet)]
    rfl
  have hagain : ∀ (u : State) r past, sample (u.repeating (r + 1) (d.1 :: past)) = .ok d.1 (u.repeating r past) := by
    intro u r past
    have hb : sampledBit (u.repeating (r + 1) (d.1 :: past)) = .ok d.1 (u.repeating (r + 1) past) := by
      rw [sampledBit, if_pos (State.repeating_replaying u _ _)]
      rfl
    rw [sample, Op.bind_ok hb, emit, Op.bind_ok (act_replaying (State.repeating_replaying u _ _))]
    rfl
  refine ⟨?_, ?_, ?_⟩
  · intro a v hv
    rw [hr] at hv
    cases hv
    refine ⟨1, [d.1], ht, ha, fun i => ?_, fun i hi b u hb => ?_, fun u r past _ => ?_⟩
    · rw [hc, show 1 + i = i + 1 by omega, Op.bind_ok (hostWindow_cut t i)]
      rfl
    · obtain rfl : i = 0 := by omega
      rw [hc, Op.bind_error (hostWindow_cut_due ht.busy)] at hb
      cases hb
    · rw [show 1 + r + 1 = r + 1 + 1 by omega]
      exact hagain u (r + 1) past
  · intro e v hv
    rw [hr] at hv
    cases hv
  · intro i r v hv
    rw [hc] at hv
    cases i with
    | zero =>
      rw [Op.bind_error (hostWindow_cut_due ht.busy)] at hv
      cases hv
      refine ⟨[d.1], ht, ha, ?_⟩
      rw [hr, List.reverse_singleton, hagain]
      exact congrArg (EStateM.Result.ok d.1) ht.repeating_zero
    | succ i =>
      rw [Op.bind_ok (hostWindow_cut t i)] at hv
      cases hv

theorem keepRx_resumes {k : Look} (w : Word) : (keepRx w).Resumes k := by
  intro s n bs hs
  have hr : keepRx w s = .ok () (s.setRx w) := keepRx_calm hs.calm w
  have hc : ∀ i, keepRx w (s.cutAt i) = .ok () ((s.setRx w).cutAt i) := fun i => by
    rw [keepRx, if_neg (by simp [hs.calm.2])]
    rfl
  refine ⟨?_, ?_, ?_⟩
  · intro a t ht
    rw [hr] at ht
    cases ht
    refine ⟨0, [], ⟨hs.quiet, hs.busy, hs.position⟩, ⟨rfl, rfl, rfl, rfl, rfl, rfl, fun _ => rfl, fun _ _ _ => rfl⟩,
      fun i => ?_, fun i hi => absurd hi (Nat.not_lt_zero i), fun u r past _ => ?_⟩
    · rw [Nat.zero_add, hc]
    · rw [Nat.zero_add, keepRx, if_pos (State.repeating_replaying u _ _)]
      rfl
  · intro e t ht
    rw [hr] at ht
    cases ht
  · intro i r t ht
    rw [hc] at ht
    cases ht

/-! ## The procedures -/

theorem Op.Resumes.forUp {k : Look} {f : Nat → Op Unit} (n start : Nat)
    (h : ∀ i, start ≤ i → i < start + n → (f i).Resumes k) : (Machine.forUp f n start).Resumes k := by
  induction n generalizing start with
  | zero => exact .pure ()
  | succ n ih =>
    exact (h start (Nat.le_refl _) (by omega)).bind fun _ => ih (start + 1) fun i h1 h2 => h i (by omega) (by omega)

theorem ask_cfg_resumes {α : Type} {k : Look} (f : Config → α) : (ask fun s => f s.cfg).Resumes k :=
  .ask fun _ _ h => by rw [h.cfg]

theorem ask_ident_resumes {α : Type} {k : Look} (hk : k ≠ .latches) (f : Identity → α) :
    (ask fun s => f s.ident).Resumes k := .ask fun _ _ h => by rw [h.ident hk]

theorem inCell_resumes {k : Look} : inCell.Resumes k :=
  (emitAll_resumes rfl).bind fun _ => sample_resumes.bind fun b => (emitAll_resumes rfl).bind fun _ => .pure b

theorem inBits_resumes {k : Look} (n : Nat) : (inBits n).Resumes k := by
  induction n with
  | zero => exact .pure []
  | succ n ih => exact inCell_resumes.bind fun b => ih.bind fun bs => .pure (b :: bs)

theorem sendCmd_resumes {k : Look} (c : Nibble) : (sendCmd c).Resumes k := emitAll_resumes (samplesOf_sendCmd c)

theorem sendWord_resumes {k : Look} (w : Word) : (sendWord w).Resumes k := emitAll_resumes (samplesOf_sendWord w)

theorem sendInsn_resumes {k : Look} (c : Nibble) (w : Word) : (sendInsn c w).Resumes k :=
  emitAll_resumes (samplesOf_sendInsn c w)

theorem samplesOf_readLead : samplesOf readLeadEvents = [] := by
  rw [readLeadEvents, samplesOf_append, samplesOf_outBits]
  rfl

theorem readWord_resumes {k : Look} : readWord.Resumes k :=
  (emitAll_resumes samplesOf_readLead).bind fun _ => (inBits_resumes 8).bind fun _ =>
    (emitAll_resumes rfl).bind fun _ => (keepRx_resumes _).bind fun _ => .pure _

theorem readTxn_resumes {k : Look} (c : Nibble) : (readTxn c).Resumes k :=
  (sendCmd_resumes c).bind fun _ => readWord_resumes.bind fun _ => .pure _

theorem readIcsp_resumes {k : Look} (f : IcspCodes → Nibble) : (readIcsp f).Resumes k :=
  (ask_cfg_resumes fun cfg => cfg.codes.icsp).bind fun c => readTxn_resumes (f c)

theorem sendCore_resumes {k : Look} (f : CoreWords → Word) : (sendCore f).Resumes k :=
  (ask_cfg_resumes Config.codes).bind fun c => sendInsn_resumes c.icsp.core (f c.core)

theorem sendIcsp_resumes {k : Look} (f : IcspCodes → Nibble) (p : Word) : (sendIcsp f p).Resumes k :=
  (ask_cfg_resumes fun cfg => cfg.codes.icsp).bind fun c => sendInsn_resumes (f c) p

theorem sendStartp_resumes {k : Look} (f : IcspCodes → Nibble) (p : Word) : (sendStartp f p).Resumes k :=
  (sendIcsp_resumes f p).bind fun _ => (ask_cfg_resumes id).bind fun _ => emitAll_resumes (samplesOf_progPulse _)

theorem gotoAddress_resumes {k : Look} (a : Addr) : (gotoAddress a).Resumes k :=
  (ask_cfg_resumes Config.codes).bind fun _ => emitAll_resumes (samplesOf_gotoAddress _ a)

theorem gotoShort_resumes {k : Look} (o : Byte) : (gotoShort o).Resumes k :=
  (ask_cfg_resumes Config.codes).bind fun _ => emitAll_resumes (samplesOf_gotoShort _ o)

/-- An assignment to the registers, the session or the like changes nothing an operation looks at. -/
theorem regs_assigns {k : Look} (f : State → HostRegs → HostRegs) (h : ∀ s n, f (s.cutAt n) = f s) :
    State.Assigns k fun s => { s with regs := f s s.regs } :=
  ⟨fun _ => rfl, fun _ => rfl, fun _ => rfl,
    fun _ => ⟨rfl, rfl, rfl, rfl, rfl, rfl, fun _ => rfl, fun _ _ _ => rfl⟩, fun s n => by
      show State.mk .. = _
      rw [h]
      rfl⟩

theorem ident_assigns (f : Identity → Identity) : State.Assigns .latches fun s => { s with ident := f s.ident } :=
  ⟨fun _ => rfl, fun _ => rfl, fun _ => rfl,
    fun _ => ⟨rfl, rfl, rfl, rfl, rfl, rfl, fun h => absurd rfl h, fun h => by cases h⟩, fun _ _ => rfl⟩

theorem mem_assigns {k : Look} (f : Memory → Memory)
    (h : k = .buffers → ∀ m a, (a < 0x120 ∨ 0x140 ≤ a) → (f m).byte a = m.byte a) :
    State.Assigns k fun s => { s with mem := f s.mem } :=
  ⟨fun _ => rfl, fun _ => rfl, fun _ => rfl,
    fun s => ⟨rfl, rfl, rfl, rfl, rfl, rfl, fun _ => rfl, fun hk => h hk s.mem⟩, fun _ _ => rfl⟩

theorem emitProgress_resumes {k : Look} (ph : Phase) (p : BitVec 7) : (emitProgress ph p).Resumes k := by
  refine assign_resumes ⟨fun s => ?_, fun s => ?_, fun s => ?_, fun s => ?_, fun s n => ?_⟩
  · unfold State.reportProgress; split <;> rfl
  · rw [State.reportProgress_seq]
  · rw [State.reportProgress_seq]
  · unfold State.reportProgress
    split <;> exact ⟨rfl, rfl, rfl, rfl, rfl, rfl, fun _ => rfl, fun _ _ _ => rfl⟩
  · unfold State.reportProgress
    rw [State.cutAt_seq]
    split <;> rfl

theorem memWrite8_resumes {k : Look} (hk : k ≠ .buffers) (w : Window) (i : Nat) (v : Byte) :
    (memWrite8 w i v).Resumes k := assign_resumes (mem_assigns (fun m => m.setEntry8 w i v) fun h => absurd h hk)

theorem memWriteImg_resumes {k : Look} (hk : k ≠ .buffers) (w : Window) (i : Nat) (e : ImgEntry) :
    (memWriteImg w i e).Resumes k := assign_resumes (mem_assigns (fun m => m.setImg w i e) fun h => absurd h hk)

/-- A write of CFG_RB is nothing an operation looks at. -/
theorem memWriteRb_resumes {k : Look} {i : Nat} (hi : i < 8) (v : Word) : (memWrite16 .cfgRb i v).Resumes k := by
  refine assign_resumes (mem_assigns (fun m => m.setEntry16 .cfgRb i v) fun _ m a ha => ?_)
  rw [Memory.byte_setEntry16, if_neg, if_neg] <;> simp only [Window.addr, Window.base] <;> omega

theorem cfgReadSlot_resumes {k : Look} (i : Nat) : (cfgReadSlot i).Resumes k :=
  (gotoAddress_resumes _).bind fun _ => (readIcsp_resumes _).bind fun _ => (readIcsp_resumes _).bind fun _ => .pure _

theorem readCodeWord_resumes {k : Look} : readCodeWord.Resumes k :=
  (readIcsp_resumes _).bind fun _ => (readIcsp_resumes _).bind fun _ => .pure _

theorem walkProgress_resumes {k : Look} (hk : k ≠ .latches) (ph : Phase) (n : Nat) : (walkProgress ph n).Resumes k :=
  (ask_ident_resumes hk Identity.codeSize).bind fun _ => emitProgress_resumes ph _

theorem samplesOf_eraseBlock (cfg : Config) (r : Nat) : samplesOf (eraseBlockEvents cfg r) = [] := by
  have hh : samplesOf (eraseHoldEvents cfg) = [] := by
    unfold eraseHoldEvents
    split <;> simp [samplesOf_append, samplesOf_sendInsn, samplesOf_sendCmd, samplesOf_sendWord, samplesOf]
  simp [eraseBlockEvents, samplesOf_append, samplesOf_sendInsn, samplesOf_gotoAddress, samplesOf_gotoShort, hh]

theorem eraseRegion_resumes {k : Look} (r : Nat) : (eraseRegion r).Resumes k :=
  (ask_cfg_resumes id).bind fun cfg => emitAll_resumes (samplesOf_eraseBlock cfg r)

theorem eraseRegions_resumes {k : Look} (total : Nat) (rs : List Nat) (finished : Nat) :
    (eraseRegions total finished rs).Resumes k := by
  induction rs generalizing finished with
  | nil => exact .pure ()
  | cons r rs ih => exact (eraseRegion_resumes r).bind fun _ => (emitProgress_resumes _ _).bind fun _ => ih (finished + 1)

/-! ## The pseudocode of each operation -/

theorem setIdentStatus_resumes (x : IdentStatus) : (assign fun s => s.setIdentStatus x).Resumes .latches :=
  assign_resumes (ident_assigns fun i => { i with status := x })

theorem setDevId_resumes (d : Word) : (assign fun s => s.setDevId d).Resumes .latches :=
  assign_resumes (ident_assigns fun i => { i with devid := d })

theorem setRev_resumes (r : BitVec 5) : (assign fun s => s.setRev r).Resumes .latches :=
  assign_resumes (ident_assigns fun i => { i with rev := r })

theorem setIndex_resumes (k : Byte) : (assign fun s => s.setIndex k).Resumes .latches :=
  assign_resumes (ident_assigns fun i => { i with index := k })

theorem setCodeSize_resumes (n : Addr) : (assign fun s => s.setCodeSize n).Resumes .latches :=
  assign_resumes (ident_assigns fun i => { i with codeSize := n })

theorem setEraseBlocks_resumes (n : BitVec 4) : (assign fun s => s.setEraseBlocks n).Resumes .latches :=
  assign_resumes (ident_assigns fun i => { i with eraseBlocks := n })

theorem setWbufWords_resumes (n : BitVec 7) : (assign fun s => s.setWbufWords n).Resumes .latches :=
  assign_resumes (ident_assigns fun i => { i with wbufWords := n })

theorem clearGeometry_resumes : clearGeometry.Resumes .latches :=
  (setCodeSize_resumes 0).bind fun _ => (setEraseBlocks_resumes 0).bind fun _ => setWbufWords_resumes 0

theorem samplesOf_enter (cfg : Config) : samplesOf (enterEvents cfg) = [] := by
  rw [enterEvents, samplesOf_append, samplesOf_append, samplesOf_outBits]
  rfl

theorem session_assigns {k : Look} (x : Session) : State.Assigns k fun s => s.setSession x :=
  ⟨fun _ => rfl, fun _ => rfl, fun _ => rfl,
    fun _ => ⟨rfl, rfl, rfl, rfl, rfl, rfl, fun _ => rfl, fun _ _ _ => rfl⟩, fun _ _ => rfl⟩

theorem enterBody_resumes : enterBody.Resumes .latches :=
  (ask_cfg_resumes id).bind fun cfg => (emitAll_resumes (samplesOf_enter cfg)).bind fun _ =>
    (setIdentStatus_resumes .unresolved).bind fun _ => (setDevId_resumes 0).bind fun _ => (setRev_resumes 0).bind fun _ =>
    clearGeometry_resumes.bind fun _ => (setIndex_resumes 0xFF).bind fun _ =>
    assign_resumes (session_assigns .programming)

theorem exitBody_resumes : exitBody.Resumes .latches :=
  (emitAll_resumes rfl).bind fun _ => assign_resumes (session_assigns _)

theorem setCfgMm_assigns {k : Look} (v : Byte) : State.Assigns k fun s => s.setCfgMm v :=
  regs_assigns (fun _ r => { r with cfgMm := v }) fun _ _ => rfl

theorem identNotFound_resumes (d : Word) : (identNotFound d).Resumes .latches :=
  (setIndex_resumes 0xFF).bind fun _ => clearGeometry_resumes.bind fun _ =>
    (setIdentStatus_resumes .notFound).bind fun _ => raise_resumes _ _ _ _

theorem identResolved_resumes (k : Nat) (e : CatalogEntry) : (identResolved k e).Resumes .latches :=
  (setIndex_resumes _).bind fun _ => (setCodeSize_resumes _).bind fun _ => (setEraseBlocks_resumes _).bind fun _ =>
    (setWbufWords_resumes _).bind fun _ => setIdentStatus_resumes .resolved

theorem allocate_resumes (words : Nat) : (allocate words).Resumes .latches :=
  (Op.Resumes.forUp words 0 fun _ _ _ => memWriteImg_resumes (by decide) _ _ _).bind fun _ =>
    Op.Resumes.forUp 8 0 fun _ _ _ => memWriteImg_resumes (by decide) _ _ _

theorem identifyBody_resumes : identifyBody.Resumes .latches := by
  refine Op.Resumes.bind ?_ fun d => ?_
  · exact (gotoAddress_resumes _).bind fun _ => (readIcsp_resumes _).bind fun _ => (readIcsp_resumes _).bind fun _ =>
      .pure _
  · refine (setDevId_resumes d).bind fun _ => (setRev_resumes (revision d)).bind fun _ =>
      (ask_cfg_resumes fun c => lookup (maskedId d) c.dev.catalog).bind fun found => ?_
    rcases found with _ | ⟨i, e⟩
    · exact identNotFound_resumes d
    · exact (identResolved_resumes i e).bind fun _ => (allocate_resumes _).bind fun _ =>
        assign_resumes (setCfgMm_assigns 0)

theorem sendCmdBody_resumes : sendCmdBody.Resumes .latches :=
  (Op.Resumes.ask fun _ _ h => by rw [Sequencer.nibble, h.arg0, ← Sequencer.nibble]).bind fun _ => sendCmd_resumes _

theorem sendWordBody_resumes : sendWordBody.Resumes .latches :=
  (Op.Resumes.ask fun _ _ h => h.arg1).bind fun _ => sendWord_resumes _

theorem readWordBody_resumes : readWordBody.Resumes .latches :=
  readWord_resumes.bind fun w => assign_resumes (regs_assigns (fun _ r => { r with result := w }) fun _ _ => rfl)

theorem sendInsnBody_resumes : sendInsnBody.Resumes .latches :=
  (Op.Resumes.ask fun _ _ h => by rw [Sequencer.nibble, h.arg0, ← Sequencer.nibble]).bind fun _ =>
    (Op.Resumes.ask fun _ _ h => h.arg1).bind fun _ => sendInsn_resumes _ _

theorem gotoAddrBody_resumes : gotoAddrBody.Resumes .latches :=
  (Op.Resumes.ask fun _ _ h => h.arg0).bind fun _ => gotoAddress_resumes _

theorem gotoShortBody_resumes : gotoShortBody.Resumes .latches :=
  (Op.Resumes.ask fun _ _ h => by rw [Sequencer.offset, h.arg0, ← Sequencer.offset]).bind fun _ => gotoShort_resumes _

theorem blankCheckBody_resumes : blankCheckBody.Resumes .identity := by
  refine (gotoAddress_resumes _).bind fun _ => (ask_ident_resumes (by decide) Identity.nWords).bind fun n =>
    .forUp n 0 fun a _ _ => readCodeWord_resumes.bind fun d => ?_
  split
  · exact raise_resumes _ _ _ _
  · exact walkProgress_resumes (by decide) _ _

theorem bulkEraseBody_resumes : bulkEraseBody.Resumes .identity :=
  (Op.Resumes.ask fun _ _ h => by rw [h.ident (by decide), Sequencer.scope, h.arg0, ← Sequencer.scope]).bind fun rs =>
    eraseRegions_resumes _ rs 0

theorem eraseBlockBody_resumes : eraseBlockBody.Resumes .latches :=
  (Op.Resumes.ask fun _ _ h => by rw [Sequencer.region, h.arg0, ← Sequencer.region]).bind fun r =>
    (eraseRegion_resumes r).bind fun _ => emitProgress_resumes _ _

theorem readBody_resumes : readBody.Resumes .identity :=
  (gotoAddress_resumes _).bind fun _ => (ask_ident_resumes (by decide) Identity.nWords).bind fun n =>
    .forUp n 0 fun _ _ _ => readCodeWord_resumes.bind fun _ => (memWriteImg_resumes (by decide) _ _ _).bind fun _ =>
      walkProgress_resumes (by decide) _ _

theorem codeImg_read_resumes (a : Nat) : (memReadImg .codeImg a).Resumes .buffers :=
  memReadImg_resumes (.inr (by simp only [Window.addr, Window.base]; omega))

theorem cfgImg_read_resumes {i : Nat} (hi : i < 8) : (memReadImg .cfgImg i).Resumes .buffers :=
  memReadImg_resumes (.inl (by simp only [Window.addr, Window.base]; omega))

theorem programWord_resumes (width base i : Nat) : (programWord width base i).Resumes .buffers := by
  refine (codeImg_read_resumes _).bind fun e => ?_
  split
  · exact sendIcsp_resumes _ _
  · exact sendStartp_resumes _ _

theorem programCode_resumes : programCode.Resumes .buffers :=
  (sendCore_resumes _).bind fun _ => (sendCore_resumes _).bind fun _ => (sendCore_resumes _).bind fun _ =>
    (gotoAddress_resumes _).bind fun _ => (ask_ident_resumes (by decide) id).bind fun geom =>
    .forUp geom.nChunks 0 fun _ _ _ => (Op.Resumes.forUp _ 0 fun i _ _ => programWord_resumes _ _ i).bind fun _ =>
      walkProgress_resumes (by decide) _ _

theorem verifyWord_resumes (a : Nat) : (verifyWord a).Resumes .buffers := by
  refine readCodeWord_resumes.bind fun d => (codeImg_read_resumes a).bind fun e => (ask_cfg_resumes id).bind fun cfg => ?_
  split
  · split
    · exact raise_resumes _ _ _ _
    · exact walkProgress_resumes (by decide) _ _
  · exact walkProgress_resumes (by decide) _ _

theorem verifyCode_resumes : verifyCode.Resumes .buffers :=
  (gotoAddress_resumes _).bind fun _ => (ask_ident_resumes (by decide) Identity.nWords).bind fun n =>
    .forUp n 0 fun a _ _ => verifyWord_resumes a

theorem cfgWriteSlot_resumes {k : Look} (i : Nat) (v : Word) : (cfgWriteSlot i v).Resumes k :=
  (ask_cfg_resumes id).bind fun _ => (gotoAddress_resumes _).bind fun _ => (sendStartp_resumes _ _).bind fun _ =>
    (gotoShort_resumes _).bind fun _ => sendStartp_resumes _ _

theorem State.Alike.anySlotPresent {s u : State} (h : s.Alike .buffers u) :
    anySlotPresent u.mem = anySlotPresent s.mem := by
  have hp : ∀ i, i < 8 → u.mem.present .cfgImg i = s.mem.present .cfgImg i := fun i hi => by
    unfold Memory.present
    rw [h.mem rfl _ (by simp only [Window.addr, Window.base]; omega)]
  unfold Machine.anySlotPresent
  rw [Bool.eq_iff_iff, List.any_eq_true, List.any_eq_true]
  exact exists_congr fun i => and_congr_right fun hi => by rw [hp i (List.mem_range.1 hi)]

theorem cfgWritePass_resumes : cfgWritePass.Resumes .buffers := by
  refine (Op.Resumes.ask fun _ _ h => h.anySlotPresent).bind fun any => ?_
  split
  · refine (sendCore_resumes _).bind fun _ => (sendCore_resumes _).bind fun _ => .forUp 8 0 fun i _ hi =>
      (cfgImg_read_resumes (by omega)).bind fun c => ?_
    split
    · exact cfgWriteSlot_resumes _ _
    · exact .pure ()
  · exact .pure ()

theorem cfgVerifySlots_resumes (n i : Nat) (h : i + n ≤ 8) (mm : Byte) : (cfgVerifySlots n i mm).Resumes .buffers := by
  induction n generalizing i mm with
  | zero => exact .pure mm
  | succ n ih =>
    refine (cfgImg_read_resumes (by omega)).bind fun c => ?_
    split
    · exact (cfgReadSlot_resumes i).bind fun d => (memWriteRb_resumes (by omega) d).bind fun _ => ih (i + 1) (by omega) _
    · exact ih (i + 1) (by omega) mm

theorem cfgVerifyPass_resumes : cfgVerifyPass.Resumes .buffers :=
  (cfgVerifySlots_resumes 8 0 (by omega) 0).bind fun mm => assign_resumes (setCfgMm_assigns mm)

theorem writeBody_resumes : writeBody.Resumes .buffers := by
  refine programCode_resumes.bind fun _ =>
    (Op.Resumes.ask fun _ _ h => by rw [verifyEn, h.ctrl, ← verifyEn]).bind fun v => ?_
  cases v with
  | true => exact verifyCode_resumes.bind fun _ => cfgWritePass_resumes.bind fun _ => cfgVerifyPass_resumes
  | false => exact cfgWritePass_resumes.bind fun _ => .pure ()

theorem eeAddress_resumes {k : Look} (e : Nat) : (eeAddress e).Resumes k :=
  (sendCore_resumes _).bind fun _ => (sendCore_resumes _).bind fun _ => (sendCore_resumes _).bind fun _ =>
    (sendCore_resumes _).bind fun _ => (sendCore_resumes _).bind fun _ => sendCore_resumes _

theorem eepromReadBody_resumes : eepromReadBody.Resumes .latches := by
  refine (ask_cfg_resumes Config.eeSize).bind fun n => .forUp n 0 fun e _ _ => Op.Resumes.bind ?_ fun d =>
    memWrite8_resumes (by decide) _ _ _
  exact (eeAddress_resumes e).bind fun _ => (sendCore_resumes _).bind fun _ => (sendCore_resumes _).bind fun _ =>
    (sendCore_resumes _).bind fun _ => (sendCore_resumes _).bind fun _ => readIcsp_resumes _

theorem polls_assigns {k : Look} (f : Word → Word) : State.Assigns k fun s => s.setPolls (f s.seq.polls) :=
  ⟨fun _ => rfl, fun _ => rfl, fun _ => rfl,
    fun _ => ⟨rfl, rfl, rfl, rfl, rfl, rfl, fun _ => rfl, fun _ _ _ => rfl⟩, fun _ _ => rfl⟩

theorem eePoll_resumes {k : Look} : eePoll.Resumes k :=
  (sendCore_resumes _).bind fun _ => (sendCore_resumes _).bind fun _ => (sendCore_resumes _).bind fun _ =>
    (readIcsp_resumes _).bind fun st => (assign_resumes (polls_assigns (· + 1))).bind fun _ => .pure st

theorem eePollLoop_resumes {k : Look} (e : Nat) (d : Byte) (more : Nat) : (eePollLoop e d more).Resumes k := by
  induction more with
  | zero =>
    refine eePoll_resumes.bind fun st => (ask_cfg_resumes id).bind fun cfg => ?_
    split
    · exact .pure ()
    · exact raise_resumes _ _ _ _
  | succ more ih =>
    refine eePoll_resumes.bind fun st => (ask_cfg_resumes id).bind fun cfg => ?_
    split
    · exact .pure ()
    · exact ih

theorem eeWriteCell_resumes {k : Look} (e : Nat) (d : Byte) : (eeWriteCell e d).Resumes k :=
  (eeAddress_resumes e).bind fun _ => (sendCore_resumes _).bind fun _ => (sendCore_resumes _).bind fun _ =>
    (sendCore_resumes _).bind fun _ => (sendCore_resumes _).bind fun _ =>
    (assign_resumes (polls_assigns fun _ => 0)).bind fun _ =>
    (Op.Resumes.ask fun _ _ h => by rw [Sequencer.pollCap, h.pollMax, ← Sequencer.pollCap]).bind fun _ =>
    (eePollLoop_resumes e d _).bind fun _ => sendCore_resumes _

theorem eepromWriteBody_resumes : eepromWriteBody.Resumes .buffers := by
  refine (ask_cfg_resumes Config.eeSize).bind fun n => .forUp n 0 fun e _ _ => Op.Resumes.bind ?_ fun d =>
    eeWriteCell_resumes e d
  refine (ask_cfg_resumes Config.eeZeroBug).bind fun zero => ?_
  split
  · exact .pure _
  · exact memRead8_resumes (.inr (by simp only [Window.addr, Window.base]; omega))

theorem dumpUserIdBody_resumes : dumpUserIdBody.Resumes .latches :=
  (gotoAddress_resumes _).bind fun _ => .forUp 8 0 fun _ _ _ => (readIcsp_resumes _).bind fun _ =>
    memWrite8_resumes (by decide) _ _ _

theorem dumpConfigBody_resumes : dumpConfigBody.Resumes .latches :=
  .forUp 8 0 fun i _ hi => (cfgReadSlot_resumes i).bind fun d => memWriteRb_resumes (by omega) d

/-- The pseudocode of every instruction can be resumed. -/
theorem pseudocode_resumes (i : Instr) : ∃ k, (pseudocode i).Resumes k := by
  cases i with
  | enter => exact ⟨_, enterBody_resumes⟩
  | exit => exact ⟨_, exitBody_resumes⟩
  | identify => exact ⟨_, identifyBody_resumes⟩
  | sendCmd => exact ⟨_, sendCmdBody_resumes⟩
  | sendWord => exact ⟨_, sendWordBody_resumes⟩
  | readWord => exact ⟨_, readWordBody_resumes⟩
  | sendInsn => exact ⟨_, sendInsnBody_resumes⟩
  | gotoAddr => exact ⟨_, gotoAddrBody_resumes⟩
  | gotoShort => exact ⟨_, gotoShortBody_resumes⟩
  | blankCheck => exact ⟨_, blankCheckBody_resumes⟩
  | bulkErase => exact ⟨_, bulkEraseBody_resumes⟩
  | eraseBlock => exact ⟨_, eraseBlockBody_resumes⟩
  | read => exact ⟨_, readBody_resumes⟩
  | write => exact ⟨_, writeBody_resumes⟩
  | eepromRead => exact ⟨_, eepromReadBody_resumes⟩
  | eepromWrite => exact ⟨_, eepromWriteBody_resumes⟩
  | dumpUserId => exact ⟨_, dumpUserIdBody_resumes⟩
  | dumpConfig => exact ⟨_, dumpConfigBody_resumes⟩
  | _ => exact ⟨.latches, .pure ()⟩

/-- A sequence of events, none a sample, that is cut after `n + 1` of them has emitted just those. -/
theorem emitAll_cut {s : State} {m : Nat} (hs : s.Stands m []) {es : List LinkEvent} (he : samplesOf es = []) {n : Nat}
    (hn : n < es.length) :
    emitAll es (s.cutAt (n + 1)) = .error (.refused (.undefinedAccess 0x000 1)) (s.recordAll (es.take (n + 1))) := by
  induction es generalizing s m n with
  | nil => exact absurd hn (Nat.not_lt_zero n)
  | cons e es ih =>
    have h : emit e (s.cutAt (n + 1)) = hostWindow ((s.record e).cutAt n) := by
      rw [emit, act_performed (by simpa using hs.calm.2)]
      rfl
    have ht : (s.record e).Stands (m + 1) [] := by
      refine ⟨hs.quiet, hs.busy, ?_⟩
      show s.seq.position.map _ = _
      rw [(samplesOf_cons he).1, hs.position]
      rfl
    cases n with
    | zero =>
      rw [emitAll, Op.bind_error (h.trans (hostWindow_cut_due ht.busy))]
      rfl
    | succ n =>
      rw [emitAll, Op.bind_ok (h.trans (hostWindow_cut _ n)), ih ht (samplesOf_cons he).2 (Nat.lt_of_succ_lt_succ hn)]
      rfl

/-- Events that are no samples move the position by their number. -/
theorem Sequencer.after_unsampled {q : Sequencer} {m : Nat} (hq : q.position = some { taken := m })
    {es : List LinkEvent} (h : samplesOf es = []) : q.after es = { q with position := some { taken := m + es.length } } := by
  induction es generalizing q m with
  | nil =>
    cases q
    simp_all
  | cons e es ih =>
    have hp : (q.forth (samplesOf [e])).position = some { taken := m + 1 } := by
      rw [(samplesOf_cons h).1]
      simp [Sequencer.forth, Position.forth, hq]
    rw [show q.after (e :: es) = (q.forth (samplesOf [e])).after es from rfl, ih hp (samplesOf_cons h).2]
    simp [Sequencer.forth]
    omega

/-- A state that has just accepted an operation, undisturbed, stands at its start. -/
theorem State.begun_stands {s : State} (h : s.quiet) (i : Instr) (op : Byte) : (s.begun i op).Stands 0 [] := by
  unfold State.begun
  split
  · exact ⟨h, rfl, rfl⟩
  · split <;> exact ⟨h, rfl, rfl⟩

/-- A procedure that a cut has stopped ends, run again over its actions, as it does undisturbed. -/
theorem Op.Resumes.afterCut {k : Look} {m : Op Unit} (hm : m.Resumes k) {s t : State} (hs : s.Stands 0 []) {n : Nat}
    {r : Refusal} (h : (do hostWindow; m : Op Unit) (s.cutAt n) = .error (.refused r) t) :
    t.seq.busy = true ∧ t.seq.position.map Position.taken = some n ∧ t.seq.op = s.seq.op ∧
      (do hostWindow; m : Op Unit) t.rewound = m s := by
  cases n with
  | zero =>
    rw [Op.bind_error (hostWindow_cut_due hs.busy)] at h
    cases h
    have hr : s.rewound = s := by
      refine Eq.trans ?_ hs.repeating_zero
      rw [State.rewound, State.repeating, hs.position]
      rfl
    exact ⟨hs.busy, by rw [hs.position]; rfl, rfl, by rw [hr, Op.bind_ok (hostWindow_quiet hs.quiet)]⟩
  | succ n =>
    rw [Op.bind_ok (hostWindow_cut s n)] at h
    obtain ⟨cs, ht, ha, he⟩ := (hm s 0 [] hs).cut n r t h
    have hr : t.rewound = t.repeating (n + 1) cs.reverse := by
      rw [State.rewound, State.repeating, ht.position]
      simp [Position.rewound]
    have hq : (t.repeating (n + 1) cs.reverse).quiet := ht.quiet
    exact ⟨ht.busy, by rw [ht.position]; simp, ha.op, by rw [hr]; exact (Op.bind_ok (hostWindow_quiet hq)).trans he⟩

end Sys2Proof.Machine
end

