-- ==== Sys2Proof/Tests/Slice0.lean ====
section
/-! SUPPORT. The model's own tests: well-formedness refuses what it must, words written out from the encoding tables
decode, single steps give what the specification's examples say, and every statement's hypotheses can be met. -/

namespace Sys2Proof.Tests

set_option Elab.async false

open Sys2Proof.Machine

/-! ## Well-formedness -/

theorem test_wf_refuses_named_opcode : Instr.wf {} (.reservedHostOpcode 0x01) = false := by decide

theorem test_wf_refuses_named_command : Instr.wf {} (.reservedIcspCommand 0x9 0) = false := by decide

theorem test_wf_accepts_reserved :
    Instr.wf {} (.reservedHostOpcode 0x52) = true ∧ Instr.wf {} (.reservedIcspCommand 0x7 0xFFFF) = true := by decide

theorem test_default_codes_distinct : Codes.distinct {} = true := by decide

theorem test_wf_refuses_shared_command_code : Codes.distinct { icsp := { tblrd := 0x9 } } = false := by decide

/-- 30_encoding R105: a code that equals a read command's is of shape R, whatever else it equals. -/
theorem test_shared_code_is_shape_r : decodeIcsp { core := 0x8 } 0x8 0x1234 = .tblrd := by decide

theorem test_wf_refuses_shared_core_word : Codes.distinct { core := { bsfRd := 0x827F } } = false := by decide

theorem test_wf_refuses_movlw_with_literal : Codes.distinct { core := { movlw := 0x0E01 } } = false := by decide

theorem test_wf_refuses_word_in_movlw_range : Codes.distinct { core := { nop := 0x0E77 } } = false := by decide

/-- A small device beside the source's: 64 words in two write buffers of 32. -/
def tiny : CatalogEntry := { maskedId := 0x0020, name := "TINY", codeSize := 128, eraseBlocks := 4, wbufWords := 32 }

/-- Device parameters around one more catalog entry. -/
def devWith (e : CatalogEntry) : DeviceParams :=
  { catalog := [e, CatalogEntry.source]
    maxCodeWords := 0x4000
    regionCode := Vector.ofFn fun i => 0x0F0F80 + BitVec.ofNat 24 i.val
    eePollMaxReset := 16 }

theorem test_wf_accepts_tiny : (devWith tiny).wf = true := by decide

theorem test_wf_refuses_low_id_bits : (devWith { tiny with maskedId := 0x0021 }).wf = false := by decide

theorem test_wf_refuses_shared_id : (devWith { tiny with maskedId := 0x6180 }).wf = false := by decide

theorem test_wf_refuses_odd_size : (devWith { tiny with codeSize := 129 }).wf = false := by decide

theorem test_wf_refuses_zero_size : (devWith { tiny with codeSize := 0 }).wf = false := by decide

theorem test_wf_refuses_oversize : (devWith { tiny with codeSize := 0x8040 }).wf = false := by decide

theorem test_wf_refuses_user_id_overlap :
    ({ devWith { tiny with codeSize := 0x200080 } with maxCodeWords := 0x200000 } : DeviceParams).wf = false := by decide

theorem test_wf_refuses_split_buffer : (devWith { tiny with codeSize := 126 }).wf = false := by decide

theorem test_wf_refuses_block_count : (devWith { tiny with eraseBlocks := 5 }).wf = false := by decide

theorem test_wf_refuses_buffer_width : (devWith { tiny with wbufWords := 16 }).wf = false := by decide

theorem test_wf_refuses_missing_source : ({ devWith tiny with catalog := [tiny] } : DeviceParams).wf = false := by decide

theorem test_wf_refuses_large_buffer : ({ devWith tiny with maxCodeWords := 0x40001 } : DeviceParams).wf = false := by
  decide

theorem test_wf_refuses_zero_poll_reset : ({ devWith tiny with eePollMaxReset := 0 } : DeviceParams).wf = false := by
  decide

/-! ## Decoding: words written out from 30_encoding R101, R104 and R108 -/

theorem test_decode_host_opcodes :
    [0x01, 0x02, 0x03, 0x10, 0x11, 0x12, 0x13, 0x14, 0x15, 0x20, 0x21, 0x22, 0x30, 0x31, 0x40, 0x41, 0x50, 0x51].map
        decodeHost =
      [.enter, .exit, .identify, .sendCmd, .sendWord, .readWord, .sendInsn, .gotoAddr, .gotoShort, .blankCheck,
        .bulkErase, .eraseBlock, .read, .write, .eepromRead, .eepromWrite, .dumpUserId, .dumpConfig] := by decide

theorem test_decode_reserved_opcodes :
    [0x00, 0x04, 0x0F, 0x16, 0x1F, 0x23, 0x2F, 0x32, 0x3F, 0x42, 0x4F, 0x52, 0xFF].map decodeHost =
      [0x00, 0x04, 0x0F, 0x16, 0x1F, 0x23, 0x2F, 0x32, 0x3F, 0x42, 0x4F, 0x52, 0xFF].map Instr.reservedHostOpcode := by
  decide

theorem test_decode_icsp_commands :
    [0b0000, 0b0010, 0b1000, 0b1001, 0b1010, 0b1011, 0b1100, 0b1101, 0b1110, 0b1111, 0b0001, 0b0111].map
        (fun code => decodeIcsp {} code 0xA5C3) =
      [.core 0xA5C3, .shiftOutTablat, .tblrd, .tblrdPostinc, .tblrdPostdec, .tblrdPreinc, .tblwt 0xA5C3,
        .tblwtPostinc2 0xA5C3, .tblwtPostinc2Startp 0xA5C3, .tblwtStartp 0xA5C3, .reservedIcspCommand 0x1 0xA5C3,
        .reservedIcspCommand 0x7 0xA5C3] := by decide

theorem test_decode_core_words :
    [0x0000, 0x0E3F, 0x6EF8, 0x6EF7, 0x6EF6, 0x6EF5, 0x6E74, 0x6E75, 0x6E73, 0x5073, 0x507F, 0x8E7F, 0x9E7F, 0x8C7F,
        0x9C7F, 0x847F, 0x947F, 0x807F, 0x827F].map (fun w => (decodeCore {} w).toOption) =
      [.nop, .movlw 0x3F, .movwfTblptru, .movwfTblptrh, .movwfTblptrl, .movwfTablat, .movwfEeadr, .movwfEeadrh,
        .movwfEedata, .movfEedataW, .movfEecon1W, .bsfEepgd, .bcfEepgd, .bsfCfgs, .bcfCfgs, .bsfWren, .bcfWren, .bsfRd,
        .bsfWr].map some := by decide

theorem test_decode_rejects_unknown_word : (decodeCore {} 0x1234).toOption = none := by decide

theorem test_table_words :
    decodeTableWord 8 0x22 = some .eraseBlock ∧ decodeTableWord 8 0xE = some (.tblwtPostinc2Startp 0) ∧
    decodeTableWord 8 0xFF = some (.reservedHostOpcode 0xFF) ∧ decodeTableWord 16 0x6EF8 = some .movwfTblptru := by decide

/-! ## Small states -/

/-- The default parameters around the small device, with two EEPROM cells. -/
def cfg : Config := { eeSize := 2, dev := devWith tiny, dev_wf := by decide, ee_wf := by decide }

/-- After reset. -/
def idle : State := State.resetFor cfg

/-- In a session, the target about to answer `answers`. -/
def programming (answers : List Bool) : State :=
  { idle with
    session := .programming
    link := { idle.link with
      lines := { pgc := { dir := .out }, pgd := { dir := .out }, mclr := { dir := .out, lat := true } }
      partner := .oracle answers } }

/-- The small device identified, its images allocated. -/
def identified (answers : List Bool) : State :=
  { programming answers with
    ident := {
      status := .resolved, devid := 0x0023, rev := 3, index := 0, codeSize := 128, eraseBlocks := 4, wbufWords := 32 }
    mem := Memory.clearImgs .cfgImg 8 0 (Memory.clearImgs .codeImg 64 0 []) }

/-- A session with a geometry of six words in two write buffers, so that one step is short. -/
def short (answers : List Bool) : State :=
  { programming answers with
    ident := { status := .resolved, index := 0, codeSize := 12, eraseBlocks := 1, wbufWords := 3 }
    mem := Memory.clearImgs .cfgImg 8 0 (Memory.clearImgs .codeImg 6 0 []) }

/-- A state with operand registers. -/
def withArgs (s : State) (a : Addr) (w : Word) (ctrl : BitVec 3) : State :=
  { s with regs := { s.regs with arg0 := a, arg1 := w, ctrl := ctrl } }

/-- The EEPROM image loaded with the cells' own numbers. -/
def eeLoaded (answers : List Bool) : State :=
  let s := short answers
  { s with mem := (s.mem.setEntry8 .eeImg 0 0x5A).setEntry8 .eeImg 1 0xA5 }

/-- The fault an outcome is. -/
def faultOf (o : Host.Outcome State Fault Refusal) : Option Fault :=
  match o with
  | .next _ => none
  | .fault f => some f
  | .refused _ => none

/-- Whether an outcome is a next state that meets `p`. -/
def nextHas (o : Host.Outcome State Fault Refusal) (p : State → Bool) : Bool :=
  match o with
  | .next t => p t
  | .fault _ => false
  | .refused _ => false

/-- The PGD level at each rising clock edge, oldest first: what is shifted out. -/
def bitsOut : Lines → List LinkEvent → List Bool
  | _, [] => []
  | l, e :: es => (if e = .pin .pgc true then [l.pgd.lat] else []) ++ bitsOut (l.apply e) es

/-- What a step shifted out, from lines at their reset values. -/
def shifted (t : State) : List Bool := bitsOut {} t.link.trace.reverse

/-- Sixteen-bit groups of a bit list, least significant bit first, after each four-bit command. -/
def payloads : Nat → List Bool → List Nat
  | 0, _ => []
  | n + 1, bs => ((bs.drop 4).take 16).foldr (fun b a => 2 * a + b.toNat) 0 :: payloads n (bs.drop 20)

/-! ## One step each, against the specification's examples -/

/-- 42_session R150: the 32 key bits, and PINS after ENTER. -/
theorem test_enter_key :
    nextHas (exec .enter idle) (fun t =>
      shifted t == [false, true, false, false, true, true, false, true, false, true, false, false, false, false, true, true,
        false, true, false, false, true, false, false, false, false, true, false, true, false, false, false, false] &&
      regWord t .pins == 0x35 && t.session == .programming) = true := by decide +kernel

/-- 42_session R151: PINS = 0x05 after EXIT. -/
theorem test_exit_pins :
    nextHas (exec .exit (programming [])) (fun t => regWord t .pins == 0x05 && statusWord t == 0x20) = true := by
  decide +kernel

/-- 41_signal R137: ARG0 = 9 shifts 1, 0, 0, 1. -/
theorem test_send_cmd :
    nextHas (exec .sendCmd (withArgs (programming []) 0xFFFFF9 0 0)) (fun t => shifted t == [true, false, false, true]) =
      true := by decide +kernel

/-- 41_signal R138: ARG1 = 0x1234. -/
theorem test_send_word :
    nextHas (exec .sendWord (withArgs (programming []) 0 0x1234 0)) (fun t =>
      shifted t == [false, false, true, false, true, true, false, false, false, true, false, false, true, false, false,
        false]) = true := by decide +kernel

/-- 41_signal R139: the target drives 1,1,1,1,0,0,0,0 and RESULT is 0x000F. -/
theorem test_read_word :
    nextHas (exec .readWord (programming [true, true, true, true, false, false, false, false])) (fun t =>
      t.regs.result == 0x000F && t.link.lines.pgd == { dir := .out, lat := false }) = true := by decide +kernel

/-- 30_encoding R116: SendInsn(CORE, 0x0E3F). -/
theorem test_send_insn :
    nextHas (exec .sendInsn (withArgs (programming []) 0 0x0E3F 0)) (fun t =>
      shifted t == [false, false, false, false, true, true, true, true, true, true, false, false, false, true, true, true,
        false, false, false, false]) = true := by decide +kernel

/-- 43_addressing R162: ARG0 = 0x3FFFFE. -/
theorem test_goto_addr :
    nextHas (exec .gotoAddr (withArgs (programming []) 0x3FFFFE 0 0)) (fun t =>
      payloads 6 (shifted t) == [0x0E3F, 0x6EF8, 0x0EFF, 0x6EF7, 0x0EFE, 0x6EF6]) = true := by decide +kernel

/-- 43_addressing R163: ARG0 = 5, its upper bits ignored. -/
theorem test_goto_short :
    nextHas (exec .gotoShort (withArgs (programming []) 0xABCD05 0 0)) (fun t =>
      payloads 2 (shifted t) == [0x0E05, 0x6EF6]) = true := by decide +kernel

/-- 44_identity R172, as the example with the small device's ID 0x0023: the revision takes no part in the match. -/
theorem test_identify :
    nextHas (exec .identify (programming (bitsLsbFirst 16 (0x0023 : Word)))) (fun t =>
      regWord t .devid == 0x0023 && regWord t .idinfo == 0x0003 && regWord t .codeSize == 128 &&
      regWord t .geom == 0x2004 && t.mem.img .codeImg 63 == some { value := 0xFFFF, present := false } &&
      t.mem.img .codeImg 64 == none) = true := by decide +kernel

/-- 44_identity R172: an all-ones read is matched like any other and faults; CFG_MM is cleared (10_state R40). -/
theorem test_identify_unknown :
    nextHas (exec .identify ((programming (List.replicate 16 true)).setCfgMm 0x21)) (fun t =>
      t.regs.cfgMm == 0 && t.regs.cause == .ident && regWord t .faultAddr == 0x3FFFFE && regWord t .faultAct == 0xFFFF &&
      t.ident.status == .notFound) = true := by decide +kernel

/-- 45_erase R191: with four blocks, ARG0 = 7 is BADARG and emits nothing. -/
theorem test_erase_block_badarg :
    nextHas (exec .eraseBlock (withArgs (identified []) 7 0 0)) (fun t =>
      t.regs.cause == .badarg && t.link.trace == []) = true := by decide +kernel

/-- 45_erase R190: the bytes of selector 0x0F0F82, doubled, each at its register. -/
theorem test_erase_block :
    nextHas (exec .eraseBlock (withArgs (short []) 2 0 0)) (fun t =>
      payloads 15 (shifted t) == [0x0E3C, 0x6EF8, 0x0E00, 0x6EF7, 0x0E04, 0x6EF6, 0x8282, 0x0E05, 0x6EF6, 0x0F0F, 0x0E06,
        0x6EF6, 0x0F0F, 0x0000, 0x0000] && regWord t .progress == 0x1E4) = true := by decide +kernel

/-- 45_erase R192: the regions of each scope on four blocks, and the progress FULL emits. -/
theorem test_bulk_erase_scopes :
    [0, 1, 2, 3].map (identified []).ident.scopeRegions = [[1], [3, 4, 5, 6], [2], [0, 1, 3, 4, 5, 6]] ∧
    [1, 2, 3, 4, 5, 6].map (fun d => (erasePct d 6).toNat) = [16, 33, 50, 66, 83, 100] := by decide +kernel

/-- 45_erase R192: scope BOOT is one EraseBlock of 15 transactions and emits 100. -/
theorem test_bulk_erase_boot :
    nextHas (exec .bulkErase (withArgs (short []) 0 0 0)) (fun t =>
      (shifted t).length == 300 && regWord t .progress == 0x1E4) = true := by decide +kernel

/-- 46_program_verify R216, the source's scenario: word 5 reads 0x1000, after exactly 12 read transactions. -/
theorem test_blank_check_nonblank :
    nextHas (exec .blankCheck (short (List.replicate 80 true ++ bitsLsbFirst 16 (0x1000 : Word)))) (fun t =>
      t.regs.cause == .nonblank && regWord t .faultAddr == 10 && regWord t .faultExp == 0xFFFF &&
      regWord t .faultAct == 0x1000 && (shifted t).length == 120 + 12 * 20) = true := by decide +kernel

/-- 46_program_verify R215: bytes 0x34, 0x12 give word 0x1234; the last progress is 100 of READ. -/
theorem test_read :
    nextHas (exec .read (short (bitsLsbFirst 8 (0x34 : Byte) ++ bitsLsbFirst 8 (0x12 : Byte)))) (fun t =>
      t.mem.img .codeImg 0 == some { value := 0x1234, present := true } && regWord t .progress == 0x4E4) = true := by
  decide +kernel

/-- 70_reset R336: ProgramCode is 9 W, n W and a P per chunk; 46_program_verify R217: 100 of PROGRAM. -/
theorem test_write :
    nextHas (exec .write (short [])) (fun t =>
      (shifted t).length == 9 * 20 + 6 * 20 + 2 * 20 && regWord t .progress == 0x2E4 && t.regs.cause == .none) = true := by
  decide +kernel

/-- 46_program_verify R214: a present word that reads 0xFFFF faults with its address and both values. -/
theorem test_write_verify_mismatch :
    nextHas (exec .write
      { withArgs (short (List.replicate 32 true)) 0 0 1 with
        mem := (short []).mem.setImg .codeImg 1 { value := 0x5678, present := true } }) (fun t =>
      t.regs.cause == .verify && regWord t .faultAddr == 2 && regWord t .faultExp == 0x5678 &&
      regWord t .faultAct == 0xFFFF) = true := by decide +kernel

/-- 47_eeprom R242: a cell is 10 W + 1 R, cell 1's byte in entry 1. -/
theorem test_eeprom_read :
    nextHas (exec .eepromRead (short (List.replicate 8 false ++ bitsLsbFirst 8 (0x5A : Byte)))) (fun t =>
      t.mem.entry8 .eeImg 1 == some 0x5A && (shifted t).length == 2 * 220) = true := by decide +kernel

/-- 70_reset R336: a cell with one poll is 14 W + 1 R. -/
theorem test_eeprom_write :
    nextHas (exec .eepromWrite (eeLoaded (List.replicate 16 false))) (fun t =>
      (shifted t).length == 2 * 300 && t.seq.polls == 1 && t.regs.cause == .none) = true := by decide +kernel

/-- 47_eeprom R243: EE_POLL_MAX = 1 and a first poll of 0x06. -/
theorem test_eeprom_timeout :
    nextHas (exec .eepromWrite
      (let s := eeLoaded (bitsLsbFirst 8 (0x06 : Byte))
      { s with regs := { s.regs with eePollMax := 1 } })) (fun t =>
      t.regs.cause == .eeTimeout && regWord t .faultAddr == 0 && regWord t .faultExp == 0x5A &&
      regWord t .faultAct == 0x0006 && (shifted t).length == 13 * 20 + 20) = true := by decide +kernel

/-- 48_config R260: bytes 0x5D, 0x1E at slot 1 are the value 0x1E5D. -/
theorem test_config_slot :
    (match cfgReadSlot 1 (short (bitsLsbFirst 8 (0x5D : Byte) ++ bitsLsbFirst 8 (0x1E : Byte))) with
      | .ok v t => v == 0x1E5D && payloads 6 (shifted t) == [0x0E30, 0x6EF8, 0x0E00, 0x6EF7, 0x0E02, 0x6EF6]
      | .error _ _ => false) = true := by decide +kernel

/-- 48_config R261: the user-ID bytes 1 to 8, 6 W + 8 R. -/
theorem test_dump_user_id :
    nextHas (exec .dumpUserId (short
      ([0x01, 0x02, 0x03, 0x04, 0x05, 0x06, 0x07, 0x08].flatMap fun b : Byte => bitsLsbFirst 8 b))) (fun t =>
      (List.range 8).map (fun i => t.mem.entry8 .uidBuf i) ==
        [0x01, 0x02, 0x03, 0x04, 0x05, 0x06, 0x07, 0x08].map some && (shifted t).length == 280) = true := by
  decide +kernel

/-- 30_encoding R119: TBLRD_POSTINC is the command 1001 and eight dummy zeros, then eight sampled bits. -/
theorem test_tblrd_postinc :
    nextHas (exec .tblrdPostinc (programming (bitsLsbFirst 8 (0xA7 : Byte)))) (fun t =>
      (shifted t).take 12 == [true, false, false, true] ++ List.replicate 8 false && t.link.rx == 0x00A7) = true := by
  decide +kernel

/-- 30_encoding R125, 46_program_verify R210: TBLWT_STARTP, then three pulses, the held one and sixteen zeros. -/
theorem test_tblwt_startp :
    nextHas (exec (.tblwtStartp 0x00FF) (programming [])) (fun t =>
      (shifted t).take 4 == List.replicate 4 true && (shifted t).length == 40) = true := by decide +kernel

/-- 20_memory R63: a CMD write after the third event of EXIT sets OVERRUN; EXIT completes as ever. -/
theorem test_overrun_during_exit :
    nextHas (exec .exit ((programming []).withInputs [{ gap := some 3, act := .write 0 4 0x30 }])) (fun t =>
      t.regs.overrun && t.session == .idle && t.link.trace.length == 6 && t.bus.inputs == []) = true := by decide +kernel

/-- 70_reset R322: a reset after the fourth event of EXIT. -/
theorem test_reset_during_exit :
    nextHas (exec .exit ((programming []).withInputs [{ gap := some 4, act := .reset }])) (fun t =>
      t.regs.done == false && t.session == .idle && t.link.trace.length == 4 && regWord t .pins == 0) = true := by
  decide +kernel

/-! ## Every statement's hypotheses can be met -/

theorem witness_DecodeEncodeAll :
    Codes.distinct {} = true ∧ Instr.wf {} (.movlw 0xFF) = true ∧ Instr.wf {} (.reservedIcspCommand 0x7 0xFFFF) = true := by
  decide

theorem witness_EncodeDecode : decode {} (.link (.icsp 0x8 0xFFFF)) = .ok .tblrd := rfl

theorem witness_ReservedOpcodeBadop :
    hostOpcodes.contains 0x00 = false ∧ hostOpcodes.contains 0xFF = false ∧ idle.seq.busy = false := by decide

theorem witness_StepRunsInstruction :
    (∃ rest, idle.seq.busy = false ∧ (idle.withInputs [issueInput 0x01]).txns = [] ∧
      (idle.withInputs [issueInput 0x01]).bus.inputs = { gap := none, act := .write 0x000 4 0x01 } :: rest) ∧
    ∃ rest, ({ idle with txns := [.coreWord 0x0E3F] } : State).txns = .coreWord 0x0E3F :: rest ∧
      decodeLink cfg.codes (.coreWord 0x0E3F) = .ok (.movlw 0x3F) := ⟨⟨[], rfl, rfl, rfl⟩, [], rfl, rfl⟩

theorem witness_StepOtherwise :
    (idle.accept 0x01).seq.busy = true ∧ idle.seq.busy = false ∧
    (({ idle with txns := [.coreWord 0x1234] } : State).txns = [.coreWord 0x1234] ∧
      decodeLink cfg.codes (.coreWord 0x1234) = .error (.unknownCoreWord 0x1234)) ∧
    ((idle.withInputs [{ act := .reset }]).bus.inputs = [{ act := .reset }] ∧ issuedOpcode .reset = none ∧
      issuedOpcode (.write 0x004 4 0) = none ∧ issuedOpcode (.read 0x000 4) = none) ∧
    idle.txns = [] ∧ idle.bus.inputs = [] := ⟨rfl, rfl, ⟨rfl, rfl⟩, ⟨rfl, rfl, rfl, rfl⟩, rfl, rfl⟩

theorem witness_RunningOperationGoesOn_standing :
    (programming [true, false]).seq.busy = false ∧ (programming [true, false]).quiet ∧
    ((programming [true, false]).standing .readWord 64).isSome ∧ (idle.standing .enter 0).isSome ∧
    ((programming []).standing .exit 7).isSome ∧ ((programming []).standing .exit 8).isNone := by decide +kernel

theorem witness_RunningOperationGoesOn :
    (idle.seq.busy = false ∧ idle.quiet ∧ idle.session = .idle ∧ 100 ≤ (enterEvents cfg).length) ∧
    ((programming []).seq.busy = false ∧ (programming []).quiet ∧ (programming []).session = .programming ∧
      0 ≤ exitEvents.length ∧ exitEvents.length = 6 ∧
      (Instr.exit, (0x02 : Byte), exitEvents) ∈ [(.exit, 0x02, exitEvents), (.sendWord, 0x11, sendWordEvents 0)]) := by
  decide +kernel

theorem witness_HostReadsRegister :
    idle.seq.busy = false ∧
    (Reg.idinfo, (0x030 : HostOffset), regWord idle .idinfo) ∈ [(.idinfo, 0x030, regWord idle .idinfo)] := by decide

theorem witness_HostWritesRegister : (programming []).seq.busy = false := rfl

theorem witness_BufferWriteStores :
    idle.seq.busy = false ∧ Window.codeImg ∈ [Window.cfgImg, .eeImg, .codeImg] ∧ 0x3FFF < Window.backed cfg .codeImg ∧
    1 < Window.backed cfg .eeImg ∧ 7 < Window.backed cfg .cfgImg ∧ Window.uidBuf ∈ [Window.cfgRb, .uidBuf] := by decide

theorem witness_BufferReadOrFault :
    (eeLoaded []).seq.busy = false ∧ 1 < Window.backed cfg .eeImg ∧ entryWord (eeLoaded []).mem .eeImg 1 = some 0xA5 ∧
    entryWord (short []).mem .eeImg 1 = none ∧ entryWord (short []).mem .cfgImg 7 = some 0xFFFF ∧
    (Window.uidBuf ∈ [Window.uidBuf, .eeImg] ∧ Window.cfgImg ∈ [Window.cfgImg, .codeImg]) := by decide +kernel

theorem witness_HostAccessWidths :
    ((1 : Nat) ≠ 4 ∨ (0x000 : HostOffset).toNat % 4 ≠ 0) ∧ ((4 : Nat) ≠ 4 ∨ (0x1FFFFF : HostOffset).toNat % 4 ≠ 0) ∧
    idle.seq.busy = false ∧ (Window.backed cfg .eeImg ≤ 2 ∧ 1023 < Window.span .eeImg) ∧
    Window.backed cfg .codeImg ≤ 0x4000 ∧ 0x3FFFF < Window.span .codeImg := by decide

theorem witness_UnmappedOffsets :
    idle.seq.busy = false ∧
    ∀ o ∈ [0x048, 0x0FC, 0x160, 0xFFC, 0x2000, 0xFFFFC], (BitVec.ofNat 21 o).toNat % 4 = 0 ∧
      ((0x048 ≤ (BitVec.ofNat 21 o).toNat ∧ (BitVec.ofNat 21 o).toNat < 0x100) ∨
        (0x160 ≤ (BitVec.ofNat 21 o).toNat ∧ (BitVec.ofNat 21 o).toNat < 0x1000) ∨
        (0x2000 ≤ (BitVec.ofNat 21 o).toNat ∧ (BitVec.ofNat 21 o).toNat < 0x100000)) := by decide

theorem witness_BusyAccess :
    0 < Window.backed cfg .cfgImg ∧ (0x1FFFFC : HostOffset).toNat % 4 = 0 ∧ (0x1FFFFC : HostOffset) ≠ 0x000 ∧
    (0x004 : HostOffset) ≠ 0x010 ∧
    ∀ o ∈ [0x048, 0x0FC, 0x160, 0xFFC, 0x2000, 0xFFFFC], (BitVec.ofNat 21 o).toNat % 4 = 0 ∧
      ((0x048 ≤ (BitVec.ofNat 21 o).toNat ∧ (BitVec.ofNat 21 o).toNat < 0x100) ∨
        (0x160 ≤ (BitVec.ofNat 21 o).toNat ∧ (BitVec.ofNat 21 o).toNat < 0x1000) ∨
        (0x2000 ≤ (BitVec.ofNat 21 o).toNat ∧ (BitVec.ofNat 21 o).toNat < 0x100000)) := by decide

theorem witness_HostAccessHarmless :
    let s := (programming []).withInputs [{ gap := some 1, act := .write 0x010 4 0x720 }, { gap := some 2, act := .read 0x100 4 }]
    (∀ x ∈ s.bus.inputs, x.act.benign = true) ∧ nextHas (exec .exit (s.withInputs [])) (fun _ => true) = true := by
  decide +kernel

theorem witness_ProgressEmission :
    let u := ((identified []).accept 0x30).forth [true, false]
    let q : Position := { taken := 1, sampled := [true, false] }
    (128 : Addr).toNat = 2 * 64 ∧ 0 < 64 ∧ u.quiet ∧ u.seq.position = some q ∧ q.again = 0 := by decide +kernel

theorem witness_BusyIssueOverrun :
    hostOp (.reservedHostOpcode 0xFF) = some (0xFF, .reserved) ∧ hostOp .write = some (0x31, .engine) ∧
    ({ idle with seq := { idle.seq with busy := true } } : State).seq.busy = true := by decide

theorem witness_RefusedIssue :
    idle.seq.busy = false ∧ hostOp (.reservedHostOpcode 0x00) = some (0x00, .reserved) ∧
    (hostOp .enter = some (0x01, .enter) ∧ (programming []).session ≠ .idle) ∧
    (hostOp .sendCmd = some (0x10, .raw) ∧ OpClass.raw ≠ .reserved ∧ Instr.sendCmd ≠ .enter ∧
      idle.session ≠ .programming) ∧
    (hostOp .identify = some (0x03, .identify) ∧ (identified []).session = .programming ∧
      (identified []).ident.status ≠ .unresolved) ∧
    (hostOp .read = some (0x30, .engine) ∧ (programming []).ident.status = .unresolved) ∧
    ({ programming [] with ident := { status := .notFound } } : State).ident.status = .notFound ∧
    (hostOp .eraseBlock = some (0x22, .eraseBlock) ∧ (identified []).ident.status = .resolved ∧
      10 < ((11 : Addr) &&& 0xF).toNat ∧ 3 ≤ ((7 : Addr) &&& 0xF).toNat ∧
      (identified []).ident.eraseBlocks.toNat ≤ ((7 : Addr) &&& 0xF).toNat - 3) := by decide +kernel

theorem witness_ResetDuringOperation :
    (∀ n ∈ [0, 175],
      let s := idle.withInputs [{ gap := some n, act := .reset }]
      s.seq.busy = false ∧ s.bus.inputs = { gap := some n, act := .reset } :: [] ∧ n ≤ (enterEvents s.cfg).length ∧
      s.session = .idle) ∧
    (let s := (programming []).withInputs [{ gap := some 6, act := .reset }]
    s.seq.busy = false ∧ 6 ≤ exitEvents.length ∧ s.session = .programming) ∧
    (let s := (withArgs (identified []) 6 0 0).withInputs [{ gap := some 20, act := .reset }]
    s.session = .programming ∧ s.ident.status = .resolved ∧ s.ident.regionLegal (s.regs.arg0 &&& 0xF).toNat = true ∧
      20 ≤ (eraseBlockEvents s.cfg (s.regs.arg0 &&& 0xF).toNat).length) ∧
    (let s := (short []).withInputs [{ gap := some 1500, act := .reset }]
    s.seq.busy = false ∧ (hostOp .read).isSome ∧ nextHas (exec .read s) (fun t => t.bus.inputs == []) = true) := by
  decide +kernel

theorem witness_SampledBits :
    (List.replicate 8 true).length = 8 ∧ 0 + 16 ≤ (List.replicate 16 true).length ∧ (15 : Nat) < 16 := by decide

/-- What the session and engine gates ask of a state. -/
theorem witness_gates :
    (idle.seq.busy = false ∧ idle.session ≠ .programming) ∧
    ((programming []).seq.busy = false ∧ (programming []).session = .programming ∧
      (programming []).ident.status = .unresolved) ∧
    ({ programming [] with ident := { status := .notFound } } : State).ident.status = .notFound := by decide +kernel

theorem witness_SendOperations : (withArgs (programming []) 0x9 0x1234 0).sessionReady := by decide +kernel

theorem witness_ReadWordResult : (programming [true]).sessionReady := by decide +kernel

theorem witness_GotoOperations : (withArgs (programming []) 0x3FFFFE 0 0).sessionReady := by decide +kernel

theorem witness_EnterResult :
    (idle.seq.busy = false ∧ idle.session = .idle ∧ idle.quiet) ∧
    ((programming []).seq.busy = false ∧ (programming []).session ≠ .idle) ∧
    ∀ n ∈ [0, 175],
      let s := idle.withInputs [{ gap := some n, act := .read 0x010 4 }]
      s.bus.inputs = { gap := some n, act := .read 0x010 4 } :: [] ∧ ([] : List Input).head?.bind Input.gap = none ∧
      n ≤ (enterEvents s.cfg).length := by decide +kernel

theorem witness_ExitResult : (identified []).sessionReady := by decide +kernel

theorem witness_CatalogLookup :
    (devWith tiny).wf = true ∧ (devWith tiny).catalog[1]? = some CatalogEntry.source ∧
    CatalogEntry.source.maskedId = 0x6180 := by decide

theorem witness_IdentifyResolves :
    let bits := bitsLsbFirst 16 (0x003F : Word)
    let s := programming (bits ++ [true])
    s.sessionReady ∧ s.ident.status = .unresolved ∧ bits.length = 16 ∧ s.link.partner = .oracle (bits ++ [true]) ∧
    s.cfg.dev.catalog[0]? = some tiny ∧ tiny.maskedId = wordFrom bits 0 &&& 0xFFE0 := by decide +kernel

theorem witness_IdentifyNotFound :
    let bits := List.replicate 16 false
    let s := programming (bits ++ [])
    s.sessionReady ∧ s.ident.status = .unresolved ∧ bits.length = 16 ∧ s.link.partner = .oracle (bits ++ []) ∧
    ∀ e ∈ s.cfg.dev.catalog, e.maskedId ≠ wordFrom bits 0 &&& 0xFFE0 := by decide +kernel

theorem witness_EraseBlockResult :
    let s := withArgs (identified []) 0xFFFFF6 0 0
    s.engineReady ∧ (s.regs.arg0 &&& 0xF).toNat = (6 : Fin 11).val ∧
    ((6 : Fin 11).val < 3 ∨ (6 : Fin 11).val - 3 < s.ident.eraseBlocks.toNat) := by decide +kernel

theorem witness_EraseBlockResult_illegal :
    ∀ a ∈ [7, 11, 15],
      let s := withArgs (identified []) (BitVec.ofNat 24 a) 0 0
      s.engineReady ∧ (10 < (s.regs.arg0 &&& 0xF).toNat ∨
        (3 ≤ (s.regs.arg0 &&& 0xF).toNat ∧ s.ident.eraseBlocks.toNat ≤ (s.regs.arg0 &&& 0xF).toNat - 3)) := by
  decide +kernel

theorem witness_BulkEraseResult :
    (∀ x ∈ [(0, [1]), (1, [3, 4, 5, 6]), (2, [2]), (3, [0, 1, 3, 4, 5, 6])],
      let s := withArgs (identified []) (BitVec.ofNat 24 x.1) 0 0
      s.engineReady ∧ 0 < s.ident.eraseBlocks.toNat ∧
      x.2 =
        (match (s.regs.arg0 &&& 3).toNat with
          | 0 => [1]
          | 1 => List.range' 3 s.ident.eraseBlocks.toNat
          | 2 => [2]
          | _ => 0 :: 1 :: List.range' 3 s.ident.eraseBlocks.toNat)) ∧
    0 < 4 ∧ 3 < 4 ∧ ([] : List Input).head?.bind Input.gap = none := by decide +kernel

/-- 45_erase R192, 10_state R22: BUSY with the final percentage, between the last report and the completion. -/
theorem test_final_progress_while_busy :
    nextHas (exec .bulkErase ((withArgs (short []) 0 0 0).withInputs
      [{ gap := some ((eraseBlockEvents cfg 1).length + 1), act := .read 0x010 4 }, { gap := some 0, act := .read 0x028 4 }]))
      (fun t => t.bus.reads.map (fun x => (x.1, x.2 &&& 0x7FF)) == [(0x028, 0x1E4), (0x010, 0x10D)]) = true := by
  decide +kernel

/-- 10_state R22: READ_WORD stopped after its third sample, as it stands there, goes on and reads the rest. -/
theorem test_running_read_goes_on :
    (((programming [true, false, true, true, false, false, false, true]).standing .readWord 64).any fun u =>
      u.link.trace != [] && nextHas (step u) fun t => t.regs.result == 0x8D && !t.seq.busy) = true := by decide +kernel

/-- 20_memory R90 with 00_scope R9: ERASE_CTRL_BASE + 1 is a target address, which wraps modulo `2^24`. -/
theorem test_target_erase_control_wraps :
    (RefTarget.tableWrite { cfg with eraseCtrlBase := 0xFFFFFF }
      { codeSize := 0x8000, eraseBlocks := 4, wbufWords := 32, tblptr := 0x000000 } 0x1234).ectl1 = 0x34 := by decide

theorem witness_ReadResult : (short []).engineReady ∧ (short []).ident.shape 6 2 := by decide +kernel

theorem witness_BlankCheckBlank :
    let s := short (List.replicate (16 * 6) true ++ [false])
    s.engineReady ∧ s.ident.shape 6 2 ∧ s.link.partner = .oracle (List.replicate (16 * 6) true ++ [false]) := by
  decide +kernel

theorem witness_BlankCheckNonblank :
    ∀ a ∈ [0, 5],
      let bits := bitsLsbFirst 16 (0x1000 : Word)
      let s := short (List.replicate (16 * a) true ++ bits ++ [])
      s.engineReady ∧ s.ident.shape 6 2 ∧ a < 6 ∧ bits.length = 16 ∧ wordFrom bits 0 ≠ 0xFFFF ∧
      s.link.partner = .oracle (List.replicate (16 * a) true ++ bits ++ []) := by decide +kernel

theorem witness_WriteWithoutVerify :
    let s := withArgs (short []) 0 0 6
    s.engineReady ∧ s.ident.shape 6 2 ∧ s.imagesWritten ∧ s.regs.ctrl.getLsbD 0 = false := by decide +kernel

/-- An image with word 1 and slot 2 present, VERIFY_EN set. -/
def loaded (answers : List Bool) : State :=
  let s := withArgs (short answers) 0 0 1
  { s with mem :=
      (s.mem.setImg .codeImg 1 { value := 0x5678, present := true }).setImg .cfgImg 2 { value := 0x1E5D, present := true } }

/-- What a target that stored the image answers for its six words. -/
def imageBits : List Bool :=
  List.replicate 16 true ++ bitsLsbFirst 16 (0x5678 : Word) ++ List.replicate (16 * 4) true

theorem witness_WriteVerified :
    let s := loaded (imageBits ++ [true])
    s.engineReady ∧ s.ident.shape 6 2 ∧ s.imagesWritten ∧ s.regs.ctrl.getLsbD 0 = true ∧ imageBits.length = 16 * 6 ∧
    s.link.partner = .oracle (imageBits ++ [true]) ∧
    (∀ a < 6, verifyAgrees s.cfg s.mem a (wordFrom imageBits (16 * a))) ∧ presentBelow s.mem 8 = 1 := by decide +kernel

theorem witness_WriteVerifyMismatch :
    let bits := List.replicate 32 true
    let s := loaded (bits ++ [])
    s.engineReady ∧ s.ident.shape 6 2 ∧ s.imagesWritten ∧ s.regs.ctrl.getLsbD 0 = true ∧ 1 < 6 ∧
    bits.length = 16 * (1 + 1) ∧ s.link.partner = .oracle (bits ++ []) ∧
    (∀ b < 1, verifyAgrees s.cfg s.mem b (wordFrom bits (16 * b))) ∧ verifyExpects s.cfg s.mem 1 = some 0x5678 ∧
    wordFrom bits (16 * 1) ≠ 0x5678 := by decide +kernel

theorem witness_EepromReadResult : (short []).engineReady := by decide +kernel

theorem witness_EepromWriteResult :
    let bits := List.replicate 16 true ++ List.replicate 8 false ++ List.replicate 8 false
    let s := eeLoaded (bits ++ [])
    s.engineReady ∧ (s.cfg.eeZeroBug = true ∨ s.eeLoaded) ∧ [3, 1].length = s.cfg.eeSize ∧
    cellsDone s.cfg [3, 1] bits (max s.regs.eePollMax.toNat 1) ∧ bits.length = 8 * [3, 1].sum ∧
    s.link.partner = .oracle (bits ++ []) := by decide +kernel

/-- The poll cap is 16 after reset: cell 0 is done at its second poll, cell 1 never reads done. -/
theorem witness_EepromWriteTimeout :
    let bits := List.replicate 8 true ++ List.replicate 8 false ++ List.replicate 128 true
    let s := eeLoaded (bits ++ [])
    s.engineReady ∧ (s.cfg.eeZeroBug = true ∨ ∀ j ≤ 1, (s.mem.entry8 .eeImg j).isSome) ∧ 1 < s.cfg.eeSize ∧
    16 = max s.regs.eePollMax.toNat 1 ∧ [2].length = 1 ∧ cellsDone s.cfg [2] bits 16 ∧
    bits.length = 8 * ([2].sum + 16) ∧ s.link.partner = .oracle (bits ++ []) ∧
    ∀ j < 16, (byteFrom bits (8 * ([2].sum + j))).getLsbD s.cfg.eeBusyBit = true := by decide +kernel

/-- The same at cell 0, with the entry of cell 1 never written. -/
theorem witness_EepromWriteTimeout_unloaded :
    let bits := List.replicate 128 true
    let s := { short (bits ++ []) with mem := (short []).mem.setEntry8 .eeImg 0 0x5A }
    s.engineReady ∧ (∀ j ≤ 0, (s.mem.entry8 .eeImg j).isSome) ∧ s.mem.entry8 .eeImg 1 = none ∧
    16 = max s.regs.eePollMax.toNat 1 ∧ cellsDone s.cfg [] bits 16 ∧ bits.length = 8 * (([] : List Nat).sum + 16) ∧
    ∀ j < 16, (byteFrom bits (8 * (([] : List Nat).sum + j))).getLsbD s.cfg.eeBusyBit = true := by decide +kernel

theorem witness_EepromWriteUnloaded :
    ((short []).engineReady ∧ (short []).cfg.eeZeroBug = false ∧ 0 < (short []).cfg.eeSize ∧
      (short []).mem.entry8 .eeImg 0 = none ∧ cellsDone cfg [] [] 16) ∧
    (let bits := List.replicate 8 false
    let s := { short (bits ++ []) with mem := (short []).mem.setEntry8 .eeImg 0 0x5A }
    s.engineReady ∧ 1 < s.cfg.eeSize ∧ (∀ j < 1, (s.mem.entry8 .eeImg j).isSome) ∧ s.mem.entry8 .eeImg 1 = none ∧
      cellsDone s.cfg [1] bits (max s.regs.eePollMax.toNat 1) ∧ bits.length = 8 * [1].sum) := by decide +kernel

theorem witness_DumpConfigResult : (identified []).engineReady := by decide +kernel

theorem witness_DumpUserIdResult : (identified []).engineReady := by decide +kernel

theorem witness_LinkWriteRows :
    (programming []).quiet ∧ idle.quiet ∧ (programming []).seq.position = none ∧ idle.seq.position = none := by decide

theorem witness_LinkReadRows :
    (programming [true]).quiet ∧ (programming [true]).seq.position = none ∧
    (Instr.tblrdPreinc, (0xB : Nibble)) ∈ [(.shiftOutTablat, cfg.codes.icsp.shiftOutTablat), (.tblrd, cfg.codes.icsp.tblrd),
      (.tblrdPostinc, cfg.codes.icsp.tblrdPostinc), (.tblrdPostdec, cfg.codes.icsp.tblrdPostdec),
      (.tblrdPreinc, cfg.codes.icsp.tblrdPreinc)] := by decide

theorem witness_CoreWordRows :
    (programming []).quiet ∧ (programming []).seq.position = none ∧ (Instr.movlw 0xFF, (0x0EFF : Word)) ∈
      [(.nop, cfg.codes.core.nop), (.movlw 0xFF, cfg.codes.core.movlw ||| (0xFF : Byte).setWidth 16)] := by decide

theorem witness_ClockCounts :
    64 ≤ (List.replicate 64 true).length ∧ 8 * 8 ≤ (List.replicate 64 true).length ∧
    16 * 4 ≤ (List.replicate 64 true).length ∧ 0 < 32 := by decide

/-- A state in a session with an identity meets the invariant, and a step from it that runs an operation goes on. -/
theorem witness_StepKeepsInvariant :
    let s := (identified []).withInputs [issueInput 0x02]
    s.inv ∧ nextHas (step s) (fun t => t.session == .idle) = true := by
  refine ⟨⟨by decide +kernel, by decide +kernel, ?_, fun _ => by decide +kernel, by decide +kernel, ?_⟩, by decide +kernel⟩
  · exact ⟨tiny, by decide +kernel⟩
  · intro p h
    cases h

theorem witness_StepKeepsMemoryForm :
    let s := (eeLoaded []).withInputs [writeInput 0x1004 0x77]
    s.mem.wf ∧ nextHas (step s) (fun t => t.mem != s.mem) = true := by decide +kernel

theorem witness_OnlyEepromWriteFaults :
    (identified []).inv ∧ faultOf (exec .eepromWrite (identified [])) = some (.unwrittenEntry 0x1000) :=
  ⟨⟨by decide +kernel, by decide +kernel, ⟨tiny, by decide +kernel⟩, fun _ => by decide +kernel, by decide +kernel,
    fun _ h => by cases h⟩, by decide +kernel⟩

theorem witness_SessionChangers :
    (∀ x ∈ idle.bus.inputs, x.act ≠ .reset) ∧ nextHas (exec .enter idle) (fun t => t.session != idle.session) = true := by
  decide +kernel

theorem witness_IdentityChangers :
    let s := programming (bitsLsbFirst 16 (0x0023 : Word))
    (∀ x ∈ s.bus.inputs, x.act ≠ .reset) ∧ nextHas (exec .identify s) (fun t => t.ident != s.ident) = true := by
  decide +kernel

theorem witness_RegisterWriters :
    let s := withArgs (programming [true]) 5 6 7
    (∀ x ∈ s.bus.inputs, x.act ≠ .reset) ∧ nextHas (exec .readWord s) (fun t => t.regs.arg0 == 5) = true ∧
    nextHas (exec .sendCmd s) (fun _ => true) = true := by decide +kernel

/-- Where a run halts, whether the state it leaves meets `p`. -/
def haltsWith (p : State → Bool) : EStateM.Result Halt State Unit → Bool
  | .ok _ _ => false
  | .error _ t => p t

/-- A cell that never reads done halts, after one poll where the cap is 1. -/
theorem witness_PollCap_timeout :
    let u := eeLoaded (List.replicate 8 true)
    let s := ({ u with regs := { u.regs with eePollMax := 0 } } : State).accept 0x41
    s.seq.replaying = false ∧ 1 = max s.seq.pollMax.toNat 1 ∧
    haltsWith (fun t => t.regs.cause == .eeTimeout && t.seq.polls == 1) (eeWriteCell 1 0xA5 s) = true := by
  decide +kernel

/-- A reset after seven events halts a cell. -/
theorem witness_PollCap_reset :
    let s := ((eeLoaded []).accept 0x41).withInputs [{ gap := some 7, act := .reset }]
    s.seq.replaying = false ∧ haltsWith (fun t => t.link.trace.length == 7) (eeWriteCell 1 0xA5 s) = true := by
  decide +kernel

theorem witness_PollCap :
    let s := (eeLoaded (List.replicate 8 false)).accept 0x41
    s.seq.replaying = false ∧ 16 = max s.seq.pollMax.toNat 1 ∧
    (match eeWriteCell 1 0xA5 s with
      | .ok _ t => t.seq.polls == 1
      | .error _ _ => false) = true := by decide +kernel

/-- A reference target in programming mode, between transactions. -/
def target : RefTarget := { codeSize := 128, eraseBlocks := 4, wbufWords := 32, prog := true, clocks := 20 }

/-- 20_memory R87, R88: `0x0E5A` after a CORE command, clocked in, brings 0x5A to W. -/
theorem test_target_hears_core_word :
    let l : LinkSide := { (programming []).link with partner := .reference target }
    (match (l.observeAll cfg (sendInsnEvents 0x0 0x0E5A)).partner with
      | .reference t => t.w == 0x5A && t.floats == 0
      | .oracle _ => false) = true := by decide +kernel

theorem witness_GotoAddressSetsPointer :
    ∀ u ∈ [target, { target with clocks := 0 }],
      let l : LinkSide := { (programming []).link with partner := .reference u }
      cfg.codes = {} ∧ l.lines.ready ∧ l.partner = .reference u ∧ u.prog = true ∧ u.stopped = false ∧
      (u.clocks = 0 ∨ u.clocks = 20) := by decide +kernel

theorem witness_ReferenceTableRead :
    ∀ u ∈ [target, { target with clocks := 0 }],
      let s : State := { programming [] with link := { (programming []).link with partner := .reference u } }
      s.seq.position = none ∧ s.quiet ∧ s.cfg.codes = {} ∧ s.link.lines.ready ∧ s.link.partner = .reference u ∧
      u.prog = true ∧ u.stopped = false ∧ (u.clocks = 0 ∨ u.clocks = 20) := by decide +kernel

end Sys2Proof.Tests
end

/-! PROOF of O53. What a step leaves of the configuration and of the buffers' canonical form: a relation between two
states that host accesses, link events, resets and buffer writes all stay in, then each procedure, each operation's
pseudocode, and the step. -/

namespace Sys2Proof.Machine

/-! ## The relation -/

/-- From `s` to `t` the configuration stayed, and so did the canonical form of the buffers where `s` had it. -/
structure State.FormKept (s t : State) : Prop where
  cfg : t.cfg = s.cfg
  mem : s.mem.wf → t.mem.wf

theorem State.FormKept.refl (s : State) : s.FormKept s := ⟨rfl, id⟩

theorem State.FormKept.trans {s t u : State} (h : s.FormKept t) (h' : t.FormKept u) : s.FormKept u :=
  ⟨h'.cfg.trans h.cfg, h'.mem ∘ h.mem⟩

/-- A change of anything but the configuration and the buffers. -/
theorem State.FormKept.of_eq {s t : State} (hc : t.cfg = s.cfg) (hm : t.mem = s.mem) : s.FormKept t :=
  ⟨hc, fun h => hm ▸ h⟩

theorem State.Drove.formKept {s t : State} (h : s.Drove t) : s.FormKept t := .of_eq h.cfg h.mem

/-- A reset empties the buffers (70_reset R320) and leaves the parameters (R324). -/
theorem State.formKept_hardReset (s : State) : s.FormKept s.hardReset := ⟨rfl, fun _ => Memory.wf_nil⟩

theorem State.formKept_begun (s : State) (i : Instr) (op : Byte) : s.FormKept (s.begun i op) := by
  unfold State.begun
  split
  · exact .of_eq rfl rfl
  · split <;> exact .of_eq rfl rfl

/-! ### Host accesses between operations -/

theorem State.formKept_writeReg (s : State) (r : Reg) (v : HostWord) : s.FormKept (s.writeReg r v) := by
  cases r <;> exact .of_eq rfl rfl

theorem State.formKept_writeEntry (s : State) (w : Window) (i : Nat) (v : HostWord) :
    s.FormKept (s.writeEntry w i v) := by
  cases w with
  | cfgImg | codeImg => exact ⟨rfl, Memory.wf_setImg _ _ _⟩
  | eeImg => exact ⟨rfl, Memory.wf_setEntry8 _ _ _⟩
  | cfgRb | uidBuf => exact .refl s

theorem State.formKept_hostWrite (s : State) (o : HostOffset) (v : HostWord) : s.FormKept (s.hostWrite o v) := by
  unfold State.hostWrite
  split
  · exact s.formKept_writeReg _ v
  · exact s.formKept_writeEntry _ _ v
  · exact .of_eq rfl rfl
  · exact .refl s

theorem State.formKept_hostRead {s t : State} {o : HostOffset} (h : s.hostRead o = .ok t) : s.FormKept t := by
  unfold State.hostRead at h
  split at h
  · cases h
    exact .of_eq rfl rfl
  · split at h
    · cases h
      exact .of_eq rfl rfl
    · cases h
  · cases h
    exact .of_eq rfl rfl
  · cases h
    exact .of_eq rfl rfl

theorem hostTurn_formKept {a : HostAct} {s t : State} (h : hostTurn a s = .next t) : s.FormKept t := by
  unfold hostTurn at h
  split at h
  case h_1 =>
    cases h
    exact s.formKept_hardReset
  case h_2 o _ =>
    split at h
    · split at h
      · cases h
        exact (s.drove_busyRead o).formKept
      · split at h
        · cases h
          exact State.formKept_hostRead ‹_›
        · cases h
    · cases h
  case h_3 o _ v =>
    split at h
    · cases h
      split
      · exact (s.drove_busyWrite o v).formKept
      · exact s.formKept_hostWrite o v
    · cases h

/-! ## Runs of pseudocode -/

/-- Whatever the host does during it, the run keeps the relation to every state it was related to, where it goes on
and where it has ended the operation. -/
structure Op.KeepsForm {α : Type} (x : Op α) : Prop where
  leads : ∀ s : State, Op.Leads s.FormKept x (fun _ => s.FormKept) fun e t => e = .ended → s.FormKept t

theorem Op.KeepsForm.bind {α β : Type} {x : Op α} {f : α → Op β} (hx : x.KeepsForm) (hf : ∀ a, (f a).KeepsForm) :
    (x >>= f).KeepsForm := ⟨fun s => (hx.leads s).bind fun a => (hf a).leads s⟩

theorem Op.KeepsForm.pure {α : Type} (a : α) : (Pure.pure a : Op α).KeepsForm := ⟨fun _ => ⟨fun _ h => h⟩⟩

theorem Op.KeepsForm.ask {α : Type} (f : State → α) : (Machine.ask f).KeepsForm := ⟨fun _ => ⟨fun _ h => h⟩⟩

theorem Op.KeepsForm.forUp {f : Nat → Op Unit} (hf : ∀ i, (f i).KeepsForm) (n start : Nat) :
    (Machine.forUp f n start).KeepsForm := ⟨fun s => .forUp n start fun i _ _ => (hf i).leads s⟩

/-- A run that only drives the link touches neither the configuration nor the buffers, unless a reset ends it. -/
theorem Op.Drives.keepsForm {α : Type} {L : Lines → Lines → Prop} {x : Op α} (h : x.Drives L) : x.KeepsForm :=
  ⟨fun _ => h.leads (fun _ _ _ hs hd _ => hs.trans hd.formKept)
    (fun _ u hs hd _ => (hs.trans hd.formKept).trans u.formKept_hardReset) fun _ _ he => nomatch he⟩

theorem assign_keepsForm {f : State → State} (hf : ∀ s : State, s.FormKept (f s)) : (assign f).KeepsForm :=
  ⟨fun _ => .assign (fun u _ hu _ hd _ => (hu.trans (hf u)).trans hd.formKept)
    (fun u hu _ => hu.trans u.drove_passOver.formKept)
    (fun u v hu hd _ => ((hu.trans (hf u)).trans hd.formKept).trans v.formKept_hardReset) fun _ _ he => nomatch he⟩

theorem raise_keepsForm {α : Type} (c : Cause) (a : Addr) (e v : Word) : (raise c a e v : Op α).KeepsForm :=
  ⟨fun _ => ⟨fun _ h _ => h.trans (.of_eq rfl rfl)⟩⟩

/-! ### Buffers and progress -/

/-- A run that only looks, whether it answers or halts. -/
theorem Op.KeepsForm.of_unchanged {α : Type} {x : Op α} (h : ∀ u, (∃ a, x u = .ok a u) ∨ ∃ e, x u = .error e u) :
    x.KeepsForm := by
  refine ⟨fun _ => ⟨fun u hu => ?_⟩⟩
  obtain ⟨a, hx⟩ | ⟨e, hx⟩ := h u <;> rw [hx]
  · exact hu
  · exact fun _ => hu

theorem memReadImg_keepsForm (w : Window) (i : Nat) : (memReadImg w i).KeepsForm := .of_unchanged fun u => by
  cases hm : u.mem.img w i with
  | none => exact .inr ⟨_, memReadImg_unwritten hm⟩
  | some e => exact .inl ⟨e, memReadImg_ok hm⟩

theorem memRead8_keepsForm (w : Window) (i : Nat) : (memRead8 w i).KeepsForm := .of_unchanged fun u => by
  cases hm : u.mem.entry8 w i with
  | none => exact .inr ⟨_, memRead8_unwritten hm⟩
  | some v => exact .inl ⟨v, memRead8_ok hm⟩

theorem memWriteImg_keepsForm (w : Window) (i : Nat) (e : ImgEntry) : (memWriteImg w i e).KeepsForm :=
  assign_keepsForm fun _ => ⟨rfl, Memory.wf_setImg w i e⟩

theorem memWrite16_keepsForm (w : Window) (i : Nat) (v : Word) : (memWrite16 w i v).KeepsForm :=
  assign_keepsForm fun _ => ⟨rfl, Memory.wf_setEntry16 w i v⟩

theorem memWrite8_keepsForm (w : Window) (i : Nat) (v : Byte) : (memWrite8 w i v).KeepsForm :=
  assign_keepsForm fun _ => ⟨rfl, Memory.wf_setEntry8 w i v⟩

theorem emitProgress_keepsForm (ph : Phase) (p : BitVec 7) : (emitProgress ph p).KeepsForm :=
  assign_keepsForm fun s => .of_eq (s.reportProgress_cfg ph p) (s.reportProgress_mem ph p)

theorem walkProgress_keepsForm (ph : Phase) (n : Nat) : (walkProgress ph n).KeepsForm :=
  (Op.KeepsForm.ask _).bind fun _ => emitProgress_keepsForm ph _

/-! ### The latches and registers that a run assigns -/

theorem setSession_keepsForm (x : Session) : (assign fun s => s.setSession x).KeepsForm :=
  assign_keepsForm fun s => .of_eq (s.setSession_cfg x) (s.setSession_mem x)

theorem setIdentStatus_keepsForm (x : IdentStatus) : (assign fun s => s.setIdentStatus x).KeepsForm :=
  assign_keepsForm fun s => .of_eq (s.setIdentStatus_cfg x) (s.setIdentStatus_mem x)

theorem setDevId_keepsForm (d : Word) : (assign fun s => s.setDevId d).KeepsForm :=
  assign_keepsForm fun s => .of_eq (s.setDevId_cfg d) (s.setDevId_mem d)

theorem setRev_keepsForm (r : BitVec 5) : (assign fun s => s.setRev r).KeepsForm :=
  assign_keepsForm fun s => .of_eq (s.setRev_cfg r) (s.setRev_mem r)

theorem setIndex_keepsForm (k : Byte) : (assign fun s => s.setIndex k).KeepsForm :=
  assign_keepsForm fun s => .of_eq (s.setIndex_cfg k) (s.setIndex_mem k)

theorem setCodeSize_keepsForm (n : Addr) : (assign fun s => s.setCodeSize n).KeepsForm :=
  assign_keepsForm fun s => .of_eq (s.setCodeSize_cfg n) (s.setCodeSize_mem n)

theorem setEraseBlocks_keepsForm (n : BitVec 4) : (assign fun s => s.setEraseBlocks n).KeepsForm :=
  assign_keepsForm fun s => .of_eq (s.setEraseBlocks_cfg n) (s.setEraseBlocks_mem n)

theorem setWbufWords_keepsForm (n : BitVec 7) : (assign fun s => s.setWbufWords n).KeepsForm :=
  assign_keepsForm fun s => .of_eq (s.setWbufWords_cfg n) (s.setWbufWords_mem n)

theorem setCfgMm_keepsForm (v : Byte) : (assign fun s => s.setCfgMm v).KeepsForm :=
  assign_keepsForm fun s => .of_eq (s.setCfgMm_cfg v) (s.setCfgMm_mem v)

theorem setResult_keepsForm (w : Word) : (assign fun s => s.setResult w).KeepsForm :=
  assign_keepsForm fun s => .of_eq (s.setResult_cfg w) (s.setResult_mem w)

theorem setPolls_keepsForm (f : State → Word) : (assign fun s => s.setPolls (f s)).KeepsForm :=
  assign_keepsForm fun s => .of_eq (s.setPolls_cfg (f s)) (s.setPolls_mem (f s))

/-! ### Link transactions -/

theorem emitAll_keepsForm (es : List LinkEvent) : (emitAll es).KeepsForm := (emitAll_drives es).keepsForm

theorem gotoAddress_keepsForm (a : Addr) : (gotoAddress a).KeepsForm := (gotoAddress_drives a).keepsForm

theorem sendCore_keepsForm (f : CoreWords → Word) : (sendCore f).KeepsForm := (sendCore_drives f).keepsForm

theorem sendStartp_keepsForm (f : IcspCodes → Nibble) (p : Word) : (sendStartp f p).KeepsForm :=
  (sendStartp_drives f p).keepsForm

theorem readIcsp_keepsForm (f : IcspCodes → Nibble) : (readIcsp f).KeepsForm := (readIcsp_drives f).keepsForm

/-! ## The pseudocode of each operation -/

/-! ### Session and identity (42_session, 44_identity) -/

theorem clearGeometry_keepsForm : clearGeometry.KeepsForm :=
  (setCodeSize_keepsForm 0).bind fun _ => (setEraseBlocks_keepsForm 0).bind fun _ =>
    setWbufWords_keepsForm 0

theorem enterBody_keepsForm : enterBody.KeepsForm :=
  (Op.KeepsForm.ask _).bind fun _ => (emitAll_keepsForm _).bind fun _ =>
    (setIdentStatus_keepsForm _).bind fun _ => (setDevId_keepsForm _).bind fun _ =>
    (setRev_keepsForm _).bind fun _ => clearGeometry_keepsForm.bind fun _ =>
    (setIndex_keepsForm _).bind fun _ => setSession_keepsForm _

theorem exitBody_keepsForm : exitBody.KeepsForm :=
  (emitAll_keepsForm _).bind fun _ => setSession_keepsForm _

theorem readDevId_keepsForm : readDevId.KeepsForm :=
  (gotoAddress_keepsForm _).bind fun _ => (readIcsp_keepsForm _).bind fun _ => (readIcsp_keepsForm _).bind fun _ => .pure _

theorem identNotFound_keepsForm (d : Word) : (identNotFound d).KeepsForm :=
  (setIndex_keepsForm _).bind fun _ => clearGeometry_keepsForm.bind fun _ =>
    (setIdentStatus_keepsForm _).bind fun _ => raise_keepsForm _ _ _ _

theorem identResolved_keepsForm (k : Nat) (e : CatalogEntry) : (identResolved k e).KeepsForm :=
  (setIndex_keepsForm _).bind fun _ => (setCodeSize_keepsForm _).bind fun _ =>
    (setEraseBlocks_keepsForm _).bind fun _ => (setWbufWords_keepsForm _).bind fun _ =>
    setIdentStatus_keepsForm _

theorem allocate_keepsForm (words : Nat) : (allocate words).KeepsForm :=
  (Op.KeepsForm.forUp (fun _ => memWriteImg_keepsForm _ _ _) words 0).bind fun _ =>
    .forUp (fun _ => memWriteImg_keepsForm _ _ _) 8 0

theorem resolveDevId_keepsForm (d : Word) : (resolveDevId d).KeepsForm := by
  refine (setDevId_keepsForm d).bind fun _ => (setRev_keepsForm _).bind fun _ =>
    (Op.KeepsForm.ask _).bind fun found => ?_
  rcases found with _ | ⟨k, e⟩
  · exact identNotFound_keepsForm d
  · exact (identResolved_keepsForm k e).bind fun _ => (allocate_keepsForm _).bind fun _ =>
      setCfgMm_keepsForm 0

theorem identifyBody_keepsForm : identifyBody.KeepsForm := readDevId_keepsForm.bind resolveDevId_keepsForm

/-! ### Raw operations and addressing (41_signal, 43_addressing) -/

theorem sendCmdBody_keepsForm : sendCmdBody.KeepsForm := (Op.KeepsForm.ask _).bind fun n => (sendCmd_drives n).keepsForm

theorem sendWordBody_keepsForm : sendWordBody.KeepsForm :=
  (Op.KeepsForm.ask _).bind fun w => (sendWord_drives w).keepsForm

theorem readWordBody_keepsForm : readWordBody.KeepsForm :=
  readWord_drives.keepsForm.bind fun _ => setResult_keepsForm _

theorem sendInsnBody_keepsForm : sendInsnBody.KeepsForm :=
  (Op.KeepsForm.ask _).bind fun n => (Op.KeepsForm.ask _).bind fun w => (sendInsn_drives n w).keepsForm

theorem gotoAddrBody_keepsForm : gotoAddrBody.KeepsForm := (Op.KeepsForm.ask _).bind gotoAddress_keepsForm

theorem gotoShortBody_keepsForm : gotoShortBody.KeepsForm :=
  (Op.KeepsForm.ask _).bind fun o => (gotoShort_drives o).keepsForm

/-! ### Erase (45_erase) -/

theorem eraseRegions_keepsForm (total : Nat) (rs : List Nat) (finished : Nat) :
    (eraseRegions total finished rs).KeepsForm := by
  induction rs generalizing finished with
  | nil => exact .pure ()
  | cons r rs ih =>
    exact (eraseRegion_drives r).keepsForm.bind fun _ => (emitProgress_keepsForm _ _).bind fun _ => ih (finished + 1)

theorem bulkEraseBody_keepsForm : bulkEraseBody.KeepsForm :=
  (Op.KeepsForm.ask _).bind fun rs => eraseRegions_keepsForm _ rs 0

theorem eraseBlockBody_keepsForm : eraseBlockBody.KeepsForm :=
  (Op.KeepsForm.ask _).bind fun r => (eraseRegion_drives r).keepsForm.bind fun _ => emitProgress_keepsForm _ _

/-! ### Configuration registers and user ID (48_config) -/

theorem cfgReadSlot_keepsForm (i : Nat) : (cfgReadSlot i).KeepsForm :=
  (gotoAddress_keepsForm _).bind fun _ => (readIcsp_keepsForm _).bind fun _ => (readIcsp_keepsForm _).bind fun _ => .pure _

theorem cfgWriteSlot_keepsForm (i : Nat) (v : Word) : (cfgWriteSlot i v).KeepsForm :=
  (Op.KeepsForm.ask _).bind fun _ => (gotoAddress_keepsForm _).bind fun _ => (sendStartp_keepsForm _ _).bind fun _ =>
    (gotoShort_drives _).keepsForm.bind fun _ => sendStartp_keepsForm _ _

theorem cfgWriteOne_keepsForm (i : Nat) : (cfgWriteOne i).KeepsForm := by
  refine (memReadImg_keepsForm _ _).bind fun c => ?_
  split
  · exact cfgWriteSlot_keepsForm i c.value
  · exact .pure ()

theorem cfgWritePass_keepsForm : cfgWritePass.KeepsForm := by
  refine (Op.KeepsForm.ask _).bind fun any => ?_
  split
  · exact (sendCore_keepsForm _).bind fun _ => (sendCore_keepsForm _).bind fun _ => .forUp cfgWriteOne_keepsForm 8 0
  · exact .pure ()

theorem dumpSlot_keepsForm (i : Nat) : (dumpSlot i).KeepsForm :=
  (cfgReadSlot_keepsForm i).bind fun _ => memWrite16_keepsForm _ _ _

theorem cfgVerifySlots_keepsForm (n i : Nat) (mm : Byte) : (cfgVerifySlots n i mm).KeepsForm := by
  induction n generalizing i mm with
  | zero => exact .pure mm
  | succ n ih =>
    refine (memReadImg_keepsForm _ _).bind fun c => ?_
    split
    · exact (cfgReadSlot_keepsForm i).bind fun _ => (memWrite16_keepsForm _ _ _).bind fun _ => ih (i + 1) _
    · exact ih (i + 1) mm

theorem cfgVerifyPass_keepsForm : cfgVerifyPass.KeepsForm :=
  (cfgVerifySlots_keepsForm 8 0 0).bind fun _ => setCfgMm_keepsForm _

theorem dumpConfigBody_keepsForm : dumpConfigBody.KeepsForm := .forUp dumpSlot_keepsForm 8 0

theorem dumpUserIdBody_keepsForm : dumpUserIdBody.KeepsForm :=
  (gotoAddress_keepsForm _).bind fun _ =>
    .forUp (fun _ => (readIcsp_keepsForm _).bind fun _ => memWrite8_keepsForm _ _ _) 8 0

/-! ### Code memory (46_program_verify) -/

theorem readCodeWord_keepsForm : readCodeWord.KeepsForm :=
  (readIcsp_keepsForm _).bind fun _ => (readIcsp_keepsForm _).bind fun _ => .pure _

theorem blankWord_keepsForm (a : Nat) : (blankWord a).KeepsForm := by
  refine readCodeWord_keepsForm.bind fun d => ?_
  split
  · exact raise_keepsForm _ _ _ _
  · exact walkProgress_keepsForm _ _

theorem blankCheckBody_keepsForm : blankCheckBody.KeepsForm :=
  (gotoAddress_keepsForm _).bind fun _ => (Op.KeepsForm.ask _).bind fun n => .forUp blankWord_keepsForm n 0

theorem readImageWord_keepsForm (a : Nat) : (readImageWord a).KeepsForm :=
  readCodeWord_keepsForm.bind fun _ => (memWriteImg_keepsForm _ _ _).bind fun _ => walkProgress_keepsForm _ _

theorem readBody_keepsForm : readBody.KeepsForm :=
  (gotoAddress_keepsForm _).bind fun _ => (Op.KeepsForm.ask _).bind fun n => .forUp readImageWord_keepsForm n 0

theorem programWord_keepsForm (width base i : Nat) : (programWord width base i).KeepsForm := by
  refine (memReadImg_keepsForm _ _).bind fun e => ?_
  split
  · exact (sendIcsp_drives _ _).keepsForm
  · exact sendStartp_keepsForm _ _

theorem programChunk_keepsForm (width j : Nat) : (programChunk width j).KeepsForm :=
  (Op.KeepsForm.forUp (programWord_keepsForm width _) width 0).bind fun _ => walkProgress_keepsForm _ _

theorem programCode_keepsForm : programCode.KeepsForm :=
  (sendCore_keepsForm _).bind fun _ => (sendCore_keepsForm _).bind fun _ => (sendCore_keepsForm _).bind fun _ =>
    (gotoAddress_keepsForm _).bind fun _ => (Op.KeepsForm.ask _).bind fun geom =>
    .forUp (programChunk_keepsForm geom.wbufWords.toNat) geom.nChunks 0

theorem verifyWord_keepsForm (a : Nat) : (verifyWord a).KeepsForm := by
  refine readCodeWord_keepsForm.bind fun d => (memReadImg_keepsForm _ _).bind fun e =>
    (Op.KeepsForm.ask _).bind fun cfg => ?_
  split
  · split
    · exact raise_keepsForm _ _ _ _
    · exact walkProgress_keepsForm _ _
  · exact walkProgress_keepsForm _ _

theorem verifyCode_keepsForm : verifyCode.KeepsForm :=
  (gotoAddress_keepsForm _).bind fun _ => (Op.KeepsForm.ask _).bind fun n => .forUp verifyWord_keepsForm n 0

theorem writeBody_keepsForm : writeBody.KeepsForm := by
  refine programCode_keepsForm.bind fun _ => (Op.KeepsForm.ask _).bind fun verify => ?_
  cases verify with
  | true => exact verifyCode_keepsForm.bind fun _ => cfgWritePass_keepsForm.bind fun _ => cfgVerifyPass_keepsForm
  | false => exact cfgWritePass_keepsForm.bind fun _ => .pure ()

/-! ### EEPROM (47_eeprom) -/

theorem eeAddress_keepsForm (e : Nat) : (eeAddress e).KeepsForm :=
  (sendCore_keepsForm _).bind fun _ => (sendCore_keepsForm _).bind fun _ => (sendCore_keepsForm _).bind fun _ =>
    (sendCore_keepsForm _).bind fun _ => (sendCore_keepsForm _).bind fun _ => sendCore_keepsForm _

theorem eeReadCell_keepsForm (e : Nat) : (eeReadCell e).KeepsForm :=
  (eeAddress_keepsForm e).bind fun _ => (sendCore_keepsForm _).bind fun _ => (sendCore_keepsForm _).bind fun _ =>
    (sendCore_keepsForm _).bind fun _ => (sendCore_keepsForm _).bind fun _ => readIcsp_keepsForm _

theorem eepromReadBody_keepsForm : eepromReadBody.KeepsForm :=
  (Op.KeepsForm.ask _).bind fun n =>
    .forUp (fun e => (eeReadCell_keepsForm e).bind fun _ => memWrite8_keepsForm _ _ _) n 0

theorem eePoll_keepsForm : eePoll.KeepsForm :=
  (sendCore_keepsForm _).bind fun _ => (sendCore_keepsForm _).bind fun _ => (sendCore_keepsForm _).bind fun _ =>
    (readIcsp_keepsForm _).bind fun _ => (setPolls_keepsForm fun s => s.seq.polls + 1).bind fun _ => .pure _

theorem eePollLoop_keepsForm (e : Nat) (d : Byte) (more : Nat) : (eePollLoop e d more).KeepsForm := by
  induction more with
  | zero =>
    refine eePoll_keepsForm.bind fun st => (Op.KeepsForm.ask _).bind fun cfg => ?_
    split
    · exact .pure ()
    · exact raise_keepsForm _ _ _ _
  | succ more ih =>
    refine eePoll_keepsForm.bind fun st => (Op.KeepsForm.ask _).bind fun cfg => ?_
    split
    · exact .pure ()
    · exact ih

theorem eeWriteCell_keepsForm (e : Nat) (d : Byte) : (eeWriteCell e d).KeepsForm :=
  (eeAddress_keepsForm e).bind fun _ => (sendCore_keepsForm _).bind fun _ => (sendCore_keepsForm _).bind fun _ =>
    (sendCore_keepsForm _).bind fun _ => (sendCore_keepsForm _).bind fun _ =>
    (setPolls_keepsForm fun _ => 0).bind fun _ => (Op.KeepsForm.ask _).bind fun _ =>
    (eePollLoop_keepsForm e d _).bind fun _ => sendCore_keepsForm _

theorem eeSourceByte_keepsForm (e : Nat) : (eeSourceByte e).KeepsForm := by
  refine (Op.KeepsForm.ask _).bind fun zero => ?_
  split
  · exact .pure _
  · exact memRead8_keepsForm _ _

theorem eepromWriteBody_keepsForm : eepromWriteBody.KeepsForm :=
  (Op.KeepsForm.ask _).bind fun n =>
    .forUp (fun e => (eeSourceByte_keepsForm e).bind fun d => eeWriteCell_keepsForm e d) n 0

/-- The pseudocode of every instruction keeps the form. -/
theorem pseudocode_keepsForm (i : Instr) : (pseudocode i).KeepsForm := by
  cases i with
  | enter => exact enterBody_keepsForm
  | exit => exact exitBody_keepsForm
  | identify => exact identifyBody_keepsForm
  | sendCmd => exact sendCmdBody_keepsForm
  | sendWord => exact sendWordBody_keepsForm
  | readWord => exact readWordBody_keepsForm
  | sendInsn => exact sendInsnBody_keepsForm
  | gotoAddr => exact gotoAddrBody_keepsForm
  | gotoShort => exact gotoShortBody_keepsForm
  | blankCheck => exact blankCheckBody_keepsForm
  | bulkErase => exact bulkEraseBody_keepsForm
  | eraseBlock => exact eraseBlockBody_keepsForm
  | read => exact readBody_keepsForm
  | write => exact writeBody_keepsForm
  | eepromRead => exact eepromReadBody_keepsForm
  | eepromWrite => exact eepromWriteBody_keepsForm
  | dumpUserId => exact dumpUserIdBody_keepsForm
  | dumpConfig => exact dumpConfigBody_keepsForm
  | _ => exact .pure ()

/-- The pseudocode of every instruction, after the host accesses that are due at once. -/
theorem operation_keepsForm (i : Instr) : (do hostWindow; pseudocode i : Op Unit).KeepsForm :=
  hostWindow_drives.keepsForm.bind fun _ => pseudocode_keepsForm i

/-! ## The step -/

/-- An instruction that is a host operation issues its pseudocode; what it does in the acceptance itself is what
`State.begun` says. -/
theorem exec_eq_issueFrom {i : Instr} {op : Byte} {k : OpClass} (h : hostOp i = some (op, k)) :
    ∃ first, (∀ s : State, first (s.accept op) = s.begun i op) ∧ exec i = issueFrom op k first (pseudocode i) := by
  cases i with
  | enter =>
    cases h
    exact ⟨fun t => t.setSession .enteringKey, fun _ => rfl, rfl⟩
  | identify =>
    cases h
    exact ⟨fun t => t.setCfgMm 0, fun _ => rfl, rfl⟩
  | write =>
    cases h
    exact ⟨fun t => t.setCfgMm 0, fun _ => rfl, rfl⟩
  | _ => cases h <;> exact ⟨id, fun _ => rfl, rfl⟩

/-- Everything a host operation can do: set OVERRUN while another one runs, be refused at issue, or run its
pseudocode (60_exceptions R280). -/
theorem exec_host_cases {i : Instr} {op : Byte} {k : OpClass} (h : hostOp i = some (op, k)) (s : State) :
    s.seq.busy = true ∧ exec i s = .next s.setOverrun ∨
    s.seq.busy = false ∧ issueCheck k (s.accept op) ≠ .none ∧
      exec i s = .next (s.afterRefusal op (issueCheck k (s.accept op))) ∨
    s.seq.busy = false ∧ issueCheck k (s.accept op) = .none ∧
      exec i s = finish ((do hostWindow; pseudocode i : Op Unit) (s.begun i op)) := by
  obtain ⟨first, hfirst, hexec⟩ := exec_eq_issueFrom h
  rw [hexec]
  cases hb : s.seq.busy with
  | true => exact .inl ⟨rfl, issueFrom_busy hb op k first _⟩
  | false =>
    by_cases hc : issueCheck k (s.accept op) = .none
    · exact .inr (.inr ⟨rfl, hc, hfirst s ▸ issueFrom_accepted hb first _ hc⟩)
    · exact .inr (.inl ⟨rfl, hc, issueFrom_refused hb first _ hc⟩)

/-- Any other instruction is a link word, which only drives the link (30_encoding R104, R108). -/
theorem exec_eq_runLink {i : Instr} (h : hostOp i = none) :
    ∃ x : Op Unit, x.Drives Lines.Kept ∧ exec i = runLink x := by
  have hr (f : IcspCodes → Nibble) : (readAlone f).Drives Lines.Kept :=
    (readIcsp_drives f).bindKept fun _ => .pure Lines.Kept.refl ()
  cases i with
  | core p => exact ⟨_, sendIcsp_drives _ p, rfl⟩
  | tblwt p => exact ⟨_, sendIcsp_drives _ p, rfl⟩
  | tblwtPostinc2 p => exact ⟨_, sendIcsp_drives _ p, rfl⟩
  | tblwtPostinc2Startp p => exact ⟨_, sendStartp_drives _ p, rfl⟩
  | tblwtStartp p => exact ⟨_, sendStartp_drives _ p, rfl⟩
  | shiftOutTablat => exact ⟨_, hr _, rfl⟩
  | tblrd => exact ⟨_, hr _, rfl⟩
  | tblrdPostinc => exact ⟨_, hr _, rfl⟩
  | tblrdPostdec => exact ⟨_, hr _, rfl⟩
  | tblrdPreinc => exact ⟨_, hr _, rfl⟩
  | reservedIcspCommand c p => exact ⟨_, sendInsn_drives c p, rfl⟩
  | _ => cases h <;> exact ⟨_, sendCore_drives _, rfl⟩

theorem Op.KeepsForm.finish {x : Op Unit} (hx : x.KeepsForm) {s t : State} (h : finish (x s) = .next t) :
    s.FormKept t := by
  have hs := (hx.leads s).run s (.refl s)
  rcases hr : x s with ⟨_, u⟩ | ⟨_ | _ | _, u⟩ <;> rw [hr] at h hs <;> cases h
  · exact hs.trans (.of_eq u.complete_cfg u.complete_mem)
  · exact hs rfl

theorem Op.KeepsForm.runLink {x : Op Unit} (hx : x.KeepsForm) {s t : State} (h : runLink x s = .next t) :
    s.FormKept t := by
  have hs := (hx.leads s).run s (.refl s)
  unfold Machine.runLink at h
  rcases hr : x s with ⟨_, u⟩ | ⟨_ | _ | _, u⟩ <;> rw [hr] at h hs <;> cases h
  · exact hs
  · exact hs rfl

theorem exec_formKept {i : Instr} {s t : State} (h : exec i s = .next t) : s.FormKept t := by
  cases hi : hostOp i with
  | none =>
    obtain ⟨x, hx, he⟩ := exec_eq_runLink hi
    exact hx.keepsForm.runLink (he ▸ h)
  | some ok =>
    obtain ⟨op, k⟩ := ok
    obtain ⟨-, he⟩ | ⟨-, -, he⟩ | ⟨-, -, he⟩ := exec_host_cases hi s <;> rw [he] at h
    · cases h
      exact .of_eq rfl rfl
    · cases h
      exact .of_eq rfl rfl
    · exact (s.formKept_begun i op).trans ((operation_keepsForm i).finish h)

theorem resume_formKept {s t : State} (h : resume s = .next t) : s.FormKept t :=
  State.FormKept.trans (t := s.rewound) (.of_eq rfl rfl) ((operation_keepsForm _).finish h)

theorem step_formKept {s t : State} (h : step s = .next t) : s.FormKept t := by
  unfold step at h
  split at h
  · exact resume_formKept h
  · split at h
    case h_1 w rest _ =>
      split at h
      · exact State.FormKept.trans (t := { s with txns := rest }) (.of_eq rfl rfl) (exec_formKept h)
      · cases h
    case h_2 =>
      split at h
      · cases h
        exact .refl s
      · split at h
        · exact (s.drove_withInputs _).formKept.trans (exec_formKept h)
        · exact (s.drove_withInputs _).formKept.trans (hostTurn_formKept h)

/-- Settles O53: every kind of step, and every procedure it runs, stays in `State.FormKept`. -/
theorem stepKeepsMemoryForm : Obligations.StepKeepsMemoryForm := by
  intro s t h
  obtain ⟨hcfg, hmem⟩ := step_formKept h
  exact ⟨hcfg, hmem⟩

end Sys2Proof.Machine

/-! PROOF of what every operation keeps (O52, O54, O55, O56, O57). First what a run does to the host's inputs and to an
idle sequencer; then one relation, `State.Worked`, that the pseudocode of every operation stays in whatever the host does
meanwhile, from which the frame statements follow; then what ENTER, EXIT and IDENTIFY leave, and the invariant. -/

namespace Sys2Proof.Machine

/-! ## The host's inputs and the idle position -/

/-- A reset is among the host's pending inputs (70_reset R322). -/
def State.resetPending (s : State) : Prop := ∃ x ∈ s.bus.inputs, x.act = .reset

/-- From `s` to `t` no reset came to be pending, and a sequencer with no position got none (10_state R22). -/
structure State.Orderly (s t : State) : Prop where
  pending : t.resetPending → s.resetPending
  idle : s.seq.position = none → t.seq.position = none

theorem State.Orderly.refl (s : State) : s.Orderly s := ⟨id, id⟩

theorem State.Orderly.trans {s t u : State} (h : s.Orderly t) (h' : t.Orderly u) : s.Orderly u :=
  ⟨h.pending ∘ h'.pending, h'.idle ∘ h.idle⟩

/-- A change of anything but the pending inputs and the position. -/
theorem State.Orderly.of_eq {s t : State} (hi : t.bus.inputs = s.bus.inputs) (hp : t.seq.position = s.seq.position) :
    s.Orderly t := ⟨fun h => by rwa [State.resetPending, hi] at h, fun h => hp.trans h⟩

theorem State.orderly_forth (s : State) (bits : List Bool) : s.Orderly (s.forth bits) :=
  ⟨id, fun h => by simp [Sequencer.forth, h]⟩

theorem State.orderly_record (s : State) (e : LinkEvent) : s.Orderly (s.record e) :=
  ⟨id, fun h => by simp [Sequencer.forth, h]⟩

theorem State.orderly_passOver (s : State) : s.Orderly s.passOver := ⟨id, fun h => by simp [h]⟩

theorem State.orderly_tick (s : State) : s.Orderly s.tick := by
  refine ⟨fun h => ?_, fun h => by rwa [State.tick_seq]⟩
  unfold State.tick at h
  split at h
  case h_1 n a rest hb =>
    obtain ⟨x, hx, hr⟩ := h
    rcases List.mem_cons.1 hx with rfl | hx
    · exact ⟨{ gap := some (n + 1), act := a }, hb ▸ List.mem_cons_self, hr⟩
    · exact ⟨x, hb ▸ List.mem_cons_of_mem _ hx, hr⟩
  case h_2 => exact h

/-- A host read during an operation changes neither the pending inputs nor the sequencer. -/
theorem State.busyRead_kept (s : State) (o : HostOffset) :
    (s.busyRead o).bus.inputs = s.bus.inputs ∧ (s.busyRead o).seq = s.seq := by
  unfold State.busyRead
  split <;> exact ⟨rfl, rfl⟩

/-- Nor does a host write. -/
theorem State.busyWrite_kept (s : State) (o : HostOffset) (v : HostWord) :
    (s.busyWrite o v).bus.inputs = s.bus.inputs ∧ (s.busyWrite o v).seq = s.seq := by
  unfold State.busyWrite
  split <;> exact ⟨rfl, rfl⟩

/-- How a run that only drives the link halts: it is ended by a reset that was pending, or refused. -/
def State.Reset (s : State) (e : Halt) (_ : State) : Prop := e = .ended → s.resetPending

/-- What a run from `u` keeps, it keeps as the rest of a run from `s`. -/
theorem State.Orderly.endsIn {α : Type} {s u : State} (h : s.Orderly u) {r : EStateM.Result Halt State α}
    (hr : Op.EndsIn (fun _ => u.Orderly) u.Reset r) : Op.EndsIn (fun _ => s.Orderly) s.Reset r := by
  rcases r with ⟨_, t⟩ | ⟨e, t⟩
  · exact h.trans hr
  · exact fun he => h.pending (hr he)

/-- From every state the run stays orderly, and nothing but a pending reset ends it. -/
structure Op.Orderly {α : Type} (x : Op α) : Prop where
  leads : ∀ s : State, Op.Leads s.Orderly x (fun _ => s.Orderly) s.Reset

theorem Op.Orderly.of_run {α : Type} {x : Op α} (h : ∀ u : State, Op.EndsIn (fun _ => u.Orderly) u.Reset (x u)) :
    x.Orderly := ⟨fun _ => ⟨fun u hu => hu.endsIn (h u)⟩⟩

theorem Op.Orderly.bind {α β : Type} {x : Op α} {f : α → Op β} (hx : x.Orderly) (hf : ∀ a, (f a).Orderly) :
    (x >>= f).Orderly := ⟨fun s => (hx.leads s).bind fun a => (hf a).leads s⟩

theorem Op.Orderly.pure {α : Type} (a : α) : (Pure.pure a : Op α).Orderly := .of_run fun u => .refl u

/-- What the outside does during an operation changes neither the pending inputs nor the sequencer, and only a reset
ends the operation. -/
theorem busyAct_run (a : HostAct) (u : State) :
    Op.EndsIn (fun _ t => t.bus.inputs = u.bus.inputs ∧ t.seq = u.seq) (fun e _ => e = .ended → a = .reset)
      (busyAct a u) := by
  cases a with
  | read o w =>
    by_cases h : accessDefined o w
    · rw [show busyAct (.read o w) u = .ok () (u.busyRead o) from if_pos h]
      exact u.busyRead_kept o
    · rw [show busyAct (.read o w) u = .error (.refused (.undefinedAccess o w)) u from if_neg h]
      exact fun he => nomatch he
  | write o w v =>
    by_cases h : accessDefined o w
    · rw [show busyAct (.write o w v) u = .ok () (u.busyWrite o v) from if_pos h]
      exact u.busyWrite_kept o v
    · rw [show busyAct (.write o w v) u = .error (.refused (.undefinedAccess o w)) u from if_neg h]
      exact fun he => nomatch he
  | reset => exact fun _ => rfl

/-- Serving the due inputs takes them off, and only one of them that is a reset ends the run. -/
theorem serveDue_orderly (is : List Input) (u : State) (hu : u.bus.inputs = is) :
    Op.EndsIn (fun _ => u.Orderly) u.Reset (serveDue is u) := by
  induction is generalizing u with
  | nil => exact .refl u
  | cons i rest ih =>
    obtain ⟨_ | _ | n, a⟩ := i
    · exact .refl u
    · have hw : u.Orderly (u.withInputs rest) :=
        ⟨fun ⟨x, hx, hr⟩ => ⟨x, hu ▸ List.mem_cons_of_mem _ hx, hr⟩, id⟩
      have ha := busyAct_run a (u.withInputs rest)
      rw [serveDue, Op.bind_ok (Op.update_run _ u)]
      cases hb : busyAct a (u.withInputs rest) with
      | ok x t =>
        rw [hb] at ha
        obtain ⟨hi, hq⟩ := ha
        rw [Op.bind_ok hb]
        exact (hw.trans (.of_eq hi (congrArg Sequencer.position hq))).endsIn (ih t hi)
      | error e t =>
        rw [hb] at ha
        rw [Op.bind_error hb]
        exact fun he => ⟨_, hu ▸ List.mem_cons_self, ha he⟩
    · exact .refl u

theorem hostWindow_orderly : hostWindow.Orderly := .of_run fun u => by
  unfold hostWindow
  split
  · exact serveDue_orderly u.bus.inputs u rfl
  · exact .refl u

/-- An action is orderly where its effect is. -/
theorem act_orderly {f : State → State} (hf : ∀ s : State, s.Orderly (f s)) : (act f).Orderly := .of_run fun u => by
  cases hr : u.seq.replaying with
  | true =>
    rw [act_replaying hr]
    exact u.orderly_passOver
  | false =>
    rw [act_performed hr]
    exact (hostWindow_orderly.leads u).run _ ((hf u).trans (State.orderly_tick _))

theorem emitAll_orderly (es : List LinkEvent) : (emitAll es).Orderly := by
  induction es with
  | nil => exact .pure ()
  | cons e es ih => exact (act_orderly fun s => s.orderly_record e).bind fun _ => ih

theorem sampledBit_orderly : sampledBit.Orderly := .of_run fun u => by
  unfold sampledBit
  split
  · unfold takeAgain
    split
    · exact ⟨id, fun h => by simp [h]⟩
    · exact .refl u
  · exact .of_eq rfl rfl

theorem sample_orderly : sample.Orderly :=
  sampledBit_orderly.bind fun b => (act_orderly fun s => s.orderly_record _).bind fun _ => .pure b

theorem inCell_orderly : inCell.Orderly :=
  (emitAll_orderly _).bind fun _ => sample_orderly.bind fun b => (emitAll_orderly _).bind fun _ => .pure b

theorem inBits_orderly (n : Nat) : (inBits n).Orderly := by
  induction n with
  | zero => exact .pure []
  | succ n ih => exact inCell_orderly.bind fun b => ih.bind fun bs => .pure (b :: bs)

theorem keepRx_orderly (w : Word) : (keepRx w).Orderly := .of_run fun u => by
  unfold keepRx
  split <;> exact .of_eq rfl rfl

theorem readWord_orderly : readWord.Orderly :=
  (emitAll_orderly _).bind fun _ => (inBits_orderly 8).bind fun _ => (emitAll_orderly _).bind fun _ =>
    (keepRx_orderly _).bind fun _ => .pure _

end Sys2Proof.Machine

namespace Sys2Proof.Machine

/-! ## What an operation keeps -/

/-- What the operation `i` can have changed from `s` to `t`, whatever the host does meanwhile: of the host registers none
that the host alone writes, and each of RESULT, CFG_MM, the session and the identity only in the operations that say so
(10_state R24, R25, R36, R40); no value of a buffer is taken away (R27); PROGRESS stays a percentage (R37); and but for
ENTER and EXIT the lines are as whole transactions leave them (41_signal R141). -/
structure State.Worked (i : Instr) (s t : State) : Prop where
  orderly : s.Orderly t
  cfg : t.cfg = s.cfg
  busy : t.seq.busy = s.seq.busy
  args : t.regs.arg0 = s.regs.arg0 ∧ t.regs.arg1 = s.regs.arg1 ∧ t.regs.ctrl = s.regs.ctrl ∧
    t.regs.eePollMax = s.regs.eePollMax
  result : i ≠ .readWord → t.regs.result = s.regs.result
  cfgMm : i ≠ .write → i ≠ .identify → t.regs.cfgMm = s.regs.cfgMm
  session : i ≠ .enter → i ≠ .exit → t.session = s.session
  ident : i ≠ .enter → i ≠ .identify → t.ident = s.ident
  mem : s.mem.Grows t.mem
  progress : s.progressInv → t.progressInv
  lines : i ≠ .enter → i ≠ .exit → s.Went Lines.Kept t

theorem State.Went.kept_refl (s : State) : s.Went Lines.Kept s := fun h => ⟨h, .refl _⟩

theorem State.Went.kept_trans {s t u : State} (h : s.Went Lines.Kept t) (h' : t.Went Lines.Kept u) :
    s.Went Lines.Kept u := fun hs =>
  have ⟨ht, hl⟩ := h hs
  have ⟨hu, hl'⟩ := h' ht
  ⟨hu, hl.trans hl'⟩

theorem State.Went.kept_of_eq {s t : State} (h : s.Went Eq t) : s.Went Lines.Kept t := fun hs =>
  have ⟨ht, hl⟩ := h hs
  ⟨ht, hl ▸ .refl _⟩

theorem State.Worked.refl (i : Instr) (s : State) : s.Worked i s :=
  ⟨.refl s, rfl, rfl, ⟨rfl, rfl, rfl, rfl⟩, fun _ => rfl, fun _ _ => rfl, fun _ _ => rfl, fun _ _ => rfl,
    .refl _, id, fun _ _ => .kept_refl s⟩

theorem State.Worked.trans {i : Instr} {s t u : State} (h : s.Worked i t) (h' : t.Worked i u) : s.Worked i u := by
  obtain ⟨ha0, ha1, hc, hp⟩ := h.args
  obtain ⟨ha0', ha1', hc', hp'⟩ := h'.args
  exact ⟨h.orderly.trans h'.orderly, h'.cfg.trans h.cfg, h'.busy.trans h.busy,
    ⟨ha0'.trans ha0, ha1'.trans ha1, hc'.trans hc, hp'.trans hp⟩, fun hi => (h'.result hi).trans (h.result hi),
    fun hi hj => (h'.cfgMm hi hj).trans (h.cfgMm hi hj), fun hi hj => (h'.session hi hj).trans (h.session hi hj),
    fun hi hj => (h'.ident hi hj).trans (h.ident hi hj), h.mem.trans h'.mem, h'.progress ∘ h.progress,
    fun hi hj => (h.lines hi hj).kept_trans (h'.lines hi hj)⟩

/-- The part of the sequencer that `Sequencer.still` keeps holds the progress. -/
theorem State.progressInv_of_still {s t : State} (h : t.seq.still = s.seq.still) (hs : s.progressInv) :
    t.progressInv := by
  have hl := congrArg Sequencer.lastPct h
  have hp := congrArg Sequencer.phase h
  simp only [Sequencer.still] at hl hp
  unfold State.progressInv
  rwa [hl, hp]

/-- What driving the link leaves is within every operation. -/
theorem State.Drove.worked {s t : State} (h : s.Drove t) (ho : s.Orderly t) {i : Instr}
    (hl : i ≠ .enter → i ≠ .exit → s.Went Lines.Kept t) : s.Worked i t := by
  have hb := congrArg Sequencer.busy h.seq
  have hr : t.regs = _ := h.regs
  exact ⟨ho, h.cfg, hb, by rw [hr]; exact ⟨rfl, rfl, rfl, rfl⟩, fun _ => by rw [hr], fun _ _ => by rw [hr],
    fun _ _ => h.session, fun _ _ => h.ident, h.mem ▸ .refl _, State.progressInv_of_still h.seq, hl⟩

theorem State.worked_tick (i : Instr) (s : State) : s.Worked i s.tick :=
  s.drove_tick.worked s.orderly_tick fun _ _ => State.Went.kept_of_eq (.of_eq s.tick_seq (by rw [State.tick_link]))

theorem State.drove_forth (s : State) (bits : List Bool) : s.Drove (s.forth bits) := ⟨rfl, rfl, rfl, rfl, rfl, rfl, rfl⟩

theorem State.worked_forth (i : Instr) (s : State) (bits : List Bool) : s.Worked i (s.forth bits) :=
  (s.drove_forth bits).worked (s.orderly_forth bits) fun _ _ hs => ⟨by simpa using hs, .refl _⟩

theorem State.worked_passOver {s : State} (h : s.seq.replaying = true) (i : Instr) : s.Worked i s.passOver :=
  s.drove_passOver.worked s.orderly_passOver fun _ _ hs => by simp [h] at hs

/-- How the operation `i` can halt, started in `s`: ended by a fault of its own or by a pending reset, refused by an
access that has no meaning, or, where EEPROM_WRITE or WRITE reads an entry nothing wrote, in a fault of the model
(10_state R27). -/
def State.Halted (i : Instr) (s : State) : Halt → State → Prop
  | .ended, t =>
    (∃ u, s.Worked i u ∧ ∃ c a e v, t = (u.withCause c a e v).complete) ∨ s.resetPending ∧ ∃ u : State, t = u.hardReset
  | .fault _, _ => i = .eepromWrite ∨ i = .write ∧ ¬s.imagesWritten
  | .refused _, _ => True

/-- From every state that the operation `i`, started in `s`, can have reached, the run goes on within the operation. -/
structure Op.Works {α : Type} (i : Instr) (s : State) (x : Op α) : Prop where
  leads : Op.Leads (s.Worked i) x (fun _ => s.Worked i) (s.Halted i)

variable {i : Instr} {s : State}

theorem Op.Works.bind {α β : Type} {x : Op α} {f : α → Op β} (hx : x.Works i s) (hf : ∀ a, (f a).Works i s) :
    (x >>= f).Works i s := ⟨hx.leads.bind fun a => (hf a).leads⟩

theorem Op.Works.pure {α : Type} (a : α) : (Pure.pure a : Op α).Works i s := ⟨⟨fun _ h => h⟩⟩

theorem Op.Works.ask {α : Type} (f : State → α) : (Machine.ask f).Works i s := ⟨⟨fun _ h => h⟩⟩

/-- What is looked up is what it was at the operation's start, where the operation does not change it. -/
theorem Op.Works.askKept {α β : Type} {f : State → α} {g : α → Op β} (hf : ∀ u, s.Worked i u → f u = f s)
    (hg : (g (f s)).Works i s) : (Machine.ask f >>= g).Works i s :=
  ⟨⟨fun u hu => by
    rw [Op.bind_ok (Op.ask_run f u), hf u hu]
    exact hg.leads.run u hu⟩⟩

theorem Op.Works.forUp {f : Nat → Op Unit} (n start : Nat)
    (hf : ∀ j, start ≤ j → j < start + n → (f j).Works i s) : (Machine.forUp f n start).Works i s :=
  ⟨.forUp n start fun j h1 h2 => (hf j h1 h2).leads⟩

/-- A run that drives the link, and does to the lines what the operation may do. -/
theorem Op.Drives.works {α : Type} {L : Lines → Lines → Prop} {x : Op α} (hd : x.Drives L) (ho : x.Orderly)
    (hL : i ≠ .enter → i ≠ .exit → ∀ l l', L l l' → l.Kept l') : x.Works i s := by
  refine ⟨⟨fun u hu => ?_⟩⟩
  have hd := hd.run u
  have ho := (ho.leads u).run u (.refl u)
  rcases hr : x u with ⟨_, t⟩ | ⟨_ | _ | _, t⟩ <;> rw [hr] at hd ho
  · obtain ⟨hd, hw⟩ := hd
    exact hu.trans (hd.worked ho fun hi hj h => ⟨(hw h).1, hL hi hj _ _ (hw h).2⟩)
  · obtain ⟨v, -, rfl⟩ := hd
    exact .inr ⟨hu.orderly.pending (ho rfl), v, rfl⟩
  · exact hd.elim
  · trivial

theorem hostWindow_works : hostWindow.Works i s :=
  hostWindow_drives.works hostWindow_orderly fun _ _ _ _ h => h ▸ .refl _

/-- An action whose effect is within the operation. -/
theorem assign_works {f : State → State} (hf : ∀ u, s.Worked i u → u.Worked i (f u)) : (assign f).Works i s := by
  refine ⟨⟨fun u hu => ?_⟩⟩
  cases hr : u.seq.replaying with
  | true =>
    rw [assign, act_replaying hr]
    exact hu.trans (State.worked_passOver hr i)
  | false =>
    rw [assign, act_performed hr]
    exact hostWindow_works.leads.run _ (((hu.trans (hf u hu)).trans (State.worked_forth i _ [])).trans
      (State.worked_tick i _))

theorem raise_works {α : Type} (c : Cause) (a : Addr) (e v : Word) : (raise c a e v : Op α).Works i s :=
  ⟨⟨fun u hu => .inl ⟨u, hu, c, a, e, v, rfl⟩⟩⟩

/-! ### Link transactions -/

theorem emitAll_works {es : List LinkEvent} (h : ∀ l : Lines, l.Kept (l.applyAll es)) : (emitAll es).Works i s :=
  (emitAll_keeps h).works (emitAll_orderly es) fun _ _ _ _ => id

theorem sendCmd_works (c : Nibble) : (sendCmd c).Works i s := emitAll_works fun l => l.kept_sendCmd c

theorem sendWord_works (w : Word) : (sendWord w).Works i s := emitAll_works fun l => l.kept_sendWord w

theorem sendInsn_works (c : Nibble) (w : Word) : (sendInsn c w).Works i s := emitAll_works fun l => l.kept_sendInsn c w

theorem readWord_works : readWord.Works i s := readWord_drives.works readWord_orderly fun _ _ _ _ => id

theorem readIcsp_works (f : IcspCodes → Nibble) : (readIcsp f).Works i s :=
  (Op.Works.ask _).bind fun _ => (sendCmd_works _).bind fun _ => readWord_works.bind fun _ => .pure _

theorem sendCore_works (f : CoreWords → Word) : (sendCore f).Works i s := (Op.Works.ask _).bind fun _ => sendInsn_works _ _

theorem sendIcsp_works (f : IcspCodes → Nibble) (p : Word) : (sendIcsp f p).Works i s :=
  (Op.Works.ask _).bind fun _ => sendInsn_works _ p

theorem sendStartp_works (f : IcspCodes → Nibble) (p : Word) : (sendStartp f p).Works i s :=
  (sendIcsp_works f p).bind fun _ => (Op.Works.ask _).bind fun cfg => emitAll_works fun l => l.kept_progPulse cfg

theorem gotoAddress_works (a : Addr) : (gotoAddress a).Works i s :=
  (Op.Works.ask _).bind fun c => emitAll_works fun l => l.kept_gotoAddress c a

theorem gotoShort_works (o : Byte) : (gotoShort o).Works i s :=
  (Op.Works.ask _).bind fun c => emitAll_works fun l => l.kept_gotoShort c o

theorem eraseRegion_works (r : Nat) : (eraseRegion r).Works i s :=
  (Op.Works.ask _).bind fun cfg => emitAll_works fun l => l.kept_eraseBlock cfg r

/-! ### Buffers and progress -/

/-- A write of the buffers that takes no value away. -/
theorem assignMem_works {f : Memory → Memory} (hf : ∀ m : Memory, m.Grows (f m)) :
    (assign fun u => { u with mem := f u.mem }).Works i s :=
  assign_works fun u _ => ⟨.of_eq rfl rfl, rfl, rfl, ⟨rfl, rfl, rfl, rfl⟩, fun _ => rfl, fun _ _ => rfl, fun _ _ => rfl,
    fun _ _ => rfl, hf u.mem, id, fun _ _ => State.Went.kept_of_eq (.of_eq rfl rfl)⟩

theorem memWriteImg_works (w : Window) (j : Nat) (e : ImgEntry) : (memWriteImg w j e).Works i s :=
  assignMem_works fun m => m.grows_setImg w j e

theorem memWrite16_works (w : Window) (j : Nat) (v : Word) : (memWrite16 w j v).Works i s :=
  assignMem_works fun m => m.grows_setEntry16 w j v

theorem memWrite8_works (w : Window) (j : Nat) (v : Byte) : (memWrite8 w j v).Works i s :=
  assignMem_works fun m => m.grows_setEntry8 w j v

/-- WRITE reads the images: an entry that had been written when the operation began still has its value. -/
theorem memReadImg_works {w : Window} {j : Nat} (h : s.imagesWritten → (s.mem.img w j).isSome) :
    (memReadImg w j).Works .write s := by
  refine ⟨⟨fun u hu => ?_⟩⟩
  cases hm : u.mem.img w j with
  | some e =>
    rw [memReadImg_ok hm]
    exact hu
  | none =>
    rw [memReadImg_unwritten hm]
    refine .inr ⟨rfl, fun hw => ?_⟩
    have := hu.mem.img (h hw)
    rw [hm] at this
    cases this

theorem readCodeImg_works {a : Nat} (h : a < s.ident.nWords) : (memReadImg .codeImg a).Works .write s :=
  memReadImg_works fun hw => hw.1 a h

theorem readCfgImg_works {j : Nat} (h : j < 8) : (memReadImg .cfgImg j).Works .write s :=
  memReadImg_works fun hw => hw.2 j h

/-- Only EEPROM_WRITE may fault where an entry has no value. -/
theorem memRead8_works (w : Window) (j : Nat) : (memRead8 w j).Works .eepromWrite s := by
  refine ⟨⟨fun u hu => ?_⟩⟩
  cases hm : u.mem.entry8 w j with
  | some v =>
    rw [memRead8_ok hm]
    exact hu
  | none =>
    rw [memRead8_unwritten hm]
    exact .inl rfl

/-- A report of a phase and of a percentage up to 100 (46_program_verify R211). -/
theorem emitProgress_works {ph : Phase} {p : BitVec 7} (hph : ph ≠ .none) (hp : p.toNat ≤ 100) :
    (emitProgress ph p).Works i s := by
  refine assign_works fun u _ => ?_
  have hs := u.reportProgress_seq ph p
  have hr : (u.reportProgress ph p).regs = { u.regs with progEvt := (u.reportProgress ph p).regs.progEvt } := by
    rw [State.reportProgress_regs]
    split <;> rfl
  refine ⟨.of_eq (by rw [State.reportProgress_bus]) (by rw [hs]), u.reportProgress_cfg ph p, by rw [hs],
    by rw [hr]; exact ⟨rfl, rfl, rfl, rfl⟩, fun _ => by rw [hr], fun _ _ => by rw [hr],
    fun _ _ => u.reportProgress_session ph p, fun _ _ => u.reportProgress_ident ph p,
    by rw [State.reportProgress_mem]; exact .refl _, fun _ => ?_, fun _ _ hu => ?_⟩
  · unfold State.progressInv
    rw [hs]
    exact ⟨⟨fun h => (nomatch h), fun h => absurd h hph⟩, fun q hq => by cases hq; exact hp⟩
  · rw [State.reportProgress_link]
    exact ⟨by rw [hs]; exact hu, .refl _⟩

/-- With at most half as many words done as the code memory has bytes, a walk is at 100 percent at most. -/
theorem walkPct_le {d : Nat} {size : Addr} (h : d ≤ size.toNat / 2) : (walkPct d size).toNat ≤ 100 := by
  have hq : d * 200 / size.toNat ≤ 100 := Nat.div_le_of_le_mul (by omega)
  rw [walkPct, BitVec.toNat_ofNat]
  exact (Nat.mod_le _ _).trans hq

theorem erasePct_le {d total : Nat} (h : d ≤ total) : (erasePct d total).toNat ≤ 100 := by
  have hq : d * 100 / total ≤ 100 := Nat.div_le_of_le_mul (by omega)
  rw [erasePct, BitVec.toNat_ofNat]
  exact (Nat.mod_le _ _).trans hq

/-- The report of a walk within the code memory, in an operation that keeps the identity. -/
theorem walkProgress_works (he : i ≠ .enter) (hi : i ≠ .identify) {ph : Phase} (hph : ph ≠ .none) {d : Nat}
    (h : d ≤ s.ident.nWords) : (walkProgress ph d).Works i s :=
  .askKept (fun u hu => by rw [hu.ident he hi]) (emitProgress_works hph (walkPct_le h))

/-! ### Latches and registers -/

/-- ENTER and IDENTIFY write the identity latches (10_state R25, R26). -/
theorem assignIdent_works (h : i = .enter ∨ i = .identify) (f : Identity → Identity) :
    (assign fun u => { u with ident := f u.ident }).Works i s :=
  assign_works fun _ _ => ⟨.of_eq rfl rfl, rfl, rfl, ⟨rfl, rfl, rfl, rfl⟩, fun _ => rfl, fun _ _ => rfl, fun _ _ => rfl,
    fun he hi => absurd h (by simp [he, hi]), .refl _, id, fun _ _ => State.Went.kept_of_eq (.of_eq rfl rfl)⟩

/-- ENTER and EXIT write the session state (10_state R24). -/
theorem setSession_works (h : i = .enter ∨ i = .exit) (x : Session) : (assign fun u => u.setSession x).Works i s :=
  assign_works fun _ _ => ⟨.of_eq rfl rfl, rfl, rfl, ⟨rfl, rfl, rfl, rfl⟩, fun _ => rfl, fun _ _ => rfl,
    fun he hx => absurd h (by simp [he, hx]), fun _ _ => rfl, .refl _, id,
    fun _ _ => State.Went.kept_of_eq (.of_eq rfl rfl)⟩

/-- WRITE and IDENTIFY write CFG_MM (10_state R40). -/
theorem setCfgMm_works (h : i = .write ∨ i = .identify) (v : Byte) : (assign fun u => u.setCfgMm v).Works i s :=
  assign_works fun _ _ => ⟨.of_eq rfl rfl, rfl, rfl, ⟨rfl, rfl, rfl, rfl⟩, fun _ => rfl,
    fun hw hi => absurd h (by simp [hw, hi]), fun _ _ => rfl, fun _ _ => rfl, .refl _, id,
    fun _ _ => State.Went.kept_of_eq (.of_eq rfl rfl)⟩

/-- READ_WORD writes RESULT (10_state R36). -/
theorem setResult_works (w : Word) : (assign fun u => u.setResult w).Works .readWord s :=
  assign_works fun _ _ => ⟨.of_eq rfl rfl, rfl, rfl, ⟨rfl, rfl, rfl, rfl⟩, fun h => absurd rfl h, fun _ _ => rfl,
    fun _ _ => rfl, fun _ _ => rfl, .refl _, id, fun _ _ => State.Went.kept_of_eq (.of_eq rfl rfl)⟩

theorem setPolls_works (f : State → Word) : (assign fun u => u.setPolls (f u)).Works i s :=
  assign_works fun _ _ => ⟨.of_eq rfl rfl, rfl, rfl, ⟨rfl, rfl, rfl, rfl⟩, fun _ => rfl, fun _ _ => rfl, fun _ _ => rfl,
    fun _ _ => rfl, .refl _, id, fun _ _ h => ⟨h, .refl _⟩⟩

/-! ### The pseudocode of each operation -/

theorem clearGeometry_works (h : i = .enter ∨ i = .identify) : clearGeometry.Works i s :=
  (assignIdent_works h fun g => { g with codeSize := 0 }).bind fun _ =>
    (assignIdent_works h fun g => { g with eraseBlocks := 0 }).bind fun _ =>
    assignIdent_works h fun g => { g with wbufWords := 0 }

theorem enterBody_works : enterBody.Works .enter s :=
  (Op.Works.ask _).bind fun cfg =>
    ((emitAll_drives (enterEvents cfg)).works (emitAll_orderly _) fun h => absurd rfl h).bind fun _ =>
    (assignIdent_works (.inl rfl) fun g => { g with status := .unresolved }).bind fun _ =>
    (assignIdent_works (.inl rfl) fun g => { g with devid := 0 }).bind fun _ =>
    (assignIdent_works (.inl rfl) fun g => { g with rev := 0 }).bind fun _ =>
    (clearGeometry_works (.inl rfl)).bind fun _ =>
    (assignIdent_works (.inl rfl) fun g => { g with index := 0xFF }).bind fun _ => setSession_works (.inl rfl) _

theorem exitBody_works : exitBody.Works .exit s :=
  ((emitAll_drives exitEvents).works (emitAll_orderly _) fun _ h => absurd rfl h).bind fun _ =>
    setSession_works (.inr rfl) _

theorem readPair_works (f g : IcspCodes → Nibble) : (do
    let lo ← readIcsp f
    let hi ← readIcsp g
    return hi ++ lo : Op Word).Works i s :=
  (readIcsp_works f).bind fun _ => (readIcsp_works g).bind fun _ => .pure _

theorem identNotFound_works (d : Word) : (identNotFound d).Works .identify s :=
  (assignIdent_works (.inr rfl) fun g => { g with index := 0xFF }).bind fun _ =>
    (clearGeometry_works (.inr rfl)).bind fun _ =>
    (assignIdent_works (.inr rfl) fun g => { g with status := .notFound }).bind fun _ => raise_works _ _ _ _

theorem identResolved_works (k : Nat) (e : CatalogEntry) : (identResolved k e).Works .identify s :=
  (assignIdent_works (.inr rfl) fun g => { g with index := BitVec.ofNat 8 k }).bind fun _ =>
    (assignIdent_works (.inr rfl) fun g => { g with codeSize := e.codeSize }).bind fun _ =>
    (assignIdent_works (.inr rfl) fun g => { g with eraseBlocks := e.eraseBlocks }).bind fun _ =>
    (assignIdent_works (.inr rfl) fun g => { g with wbufWords := e.wbufWords }).bind fun _ =>
    assignIdent_works (.inr rfl) fun g => { g with status := .resolved }

theorem allocate_works (words : Nat) : (allocate words).Works i s :=
  (Op.Works.forUp words 0 fun _ _ _ => memWriteImg_works _ _ _).bind fun _ =>
    .forUp 8 0 fun _ _ _ => memWriteImg_works _ _ _

theorem identifyBody_works : identifyBody.Works .identify s := by
  refine ((gotoAddress_works _).bind fun _ => readPair_works _ _).bind fun d => ?_
  refine (assignIdent_works (.inr rfl) fun g => { g with devid := d }).bind fun _ =>
    (assignIdent_works (.inr rfl) fun g => { g with rev := revision d }).bind fun _ =>
    (Op.Works.ask _).bind fun found => ?_
  rcases found with _ | ⟨k, e⟩
  · exact identNotFound_works d
  · exact (identResolved_works k e).bind fun _ => (allocate_works _).bind fun _ => setCfgMm_works (.inr rfl) 0

theorem eraseRegions_works {total : Nat} (rs : List Nat) (finished : Nat) (h : finished + rs.length ≤ total) :
    (eraseRegions total finished rs).Works i s := by
  induction rs generalizing finished with
  | nil => exact .pure ()
  | cons r rs ih =>
    rw [List.length_cons] at h
    exact (eraseRegion_works r).bind fun _ =>
      (emitProgress_works (by decide) (erasePct_le (by omega))).bind fun _ => ih (finished + 1) (by omega)

theorem bulkEraseBody_works : bulkEraseBody.Works i s :=
  (Op.Works.ask _).bind fun rs => eraseRegions_works rs 0 (by omega)

theorem eraseBlockBody_works : eraseBlockBody.Works i s :=
  (Op.Works.ask _).bind fun r => (eraseRegion_works r).bind fun _ => emitProgress_works (by decide) (by decide)

theorem cfgReadSlot_works (j : Nat) : (cfgReadSlot j).Works i s := (gotoAddress_works _).bind fun _ => readPair_works _ _

theorem cfgWriteSlot_works (j : Nat) (v : Word) : (cfgWriteSlot j v).Works i s :=
  (Op.Works.ask _).bind fun _ => (gotoAddress_works _).bind fun _ => (sendStartp_works _ _).bind fun _ =>
    (gotoShort_works _).bind fun _ => sendStartp_works _ _

theorem cfgWriteOne_works {j : Nat} (h : j < 8) : (cfgWriteOne j).Works .write s := by
  refine (readCfgImg_works h).bind fun c => ?_
  split
  · exact cfgWriteSlot_works j c.value
  · exact .pure ()

theorem cfgWritePass_works : cfgWritePass.Works .write s := by
  refine (Op.Works.ask _).bind fun any => ?_
  split
  · exact (sendCore_works _).bind fun _ => (sendCore_works _).bind fun _ =>
      .forUp 8 0 fun _ _ h => cfgWriteOne_works (by omega)
  · exact .pure ()

theorem cfgVerifySlots_works (n j : Nat) (h : j + n ≤ 8) (mm : Byte) : (cfgVerifySlots n j mm).Works .write s := by
  induction n generalizing j mm with
  | zero => exact .pure mm
  | succ n ih =>
    refine (readCfgImg_works (by omega)).bind fun c => ?_
    split
    · exact (cfgReadSlot_works j).bind fun _ => (memWrite16_works _ _ _).bind fun _ => ih (j + 1) (by omega) _
    · exact ih (j + 1) (by omega) mm

theorem cfgVerifyPass_works : cfgVerifyPass.Works .write s :=
  (cfgVerifySlots_works 8 0 (Nat.le_refl _) 0).bind fun _ => setCfgMm_works (.inl rfl) _

theorem dumpConfigBody_works : dumpConfigBody.Works i s :=
  .forUp 8 0 fun _ _ _ => (cfgReadSlot_works _).bind fun _ => memWrite16_works _ _ _

theorem dumpUserIdBody_works : dumpUserIdBody.Works i s :=
  (gotoAddress_works _).bind fun _ => .forUp 8 0 fun _ _ _ => (readIcsp_works _).bind fun _ => memWrite8_works _ _ _

/-- A walk over the code memory, in an operation that keeps the identity: `n_words` is what it was at the start. -/
theorem codeWalk_works (he : i ≠ .enter) (hi : i ≠ .identify) {f : Nat → Op Unit}
    (hf : ∀ a, a < s.ident.nWords → (f a).Works i s) : (do
      gotoAddress 0x000000
      let n ← ask fun u => u.ident.nWords
      forUp f n 0 : Op Unit).Works i s :=
  (gotoAddress_works _).bind fun _ => .askKept (fun u hu => by rw [hu.ident he hi])
    (.forUp _ 0 fun a _ h => hf a (by omega))

theorem blankCheckBody_works (he : i ≠ .enter) (hi : i ≠ .identify) : blankCheckBody.Works i s := by
  refine codeWalk_works he hi fun a ha => (readPair_works _ _).bind fun d => ?_
  split
  · exact raise_works _ _ _ _
  · exact walkProgress_works he hi (by decide) ha

theorem readBody_works (he : i ≠ .enter) (hi : i ≠ .identify) : readBody.Works i s :=
  codeWalk_works he hi fun _ ha => (readPair_works _ _).bind fun _ => (memWriteImg_works _ _ _).bind fun _ =>
    walkProgress_works he hi (by decide) ha

theorem verifyCode_works : verifyCode.Works .write s := by
  refine codeWalk_works (by decide) (by decide) fun a ha => (readPair_works _ _).bind fun d =>
    (readCodeImg_works ha).bind fun e => (Op.Works.ask _).bind fun cfg => ?_
  split
  · split
    · exact raise_works _ _ _ _
    · exact walkProgress_works (by decide) (by decide) (by decide) ha
  · exact walkProgress_works (by decide) (by decide) (by decide) ha

theorem programWord_works {width base j : Nat} (h : base + j < s.ident.nWords) :
    (programWord width base j).Works .write s := by
  refine (readCodeImg_works h).bind fun e => ?_
  split
  · exact sendIcsp_works _ _
  · exact sendStartp_works _ _

/-- The words of chunk `j` lie below the active length. -/
theorem Identity.chunk_le {g : Identity} {j : Nat} (h : j < g.nChunks) : (j + 1) * g.wbufWords.toNat ≤ g.nWords :=
  (Nat.mul_le_mul_right _ h).trans (Nat.div_mul_le_self _ _)

theorem programChunk_works {j : Nat} (h : j < s.ident.nChunks) :
    (programChunk s.ident.wbufWords.toNat j).Works .write s := by
  have hj := Identity.chunk_le h
  refine (Op.Works.forUp _ 0 fun k _ hk => programWord_works ?_).bind fun _ =>
    walkProgress_works (by decide) (by decide) (by decide) hj
  rw [Nat.succ_mul] at hj
  omega

theorem programCode_works : programCode.Works .write s :=
  (sendCore_works _).bind fun _ => (sendCore_works _).bind fun _ => (sendCore_works _).bind fun _ =>
    (gotoAddress_works _).bind fun _ => .askKept (fun _ hu => hu.ident (by decide) (by decide))
      (.forUp _ 0 fun _ _ h => programChunk_works (by omega))

theorem writeBody_works : writeBody.Works .write s := by
  refine programCode_works.bind fun _ => (Op.Works.ask _).bind fun verify => ?_
  cases verify with
  | true =>
    exact verifyCode_works.bind fun _ => cfgWritePass_works.bind fun _ => cfgVerifyPass_works
  | false => exact cfgWritePass_works.bind fun _ => .pure ()

theorem eeAddress_works (e : Nat) : (eeAddress e).Works i s :=
  (sendCore_works _).bind fun _ => (sendCore_works _).bind fun _ => (sendCore_works _).bind fun _ =>
    (sendCore_works _).bind fun _ => (sendCore_works _).bind fun _ => sendCore_works _

theorem eeReadCell_works (e : Nat) : (eeReadCell e).Works i s :=
  (eeAddress_works e).bind fun _ => (sendCore_works _).bind fun _ => (sendCore_works _).bind fun _ =>
    (sendCore_works _).bind fun _ => (sendCore_works _).bind fun _ => readIcsp_works _

theorem eepromReadBody_works : eepromReadBody.Works i s :=
  (Op.Works.ask _).bind fun n =>
    .forUp n 0 fun e _ _ => (eeReadCell_works e).bind fun _ => memWrite8_works _ _ _

theorem eePoll_works : eePoll.Works i s :=
  (sendCore_works _).bind fun _ => (sendCore_works _).bind fun _ => (sendCore_works _).bind fun _ =>
    (readIcsp_works _).bind fun _ => (setPolls_works fun u => u.seq.polls + 1).bind fun _ => .pure _

theorem eePollLoop_works (e : Nat) (d : Byte) (more : Nat) : (eePollLoop e d more).Works i s := by
  induction more with
  | zero =>
    refine eePoll_works.bind fun st => (Op.Works.ask _).bind fun cfg => ?_
    split
    · exact .pure ()
    · exact raise_works _ _ _ _
  | succ more ih =>
    refine eePoll_works.bind fun st => (Op.Works.ask _).bind fun cfg => ?_
    split
    · exact .pure ()
    · exact ih

theorem eeWriteCell_works (e : Nat) (d : Byte) : (eeWriteCell e d).Works i s :=
  (eeAddress_works e).bind fun _ => (sendCore_works _).bind fun _ => (sendCore_works _).bind fun _ =>
    (sendCore_works _).bind fun _ => (sendCore_works _).bind fun _ => (setPolls_works fun _ => 0).bind fun _ =>
    (Op.Works.ask _).bind fun _ => (eePollLoop_works e d _).bind fun _ => sendCore_works _

theorem eeSourceByte_works (e : Nat) : (eeSourceByte e).Works .eepromWrite s := by
  refine (Op.Works.ask _).bind fun zero => ?_
  split
  · exact .pure _
  · exact memRead8_works _ _

theorem eepromWriteBody_works : eepromWriteBody.Works .eepromWrite s :=
  (Op.Works.ask _).bind fun n => .forUp n 0 fun e _ _ => (eeSourceByte_works e).bind fun d => eeWriteCell_works e d

theorem pseudocode_works (i : Instr) (s : State) : (pseudocode i).Works i s := by
  cases i with
  | enter => exact enterBody_works
  | exit => exact exitBody_works
  | identify => exact identifyBody_works
  | sendCmd => exact (Op.Works.ask _).bind sendCmd_works
  | sendWord => exact (Op.Works.ask _).bind sendWord_works
  | readWord => exact readWord_works.bind setResult_works
  | sendInsn => exact (Op.Works.ask _).bind fun n => (Op.Works.ask _).bind fun w => sendInsn_works n w
  | gotoAddr => exact (Op.Works.ask _).bind gotoAddress_works
  | gotoShort => exact (Op.Works.ask _).bind gotoShort_works
  | blankCheck => exact blankCheckBody_works (by decide) (by decide)
  | bulkErase => exact bulkEraseBody_works
  | eraseBlock => exact eraseBlockBody_works
  | read => exact readBody_works (by decide) (by decide)
  | write => exact writeBody_works
  | eepromRead => exact eepromReadBody_works
  | eepromWrite => exact eepromWriteBody_works
  | dumpUserId => exact dumpUserIdBody_works
  | dumpConfig => exact dumpConfigBody_works
  | _ => exact .pure ()

/-- The pseudocode of every instruction, after the host accesses that are due at once. -/
theorem operation_works (i : Instr) (s : State) : (do hostWindow; pseudocode i : Op Unit).Works i s :=
  hostWindow_works.bind fun _ => pseudocode_works i s

/-- An instruction that is no host operation is a link word, which works as any operation may. -/
theorem exec_eq_runLink_works {i : Instr} (h : hostOp i = none) :
    ∃ x : Op Unit, (∀ s, x.Works i s) ∧ exec i = runLink x := by
  have hr (f : IcspCodes → Nibble) (s : State) : (readAlone f).Works i s := (readIcsp_works f).bind fun _ => .pure ()
  cases i with
  | core p | tblwt p | tblwtPostinc2 p => exact ⟨_, fun _ => sendIcsp_works _ p, rfl⟩
  | tblwtPostinc2Startp p | tblwtStartp p => exact ⟨_, fun _ => sendStartp_works _ p, rfl⟩
  | shiftOutTablat | tblrd | tblrdPostinc | tblrdPostdec | tblrdPreinc => exact ⟨_, hr _, rfl⟩
  | reservedIcspCommand c p => exact ⟨_, fun _ => sendInsn_works c p, rfl⟩
  | _ => cases h <;> exact ⟨_, fun _ => sendCore_works _, rfl⟩

end Sys2Proof.Machine

namespace Sys2Proof.Machine

/-! ## How an instruction ends -/

/-- How an operation started in `s` can end its step: completed, completed by a fault of its own, or by a pending reset
(60_exceptions R285, R286, 70_reset R322). -/
def State.Finished (i : Instr) (s t : State) : Prop :=
  (∃ u, s.Worked i u ∧ (t = u.complete ∨ ∃ c a e v, t = (u.withCause c a e v).complete)) ∨
    s.resetPending ∧ ∃ u : State, t = u.hardReset

/-- An operation that ends the step has run to its end, or something has ended it. -/
theorem finish_next {r : EStateM.Result Halt State Unit} {t : State} (h : finish r = .next t) :
    (∃ u, r = .ok () u ∧ t = u.complete) ∨ r = .error .ended t := by
  rcases r with ⟨_, u⟩ | ⟨_ | _ | _, u⟩ <;> cases h
  · exact .inl ⟨u, rfl, rfl⟩
  · exact .inr rfl

theorem Op.Works.finish {i : Instr} {s t : State} {x : Op Unit} (hx : x.Works i s)
    (h : Machine.finish (x s) = .next t) : s.Finished i t := by
  have hr := hx.leads.run s (.refl i s)
  obtain ⟨u, hxs, rfl⟩ | hxs := finish_next h <;> rw [hxs] at hr
  · exact .inl ⟨u, hr, .inl rfl⟩
  · exact hr.imp (fun ⟨u, hu, hc⟩ => ⟨u, hu, .inr hc⟩) id

theorem Op.Works.finish_fault {i : Instr} {s : State} {f : Fault} {x : Op Unit} (hx : x.Works i s)
    (h : Machine.finish (x s) = .fault f) : i = .eepromWrite ∨ i = .write ∧ ¬s.imagesWritten := by
  have hr := hx.leads.run s (.refl i s)
  rcases hxs : x s with ⟨_, u⟩ | ⟨_ | _ | _, u⟩ <;> rw [hxs] at h hr <;> cases h
  exact hr

/-- A link word completes nothing: it ends where its run does. -/
theorem Op.Works.runLink {i : Instr} {s t : State} {x : Op Unit} (hx : x.Works i s)
    (h : Machine.runLink x s = .next t) : s.Worked i t ∨ s.Finished i t := by
  have hr := hx.leads.run s (.refl i s)
  unfold Machine.runLink at h
  rcases hxs : x s with ⟨_, u⟩ | ⟨_ | _ | _, u⟩ <;> rw [hxs] at h hr <;> cases h
  · exact .inl hr
  · exact .inr (hr.imp (fun ⟨u, hu, hc⟩ => ⟨u, hu, .inr hc⟩) id)

theorem Op.Works.runLink_fault {i : Instr} {s : State} {f : Fault} {x : Op Unit} (hx : x.Works i s)
    (h : Machine.runLink x s = .fault f) : i = .eepromWrite ∨ i = .write ∧ ¬s.imagesWritten := by
  have hr := hx.leads.run s (.refl i s)
  unfold Machine.runLink at h
  rcases hxs : x s with ⟨_, u⟩ | ⟨_ | _ | _, u⟩ <;> rw [hxs] at h hr <;> cases h
  exact hr

/-! ## The frame of an instruction -/

/-- What the instruction `i` leaves of the host registers, the session and the identity from `s` to `t`, where no reset
ends it. -/
structure State.Framed (i : Instr) (s t : State) : Prop where
  args : t.regs.arg0 = s.regs.arg0 ∧ t.regs.arg1 = s.regs.arg1 ∧ t.regs.ctrl = s.regs.ctrl ∧
    t.regs.eePollMax = s.regs.eePollMax
  result : i ≠ .readWord → t.regs.result = 0 ∨ t.regs.result = s.regs.result
  cfgMm : i ≠ .write → i ≠ .identify → t.regs.cfgMm = s.regs.cfgMm
  session : i ≠ .enter → i ≠ .exit → t.session = s.session
  ident : i ≠ .enter → i ≠ .identify → t.ident = s.ident

theorem State.Worked.framed {i : Instr} {s t : State} (h : s.Worked i t) : s.Framed i t :=
  ⟨h.args, fun hi => .inr (h.result hi), h.cfgMm, h.session, h.ident⟩

/-- The registers and latches that the frame speaks of are the same in `t` and `t'`. -/
theorem State.Framed.congr {i : Instr} {s t t' : State} (h : s.Framed i t)
    (hr : t'.regs.arg0 = t.regs.arg0 ∧ t'.regs.arg1 = t.regs.arg1 ∧ t'.regs.ctrl = t.regs.ctrl ∧
      t'.regs.eePollMax = t.regs.eePollMax ∧ t'.regs.result = t.regs.result ∧ t'.regs.cfgMm = t.regs.cfgMm)
    (hs : t'.session = t.session) (hi : t'.ident = t.ident) : s.Framed i t' := by
  obtain ⟨ha0, ha1, hc, hp, hres, hmm⟩ := hr
  refine ⟨?_, ?_, ?_, ?_, ?_⟩
  · rw [ha0, ha1, hc, hp]
    exact h.args
  · rw [hres]
    exact h.result
  · rw [hmm]
    exact h.cfgMm
  · rw [hs]
    exact h.session
  · rw [hi]
    exact h.ident

theorem State.Framed.trans {i : Instr} {s t u : State} (h : s.Framed i t) (h' : t.Framed i u) : s.Framed i u := by
  obtain ⟨ha0, ha1, hc, hp⟩ := h.args
  obtain ⟨ha0', ha1', hc', hp'⟩ := h'.args
  exact ⟨⟨ha0'.trans ha0, ha1'.trans ha1, hc'.trans hc, hp'.trans hp⟩,
    fun hi => (h'.result hi).elim .inl fun hr => (h.result hi).imp hr.trans hr.trans,
    fun hi hj => (h'.cfgMm hi hj).trans (h.cfgMm hi hj), fun hi hj => (h'.session hi hj).trans (h.session hi hj),
    fun hi hj => (h'.ident hi hj).trans (h.ident hi hj)⟩

/-- Acceptance clears RESULT, and what the operation does in it is within its frame. -/
theorem State.framed_begun (i : Instr) (op : Byte) (s : State) : s.Framed i (s.begun i op) := by
  unfold State.begun
  split
  case isTrue he => exact ⟨⟨rfl, rfl, rfl, rfl⟩, fun _ => .inl rfl, fun _ _ => rfl, fun h => absurd he h, fun _ _ => rfl⟩
  case isFalse =>
    split
    case isTrue hm =>
      exact ⟨⟨rfl, rfl, rfl, rfl⟩, fun _ => .inl rfl, fun hw hi => absurd hm (by simp [hw, hi]), fun _ _ => rfl,
        fun _ _ => rfl⟩
    case isFalse => exact ⟨⟨rfl, rfl, rfl, rfl⟩, fun _ => .inl rfl, fun _ _ => rfl, fun _ _ => rfl, fun _ _ => rfl⟩

theorem State.Finished.framed {i : Instr} {s t : State} (h : s.Finished i t) (hr : ¬s.resetPending) : s.Framed i t := by
  obtain ⟨u, hu, rfl | ⟨c, a, e, v, rfl⟩⟩ | ⟨hp, -⟩ := h
  · exact hu.framed.congr ⟨rfl, rfl, rfl, rfl, rfl, rfl⟩ rfl rfl
  · exact hu.framed.congr ⟨rfl, rfl, rfl, rfl, rfl, rfl⟩ rfl rfl
  · exact absurd hp hr

/-- The acceptance leaves the host's inputs. -/
theorem State.begun_bus (i : Instr) (op : Byte) (s : State) : (s.begun i op).bus = s.bus := by
  unfold State.begun
  split
  · rfl
  · split <;> rfl

/-- Every instruction that no reset ends keeps to its frame. -/
theorem exec_framed {i : Instr} {s t : State} (h : exec i s = .next t) (hr : ¬s.resetPending) : s.Framed i t := by
  cases hi : hostOp i with
  | none =>
    obtain ⟨x, hx, he⟩ := exec_eq_runLink_works hi
    exact ((hx s).runLink (he ▸ h)).elim State.Worked.framed fun hf => hf.framed hr
  | some ok =>
    obtain ⟨op, k⟩ := ok
    obtain ⟨-, he⟩ | ⟨-, -, he⟩ | ⟨-, -, he⟩ := exec_host_cases hi s <;> rw [he] at h
    · cases h
      exact ⟨⟨rfl, rfl, rfl, rfl⟩, fun _ => .inr rfl, fun _ _ => rfl, fun _ _ => rfl, fun _ _ => rfl⟩
    · cases h
      exact ⟨⟨rfl, rfl, rfl, rfl⟩, fun _ => .inl rfl, fun _ _ => rfl, fun _ _ => rfl, fun _ _ => rfl⟩
    · refine (s.framed_begun i op).trans (((operation_works i _).finish h).framed ?_)
      rwa [State.resetPending, State.begun_bus]

/-- Settles O56: the identity is in the frame of every instruction but ENTER and IDENTIFY. -/
theorem identityChangers : Obligations.IdentityChangers := by
  intro i s t h hr hne
  have hf := exec_framed h fun ⟨x, hx, he⟩ => hr x hx he
  by_contra hi
  rw [not_or] at hi
  exact hne (hf.ident hi.1 hi.2)

/-- Settles O57: the registers in the frame of every instruction. -/
theorem registerWriters : Obligations.RegisterWriters := by
  intro i s t h hr
  have hf := exec_framed h fun ⟨x, hx, he⟩ => hr x hx he
  obtain ⟨harg0, harg1, hctrl, hpoll⟩ := hf.args
  exact ⟨harg0, harg1, hctrl, hpoll, hf.result, hf.cfgMm⟩

/-! ## Which operations can fault in the model -/

/-- What an operation that passes its issue check finds: its session, and for IDENTIFY no identity, for the engine
operations a resolved one (60_exceptions R281, R282). -/
theorem issueCheck_passed {s : State} {k : OpClass} (h : issueCheck k s = .none) :
    k ≠ .reserved ∧ s.session = k.session ∧ (k = .identify → s.ident.status = .unresolved) ∧
      (k.isEngine = true → s.ident.status = .resolved) := by
  unfold issueCheck at h
  split_ifs at h with hres hses hid hun hnf hreg
  refine ⟨hres, by simpa using hses, fun hk => by simpa [hk] using hid, fun hk => ?_⟩
  cases hi : s.ident.status with
  | resolved => rfl
  | unresolved => exact absurd ⟨hk, hi⟩ hun
  | notFound => exact absurd ⟨hk, hi⟩ hnf

/-- Settles O54: link words and refused issues read no entry, and WRITE reads the images of a resolved identity, whose
entries the invariant says are written. -/
theorem onlyEepromWriteFaults : Obligations.OnlyEepromWriteFaults := by
  intro i s f hs h
  obtain ⟨-, -, -, himage, -⟩ := hs
  cases hi : hostOp i with
  | none =>
    obtain ⟨x, hx, he⟩ := exec_eq_runLink_works hi
    obtain rfl | ⟨rfl, -⟩ := (hx s).runLink_fault (he ▸ h) <;> cases hi
  | some ok =>
    obtain ⟨op, k⟩ := ok
    obtain ⟨-, he⟩ | ⟨-, -, he⟩ | ⟨-, hc, he⟩ := exec_host_cases hi s <;> rw [he] at h
    · cases h
    · cases h
    · obtain rfl | ⟨rfl, hw⟩ := (operation_works i _).finish_fault h
      · rfl
      · cases hi
        obtain ⟨-, -, -, hres⟩ := issueCheck_passed hc
        exact absurd (himage (hres rfl)) hw

end Sys2Proof.Machine

namespace Sys2Proof.Machine

/-! ## What ENTER, EXIT and IDENTIFY leave -/

/-- A run that performs its actions stands in `u`: the configuration, the session and the identity are those of `b`, the
lines meet `L`, and the buffers meet `M`. -/
structure State.Poised (L : Lines → Prop) (M : Memory → Prop) (b u : State) : Prop where
  performing : u.seq.replaying = false
  cfg : u.cfg = b.cfg
  session : u.session = b.session
  ident : u.ident = b.ident
  lines : L u.link.lines
  mem : M u.mem

/-- How a run halts that only a reset or a fault with outcome `Q` ends. -/
def Halt.OrReset (Q : State → Prop) : Halt → State → Prop
  | .ended, t => Q t ∨ ∃ u : State, t = u.hardReset
  | .fault _, _ => True
  | .refused _, _ => True

/-- The lines in a session: ready, and MCLR driven high (41_signal R141, 42_session R150). -/
def Lines.inSession (l : Lines) : Prop := l.ready ∧ l.mclr.drives true = true

theorem Lines.Kept.inSession {l l' : Lines} (hl : l.inSession) (h : l.Kept l') : l'.inSession :=
  ⟨h.2 hl.1, h.1 ▸ hl.2⟩

section
variable {L L' : Lines → Prop} {M : Memory → Prop} {b : State} {Q : State → Prop}

/-- Driving the link does to the lines what it says, and leaves the rest. -/
theorem Op.Drives.poised {α : Type} {D : Lines → Lines → Prop} {x : Op α} (hx : x.Drives D)
    (hD : ∀ l l', L l → D l l' → L' l') :
    Op.Leads (State.Poised L M b) x (fun _ => State.Poised L' M b) (Halt.OrReset Q) :=
  hx.leads (fun _ _ _ hu hd hw =>
      have ⟨hr, hl⟩ := hw hu.performing
      ⟨hr, hd.cfg.trans hu.cfg, hd.session.trans hu.session, hd.ident.trans hu.ident, hD _ _ hu.lines hl, hd.mem ▸ hu.mem⟩)
    (fun _ u _ _ => .inr ⟨u, rfl⟩) fun _ _ => trivial

/-- An assignment takes the run from standing by `b` to standing by `b'` where its effect does. -/
theorem assign_poised {f : State → State} {M' : Memory → Prop} {b' : State}
    (hf : ∀ u, State.Poised L M b u → State.Poised L M' b' (f u)) :
    Op.Leads (State.Poised L M b) (assign f) (fun _ => State.Poised L M' b') (Halt.OrReset Q) := by
  refine .assign (fun u t hu _ hd hw => ?_) (fun u hu hr => absurd hr (by simp [hu.performing]))
    (fun _ u _ _ => .inr ⟨u, rfl⟩) fun _ _ => trivial
  have h := hf u hu
  obtain ⟨hr, hl⟩ := hw h.performing
  exact ⟨hr, hd.cfg.trans h.cfg, hd.session.trans h.session, hd.ident.trans h.ident, hl ▸ h.lines, hd.mem ▸ h.mem⟩

theorem assignIdent_poised (f : Identity → Identity) :
    Op.Leads (State.Poised L M b) (assign fun u => { u with ident := f u.ident })
      (fun _ => State.Poised L M { b with ident := f b.ident }) (Halt.OrReset Q) :=
  assign_poised fun _ h => ⟨h.performing, h.cfg, h.session, congrArg f h.ident, h.lines, h.mem⟩

theorem setSession_poised (x : Session) :
    Op.Leads (State.Poised L M b) (assign fun u => u.setSession x) (fun _ => State.Poised L M (b.setSession x))
      (Halt.OrReset Q) :=
  assign_poised fun _ h => ⟨h.performing, h.cfg, rfl, h.ident, h.lines, h.mem⟩

theorem setCfgMm_poised (v : Byte) :
    Op.Leads (State.Poised L M b) (assign fun u => u.setCfgMm v) (fun _ => State.Poised L M b) (Halt.OrReset Q) :=
  assign_poised fun _ h => ⟨h.performing, h.cfg, h.session, h.ident, h.lines, h.mem⟩

/-! ### ENTER and EXIT (42_session R150, R151) -/

/-- The events of ENTER leave the lines in a session, whatever they were. -/
theorem Lines.inSession_enter (l : Lines) (cfg : Config) : (l.applyAll (enterEvents cfg)).inSession := by
  have key := Lines.kept_outBits (l.applyAll [.pin .pgc false, .dir .pgc .out, .pin .pgd false, .dir .pgd .out,
    .dir .mclr .inp, .delay .tEn1, .pin .mclr true, .dir .mclr .out, .delay .tEn2, .pin .mclr false, .delay .tEn3])
    (bitsMsbFirst 32 cfg.magicKey)
  rw [← Lines.applyAll_append] at key
  rw [enterEvents, Lines.applyAll_append]
  obtain ⟨hmclr, hready⟩ := key
  obtain ⟨hdir, hlat, hpgd⟩ := hready ⟨rfl, rfl, rfl⟩
  refine ⟨⟨hdir, hlat, hpgd⟩, ?_⟩
  have hout : (Lines.applyAll l _).mclr.dir = .out := congrArg Line.dir hmclr
  simpa [Lines.applyAll, Lines.apply, Lines.update, Line.drives] using hout

theorem clearGeometry_poised :
    Op.Leads (State.Poised L M b) clearGeometry
      (fun _ => State.Poised L M { b with ident := { b.ident with codeSize := 0, eraseBlocks := 0, wbufWords := 0 } })
      (Halt.OrReset Q) :=
  (assignIdent_poised fun g => { g with codeSize := 0 }).bind fun _ =>
    (assignIdent_poised fun g => { g with eraseBlocks := 0 }).bind fun _ =>
    assignIdent_poised fun g => { g with wbufWords := 0 }

/-- ENTER ends in a session with no identity (42_session R150). -/
theorem enterBody_poised :
    Op.Leads (State.Poised L M b) enterBody
      (fun _ => State.Poised Lines.inSession M { b with session := .programming, ident := {} }) (Halt.OrReset Q) :=
  (Op.Leads.ask State.cfg).bind fun cfg =>
    (((emitAll_drives (enterEvents cfg)).poised (L := L) fun l _ _ hl => hl ▸ l.inSession_enter cfg).mono
      (fun _ h => h.2) (fun _ _ h => h) fun _ _ h => h).bind fun _ =>
    (assignIdent_poised fun g => { g with status := .unresolved }).bind fun _ =>
    (assignIdent_poised fun g => { g with devid := 0 }).bind fun _ =>
    (assignIdent_poised fun g => { g with rev := 0 }).bind fun _ => clearGeometry_poised.bind fun _ =>
    (assignIdent_poised fun g => { g with index := 0xFF }).bind fun _ => setSession_poised .programming

/-- EXIT ends outside a session with MCLR undriven (42_session R151). -/
theorem exitBody_poised :
    Op.Leads (State.Poised L M b) exitBody
      (fun _ => State.Poised (fun l => l.mclr.dir = .inp) M (b.setSession .idle)) (Halt.OrReset Q) :=
  ((emitAll_drives exitEvents).poised fun _ _ _ hl => by rw [hl]; rfl).bind fun _ => setSession_poised .idle

/-! ### IDENTIFY (44_identity R171, R172) -/

/-- One more image entry written. -/
theorem memWriteImg_poised (hM : ∀ m m' : Memory, M m → m.Grows m' → M m') (w : Window) (n : Nat) (e : ImgEntry) :
    Op.Leads (State.Poised L (fun m => M m ∧ ∀ a < n, (m.img w a).isSome) b) (memWriteImg w n e)
      (fun _ => State.Poised L (fun m => M m ∧ ∀ a < n + 1, (m.img w a).isSome) b) (Halt.OrReset Q) := by
  refine assign_poised fun u h => ⟨h.performing, h.cfg, h.session, h.ident, h.lines, ?_⟩
  obtain ⟨hm, hn⟩ := h.mem
  have hg := u.mem.grows_setImg w n e
  refine ⟨hM _ _ hm hg, fun a ha => ?_⟩
  obtain ha | rfl := Nat.lt_succ_iff_lt_or_eq.1 ha
  · exact hg.img (hn a ha)
  · rw [Memory.img_setImg]
    rfl

/-- A loop that writes the first `n` image entries of a window. -/
theorem writeImgs_poised (hM : ∀ m m' : Memory, M m → m.Grows m' → M m') (w : Window) (n : Nat) (e : ImgEntry) :
    Op.Leads (State.Poised L M b) (forUp (fun a => memWriteImg w a e) n 0)
      (fun _ => State.Poised L (fun m => M m ∧ ∀ a < n, (m.img w a).isSome) b) (Halt.OrReset Q) := by
  have h := Op.Leads.forUp (P := fun k => State.Poised L (fun m => M m ∧ ∀ a < k, (m.img w a).isSome) b)
    (E := Halt.OrReset Q) n 0 fun k _ _ => memWriteImg_poised hM w k e
  rw [Nat.zero_add] at h
  exact h.mono (fun _ hu => ⟨hu.performing, hu.cfg, hu.session, hu.ident, hu.lines, hu.mem,
    fun _ ha => absurd ha (Nat.not_lt_zero _)⟩) (fun _ _ hu => hu) fun _ _ hu => hu

/-- Every entry of the code image below `n`, and of the configuration image, has been written. -/
def Memory.imagesTo (n : Nat) (m : Memory) : Prop :=
  (∀ a < n, (m.img .codeImg a).isSome) ∧ ∀ i < 8, (m.img .cfgImg i).isSome

/-- Allocation writes the images it names (10_state R28). -/
theorem allocate_poised (words : Nat) :
    Op.Leads (State.Poised L (fun _ => True) b) (allocate words) (fun _ => State.Poised L (Memory.imagesTo words) b)
      (Halt.OrReset Q) :=
  ((writeImgs_poised (fun _ _ _ _ => trivial) .codeImg words _).bind fun _ =>
    writeImgs_poised (fun _ _ h hg => ⟨trivial, fun a ha => hg.img (h.2 a ha)⟩) .cfgImg 8 _).mono (fun _ h => h)
    (fun _ _ h => ⟨h.performing, h.cfg, h.session, h.ident, h.lines, h.mem.1.2, h.mem.2⟩) fun _ _ h => h

theorem readDevId_drives : readDevId.Drives Lines.Kept :=
  (gotoAddress_drives _).bindKept fun _ => (readIcsp_drives _).bindKept fun _ => (readIcsp_drives _).bindKept fun _ =>
    Op.Drives.pure Lines.Kept.refl _

/-- The identity latches of an ID that a catalog entry has (10_state R25, R26). -/
def Identity.ofEntry (d : Word) (k : Nat) (e : CatalogEntry) : Identity :=
  { status := .resolved, devid := d, rev := revision d, index := BitVec.ofNat 8 k, codeSize := e.codeSize
    eraseBlocks := e.eraseBlocks, wbufWords := e.wbufWords }

/-- The identity latches of an ID that no catalog entry has (44_identity R172). -/
def Identity.unknown (d : Word) : Identity :=
  { status := .notFound, devid := d, rev := revision d, index := 0xFF, codeSize := 0, eraseBlocks := 0, wbufWords := 0 }

/-- What IDENTIFY leaves of an ID that the catalog has: the latches of its entry, and the images written. -/
def State.Identified (L : Lines → Prop) (b t : State) : Prop :=
  ∃ d k e, lookup (maskedId d) b.cfg.dev.catalog = some (k, e) ∧
    State.Poised L (Memory.imagesTo (e.codeSize.toNat / 2)) { b with ident := Identity.ofEntry d k e } t

/-- What IDENTIFY leaves of an ID that the catalog does not have: a fault, from a state that says so. -/
def State.Unidentified (L : Lines → Prop) (b t : State) : Prop :=
  ∃ d u, lookup (maskedId d) b.cfg.dev.catalog = none ∧
    State.Poised L (fun _ => True) { b with ident := Identity.unknown d } u ∧
    ∃ c a x v, t = (u.withCause c a x v).complete

theorem identNotFound_poised {d : Word} (hd : lookup (maskedId d) b.cfg.dev.catalog = none) :
    Op.Leads (State.Poised L (fun _ => True) { b with ident := { b.ident with devid := d, rev := revision d } })
      (identNotFound d) (fun _ => State.Identified L b) (Halt.OrReset (State.Unidentified L b)) := by
  refine (assignIdent_poised fun g => { g with index := 0xFF }).bind fun _ => clearGeometry_poised.bind fun _ =>
    (assignIdent_poised fun g => { g with status := .notFound }).bind fun _ => ⟨fun u hu => ?_⟩
  exact .inl ⟨d, u, hd, hu, _, _, _, _, rfl⟩

theorem identResolved_poised {d : Word} (k : Nat) (e : CatalogEntry) :
    Op.Leads (State.Poised L M { b with ident := { b.ident with devid := d, rev := revision d } }) (identResolved k e)
      (fun _ => State.Poised L M { b with ident := Identity.ofEntry d k e }) (Halt.OrReset Q) :=
  (assignIdent_poised fun g => { g with index := BitVec.ofNat 8 k }).bind fun _ =>
    (assignIdent_poised fun g => { g with codeSize := e.codeSize }).bind fun _ =>
    (assignIdent_poised fun g => { g with eraseBlocks := e.eraseBlocks }).bind fun _ =>
    (assignIdent_poised fun g => { g with wbufWords := e.wbufWords }).bind fun _ =>
    assignIdent_poised fun g => { g with status := .resolved }

/-- IDENTIFY latches what the catalog gives for the ID it reads (44_identity R172). -/
theorem identifyBody_poised :
    Op.Leads (State.Poised Lines.inSession (fun _ => True) b) identifyBody (fun _ => State.Identified Lines.inSession b)
      (Halt.OrReset (State.Unidentified Lines.inSession b)) := by
  refine (readDevId_drives.poised fun _ _ hl h => h.inSession hl).bind fun d => ?_
  refine (assignIdent_poised fun g => { g with devid := d }).bind fun _ =>
    (assignIdent_poised fun g => { g with rev := revision d }).bind fun _ => ⟨fun u hu => ?_⟩
  rw [Op.bind_ok (Op.ask_run _ u), hu.cfg]
  rcases hf : lookup (maskedId d) b.cfg.dev.catalog with _ | ⟨k, e⟩
  · exact (identNotFound_poised hf).run u hu
  · exact (((identResolved_poised k e).bind fun _ => (allocate_poised _).bind fun _ => setCfgMm_poised 0).mono
      (fun _ h => h) (fun _ _ h => ⟨d, k, e, hf, h⟩) fun _ _ h => h).run u hu

end

end Sys2Proof.Machine

namespace Sys2Proof.Machine

/-! ## The catalog (44_identity R173) -/

theorem lookupFrom_some {m : Word} {es : List CatalogEntry} {j k : Nat} {e : CatalogEntry}
    (h : lookupFrom m j es = some (k, e)) : ∃ n, k = j + n ∧ es[n]? = some e ∧ e.maskedId = m := by
  induction es generalizing j with
  | nil => cases h
  | cons c es ih =>
    unfold lookupFrom at h
    split at h
    case isTrue hc =>
      cases h
      exact ⟨0, rfl, rfl, hc⟩
    case isFalse =>
      obtain ⟨n, rfl, hn, he⟩ := ih h
      exact ⟨n + 1, by omega, hn, he⟩

theorem lookupFrom_none {m : Word} {es : List CatalogEntry} {j : Nat} (h : lookupFrom m j es = none) :
    ∀ e ∈ es, e.maskedId ≠ m := by
  induction es generalizing j with
  | nil => exact fun _ he => nomatch he
  | cons c es ih =>
    unfold lookupFrom at h
    split at h
    case isTrue => cases h
    case isFalse hc => exact fun e he => (List.mem_cons.1 he).elim (fun h => h ▸ hc) (ih h e)

/-- What the comparator finds is an entry of the catalog with that masked ID. -/
theorem lookup_some {m : Word} {es : List CatalogEntry} {k : Nat} {e : CatalogEntry} (h : lookup m es = some (k, e)) :
    es[k]? = some e ∧ e.maskedId = m := by
  obtain ⟨n, rfl, hn⟩ := lookupFrom_some h
  rwa [Nat.zero_add]

/-- An index into the catalog fits its latch (44_identity R170). -/
theorem catalog_index_lt (cfg : Config) {k : Nat} {e : CatalogEntry} (h : cfg.dev.catalog[k]? = some e) :
    k < 256 := by
  obtain ⟨hk, -⟩ := List.getElem?_eq_some_iff.1 h
  have hwf := cfg.dev_wf
  simp only [DeviceParams.wf, Bool.and_eq_true, decide_eq_true_eq] at hwf
  obtain ⟨⟨⟨⟨-, hlen⟩, -⟩, -⟩, -⟩ := hwf
  omega

/-! ## The invariant -/

/-- The invariant but for the idle sequencer and the form of the buffers: what also holds while an operation runs, other
than ENTER, EXIT and IDENTIFY. -/
structure State.Sound (s : State) : Prop where
  settled : s.session ≠ .enteringKey
  inSession : s.session = .programming → s.link.lines.inSession
  released : s.session = .idle → s.link.lines.mclr.dir = .inp
  ident : s.identInv
  image : s.imageInv
  progress : s.progressInv

theorem State.inv_iff (s : State) :
    s.inv ↔ s.mem.wf ∧ (s.seq.busy = false ∧ s.seq.position = none) ∧ s.Sound := by
  constructor
  · rintro ⟨hmem, ⟨hbusy, hpos, hset, hin, hout⟩, hident, himage, hprog⟩
    exact ⟨hmem, ⟨hbusy, hpos⟩, hset, hin, hout, hident, himage, hprog⟩
  · rintro ⟨hmem, ⟨hbusy, hpos⟩, hset, hin, hout, hident, himage, hprog⟩
    exact ⟨hmem, ⟨hbusy, hpos, hset, hin, hout⟩, hident, himage, hprog⟩

/-- A change that keeps the session and the identity, leaves the lines as whole transactions do, and takes no value
away. -/
theorem State.Sound.of_kept {s t : State} (h : s.Sound) (hc : t.cfg = s.cfg) (hs : t.session = s.session)
    (hi : t.ident = s.ident) (hl : s.link.lines.Kept t.link.lines) (hm : s.mem.Grows t.mem) (hp : t.progressInv) :
    t.Sound := by
  refine ⟨hs ▸ h.settled, fun hx => hl.inSession (h.inSession (hs ▸ hx)), fun hx => ?_, ?_, fun hx => ?_, hp⟩
  · rw [hl.1]
    exact h.released (hs ▸ hx)
  · have := h.ident
    unfold State.identInv at this ⊢
    rwa [hi, hc]
  · obtain ⟨hcode, hcfg⟩ := h.image (hi ▸ hx)
    exact ⟨fun a ha => hm.img (hcode a (by rwa [← hi])), fun i hi => hm.img (hcfg i hi)⟩

/-- Completion and the fault registers are no part of it. -/
theorem State.Sound.congr {s t : State} (h : s.Sound) (hc : t.cfg = s.cfg) (hs : t.session = s.session)
    (hi : t.ident = s.ident) (hl : t.link.lines = s.link.lines) (hm : t.mem = s.mem)
    (hp : t.seq.lastPct = s.seq.lastPct ∧ t.seq.phase = s.seq.phase) : t.Sound :=
  h.of_kept hc hs hi (hl ▸ .refl _) (hm ▸ .refl _) (by
    obtain ⟨hpct, hph⟩ := hp
    have := h.progress
    unfold State.progressInv at this ⊢
    rwa [hpct, hph])

/-- A sequencer that has reported nothing. -/
theorem State.progressInv_of_none {s : State} (hl : s.seq.lastPct = none) (hp : s.seq.phase = .none) :
    s.progressInv := by
  unfold State.progressInv
  rw [hl, hp]
  exact ⟨⟨fun _ => rfl, fun _ => rfl⟩, fun _ h => nomatch h⟩

theorem State.sound_hardReset (s : State) : s.hardReset.Sound :=
  ⟨nofun, nofun, fun _ => rfl, rfl, nofun, State.progressInv_of_none rfl rfl⟩

/-- What a step leaves: no operation running, and the rest of the invariant but for the form of the buffers. -/
def State.AtRest (s : State) : Prop := (s.seq.busy = false ∧ s.seq.position = none) ∧ s.Sound

theorem State.atRest_hardReset (s : State) : s.hardReset.AtRest := ⟨⟨rfl, rfl⟩, s.sound_hardReset⟩

theorem State.Sound.complete {s : State} (h : s.Sound) : s.complete.AtRest :=
  ⟨⟨rfl, rfl⟩, h.congr rfl rfl rfl rfl rfl ⟨rfl, rfl⟩⟩

theorem State.Sound.withCause {s : State} (h : s.Sound) (c : Cause) (a : Addr) (e v : Word) : (s.withCause c a e v).Sound :=
  h.congr rfl rfl rfl rfl rfl ⟨rfl, rfl⟩

/-! ### The operations that keep the session and the identity -/

theorem State.Worked.sound {i : Instr} {s t : State} (h : s.Worked i t) (hs : s.Sound) (hr : s.seq.replaying = false)
    (he : i ≠ .enter) (hx : i ≠ .exit) (hi : i ≠ .identify) : t.Sound :=
  hs.of_kept h.cfg (h.session he hx) (h.ident he hi) (h.lines he hx hr).2 h.mem (h.progress hs.progress)

theorem State.Finished.atRest {i : Instr} {s t : State} (h : s.Finished i t) (hs : s.Sound)
    (hr : s.seq.replaying = false) (he : i ≠ .enter) (hx : i ≠ .exit) (hi : i ≠ .identify) : t.AtRest := by
  obtain ⟨u, hu, rfl | ⟨c, a, e, v, rfl⟩⟩ | ⟨-, u, rfl⟩ := h
  · exact (hu.sound hs hr he hx hi).complete
  · exact ((hu.sound hs hr he hx hi).withCause c a e v).complete
  · exact u.atRest_hardReset

/-! ### Acceptance -/

theorem State.begun_seq (i : Instr) (op : Byte) (s : State) : (s.begun i op).seq = (s.accept op).seq := by
  unfold State.begun
  split
  · rfl
  · split <;> rfl

theorem State.begun_performing (i : Instr) (op : Byte) (s : State) : (s.begun i op).seq.replaying = false := by
  rw [State.begun_seq]
  rfl

theorem State.begun_progress (i : Instr) (op : Byte) (s : State) : (s.begun i op).progressInv :=
  State.progressInv_of_none (by rw [State.begun_seq]; rfl) (by rw [State.begun_seq]; rfl)

/-- What the acceptance leaves of the rest of the state. -/
theorem State.begun_kept (i : Instr) (op : Byte) (s : State) :
    (s.begun i op).cfg = s.cfg ∧ (s.begun i op).ident = s.ident ∧ (s.begun i op).mem = s.mem ∧
      (s.begun i op).link = s.link ∧ (i ≠ .enter → (s.begun i op).session = s.session) := by
  unfold State.begun
  split
  case isTrue he => exact ⟨rfl, rfl, rfl, rfl, fun h => absurd he h⟩
  case isFalse => split <;> exact ⟨rfl, rfl, rfl, rfl, fun _ => rfl⟩

theorem State.Sound.begun {s : State} (h : s.Sound) {i : Instr} (he : i ≠ .enter) (op : Byte) : (s.begun i op).Sound := by
  obtain ⟨hcfg, hident, hmem, hlink, hsession⟩ := s.begun_kept i op
  exact h.of_kept hcfg (hsession he) hident (hlink ▸ .refl _) (hmem ▸ .refl _) (s.begun_progress i op)

/-! ### ENTER, EXIT and IDENTIFY -/

/-- What an operation's pseudocode leads to, after the host accesses that are due at once, and what every operation
keeps, together. -/
theorem operation_poised {L : Lines → Prop} {M : Memory → Prop} {b t : State} {Q R : State → Prop} {i : Instr}
    (hi : Op.Leads (State.Poised L M b) (pseudocode i) (fun _ => Q) (Halt.OrReset R)) (hb : State.Poised L M b b)
    (h : finish ((do hostWindow; pseudocode i : Op Unit) b) = .next t) :
    (∃ u, b.Worked i u ∧ Q u ∧ t = u.complete) ∨ (b.Halted i .ended t ∧ R t) ∨ ∃ u : State, t = u.hardReset := by
  have hw := (operation_works i b).leads.run b (.refl i b)
  have hp := ((hostWindow_drives.poised fun _ _ hl h => h ▸ hl).bind fun _ => hi).run b hb
  obtain ⟨u, hr, rfl⟩ | hr := finish_next h <;> rw [hr] at hw hp
  · exact .inl ⟨u, hw, hp, rfl⟩
  · exact .inr (hp.imp_left fun hR => ⟨hw, hR⟩)

/-- ENTER from its acceptance on: in a session with no identity, or reset. -/
theorem enter_finish {b t : State} (hb : b.seq.replaying = false)
    (h : finish ((do hostWindow; pseudocode .enter : Op Unit) b) = .next t) :
    (∃ u, b.Worked .enter u ∧ u.session = .programming ∧ u.ident = {} ∧ u.link.lines.inSession ∧ t = u.complete) ∨
      ∃ u : State, t = u.hardReset := by
  obtain ⟨u, hu, hp, rfl⟩ | ⟨-, hR⟩ | hR := operation_poised (i := .enter)
    (enterBody_poised (L := fun _ => True) (M := fun _ => True) (Q := fun _ => False)) ⟨hb, rfl, rfl, rfl, trivial, trivial⟩ h
  · exact .inl ⟨u, hu, hp.session, hp.ident, hp.lines, rfl⟩
  · exact hR.elim
  · exact .inr hR

/-- EXIT from its acceptance on: outside a session with MCLR released, or reset. -/
theorem exit_finish {b t : State} (hb : b.seq.replaying = false)
    (h : finish ((do hostWindow; pseudocode .exit : Op Unit) b) = .next t) :
    (∃ u, b.Worked .exit u ∧ u.session = .idle ∧ u.link.lines.mclr.dir = .inp ∧ t = u.complete) ∨
      ∃ u : State, t = u.hardReset := by
  obtain ⟨u, hu, hp, rfl⟩ | ⟨-, hR⟩ | hR := operation_poised (i := .exit)
    (exitBody_poised (L := fun _ => True) (M := fun _ => True) (Q := fun _ => False)) ⟨hb, rfl, rfl, rfl, trivial, trivial⟩ h
  · exact .inl ⟨u, hu, hp.session, hp.lines, rfl⟩
  · exact hR.elim
  · exact .inr hR

theorem enter_atRest {b t : State} (hb : b.seq.replaying = false) (hp : b.progressInv)
    (h : finish ((do hostWindow; pseudocode .enter : Op Unit) b) = .next t) : t.AtRest := by
  obtain ⟨u, hu, hs, hi, hl, rfl⟩ | ⟨u, rfl⟩ := enter_finish hb h
  · refine State.Sound.complete ⟨by simp [hs], fun _ => hl, by simp [hs], ?_, fun hx => ?_, hu.progress hp⟩
    · unfold State.identInv
      simp [hi]
    · rw [hi] at hx
      cases hx
  · exact u.atRest_hardReset

theorem exit_atRest {b t : State} (hb : b.seq.replaying = false) (hs : b.Sound)
    (h : finish ((do hostWindow; pseudocode .exit : Op Unit) b) = .next t) : t.AtRest := by
  obtain ⟨u, hu, hx, hl, rfl⟩ | ⟨u, rfl⟩ := exit_finish hb h
  · have hident := hu.ident (by decide) (by decide)
    refine State.Sound.complete ⟨by simp [hx], by simp [hx], fun _ => hl, ?_, fun hr => ?_, hu.progress hs.progress⟩
    · have := hs.ident
      unfold State.identInv at this ⊢
      rwa [hident, hu.cfg]
    · obtain ⟨hcode, hcfg⟩ := hs.image (hident ▸ hr)
      exact ⟨fun a ha => hu.mem.img (hcode a (by rwa [← hident])), fun i hi => hu.mem.img (hcfg i hi)⟩
  · exact u.atRest_hardReset

theorem State.Identified.sound {b t : State} (h : State.Identified Lines.inSession b t) (hs : b.session = .programming)
    (hp : t.progressInv) : t.Sound := by
  obtain ⟨d, k, e, hf, ht⟩ := h
  obtain ⟨hk, hd⟩ := lookup_some hf
  have hsession : t.session = .programming := ht.session.trans hs
  have hident : t.ident = Identity.ofEntry d k e := ht.ident
  have hcfg : t.cfg = b.cfg := ht.cfg
  have hindex : (BitVec.ofNat 8 k).toNat = k := by
    rw [BitVec.toNat_ofNat, Nat.mod_eq_of_lt (catalog_index_lt b.cfg hk)]
  refine ⟨by simp [hsession], fun _ => ht.lines, by simp [hsession], ?_, fun _ => ?_, hp⟩
  · unfold State.identInv
    rw [hident, hcfg]
    exact ⟨e, by rw [show (Identity.ofEntry d k e).index = BitVec.ofNat 8 k from rfl, hindex]; exact hk, rfl, rfl, rfl,
      hd.symm, rfl⟩
  · have hm := ht.mem
    unfold State.imagesWritten
    rw [hident]
    exact hm

theorem State.Unidentified.atRest {b t : State} (h : State.Unidentified Lines.inSession b t)
    (hs : b.session = .programming) (hp : t.progressInv) : t.AtRest := by
  obtain ⟨d, u, hf, hu, c, a, x, v, rfl⟩ := h
  have hsession : u.session = .programming := hu.session.trans hs
  have hident : u.ident = Identity.unknown d := hu.ident
  have hcfg : u.cfg = b.cfg := hu.cfg
  have hsound : u.Sound := by
    refine ⟨by simp [hsession], fun _ => hu.lines, by simp [hsession], ?_, fun hx => ?_, hp⟩
    · unfold State.identInv
      rw [hident, hcfg]
      exact ⟨rfl, rfl, rfl, rfl, rfl, lookupFrom_none hf⟩
    · rw [hident] at hx
      cases hx
  exact (hsound.withCause c a x v).complete

theorem identify_atRest {b t : State} (hb : b.seq.replaying = false) (hs : b.Sound) (hx : b.session = .programming)
    (h : finish ((do hostWindow; pseudocode .identify : Op Unit) b) = .next t) : t.AtRest := by
  obtain ⟨u, hu, hp, rfl⟩ | ⟨hw, hp⟩ | ⟨u, rfl⟩ := operation_poised (i := .identify) identifyBody_poised
    ⟨hb, rfl, rfl, rfl, hs.inSession hx, trivial⟩ h
  · exact (hp.sound hx (hu.progress hs.progress)).complete
  · obtain ⟨u, hu, c, a, e, v, rfl⟩ | ⟨-, u, rfl⟩ := hw
    · exact hp.atRest hx (hu.progress hs.progress)
    · exact u.atRest_hardReset
  · exact u.atRest_hardReset

/-! ### Every instruction, and the step -/

theorem hostOp_session {i : Instr} {op : Byte} {k : OpClass} (h : hostOp i = some (op, k)) (he : i ≠ .enter) :
    k.session = .programming := by
  cases i with
  | enter => exact absurd rfl he
  | _ => cases h <;> rfl

theorem exec_atRest {i : Instr} {s t : State} (hs : s.AtRest) (h : exec i s = .next t) : t.AtRest := by
  obtain ⟨⟨hbusy, hpos⟩, hsound⟩ := hs
  cases hi : hostOp i with
  | none =>
    obtain ⟨x, hx, he⟩ := exec_eq_runLink_works hi
    have hr : s.seq.replaying = false := by rw [Sequencer.replaying, hpos]
    have hne (j : Instr) (hj : hostOp j ≠ none) : i ≠ j := fun h => hj (h ▸ hi)
    obtain hw | hf := (hx s).runLink (he ▸ h)
    · exact ⟨⟨hw.busy.trans hbusy, hw.orderly.idle hpos⟩,
        hw.sound hsound hr (hne _ nofun) (hne _ nofun) (hne _ nofun)⟩
    · exact hf.atRest hsound hr (hne _ nofun) (hne _ nofun) (hne _ nofun)
  | some ok =>
    obtain ⟨op, k⟩ := ok
    obtain ⟨hb, -⟩ | ⟨-, -, he⟩ | ⟨-, hc, he⟩ := exec_host_cases hi s
    · rw [hbusy] at hb
      cases hb
    · rw [he] at h
      cases h
      exact ⟨⟨rfl, rfl⟩, hsound.of_kept rfl rfl rfl (.refl _) (.refl _) (State.progressInv_of_none rfl rfl)⟩
    · rw [he] at h
      have hr := s.begun_performing i op
      obtain ⟨-, hses, -⟩ := issueCheck_passed hc
      by_cases hen : i = .enter
      · subst hen
        exact enter_atRest hr (s.begun_progress _ op) h
      have hb := hsound.begun hen op
      by_cases hex : i = .exit
      · subst hex
        exact exit_atRest hr hb h
      by_cases hid : i = .identify
      · subst hid
        obtain ⟨-, -, -, -, hsession⟩ := s.begun_kept .identify op
        exact identify_atRest hr hb ((hsession hen).trans (hses.trans (hostOp_session hi hen))) h
      · exact ((operation_works i _).finish h).atRest hb hr hen hex hid

/-! #### Host accesses between operations -/

theorem State.hostWrite_seq (s : State) (o : HostOffset) (v : HostWord) : (s.hostWrite o v).seq = s.seq := by
  unfold State.hostWrite
  split
  case h_1 r _ => cases r <;> rfl
  case h_2 w i _ => cases w <;> rfl
  case h_3 => rfl
  case h_4 => rfl

theorem State.sound_hostWrite {s : State} (h : s.Sound) (o : HostOffset) (v : HostWord) : (s.hostWrite o v).Sound := by
  unfold State.hostWrite
  split
  case h_1 r _ => cases r <;> exact h.congr rfl rfl rfl rfl rfl ⟨rfl, rfl⟩
  case h_2 w i _ =>
    cases w with
    | cfgImg | codeImg => exact h.of_kept rfl rfl rfl (.refl _) (Memory.grows_setImg _ _ _ _) h.progress
    | eeImg => exact h.of_kept rfl rfl rfl (.refl _) (Memory.grows_setEntry8 _ _ _ _) h.progress
    | cfgRb | uidBuf => exact h
  case h_3 => exact h.congr rfl rfl rfl rfl rfl ⟨rfl, rfl⟩
  case h_4 => exact h

theorem State.atRest_hostRead {s t : State} (h : s.AtRest) {o : HostOffset} (ht : s.hostRead o = .ok t) : t.AtRest := by
  have hread (v : HostWord) : (s.gotRead o v).AtRest := ⟨h.1, h.2.congr rfl rfl rfl rfl rfl ⟨rfl, rfl⟩⟩
  unfold State.hostRead at ht
  split at ht
  · cases ht
    exact hread _
  · split at ht <;> cases ht
    exact hread _
  · cases ht
    exact hread _
  · cases ht
    exact hread _

theorem hostTurn_atRest {a : HostAct} {s t : State} (hs : s.AtRest) (h : hostTurn a s = .next t) : t.AtRest := by
  obtain ⟨⟨hbusy, hpos⟩, hsound⟩ := hs
  unfold hostTurn at h
  rw [hbusy] at h
  cases a with
  | reset =>
    cases h
    exact s.atRest_hardReset
  | read o w =>
    simp only at h
    split at h
    · simp only [Bool.false_eq_true, if_false] at h
      split at h <;> cases h
      exact State.atRest_hostRead ⟨⟨hbusy, hpos⟩, hsound⟩ ‹_›
    · cases h
  | write o w v =>
    simp only at h
    split at h <;> cases h
    exact ⟨by rw [if_neg (by simp), State.hostWrite_seq]; exact ⟨hbusy, hpos⟩, State.sound_hostWrite hsound o v⟩

theorem State.AtRest.withTxns {s : State} (h : s.AtRest) (ws : List LinkWord) : ({ s with txns := ws } : State).AtRest :=
  ⟨h.1, h.2.congr rfl rfl rfl rfl rfl ⟨rfl, rfl⟩⟩

theorem State.AtRest.withInputs {s : State} (h : s.AtRest) (is : List Input) : (s.withInputs is).AtRest :=
  ⟨h.1, h.2.congr rfl rfl rfl rfl rfl ⟨rfl, rfl⟩⟩

theorem step_atRest {s t : State} (hs : s.AtRest) (h : step s = .next t) : t.AtRest := by
  unfold step at h
  rw [if_neg (by simp [hs.1.1])] at h
  split at h
  case h_1 w rest _ =>
    split at h
    · exact exec_atRest (hs.withTxns rest) h
    · cases h
  case h_2 =>
    split at h
    · cases h
      exact hs
    · split at h
      · exact exec_atRest (hs.withInputs _) h
      · exact hostTurn_atRest (hs.withInputs _) h

/-- Settles O52: a step keeps the form of the buffers (O53), and leaves the block at rest, whether it runs an
instruction or serves a host access. -/
theorem stepKeepsInvariant : Obligations.StepKeepsInvariant := by
  intro s t hs h
  obtain ⟨hmem, hrest, hsound⟩ := s.inv_iff.1 hs
  obtain ⟨hrest', hsound'⟩ := step_atRest ⟨hrest, hsound⟩ h
  exact t.inv_iff.2 ⟨(step_formKept h).mem hmem, hrest', hsound'⟩

/-- An instruction that changes the session has passed its issue check, and run. -/
theorem exec_session_changed {i : Instr} {op : Byte} {k : OpClass} (hi : hostOp i = some (op, k)) {s t : State}
    (h : exec i s = .next t) (hne : t.session ≠ s.session) :
    s.session = k.session ∧ finish ((do hostWindow; pseudocode i : Op Unit) (s.begun i op)) = .next t := by
  obtain ⟨-, he⟩ | ⟨-, -, he⟩ | ⟨-, hc, he⟩ := exec_host_cases hi s <;> rw [he] at h
  · cases h
    exact absurd rfl hne
  · cases h
    exact absurd rfl hne
  · obtain ⟨-, hs, -⟩ := issueCheck_passed hc
    exact ⟨hs, h⟩

/-- Settles O55: the session is in the frame of every instruction but ENTER and EXIT, which end as their pseudocode
says, or in a reset that leaves it idle. -/
theorem sessionChangers : Obligations.SessionChangers := by
  intro i s t h hr hne
  by_cases hen : i = .enter
  · subst hen
    obtain ⟨hs, hf⟩ := exec_session_changed rfl h hne
    obtain ⟨u, -, hu, -, -, rfl⟩ | ⟨u, rfl⟩ := enter_finish (s.begun_performing _ _) hf
    · exact .inl ⟨rfl, hs, hu⟩
    · exact absurd hs.symm hne
  by_cases hex : i = .exit
  · subst hex
    obtain ⟨hs, hf⟩ := exec_session_changed rfl h hne
    obtain ⟨u, -, hu, -, rfl⟩ | ⟨u, rfl⟩ := exit_finish (s.begun_performing _ _) hf
    · exact .inr ⟨rfl, hs, hu⟩
    · exact .inr ⟨rfl, hs, rfl⟩
  · have hf := exec_framed h fun ⟨x, hx, he⟩ => hr x hx he
    exact absurd (hf.session hen hex) hne

end Sys2Proof.Machine

/-! PROOF of the host bus statements O10, O11, O12, O13, O15 and of O22: the bits of a host word made of fields, then each
register and each buffer entry as the host sees it. -/

namespace Sys2Proof.Machine

/-! ## Fields of a host word -/

/-- The bits of a field. -/
theorem getLsbD_fieldAt {n : Nat} (v : BitVec n) (p k : Nat) :
    (fieldAt v p).getLsbD k = (decide (k < 32) && decide (p ≤ k) && v.getLsbD (k - p)) := by
  rw [fieldAt, BitVec.getLsbD_shiftLeft, BitVec.getLsbD_setWidth]
  simp only [← decide_not, Nat.not_lt]
  by_cases hk : k < 32
  · simp [hk, show k - p < 32 by omega]
  · simp [hk]

/-- The bit of a flag. -/
theorem getLsbD_flagAt (b : Bool) (p k : Nat) : (flagAt b p).getLsbD k = (decide (k < 32) && decide (k = p) && b) := by
  have hp : (decide (p ≤ k) && decide (k - p = 0)) = decide (k = p) := by
    rw [← Bool.decide_and, decide_eq_decide]
    omega
  rw [flagAt, getLsbD_fieldAt, BitVec.getLsbD_ofBool, Bool.and_assoc, ← Bool.and_assoc (decide (p ≤ k)), hp,
    Bool.and_assoc]

/-- A field at bit 0 is its value. -/
theorem fieldAt_zero {n : Nat} (v : BitVec n) : fieldAt v 0 = v.setWidth 32 := by rw [fieldAt, BitVec.shiftLeft_zero]

/-- A bit of STATUS. -/
theorem getLsbD_statusWord (s : State) (k : Nat) :
    (statusWord s).getLsbD k = (decide (k < 32) && (decide (k = 0) && s.seq.busy ||
      decide (1 ≤ k) && s.session.code.getLsbD (k - 1) || decide (3 ≤ k) && s.ident.status.code.getLsbD (k - 3) ||
      decide (k = 5) && s.regs.done || decide (k = 6) && faultFlag s.regs || decide (k = 7) && cfgMismatchFlag s.regs ||
      decide (k = 8) && s.regs.progEvt || decide (k = 9) && s.regs.overrun || decide (k = 10) && s.regs.accErr)) := by
  simp only [statusWord, BitVec.getLsbD_or, getLsbD_fieldAt, getLsbD_flagAt, Bool.and_assoc, Bool.and_or_distrib_left]

/-- A field of a word whose bits are those of `v`. -/
theorem extractLsb'_of_bits {n p : Nat} {w : HostWord} {v : BitVec n} (h : ∀ k < n, w.getLsbD (p + k) = v.getLsbD k) :
    w.extractLsb' p n = v := by
  ext k hk
  rw [BitVec.getElem_extractLsb', h k hk, BitVec.getLsbD_eq_getElem hk]

/-- A word with no bit from `p` on. -/
theorem ushiftRight_of_bits {p : Nat} {w : HostWord} (h : ∀ k, p ≤ k → w.getLsbD k = false) : w >>> p = 0 := by
  apply BitVec.eq_of_getLsbD_eq
  intro k _
  rw [BitVec.getLsbD_ushiftRight, h _ (Nat.le_add_right p k)]
  exact BitVec.getLsbD_zero.symm

/-- Settles O10: each bit is read off `getLsbD_statusWord`. -/
theorem statusRegisterFields : Obligations.StatusRegisterFields := by
  intro s
  have hb := getLsbD_statusWord s
  have hs : (statusWord s).extractLsb' 1 2 = s.session.code := extractLsb'_of_bits fun k hk => by
    rw [hb]
    interval_cases k <;> simp
  have hi : (statusWord s).extractLsb' 3 2 = s.ident.status.code := extractLsb'_of_bits fun k hk => by
    rw [hb]
    interval_cases k <;> simp
  refine ⟨(hb 0).trans (by simp), ?_, ?_, (hb 5).trans (by simp), ?_, ?_, (hb 8).trans (by simp), (hb 9).trans (by simp),
    (hb 10).trans (by simp), ushiftRight_of_bits fun k hk => ?_⟩
  · rw [hs]
    cases s.session <;> rfl
  · rw [hi]
    cases s.ident.status <;> rfl
  · rw [hb]
    simp [faultFlag]
  · rw [hb]
    simp [cfgMismatchFlag]
  · rw [hb, BitVec.getLsbD_of_ge _ (k - 1) (by omega), BitVec.getLsbD_of_ge _ (k - 3) (by omega)]
    simp
    omega

/-! ## The views -/

/-- The two fields of a word, each within its byte. -/
theorem fieldPair {n m : Nat} (hn : n ≤ 8) (hm : m ≤ 8) (a : BitVec n) (b : BitVec m) :
    (fieldAt a 0 ||| fieldAt b 8).extractLsb' 0 8 = a.setWidth 8 ∧
      (fieldAt a 0 ||| fieldAt b 8).extractLsb' 8 8 = b.setWidth 8 ∧ (fieldAt a 0 ||| fieldAt b 8) >>> 16 = 0 := by
  refine ⟨extractLsb'_of_bits fun k hk => ?_, extractLsb'_of_bits fun k hk => ?_, ushiftRight_of_bits fun k hk => ?_⟩
  · simp only [BitVec.getLsbD_or, getLsbD_fieldAt]
    simp [hk, show k < 32 by omega, show ¬8 ≤ k by omega]
  · simp only [BitVec.getLsbD_or, getLsbD_fieldAt]
    simp [hk, show 8 + k < 32 by omega, BitVec.getLsbD_of_ge a (8 + k) (by omega)]
  · simp [getLsbD_fieldAt, BitVec.getLsbD_of_ge a k (by omega), BitVec.getLsbD_of_ge b (k - 8) (by omega)]

/-- The fields of PROGRESS: a percentage is valid where one was reported (10_state R29, R37). -/
theorem progressWord_fields (q : Sequencer) :
    (progressWord q).getLsbD 7 = q.lastPct.isSome ∧ (progressWord q).extractLsb' 0 7 = q.lastPct.getD 0 ∧
      (progressWord q).extractLsb' 8 3 = q.phase.code ∧ progressWord q >>> 11 = 0 := by
  unfold progressWord
  cases q.lastPct with
  | none =>
    refine ⟨by rw [getLsbD_fieldAt]; rfl, extractLsb'_of_bits fun k hk => ?_, extractLsb'_of_bits fun k hk => ?_,
      ushiftRight_of_bits fun k hk => ?_⟩
    · rw [getLsbD_fieldAt]
      simp [show ¬8 ≤ k by omega]
    · rw [getLsbD_fieldAt]
      simp [show 8 + k < 32 by omega]
    · simp [getLsbD_fieldAt, BitVec.getLsbD_of_ge q.phase.code (k - 8) (by omega)]
  | some p =>
    have hb (k : Nat) : (fieldAt p 0 ||| flagAt true 7 ||| fieldAt q.phase.code 8).getLsbD k =
        (decide (k < 32) && (p.getLsbD k || decide (k = 7) || decide (8 ≤ k) && q.phase.code.getLsbD (k - 8))) := by
      simp [getLsbD_fieldAt, getLsbD_flagAt, Bool.and_or_distrib_left, Bool.and_assoc]
    refine ⟨(hb 7).trans (by simp), extractLsb'_of_bits fun k hk => ?_, extractLsb'_of_bits fun k hk => ?_,
      ushiftRight_of_bits fun k hk => ?_⟩
    · rw [hb]
      simp [show k < 32 by omega, show ¬8 ≤ k by omega, show k ≠ 7 by omega]
    · rw [hb, BitVec.getLsbD_of_ge p (8 + k) (by omega)]
      simp [show 8 + k < 32 by omega, show 8 + k ≠ 7 by omega]
    · rw [hb, BitVec.getLsbD_of_ge p k (by omega), BitVec.getLsbD_of_ge q.phase.code (k - 8) (by omega)]
      simp [show k ≠ 7 by omega]

/-- A bit of PINS (10_state R41). -/
theorem getLsbD_pinsWord (l : Lines) (k : Nat) :
    (pinsWord l).getLsbD k = (decide (k < 32) && (decide (k = 0) && l.pgc.dir == .out || decide (k = 1) && l.pgc.lat ||
      decide (k = 2) && l.pgd.dir == .out || decide (k = 3) && l.pgd.lat || decide (k = 4) && l.mclr.dir == .out ||
      decide (k = 5) && l.mclr.lat)) := by
  simp only [pinsWord, BitVec.getLsbD_or, getLsbD_flagAt, Bool.and_assoc, Bool.and_or_distrib_left]

/-- Settles O11: PROGRESS, IDINFO and GEOM by their fields, PINS bit by bit. -/
theorem viewRegisterFields : Obligations.ViewRegisterFields := by
  intro s
  obtain ⟨hvalid, hpct, hphase, hrest⟩ := progressWord_fields s.seq
  have hid := fieldPair (by decide) (Nat.le_refl 8) s.ident.rev s.ident.index
  rw [BitVec.setWidth_eq] at hid
  have hp := getLsbD_pinsWord s.link.lines
  refine ⟨⟨hvalid, hpct, ?_, hrest⟩, hid, fieldPair (by decide) (by decide) _ _, ?_, (hp 1).trans (by simp), ?_,
    (hp 3).trans (by simp), ?_, (hp 5).trans (by simp), ushiftRight_of_bits fun k hk => ?_⟩
  · refine hphase.trans ?_
    cases s.seq.phase <;> rfl
  · rw [show regWord s .pins = pinsWord s.link.lines from rfl, hp]
    simp
  · rw [show regWord s .pins = pinsWord s.link.lines from rfl, hp]
    simp
  · rw [show regWord s .pins = pinsWord s.link.lines from rfl, hp]
    simp
  · rw [show regWord s .pins = pinsWord s.link.lines from rfl, hp]
    simp
    omega

/-! ## Registers -/

/-- The registers in the order of their offsets (10_state R30). -/
def Reg.all : List Reg :=
  [.cmd, .arg0, .arg1, .ctrl, .status, .cause, .faultAddr, .faultExp, .faultAct, .result, .progress, .devid, .idinfo,
    .codeSize, .geom, .eePollMax, .cfgMm, .pins]

theorem Reg.mem_all (r : Reg) : r ∈ Reg.all := by cases r <;> decide

theorem placeAt_offset (cfg : Config) (r : Reg) : placeAt cfg r.offset.toNat = .reg r := by cases r <;> rfl

theorem Reg.offset_defined (r : Reg) : accessDefined r.offset 4 = true := by cases r <;> rfl

/-- A read of a register's offset between operations. -/
theorem hostTurn_readReg {s : State} (h : s.seq.busy = false) (r : Reg) :
    hostTurn (.read r.offset 4) s = .next (s.gotRead r.offset (regWord s r)) := by
  simp only [hostTurn, r.offset_defined, h, State.hostRead, placeAt_offset, if_true, Bool.false_eq_true, if_false]

/-- A write of a register's offset between operations. -/
theorem hostTurn_writeReg {s : State} (h : s.seq.busy = false) (r : Reg) (v : HostWord) :
    hostTurn (.write r.offset 4 v) s = .next (s.writeReg r v) := by
  simp only [hostTurn, r.offset_defined, h, State.hostWrite, placeAt_offset, if_true, Bool.false_eq_true, if_false]

/-- CAUSE as its codes (60_exceptions R283). -/
theorem regWord_cause (s : State) : regWord s .cause =
    match s.regs.cause with
    | .none => 0
    | .badop => 1
    | .state => 2
    | .ident => 3
    | .badarg => 4
    | .verify => 5
    | .nonblank => 6
    | .eeTimeout => 7 := by
  simp only [regWord]
  cases s.regs.cause <;> rfl

/-- Settles O12: the list is every register at its offset with its word, and `hostTurn_readReg` reads it. -/
theorem hostReadsRegister : Obligations.HostReadsRegister := by
  intro s view
  have hview : view = Reg.all.map fun r => (r, r.offset, regWord s r) := by
    simp only [Reg.all, List.map_cons, List.map_nil, regWord_cause]
    simp only [regWord, fieldAt_zero]
    rfl
  rw [hview]
  refine ⟨fun r => List.mem_map_of_mem r.mem_all, fun r o v hm hb => ?_⟩
  obtain ⟨r', -, he⟩ := List.mem_map.1 hm
  cases he
  exact hostTurn_readReg hb r

/-- The registers that ignore a host write (10_state R30). -/
def Reg.readOnly : List Reg :=
  [.cause, .faultAddr, .faultExp, .faultAct, .result, .progress, .devid, .idinfo, .codeSize, .geom, .cfgMm, .pins]

theorem State.writeReg_readOnly (s : State) (v : HostWord) : ∀ r ∈ Reg.readOnly, s.writeReg r v = s := by
  simp [Reg.readOnly, State.writeReg]

/-- Settles O13: each offset is a register's, and `hostTurn_writeReg` writes it. -/
theorem hostWritesRegister : Obligations.HostWritesRegister := by
  intro s v hb
  refine ⟨hostTurn_writeReg hb .arg0 v, hostTurn_writeReg hb .arg1 v, hostTurn_writeReg hb .ctrl v,
    hostTurn_writeReg hb .eePollMax v, hostTurn_writeReg hb .status v, fun o ho => ?_⟩
  rw [show ([0x014, 0x018, 0x01C, 0x020, 0x024, 0x028, 0x02C, 0x030, 0x034, 0x038, 0x040, 0x044] : List HostOffset) =
    Reg.readOnly.map Reg.offset from rfl] at ho
  obtain ⟨r, hr, rfl⟩ := List.mem_map.1 ho
  rw [hostTurn_writeReg hb r v, s.writeReg_readOnly v r hr]

end Sys2Proof.Machine

namespace Sys2Proof.Machine

/-! ## Buffer entries -/

/-- No buffer is larger than its window (00_scope R8, log 18). -/
theorem Window.backed_le_span (cfg : Config) (w : Window) : w.backed cfg ≤ w.span := by
  cases w with
  | eeImg => exact cfg.ee_wf
  | codeImg =>
    have hwf := cfg.dev_wf
    simp only [DeviceParams.wf, Bool.and_eq_true, decide_eq_true_eq] at hwf
    obtain ⟨⟨-, hmax⟩, -⟩ := hwf
    exact hmax
  | _ => exact Nat.le_refl 8

/-- No two windows overlap (20_memory R62). -/
theorem Window.disjoint {w w' : Window} (h : w' ≠ w) :
    w.base + 4 * w.span ≤ w'.base ∨ w'.base + 4 * w'.span ≤ w.base := by
  revert h
  cases w <;> cases w' <;> decide

/-- The registers and the windows lie apart, below the end of the host bus (20_memory R60). -/
theorem Window.bounds (w : Window) : 0x100 ≤ w.base ∧ w.base + 4 * w.span ≤ 0x200000 ∧ w.base % 4 = 0 := by
  cases w <;> decide

/-- Which windows span the address of an entry that window `w` spans: `w` only. -/
theorem Window.entryAt_addr (cfg : Config) (w w' : Window) {i : Nat} (h : i < w.span) :
    w'.entryAt cfg (w.addr i) =
      if w' = w then some (if i < w.backed cfg then .entry w i else .beyond w) else none := by
  unfold Window.entryAt Window.addr
  by_cases hw : w' = w
  · subst hw
    rw [if_pos (by omega), if_pos rfl, show (w'.base + 4 * i - w'.base) / 4 = i by omega]
  · have := Window.disjoint hw
    rw [if_neg (by omega), if_neg hw]

theorem regAt_none {n : Nat} (h : 0x12 ≤ n) : regAt n = none := by
  obtain ⟨k, rfl⟩ := Nat.exists_eq_add_of_le' h
  rfl

/-- The address of a window's entry leads to it, or beyond its buffer (20_memory R61, R62). -/
theorem placeAt_addr (cfg : Config) (w : Window) {i : Nat} (h : i < w.span) :
    placeAt cfg (w.addr i) = if i < w.backed cfg then .entry w i else .beyond w := by
  obtain ⟨hlo, -, -⟩ := w.bounds
  rw [placeAt, regAt_none (by unfold Window.addr; omega)]
  simp only [Window.entryAt_addr cfg w _ h]
  cases w <;> rfl

/-- The offset of a window's entry is on the host bus, and aligned. -/
theorem Window.addr_offset (w : Window) {i : Nat} (h : i < w.span) :
    (BitVec.ofNat 21 (w.addr i)).toNat = w.addr i ∧ accessDefined (BitVec.ofNat 21 (w.addr i)) 4 = true := by
  obtain ⟨-, hhi, hal⟩ := w.bounds
  have ht : (BitVec.ofNat 21 (w.addr i)).toNat = w.addr i := by
    rw [BitVec.toNat_ofNat]
    exact Nat.mod_eq_of_lt (by unfold Window.addr; omega)
  refine ⟨ht, ?_⟩
  rw [accessDefined, ht, Window.addr, beq_self_eq_true, Bool.true_and, beq_iff_eq]
  omega

/-- A word is a field at bit 0 alone exactly when it has the field and nothing above it. -/
theorem eq_fieldAt_iff {n : Nat} (hn : n ≤ 32) (v : HostWord) (x : BitVec n) :
    v = fieldAt x 0 ↔ v.extractLsb' 0 n = x ∧ v >>> n = 0 := by
  constructor
  · rintro rfl
    refine ⟨extractLsb'_of_bits fun k hk => ?_, ushiftRight_of_bits fun k hk => ?_⟩
    · rw [getLsbD_fieldAt]
      simp [show k < 32 by omega]
    · rw [getLsbD_fieldAt, BitVec.getLsbD_of_ge x _ (by omega), Bool.and_false]
  · rintro ⟨rfl, h⟩
    apply BitVec.eq_of_getLsbD_eq
    intro k hk
    rw [getLsbD_fieldAt, BitVec.getLsbD_extractLsb']
    by_cases hkn : k < n
    · simp [hk, hkn]
    · have hb := congrArg (fun y : HostWord => y.getLsbD (k - n)) h
      simp only [BitVec.getLsbD_ushiftRight, show n + (k - n) = k by omega] at hb
      rw [hb]
      simp [hkn]

/-- A word is a 16-bit field and a flag at bit 16 exactly when it has these and nothing above them. -/
theorem eq_fieldAt_flagAt_iff (v : HostWord) (x : Word) (p : Bool) :
    v = fieldAt x 0 ||| flagAt p 16 ↔ v.extractLsb' 0 16 = x ∧ v.getLsbD 16 = p ∧ v >>> 17 = 0 := by
  have hb (k : Nat) : (fieldAt x 0 ||| flagAt p 16).getLsbD k =
      (decide (k < 32) && (x.getLsbD k || decide (k = 16) && p)) := by
    simp only [BitVec.getLsbD_or, getLsbD_fieldAt, getLsbD_flagAt]
    simp [Bool.and_or_distrib_left, Bool.and_assoc]
  constructor
  · rintro rfl
    refine ⟨extractLsb'_of_bits fun k hk => ?_, ?_, ushiftRight_of_bits fun k hk => ?_⟩
    · rw [hb]
      simp [show k < 32 by omega, show k ≠ 16 by omega]
    · rw [hb]
      simp
    · rw [hb, BitVec.getLsbD_of_ge x k (by omega)]
      simp [show k ≠ 16 by omega]
  · rintro ⟨rfl, rfl, h⟩
    apply BitVec.eq_of_getLsbD_eq
    intro k hk
    rw [hb, BitVec.getLsbD_extractLsb', Nat.zero_add]
    obtain hk16 | rfl | hk16 := Nat.lt_trichotomy k 16
    · simp [hk, hk16, show k ≠ 16 by omega]
    · simp
    · have hz := congrArg (fun y : HostWord => y.getLsbD (k - 17)) h
      simp only [BitVec.getLsbD_ushiftRight, show 17 + (k - 17) = k by omega] at hz
      rw [hz]
      simp [show ¬k < 16 by omega, show k ≠ 16 by omega]

/-- A read of a buffer entry between operations (10_state R27). -/
theorem hostTurn_readEntry {s : State} (hb : s.seq.busy = false) (w : Window) {i : Nat} (h : i < w.backed s.cfg) :
    hostTurn (.read (BitVec.ofNat 21 (w.addr i)) 4) s =
      match entryWord s.mem w i with
      | some v => .next (s.gotRead (BitVec.ofNat 21 (w.addr i)) v)
      | none => .fault (.unwrittenEntry (w.addr i)) := by
  have hspan := h.trans_le (w.backed_le_span s.cfg)
  obtain ⟨hoff, hdef⟩ := w.addr_offset hspan
  simp only [hostTurn, hdef, hb, if_true, Bool.false_eq_true, if_false, State.hostRead, hoff, placeAt_addr s.cfg w hspan, h]
  cases entryWord s.mem w i <;> rfl

/-- Settles O15: a read goes to the entry, and each window's word has the bits of its entry and no others. -/
theorem bufferReadOrFault : Obligations.BufferReadOrFault := by
  refine ⟨fun s w i hb h => ?_, fun m i => ⟨?_, ?_, ?_, rfl, rfl, rfl, rfl, rfl⟩⟩
  · rw [hostTurn_readEntry hb w h]
    rfl
  · have hw (w : Window) (v : HostWord) : (m.img w i).map (fun e => fieldAt e.value 0 ||| flagAt e.present 16) = some v ↔
        ∃ e, m.img w i = some e ∧ v.extractLsb' 0 16 = e.value ∧ v.getLsbD 16 = e.present ∧ v >>> 17 = 0 := by
      rw [Option.map_eq_some_iff]
      exact exists_congr fun e => and_congr_right fun _ => eq_comm.trans (eq_fieldAt_flagAt_iff v _ _)
    exact List.forall_mem_cons.2 ⟨hw _, List.forall_mem_singleton.2 (hw _)⟩
  · intro v
    rw [entryWord, Option.map_eq_some_iff]
    exact exists_congr fun x => and_congr_right fun _ => eq_comm.trans (eq_fieldAt_iff (by decide) v x)
  · have hw (w : Window) (v : HostWord) : (m.entry8 w i).map (fun x => fieldAt x 0) = some v ↔
        ∃ x, m.entry8 w i = some x ∧ v.extractLsb' 0 8 = x ∧ v >>> 8 = 0 := by
      rw [Option.map_eq_some_iff]
      exact exists_congr fun x => and_congr_right fun _ => eq_comm.trans (eq_fieldAt_iff (by decide) v x)
    exact List.forall_mem_cons.2 ⟨hw _, List.forall_mem_singleton.2 (hw _)⟩

/-! ## An issue while an operation runs -/

/-- Settles O22: the busy branch of every issue. -/
theorem busyIssueOverrun : Obligations.BusyIssueOverrun := by
  intro i op k s hi hb
  obtain ⟨first, -, he⟩ := exec_eq_issueFrom hi
  rw [he, issueFrom_busy hb]
  rfl

end Sys2Proof.Machine

/-! PROOF of O9: an operation that a cut has stopped goes on as it does undisturbed (`Op.Resumes.afterCut`), and where an
operation that emits events stands after `n` of them. -/

namespace Sys2Proof.Machine

/-- An operation that can be accepted is read back from its opcode (30_encoding R101). -/
theorem decodeHost_hostOp {i : Instr} {op : Byte} {k : OpClass} (h : hostOp i = some (op, k)) (hk : k ≠ .reserved) :
    decodeHost op = i := by
  cases i with
  | reservedHostOpcode => cases h; exact absurd rfl hk
  | _ => cases h <;> rfl

/-- Where an operation stands is where its pseudocode, accepted, is stopped by the cut. -/
theorem State.standing_eq_some {s t : State} {i : Instr} {n : Nat} (h : s.standing i n = some t) :
    ∃ op k r, hostOp i = some (op, k) ∧ issueCheck k (s.accept op) = .none ∧
      (do hostWindow; pseudocode i : Op Unit) ((s.begun i op).cutAt n) = .error (.refused r) t := by
  unfold State.standing at h
  split at h
  case h_1 => cases h
  case h_2 op k hi =>
    split at h
    case isFalse => cases h
    case isTrue hc =>
      split at h
      case h_1 r u hr =>
        cases h
        exact ⟨op, k, r, hi, hc, hr⟩
      all_goals cases h

/-- An operation that stands somewhere goes on to the end it has undisturbed. -/
theorem step_standing {s t : State} {i : Instr} {n : Nat} (hb : s.seq.busy = false) (hq : s.quiet)
    (h : s.standing i n = some t) :
    t.seq.busy = true ∧ t.seq.position.map Position.taken = some n ∧ step t = exec i s := by
  obtain ⟨op, k, r, hi, hc, hr⟩ := State.standing_eq_some h
  obtain ⟨hres, -⟩ := issueCheck_passed hc
  obtain ⟨look, hlook⟩ := pseudocode_resumes i
  have hs := State.begun_stands hq i op
  obtain ⟨hbusy, htaken, hop, hagain⟩ := hlook.afterCut hs hr
  refine ⟨hbusy, htaken, ?_⟩
  have hexec : exec i s = finish (pseudocode i (s.begun i op)) := by
    obtain ⟨hb', -⟩ | ⟨-, hc', -⟩ | ⟨-, -, he⟩ := exec_host_cases hi s
    · rw [hb] at hb'
      cases hb'
    · exact absurd hc hc'
    · rw [he, Op.bind_ok (hostWindow_quiet hs.quiet)]
  have hopcode : t.seq.op = op := by
    rw [hop, State.begun_seq]
    rfl
  rw [step, if_pos hbusy, resume, hopcode, decodeHost_hostOp hi hres, hagain, hexec]

/-! ## Operations that emit events -/

theorem samplesOf_take {es : List LinkEvent} (h : samplesOf es = []) (n : Nat) : samplesOf (es.take n) = [] := by
  rw [← List.take_append_drop n es, samplesOf_append] at h
  exact (List.append_eq_nil_iff.1 h).1

/-- An accepted operation with `n` emitted events behind it. -/
def State.emitting (s : State) (op : Byte) (x : Session) (es : List LinkEvent) (n : Nat) : State :=
  { s.accept op with
    session := x
    link := s.link.observeAll s.cfg (es.take n)
    seq := { (s.accept op).seq with position := some { taken := n } } }

/-- The events emitted are the link side's change and the position. -/
theorem State.recordAll_take {s b : State} {op : Byte} {x : Session} (hb : b = { s.accept op with session := x })
    {es : List LinkEvent} (h : samplesOf es = []) {n : Nat} (hn : n ≤ es.length) :
    b.recordAll (es.take n) = s.emitting op x es n := by
  subst hb
  have hq : ({ s.accept op with session := x } : State).seq.position = some { taken := 0 } := rfl
  rw [State.recordAll_eq, State.ran, Sequencer.after_unsampled hq (samplesOf_take h n), Nat.zero_add,
    List.length_take_of_le hn]
  rfl

/-- An operation whose pseudocode, cut within the events `es`, has emitted those before the cut, stands after `n` of
them, and goes on from there. -/
theorem step_emitting {s : State} {i : Instr} {op : Byte} {k : OpClass} {x : Session} {es : List LinkEvent} {n : Nat}
    (hb : s.seq.busy = false) (hq : s.quiet) (hi : hostOp i = some (op, k)) (hc : issueCheck k (s.accept op) = .none)
    (hx : s.begun i op = { s.accept op with session := x }) (hes : samplesOf es = [])
    (hcut : ∀ m < es.length, pseudocode i ((s.begun i op).cutAt (m + 1)) =
      .error (.refused (.undefinedAccess 0x000 1)) ((s.begun i op).recordAll (es.take (m + 1))))
    (hn : n ≤ es.length) :
    s.standing i n = some (s.emitting op x es n) ∧ step (s.emitting op x es n) = exec i s := by
  have hrun : (do hostWindow; pseudocode i : Op Unit) ((s.begun i op).cutAt n) =
      .error (.refused (.undefinedAccess 0x000 1)) ((s.begun i op).recordAll (es.take n)) := by
    cases n with
    | zero => exact Op.bind_error (hostWindow_cut_due (State.begun_stands hq i op).busy)
    | succ m => rw [Op.bind_ok (hostWindow_cut _ m), hcut m hn]
  have hst : s.standing i n = some (s.emitting op x es n) := by
    rw [← State.recordAll_take hx hes hn]
    simp only [State.standing, hi, hc, if_true, hrun]
  exact ⟨hst, (step_standing hb hq hst).2.2⟩

/-- A raw operation that does nothing but emit `es`. -/
theorem step_emitting_raw {s : State} {i : Instr} {op : Byte} {es : List LinkEvent} {n : Nat} (hb : s.seq.busy = false)
    (hq : s.quiet) (hi : hostOp i = some (op, .raw)) (hses : s.session = .programming) (hbegun : s.begun i op = s.accept op)
    (hes : samplesOf es = []) (hp : ∀ m, pseudocode i ((s.begun i op).cutAt m) = emitAll es ((s.begun i op).cutAt m))
    (hn : n ≤ es.length) :
    s.standing i n = some (s.emitting op .programming es n) ∧ step (s.emitting op .programming es n) = exec i s :=
  step_emitting hb hq hi (issueCheck_raw hses) (by rw [hbegun, ← hses]; rfl) hes
    (fun m hm => (hp (m + 1)).trans (emitAll_cut (State.begun_stands hq i op) hes hm)) hn

/-- Settles O9: `step_standing` for every operation, and `step_emitting` for those that emit events first. -/
theorem runningOperationGoesOn : Obligations.RunningOperationGoesOn := by
  refine ⟨fun s t i n hb hq h => step_standing hb hq h, ?_⟩
  intro s i op es n hb hq mid hn
  refine ⟨fun hses he => ?_, fun hses he => ?_⟩
  · cases he
    have hcut := fun m => emitAll_cut (n := m) (State.begun_stands hq .enter 0x01) (samplesOf_enter s.cfg)
    exact step_emitting (k := .enter) hb hq rfl (by simp [issueCheck, OpClass.session, OpClass.isEngine, hses]) rfl
      (samplesOf_enter _) (fun m hm => (Op.bind_ok (Op.ask_run State.cfg _)).trans (Op.bind_error (hcut m hm))) hn
  · simp only [List.mem_cons, List.not_mem_nil, or_false] at he
    rcases he with he | he | he | he | he | he <;> cases he
    · have hcut := fun m => emitAll_cut (n := m) (State.begun_stands hq .exit 0x02) (es := exitEvents) rfl
      exact step_emitting (k := .exit) hb hq rfl (by simp [issueCheck, OpClass.session, OpClass.isEngine, hses])
        (by rw [← hses]; rfl) rfl (fun m hm => Op.bind_error (hcut m hm)) hn
    · exact step_emitting_raw hb hq rfl hses rfl (samplesOf_sendCmd _) (fun _ => rfl) hn
    · exact step_emitting_raw hb hq rfl hses rfl (samplesOf_sendWord _) (fun _ => rfl) hn
    · exact step_emitting_raw hb hq rfl hses rfl (samplesOf_sendInsn _ _) (fun _ => rfl) hn
    · exact step_emitting_raw hb hq rfl hses rfl (samplesOf_gotoAddress _ _) (fun _ => rfl) hn
    · exact step_emitting_raw hb hq rfl hses rfl (samplesOf_gotoShort _ _) (fun _ => rfl) hn

end Sys2Proof.Machine

/-! PROOF of O45: EEPROM_WRITE against an oracle that finishes each cell's write, counted in the bytes the oracle has
answered, up to the first entry that nothing has written. -/

namespace Sys2Proof.Machine

/-- An undisturbed run of an EEPROM operation that began in `b`, with `p` of the bytes in `bits` answered: it has changed
neither the configuration, the buffers nor the poll cap. -/
structure State.Answered (b : State) (bits rest : List Bool) (p : Nat) (u : State) : Prop where
  calm : u.calm
  cfg : u.cfg = b.cfg
  mem : u.mem = b.mem
  pollMax : u.seq.pollMax = b.seq.pollMax
  answers : u.link.partner = .oracle (bits.drop (8 * p) ++ rest)

variable {b : State} {bits rest : List Bool} {p : Nat}

/-- Events that are no samples take no answer. -/
theorem State.Answered.recordAll {u : State} (h : State.Answered b bits rest p u) (es : List LinkEvent) :
    State.Answered b bits rest p (u.recordAll es) :=
  ⟨h.calm.recordAll es, by rw [State.recordAll_cfg, h.cfg], by rw [State.recordAll_mem, h.mem],
    by rw [State.recordAll_seq, Sequencer.after_pollMax, h.pollMax],
    by rw [State.recordAll_link]; exact LinkSide.observeAll_oracle _ es h.answers⟩

theorem State.Answered.setPolls {u : State} (h : State.Answered b bits rest p u) (n : Word) :
    State.Answered b bits rest p ((u.setPolls n).forth []) :=
  ⟨State.calm.forth (s := u.setPolls n) h.calm [], h.cfg, h.mem, h.pollMax, h.answers⟩

theorem sendCore_answered {u : State} (h : State.Answered b bits rest p u) (f : CoreWords → Word) :
    ∃ t, sendCore f u = .ok () t ∧ State.Answered b bits rest p t := ⟨_, sendCore_calm h.calm f, h.recordAll _⟩

theorem samplesOf_eePoll (c : Codes) (bs : List Bool) : samplesOf (eePollEvents c bs) = bs := by
  rw [eePollEvents, samplesOf_append, samplesOf_core, samplesOf_readTxn, List.nil_append]

/-- The answers from byte `p` on are byte `p` and those from the next byte on. -/
theorem slice8_append_drop (bits : List Bool) (p : Nat) :
    bits.drop (8 * p) = slice8 bits (8 * p) ++ bits.drop (8 * (p + 1)) := by
  rw [slice8, Nat.mul_succ, ← List.drop_drop, List.take_append_drop]

theorem slice8_length {bits : List Bool} {p : Nat} (h : 8 * (p + 1) ≤ bits.length) :
    (slice8 bits (8 * p)).length = 8 := by
  rw [slice8, List.length_take, List.length_drop]
  omega

/-- A poll takes the next byte (47_eeprom R241). -/
theorem eePoll_answered {u : State} (h : State.Answered b bits rest p u) (hp : 8 * (p + 1) ≤ bits.length) :
    ∃ t, eePoll u = .ok (byteFrom bits (8 * p)) t ∧ State.Answered b bits rest (p + 1) t := by
  obtain ⟨bs, l', hn, ⟨-, -, horacle⟩, he⟩ := eePoll_calm h.calm
  have ha : u.link.partner = .oracle (slice8 bits (8 * p) ++ (bits.drop (8 * (p + 1)) ++ rest)) := by
    rw [h.answers, slice8_append_drop, List.append_assoc]
  obtain ⟨hbs, hl'⟩ := horacle _ _ ha (by rw [samplesOf_eePoll, slice8_length hp, hn])
  rw [samplesOf_eePoll] at hbs
  subst hbs
  have hr : State.Answered b bits rest (p + 1) (u.ran l' (eePollEvents u.cfg.codes (slice8 bits (8 * p)))) :=
    ⟨h.calm.ran _ _, h.cfg, h.mem, by rw [State.ran_seq, Sequencer.after_pollMax, h.pollMax], hl'⟩
  exact ⟨_, he, hr.setPolls _⟩

/-- One turn of the poll loop, up to the decision. -/
theorem eePollLoop_turn {u t : State} {st : Byte} (h : eePoll u = .ok st t) (e : Nat) (d : Byte) (more : Nat) :
    (eeDone t.cfg st = true → eePollLoop e d more u = .ok () t) ∧
      (eeDone t.cfg st = false → eePollLoop e d (more + 1) u = eePollLoop e d more t) := by
  refine ⟨fun hd => ?_, fun hd => ?_⟩
  · cases more <;> rw [eePollLoop, Op.bind_ok h, Op.bind_ok (Op.ask_run _ t), if_pos hd] <;> rfl
  · rw [eePollLoop, Op.bind_ok h, Op.bind_ok (Op.ask_run _ t), if_neg (by simp [hd])]

/-- A cell that the target finishes at its `k`-th poll, within the cap, ends the poll loop there (47_eeprom R241). -/
theorem eePollLoop_answered (e : Nat) (d : Byte) {more k : Nat} {u : State} (h : State.Answered b bits rest p u)
    (hk : 1 ≤ k) (hm : k ≤ more + 1) (hp : 8 * (p + k) ≤ bits.length) (hd : cellDone b.cfg bits p k) :
    ∃ t, eePollLoop e d more u = .ok () t ∧ State.Answered b bits rest (p + k) t := by
  induction more generalizing k p u with
  | zero =>
    obtain rfl : k = 1 := by omega
    obtain ⟨t, ht, hat⟩ := eePoll_answered h (by omega)
    have hbit : (byteFrom bits (8 * p)).getLsbD b.cfg.eeBusyBit = decide (0 + 1 < 1) := hd 0 Nat.one_pos
    have hdone : eeDone t.cfg (byteFrom bits (8 * p)) = true := by
      rw [eeDone, hat.cfg, hbit]
      rfl
    exact ⟨t, (eePollLoop_turn ht e d 0).1 hdone, hat⟩
  | succ more ih =>
    obtain ⟨t, ht, hat⟩ := eePoll_answered h (by omega)
    have hbit : (byteFrom bits (8 * p)).getLsbD b.cfg.eeBusyBit = decide (0 + 1 < k) := hd 0 hk
    obtain rfl | hk1 := Nat.eq_or_lt_of_le hk
    · have hdone : eeDone t.cfg (byteFrom bits (8 * p)) = true := by
        rw [eeDone, hat.cfg, hbit]
        rfl
      exact ⟨t, (eePollLoop_turn ht e d (more + 1)).1 hdone, hat⟩
    · have hbusy : eeDone t.cfg (byteFrom bits (8 * p)) = false := by
        rw [eeDone, hat.cfg, hbit, decide_eq_true (by omega)]
        rfl
      obtain ⟨v, hv, hav⟩ := ih (k := k - 1) hat (by omega) (by omega) (by omega) fun j hj => by
        have := hd (j + 1) (by omega)
        rw [show p + 1 + j = p + (j + 1) by omega, this]
        exact decide_eq_decide.2 (by omega)
      refine ⟨v, ((eePollLoop_turn ht e d more).2 hbusy).trans hv, ?_⟩
      rwa [show p + 1 + (k - 1) = p + k by omega] at hav

theorem eeAddress_answered {u : State} (h : State.Answered b bits rest p u) (e : Nat) :
    ∃ t, eeAddress e u = .ok () t ∧ State.Answered b bits rest p t := ⟨_, eeAddress_calm h.calm e, h.recordAll _⟩

/-- A cell's write that the target finishes at its `k`-th poll (47_eeprom R241). -/
theorem eeWriteCell_answered (e : Nat) (d : Byte) {k : Nat} {u : State} (h : State.Answered b bits rest p u) (hk : 1 ≤ k)
    (hcap : k ≤ b.seq.pollCap) (hp : 8 * (p + k) ≤ bits.length) (hd : cellDone b.cfg bits p k) :
    ∃ t, eeWriteCell e d u = .ok () t ∧ State.Answered b bits rest (p + k) t := by
  obtain ⟨t₁, h₁, ha₁⟩ := eeAddress_answered h e
  obtain ⟨t₂, h₂, ha₂⟩ := sendCore_answered ha₁ fun c => c.movlwOf d
  obtain ⟨t₃, h₃, ha₃⟩ := sendCore_answered ha₂ CoreWords.movwfEedata
  obtain ⟨t₄, h₄, ha₄⟩ := sendCore_answered ha₃ CoreWords.bsfWren
  obtain ⟨t₅, h₅, ha₅⟩ := sendCore_answered ha₄ CoreWords.bsfWr
  have h₆ := assign_calm (f := fun s => s.setPolls 0) ha₅.calm ha₅.calm.1
  have ha₆ := ha₅.setPolls 0
  have hpoll : ((t₅.setPolls 0).forth []).seq.pollCap = b.seq.pollCap := by
    rw [Sequencer.pollCap, ha₆.pollMax, Sequencer.pollCap]
  obtain ⟨t₇, h₇, ha₇⟩ := eePollLoop_answered e d (more := b.seq.pollCap - 1) ha₆ hk (by omega) hp hd
  obtain ⟨t₈, h₈, ha₈⟩ := sendCore_answered ha₇ CoreWords.bcfWren
  refine ⟨t₈, ?_, ha₈⟩
  rw [eeWriteCell, Op.bind_ok h₁, Op.bind_ok h₂, Op.bind_ok h₃, Op.bind_ok h₄, Op.bind_ok h₅, Op.bind_ok h₆,
    Op.bind_ok (Op.ask_run _ _), hpoll, Op.bind_ok h₇, h₈]

/-- The byte that EEPROM_WRITE takes from the image (47_eeprom R243). -/
theorem eeSourceByte_eq {u : State} (h : u.cfg.eeZeroBug = false) (e : Nat) : eeSourceByte e u = memRead8 .eeImg e u := by
  rw [eeSourceByte, Op.bind_ok (Op.ask_run _ u), h]
  rfl

/-- A loop is its first turns and then the others. -/
theorem forUp_add (f : Nat → Op Unit) (n m start : Nat) {s t : State} (h : forUp f n start s = .ok () t) :
    forUp f (n + m) start s = forUp f m (start + n) t := by
  induction n generalizing start s with
  | zero =>
    cases h
    rw [Nat.zero_add, Nat.add_zero]
  | succ n ih =>
    rw [forUp, Op.bind_run] at h
    rw [Nat.succ_add, forUp, Op.bind_run]
    rcases hr : f start s with ⟨_, u⟩ | ⟨_, u⟩ <;> rw [hr] at h
    · rw [show start + (n + 1) = start + 1 + n by omega]
      exact ih (start + 1) h
    · cases h

/-- The polls of the first cells, one cell further. -/
theorem sum_take_succ (ks : List Nat) (j : Nat) : (ks.take (j + 1)).sum = (ks.take j).sum + ks.getD j 0 := by
  rw [List.take_add_one, List.sum_append, List.getD_eq_getElem?_getD]
  cases ks[j]? <;> simp

theorem sum_take_le (ks : List Nat) (j : Nat) : (ks.take j).sum ≤ ks.sum :=
  (List.take_sublist j ks).sum_le_sum fun _ _ => Nat.zero_le _

/-- The cells of `ks` are written, each in its polls, where their entries have been loaded (47_eeprom R243). -/
theorem eepromCells_answered {ks : List Nat} (hz : b.cfg.eeZeroBug = false) (hks : cellsDone b.cfg ks bits b.seq.pollCap)
    (hload : ∀ j < ks.length, (b.mem.entry8 .eeImg j).isSome) (hlen : bits.length = 8 * ks.sum)
    (hb : State.Answered b bits rest 0 b) :
    ∃ t, forUp eepromWriteOne ks.length 0 b = .ok () t ∧ State.Answered b bits rest ks.sum t := by
  obtain ⟨t, ht, hat⟩ := forUp_ok (f := eepromWriteOne)
    (P := fun j => State.Answered b bits rest (ks.take j).sum) ks.length 0 (fun j u _ hj hu => by
      rw [Nat.zero_add] at hj
      obtain ⟨hk, hcap, hd⟩ := hks j hj
      obtain ⟨v, hv⟩ := Option.isSome_iff_exists.1 (hload j hj)
      have hle := sum_take_le ks (j + 1)
      rw [sum_take_succ] at hle ⊢
      have hread : eeSourceByte j u = .ok v u := by
        rw [eeSourceByte_eq (by rw [hu.cfg, hz]), memRead8_ok (by rw [hu.mem, hv])]
      rw [eepromWriteOne, Op.bind_ok hread]
      exact eeWriteCell_answered j v hu hk hcap (by omega) hd) hb
  rw [Nat.zero_add, List.take_length] at hat
  exact ⟨t, ht, hat⟩

/-- Settles O45: the cells before entry `e` are written, and the engine then reads that entry. -/
theorem eepromWriteUnloaded : Obligations.EepromWriteUnloaded := by
  rintro s e ks bits rest ⟨⟨hbusy, hsession, hquiet⟩, hident⟩ hz he hload hnone rfl hks hlen hpartner
  let b := s.accept 0x41
  have hb : State.Answered b bits rest 0 b := ⟨State.accept_calm hquiet _, rfl, rfl, rfl, hpartner⟩
  obtain ⟨t, ht, hat⟩ := eepromCells_answered (b := b) hz hks hload hlen hb
  have hread : eepromWriteOne ks.length t = .error (.fault (.unwrittenEntry (Window.eeImg.addr ks.length))) t :=
    Op.bind_error ((eeSourceByte_eq (by rw [hat.cfg]; exact hz) _).trans
      (memRead8_unwritten (by rw [hat.mem]; exact hnone)))
  have hbody : eepromWriteBody b = .error (.fault (.unwrittenEntry (Window.eeImg.addr ks.length))) t := by
    obtain ⟨m, hm⟩ := Nat.exists_eq_add_of_lt he
    rw [eepromWriteBody, Op.bind_ok (Op.ask_run _ b), show b.cfg.eeSize = ks.length + (m + 1) from hm,
      forUp_add _ _ _ _ ht, Nat.zero_add, forUp, Op.bind_error hread]
  rw [show exec .eepromWrite s = issue 0x41 .engine eepromWriteBody s from rfl,
    issue_quiet hbusy hquiet _ (issueCheck_engine hsession hident), hbody]
  rfl

end Sys2Proof.Machine

/-! PROOF of the memory statements O14, O16, O17, O18 and O25: bits assembled in order, then a host access at each kind of
place. -/

namespace Sys2Proof.Machine

/-! ## Sampled bits (20_memory R69, R70) -/

/-- Bits past the eighth do not fit the byte; every other bit of the list is the bit of its place (41_signal R134). -/
theorem getLsbD_byteOfBits (bits : List Bool) (k : Nat) :
    (byteOfBits bits).getLsbD k = (decide (k < 8) && bits.getD k false) := by
  induction bits generalizing k with
  | nil => simp [byteOfBits]
  | cons b bits ih =>
    have hcons : byteOfBits (b :: bits) = byteOfBits bits <<< 1 ||| (BitVec.ofBool b).setWidth 8 := rfl
    rw [hcons, BitVec.getLsbD_or, BitVec.getLsbD_shiftLeft, ih, BitVec.getLsbD_setWidth, BitVec.getLsbD_ofBool]
    cases k with
    | zero => simp
    | succ k =>
      by_cases hk : k + 1 < 8
      · simp [hk, Nat.lt_of_succ_lt hk]
      · simp [hk]

/-- A byte sampled from place `j` on has the bits from there on, in order. -/
theorem getLsbD_byteFrom (bits : List Bool) (j k : Nat) :
    (byteFrom bits j).getLsbD k = (decide (k < 8) && bits.getD (j + k) false) := by
  rw [byteFrom, getLsbD_byteOfBits, slice8]
  by_cases hk : k < 8
  · simp [hk, List.getD_eq_getElem?_getD, List.getElem?_drop]
  · simp [hk]

/-- Settles O25: the byte by `getLsbD_byteOfBits`, the word as its two bytes. -/
theorem sampledBits : Obligations.SampledBits := by
  refine ⟨fun bits k hlen => ?_, fun bits j k _ hk => ?_⟩
  · rw [getLsbD_byteOfBits]
    by_cases hk : k < 8
    · simp [hk]
    · simp [hk, hlen]
  · rw [wordFrom, BitVec.getLsbD_append, getLsbD_byteFrom, getLsbD_byteFrom]
    by_cases hlow : k < 8
    · simp [hlow]
    · simp [hlow, show k - 8 < 8 by omega, show j + 8 + (k - 8) = j + k by omega]

end Sys2Proof.Machine

namespace Sys2Proof.Machine

/-! ## Host accesses by their place (20_memory R60 to R63) -/

/-- An offset of the host bus that is in no register and in no window (20_memory R60). -/
def unmappedOffset (o : HostOffset) : Prop :=
  (0x048 ≤ o.toNat ∧ o.toNat < 0x100) ∨ (0x160 ≤ o.toNat ∧ o.toNat < 0x1000) ∨
    (0x2000 ≤ o.toNat ∧ o.toNat < 0x100000)

theorem placeAt_unmapped (cfg : Config) {o : HostOffset} (h : unmappedOffset o) : placeAt cfg o.toNat = .unmapped := by
  unfold unmappedOffset at h
  have hnone (w : Window) : w.entryAt cfg o.toNat = none := by
    rw [Window.entryAt, if_neg]
    cases w <;> simp only [Window.base, Window.span] <;> omega
  rw [placeAt, regAt_none (by omega)]
  simp [hnone]

/-- An aligned access of 32 bits is defined, and no other is (20_memory R61). -/
theorem accessDefined_iff (o : HostOffset) (width : Nat) :
    accessDefined o width = true ↔ width = 4 ∧ o.toNat % 4 = 0 := by
  rw [accessDefined, Bool.and_eq_true, beq_iff_eq, beq_iff_eq]

/-- A read between operations, by what it finds at its place. -/
theorem hostTurn_read {s t : State} {o : HostOffset} (hb : s.seq.busy = false) (ho : accessDefined o 4 = true)
    (h : s.hostRead o = .ok t) : hostTurn (.read o 4) s = .next t := by
  simp only [hostTurn, ho, hb, h, if_true, Bool.false_eq_true, if_false]

theorem hostTurn_write {s : State} {o : HostOffset} (hb : s.seq.busy = false) (ho : accessDefined o 4 = true)
    (v : HostWord) : hostTurn (.write o 4 v) s = .next (s.hostWrite o v) := by
  simp only [hostTurn, ho, hb, if_true, Bool.false_eq_true, if_false]

theorem busyAct_read {s : State} {o : HostOffset} (ho : accessDefined o 4 = true) :
    busyAct (.read o 4) s = .ok () (s.busyRead o) := if_pos ho

theorem busyAct_write {s : State} {o : HostOffset} (ho : accessDefined o 4 = true) (v : HostWord) :
    busyAct (.write o 4 v) s = .ok () (s.busyWrite o v) := if_pos ho

/-! ### Entries beyond their buffer, and unmapped offsets -/

/-- Where the offset of an entry beyond its buffer leads. -/
theorem placeAt_beyond {cfg : Config} {w : Window} {i : Nat} (h : w.backed cfg ≤ i) (hi : i < w.span) :
    placeAt cfg (BitVec.ofNat 21 (w.addr i)).toNat = .beyond w := by
  rw [(w.addr_offset hi).1, placeAt_addr cfg w hi, if_neg (Nat.not_lt.2 h)]

/-- Settles O16: a refused access by its width, an entry beyond its buffer by its place. -/
theorem hostAccessWidths : Obligations.HostAccessWidths := by
  refine ⟨fun s o width v h => ?_, fun s w i v hb h hi => ?_, fun s w i v h hi => ?_⟩
  · have hno : ¬accessDefined o width = true := by
      rw [accessDefined_iff]
      omega
    exact ⟨if_neg hno, if_neg hno, if_neg hno, if_neg hno⟩
  · have hdef := (w.addr_offset hi).2
    have hplace := placeAt_beyond h hi
    refine ⟨hostTurn_read hb hdef ?_, ?_⟩
    · simp only [State.hostRead, hplace]
      rfl
    · simp only [hostTurn_write hb hdef v, State.hostWrite, hplace]
      rfl
  · have hdef := (w.addr_offset hi).2
    have hplace := placeAt_beyond h hi
    refine ⟨?_, ?_⟩
    · simp only [busyAct_read hdef, State.busyRead, hplace]
      rfl
    · simp only [busyAct_write hdef v, State.busyWrite, hplace]
      rfl

/-- Settles O17: `placeAt_unmapped` for both accesses. -/
theorem unmappedOffsets : Obligations.UnmappedOffsets := by
  intro s o v hb hal h
  have hdef := (accessDefined_iff o 4).2 ⟨rfl, hal⟩
  have hplace := placeAt_unmapped s.cfg h
  refine ⟨hostTurn_read hb hdef ?_, ?_⟩
  · simp only [State.hostRead, hplace]
    rfl
  · simp only [hostTurn_write hb hdef v, State.hostWrite, hplace]

/-! ### Accesses during an operation -/

theorem regAt_offset {n : Nat} {r : Reg} (h : regAt n = some r) : r.offset.toNat = 4 * n := by
  have hn : n < 0x12 := by
    by_contra hn
    rw [regAt_none (Nat.not_lt.1 hn)] at h
    cases h
  interval_cases n <;> cases h <;> rfl

theorem Window.entryAt_ne_reg (cfg : Config) (w : Window) (a : Nat) (r : Reg) : w.entryAt cfg a ≠ some (.reg r) := by
  unfold Window.entryAt
  split
  · intro h
    have hp := Option.some.inj h
    split at hp <;> cases hp
  · nofun

/-- A register lies at its own offset and nowhere else. -/
theorem placeAt_reg_offset {cfg : Config} {o : HostOffset} {r : Reg} (hal : o.toNat % 4 = 0)
    (h : placeAt cfg o.toNat = .reg r) : o = r.offset := by
  have hreg : regAt (o.toNat / 4) = some r := by
    unfold placeAt at h
    split at h
    case h_1 hr =>
      cases h
      exact hr
    case h_2 =>
      split at h
      case h_1 hp =>
        obtain ⟨w, -, hw⟩ := List.exists_of_findSome?_eq_some hp
        exact absurd (h ▸ hw) (w.entryAt_ne_reg cfg _ r)
      case h_2 => cases h
  apply BitVec.eq_of_toNat_eq
  rw [regAt_offset hreg]
  omega

/-- A write that is neither of STATUS nor of CMD (20_memory R63; log 10). -/
theorem State.busyWrite_other (s : State) {o : HostOffset} (hal : o.toNat % 4 = 0) (hcmd : o ≠ Reg.cmd.offset)
    (hstatus : o ≠ Reg.status.offset) (v : HostWord) : s.busyWrite o v = s.setAccErr := by
  unfold State.busyWrite
  split
  · exact absurd (placeAt_reg_offset hal ‹_›) hstatus
  · exact absurd (placeAt_reg_offset hal ‹_›) hcmd
  · rfl

/-- Settles O18: each clause is the access at its kind of place. -/
theorem busyAccess : Obligations.BusyAccess := by
  refine ⟨fun s r => ?_, fun s w i h => ?_, fun s o hal h => ?_, fun s v => rfl, fun s v => rfl,
    fun s o v hal hcmd hstatus => ?_⟩
  · simp only [busyAct_read r.offset_defined, State.busyRead, placeAt_offset]
    rfl
  · have hspan := h.trans_le (w.backed_le_span s.cfg)
    obtain ⟨hoff, hdef⟩ := w.addr_offset hspan
    refine ⟨Config.freeEntry s.bus.draws, s.bus.draws + 1, ?_⟩
    simp only [busyAct_read hdef, State.busyRead, hoff, placeAt_addr s.cfg w hspan, h, if_true]
  · simp only [busyAct_read ((accessDefined_iff o 4).2 ⟨rfl, hal⟩), State.busyRead, placeAt_unmapped s.cfg h]
    rfl
  · rw [busyAct_write ((accessDefined_iff o 4).2 ⟨rfl, hal⟩), s.busyWrite_other hal hcmd hstatus v]
    rfl

/-! ### Writes of a buffer entry -/

theorem hostTurn_writeEntry {s : State} (hb : s.seq.busy = false) {w : Window} {i : Nat} (h : i < w.backed s.cfg)
    (v : HostWord) : hostTurn (.write (BitVec.ofNat 21 (w.addr i)) 4 v) s = .next (s.writeEntry w i v) := by
  have hspan := h.trans_le (w.backed_le_span s.cfg)
  obtain ⟨hoff, hdef⟩ := w.addr_offset hspan
  simp only [hostTurn_write hb hdef v, State.hostWrite, hoff, placeAt_addr s.cfg w hspan, h, if_true]

/-- Different entries lie apart: no entry uses more than three of the four bytes of its host word. -/
theorem Window.addr_apart {cfg : Config} {w w' : Window} {i j : Nat} (hi : i < w.backed cfg) (hj : j < w'.backed cfg)
    (h : (w', j) ≠ (w, i)) : w'.addr j + 3 < w.addr i ∨ w.addr i + 3 < w'.addr j := by
  have hi' := hi.trans_le (w.backed_le_span cfg)
  have hj' := hj.trans_le (w'.backed_le_span cfg)
  unfold Window.addr
  by_cases hw : w' = w
  · subst hw
    have : j ≠ i := fun hji => h (by rw [hji])
    omega
  · have := Window.disjoint hw
    omega

/-- An entry is what its bytes are. -/
theorem entryWord_congr {m m' : Memory} {w : Window} {i : Nat}
    (h : ∀ k < 3, m'.byte (w.addr i + k) = m.byte (w.addr i + k)) : entryWord m' w i = entryWord m w i := by
  have h0 : m'.byte (w.addr i) = m.byte (w.addr i) := h 0 (by decide)
  have h1 := h 1 (by decide)
  have h2 := h 2 (by decide)
  cases w <;> simp only [entryWord, Memory.img, Memory.entry16, Memory.entry8, Memory.present, h0, h1, h2]

/-- The buffers after a host write of an entry of the windows that take one. -/
def Memory.hostWritten (m : Memory) (w : Window) (i : Nat) (v : HostWord) : Memory :=
  if w = .eeImg then m.setEntry8 w i (v.setWidth 8)
  else m.setImg w i { value := v.setWidth 16, present := v.getLsbD 16 }

theorem State.writeEntry_eq (s : State) (i : Nat) (v : HostWord) : ∀ w ∈ [Window.cfgImg, .eeImg, .codeImg],
    s.writeEntry w i v = { s with mem := s.mem.hostWritten w i v } := by
  simp [State.writeEntry, Memory.hostWritten]

/-- CFG_RB and UID_BUF, of eight entries each, ignore a host write (20_memory R62). -/
theorem State.writeEntry_ignored (s : State) (i : Nat) (v : HostWord) : ∀ w ∈ [Window.cfgRb, .uidBuf],
    w.backed s.cfg = 8 ∧ s.writeEntry w i v = s := by
  simp [State.writeEntry, Window.backed]

theorem Memory.byte_hostWritten (m : Memory) (w : Window) (i : Nat) (v : HostWord) {b : Nat}
    (h : ¬(w.addr i ≤ b ∧ b < w.addr i + 3)) : (m.hostWritten w i v).byte b = m.byte b := by
  unfold Memory.hostWritten
  split
  · rw [Memory.byte_setEntry8, if_neg (by omega)]
  · rw [Memory.byte_setImg, if_neg (by omega), if_neg (by omega), if_neg (by omega)]

/-- A bit of the low `n` bits of a host word. -/
theorem getLsbD_lowBits (v : HostWord) (n k : Nat) :
    (v &&& (BitVec.allOnes n).setWidth 32).getLsbD k = (decide (k < n) && v.getLsbD k) := by
  rw [BitVec.getLsbD_and, BitVec.getLsbD_setWidth, BitVec.getLsbD_allOnes]
  by_cases hk : k < 32
  · rw [decide_eq_true hk, Bool.true_and, Bool.and_comm]
  · rw [BitVec.getLsbD_of_ge v k (Nat.not_lt.1 hk), Bool.and_false, Bool.false_and]

theorem lowBits_byte (v : HostWord) :
    (v &&& 0x000000FF).extractLsb' 0 8 = v.setWidth 8 ∧ (v &&& 0x000000FF) >>> 8 = 0 := by
  have hb := getLsbD_lowBits v 8
  refine ⟨extractLsb'_of_bits fun k hk => ?_, ushiftRight_of_bits fun k hk => (hb k).trans ?_⟩
  · rw [Nat.zero_add, BitVec.getLsbD_setWidth]
    exact hb k
  · rw [decide_eq_false (Nat.not_lt.2 hk), Bool.false_and]

theorem lowBits_img (v : HostWord) :
    (v &&& 0x0001FFFF).extractLsb' 0 16 = v.setWidth 16 ∧ (v &&& 0x0001FFFF).getLsbD 16 = v.getLsbD 16 ∧
      (v &&& 0x0001FFFF) >>> 17 = 0 := by
  have hb := getLsbD_lowBits v 17
  refine ⟨extractLsb'_of_bits fun k hk => ?_, hb 16, ushiftRight_of_bits fun k hk => (hb k).trans ?_⟩
  · rw [Nat.zero_add, BitVec.getLsbD_setWidth, decide_eq_true hk]
    exact (hb k).trans (by rw [decide_eq_true (Nat.lt_succ_of_lt hk)])
  · rw [decide_eq_false (Nat.not_lt.2 hk), Bool.false_and]

/-- The bits that an entry stores are the low ones. -/
theorem entryWord_hostWritten (m : Memory) {w : Window} (h : w ∈ [.cfgImg, .eeImg, .codeImg]) (i : Nat)
    (v : HostWord) :
    entryWord (m.hostWritten w i v) w i = some (v &&& (if w = .eeImg then 0x000000FF else 0x0001FFFF)) := by
  have himg (w : Window) : ((m.setImg w i ⟨v.setWidth 16, v.getLsbD 16⟩).img w i).map
      (fun e => fieldAt e.value 0 ||| flagAt e.present 16) = some (v &&& 0x0001FFFF) := by
    rw [Memory.img_setImg, Option.map_some, (eq_fieldAt_flagAt_iff _ _ _).2 (lowBits_img v)]
  cases w with
  | cfgImg => exact himg .cfgImg
  | codeImg => exact himg .codeImg
  | eeImg =>
    have hee : (m.setEntry8 .eeImg i (v.setWidth 8)).entry8 .eeImg i = some (v.setWidth 8) := by
      rw [Memory.entry8, Memory.byte_setEntry8, if_pos rfl]
    exact (congrArg (Option.map _) hee).trans
      (congrArg some ((eq_fieldAt_iff (by decide) _ _).2 (lowBits_byte v)).symm)
  | cfgRb => simp at h
  | uidBuf => simp at h

/-- Settles O14: the entry stores the low bits, and every other entry lies apart from its bytes. -/
theorem bufferWriteStores : Obligations.BufferWriteStores := by
  refine ⟨fun s w i v hb hw hi => ⟨s.mem.hostWritten w i v, ?_, entryWord_hostWritten s.mem hw i v,
    fun b => s.mem.byte_hostWritten w i v, fun w' j hj hne => ?_⟩, fun s w i v hb hw hi => ?_⟩
  · rw [hostTurn_writeEntry hb hi, s.writeEntry_eq i v w hw]
  · have := Window.addr_apart hi hj hne
    exact entryWord_congr fun k hk => s.mem.byte_hostWritten w i v (by omega)
  · obtain ⟨hback, hignored⟩ := s.writeEntry_ignored i v w hw
    rw [hostTurn_writeEntry hb (hback ▸ hi), hignored]

end Sys2Proof.Machine

/-! PROOF of the statements about the reference target, O59 and O60: what the target does at each clock of a transaction
(20_memory R87), then a whole write transaction, the pointer that three pairs of them set, and a whole read. -/

namespace Sys2Proof.Machine

/-! ## The target at the link -/

/-- The block drives PGC low and has PGD in direction `d`; the partner is the reference target `t`. -/
structure LinkSide.Faces (l : LinkSide) (d : Direction) (t : RefTarget) : Prop where
  pgcOut : l.lines.pgc.dir = .out
  pgcLow : l.lines.pgc.lat = false
  pgd : l.lines.pgd.dir = d
  partner : l.partner = .reference t

/-- The target is in programming mode and has not stopped (20_memory R85). -/
structure RefTarget.Live (t : RefTarget) : Prop where
  prog : t.prog = true
  running : t.stopped = false

/-- The target stands before its first transaction or after one (20_memory R87). -/
def RefTarget.between (t : RefTarget) : Prop := t.clocks = 0 ∨ t.clocks = 20

/-- An event that a target in programming mode takes no notice of: it leaves MCLR alone, raises no clock and ends no key
(20_memory R86, R87). -/
def LinkEvent.unnoticed : LinkEvent → Bool
  | .pin .pgc v => !v
  | .pin .pgd _ => true
  | .pin .mclr _ => false
  | .dir p _ => p != .mclr
  | .delay t => t != .tEnDone
  | .sample _ => true

theorem RefTarget.onEvent_unnoticed {e : LinkEvent} (h : e.unnoticed = true) (cfg : Config) (before : Lines)
    (t : RefTarget) : t.onEvent cfg before e = t := by
  have hmclr : (before.apply e).mclr = before.mclr := by
    cases e with
    | pin p v =>
      cases p with
      | mclr => cases h
      | pgc => rfl
      | pgd => rfl
    | dir p d =>
      cases p with
      | mclr => cases h
      | pgc => rfl
      | pgd => rfl
    | delay x => rfl
    | sample b => rfl
  unfold RefTarget.onEvent
  simp only [hmclr, Bool.and_not_self, Bool.false_eq_true, if_false]
  split
  case h_1 => cases h
  case h_2 => cases h
  all_goals rfl

/-- PGC rises: a clock. -/
theorem RefTarget.onEvent_clock {t : RefTarget} (ht : t.Live) (cfg : Config) {before : Lines}
    (h : before.pgc.drives false = true) : t.onEvent cfg before (.pin .pgc true) = t.clockIn cfg before.pgd := by
  unfold RefTarget.onEvent
  have hmclr : (before.apply (.pin .pgc true)).mclr = before.mclr := rfl
  simp only [hmclr, Bool.and_not_self, Bool.false_eq_true, if_false, ht.running, h, Bool.not_true, Bool.or_self, ht.prog,
    if_true]
  rfl

/-- Events that a target in programming mode takes no notice of leave it as it is. -/
theorem LinkSide.observeAll_unnoticed {es : List LinkEvent} (h : es.all LinkEvent.unnoticed = true) (cfg : Config)
    {l : LinkSide} {t : RefTarget} (hl : l.partner = .reference t) : (l.observeAll cfg es).partner = .reference t := by
  induction es generalizing l with
  | nil => exact hl
  | cons e es ih =>
    rw [List.all_cons, Bool.and_eq_true] at h
    obtain ⟨he, hes⟩ := h
    refine ih hes (l := l.observe cfg e) ?_
    rw [LinkSide.observe, hl, Partner.onEvent, RefTarget.onEvent_unnoticed he]

/-- PGC rises at a target in programming mode, and nothing it takes notice of follows. -/
theorem LinkSide.Faces.clock {l : LinkSide} {d : Direction} {t : RefTarget} (h : l.Faces d t) (ht : t.Live)
    {es : List LinkEvent} (hes : es.all LinkEvent.unnoticed = true) (cfg : Config) :
    (l.observeAll cfg (.pin .pgc true :: es)).partner = .reference (t.clockIn cfg l.lines.pgd) := by
  refine LinkSide.observeAll_unnoticed hes cfg (l := l.observe cfg (.pin .pgc true)) ?_
  have hlow : l.lines.pgc.drives false = true := by rw [Line.drives, h.pgcOut, h.pgcLow]; rfl
  rw [LinkSide.observe, h.partner, Partner.onEvent, RefTarget.onEvent_clock ht cfg hlow]

/-- One output cell is one clock of a target in programming mode, which hears the bit. -/
theorem LinkSide.Faces.outCell {l : LinkSide} {t : RefTarget} (h : l.Faces .out t) (ht : t.Live) (cfg : Config)
    (b : Bool) :
    (l.observeAll cfg (outCellEvents b)).Faces .out (t.clockIn cfg { dir := .out, lat := b }) := by
  have hset : (l.observeAll cfg [.pin .pgd b, .delay .tSetup]).Faces .out t :=
    ⟨h.pgcOut, h.pgcLow, h.pgd, LinkSide.observeAll_unnoticed rfl cfg h.partner⟩
  refine ⟨h.pgcOut, rfl, h.pgd, (hset.clock ht (es := [.delay .tHold, .pin .pgc false]) rfl cfg).trans ?_⟩
  rw [← h.pgd]
  rfl

theorem bitsLsbFirst_succ {w : Nat} (n : Nat) (v : BitVec w) :
    bitsLsbFirst (n + 1) v = bitsLsbFirst n v ++ [v.getLsbD n] := by
  simp [bitsLsbFirst, List.range_succ]

theorem outBitsEvents_snoc (bs : List Bool) (b : Bool) :
    outBitsEvents (bs ++ [b]) = outBitsEvents bs ++ outCellEvents b := by
  simp [outBitsEvents]

/-- Output cells in a row: where `f` says how the target goes on from each bit to the next. -/
theorem LinkSide.Faces.outBits {w : Nat} {l : LinkSide} {cfg : Config} {f : Nat → RefTarget} (v : BitVec w) (n : Nat)
    (h : l.Faces .out (f 0))
    (hf : ∀ k < n, (f k).Live ∧ (f k).clockIn cfg { dir := .out, lat := v.getLsbD k } = f (k + 1)) :
    (l.observeAll cfg (outBitsEvents (bitsLsbFirst n v))).Faces .out (f n) := by
  induction n with
  | zero => exact h
  | succ n ih =>
    obtain ⟨hlive, hnext⟩ := hf n (Nat.lt_succ_self n)
    rw [bitsLsbFirst_succ, outBitsEvents_snoc, LinkSide.observeAll_append, ← hnext]
    exact (ih fun k hk => hf k (Nat.lt_succ_of_lt hk)).outCell hlive cfg _

/-! ## A transaction as the target takes it in -/

/-- The low `n` bits of a word that arrives least significant bit first, the others still 0. -/
def arrived {w : Nat} (n : Nat) (v : BitVec w) : BitVec w := (v.setWidth n).setWidth w

theorem arrived_succ {w : Nat} (n : Nat) (v : BitVec w) :
    arrived n v ||| (BitVec.ofBool (v.getLsbD n)).setWidth w <<< n = arrived (n + 1) v := by
  apply BitVec.eq_of_getLsbD_eq
  intro k hk
  simp only [arrived, BitVec.getLsbD_or, BitVec.getLsbD_shiftLeft, BitVec.getLsbD_setWidth, BitVec.getLsbD_ofBool, hk,
    decide_true, Bool.true_and]
  obtain hkn | rfl | hkn := Nat.lt_trichotomy k n
  · simp [hkn, Nat.lt_succ_of_lt hkn]
  · simp [Nat.zero_lt_of_lt hk]
  · simp [show ¬k < n by omega, show ¬k < n + 1 by omega, show k - n ≠ 0 by omega]

theorem arrived_zero {w : Nat} (v : BitVec w) : arrived 0 v = 0 := by
  apply BitVec.eq_of_getLsbD_eq
  simp [arrived]

theorem arrived_self {w : Nat} (v : BitVec w) : arrived w v = v := by simp [arrived]

/-- Between transactions a clock begins the next one. -/
theorem RefTarget.clockIn_between {t : RefTarget} (h : t.between) (cfg : Config) (pgd : Line) :
    t.clockIn cfg pgd = RefTarget.clockIn cfg pgd { t with clocks := 0, cmd := 0, payload := 0 } := by
  rw [RefTarget.clockIn, RefTarget.clockIn]
  simp only [if_pos (show t.clocks = 0 ∨ t.clocks = 20 from h), true_or, if_true]

/-- The target stands inside a transaction, or at the very start of one. -/
structure RefTarget.Inside (t : RefTarget) : Prop where
  lt : t.clocks < 20
  fresh : t.clocks = 0 → t.cmd = 0 ∧ t.payload = 0

theorem RefTarget.Inside.kept {t : RefTarget} (h : t.Inside) :
    (if t.clocks = 0 ∨ t.clocks = 20 then { t with clocks := 0, cmd := 0, payload := 0 } else t) = t := by
  split
  case isTrue hc =>
    have h0 : t.clocks = 0 := hc.resolve_right (Nat.ne_of_lt h.lt)
    obtain ⟨hcmd, hpay⟩ := h.fresh h0
    cases t
    simp_all
  case isFalse => rfl

/-- A clock of the command: a bit of it, and the read where it is the last bit of a read (20_memory R87). -/
theorem RefTarget.clockIn_cmd {t : RefTarget} (h : t.Inside) (hk : t.clocks < 4) (cfg : Config) (b : Bool) :
    t.clockIn cfg { dir := .out, lat := b } =
      let u := { t with cmd := t.cmd ||| (BitVec.ofBool b).setWidth 4 <<< t.clocks, clocks := t.clocks + 1 }
      if t.clocks + 1 = 4 ∧ isReadCode cfg.codes.icsp u.cmd then u.readAction cfg.codes.icsp else u := by
  rw [RefTarget.clockIn]
  simp only [h.kept, hk, if_true, RefTarget.hear]

/-- A payload clock of a read, whatever PGD is. -/
theorem RefTarget.clockIn_read {t : RefTarget} (h : t.Inside) (hk : 4 ≤ t.clocks) {cfg : Config}
    (hr : isReadCode cfg.codes.icsp t.cmd = true) (pgd : Line) :
    t.clockIn cfg pgd = { t with clocks := t.clocks + 1 } := by
  rw [RefTarget.clockIn]
  simp only [h.kept, Nat.not_lt.2 hk, if_false, hr, if_true]

/-- A payload clock of a write: a bit of the payload, and the write where it is the last (20_memory R87). -/
theorem RefTarget.clockIn_write {t : RefTarget} (h : t.Inside) (hk : 4 ≤ t.clocks) {cfg : Config}
    (hw : isReadCode cfg.codes.icsp t.cmd = false) (b : Bool) :
    t.clockIn cfg { dir := .out, lat := b } =
      let u := { t with
        payload := t.payload ||| (BitVec.ofBool b).setWidth 16 <<< (t.clocks - 4), clocks := t.clocks + 1 }
      if t.clocks + 1 = 20 then u.writeAction cfg u.payload else u := by
  rw [RefTarget.clockIn]
  simp only [h.kept, Nat.not_lt.2 hk, if_false, hw, Bool.false_eq_true, RefTarget.hear]

/-- The target once it has the command `c`: a read happens at once (20_memory R87, R89). -/
def RefTarget.commanded (cfg : Config) (t : RefTarget) (c : Nibble) : RefTarget :=
  let u := { t with clocks := 4, cmd := c, payload := 0 }
  if isReadCode cfg.codes.icsp c then u.readAction cfg.codes.icsp else u

/-- The target with `k` bits of the command `c` behind it. -/
def RefTarget.commanding (cfg : Config) (t : RefTarget) (c : Nibble) (k : Nat) : RefTarget :=
  if k = 0 then t else if k = 4 then t.commanded cfg c else { t with clocks := k, cmd := arrived k c, payload := 0 }

theorem RefTarget.clockIn_commanding {t : RefTarget} (hb : t.between) (cfg : Config) (c : Nibble) {k : Nat}
    (hk : k < 4) :
    (t.commanding cfg c k).clockIn cfg { dir := .out, lat := c.getLsbD k } = t.commanding cfg c (k + 1) := by
  have hstep : RefTarget.clockIn cfg { dir := .out, lat := c.getLsbD k }
      { t with clocks := k, cmd := arrived k c, payload := 0 } = t.commanding cfg c (k + 1) := by
    rw [RefTarget.clockIn_cmd
      ⟨hk.trans (by decide), fun h => ⟨(congrArg (arrived · c) h).trans (arrived_zero c), rfl⟩⟩ hk]
    simp only [arrived_succ, RefTarget.commanding, Nat.succ_ne_zero, if_false]
    by_cases hlast : k + 1 = 4
    · obtain rfl : k = 3 := by omega
      simp only [arrived_self, RefTarget.commanded, true_and, if_true]
    · simp only [hlast, false_and, if_false]
  by_cases h0 : k = 0
  · subst h0
    exact (RefTarget.clockIn_between hb cfg _).trans hstep
  · rwa [RefTarget.commanding, if_neg h0, if_neg (Nat.ne_of_lt hk)]

theorem RefTarget.Live.commanding {t : RefTarget} (h : t.Live) (cfg : Config) (c : Nibble) {k : Nat} (hk : k < 4) :
    (t.commanding cfg c k).Live := by
  unfold RefTarget.commanding
  split
  · exact h
  · rw [if_neg (Nat.ne_of_lt hk)]
    exact ⟨h.prog, h.running⟩

/-- `SendCmd(c)` between transactions gives the target the command. -/
theorem LinkSide.Faces.sendCmd {l : LinkSide} {t : RefTarget} (h : l.Faces .out t) (ht : t.Live) (hb : t.between)
    (cfg : Config) (c : Nibble) : (l.observeAll cfg (sendCmdEvents c)).Faces .out (t.commanded cfg c) := by
  have h4 := h.outBits (f := t.commanding cfg c) c 4 fun k hk =>
    ⟨ht.commanding cfg c hk, RefTarget.clockIn_commanding hb cfg c hk⟩
  rw [sendCmdEvents, LinkSide.observeAll_append]
  exact ⟨h4.pgcOut, h4.pgcLow, h4.pgd, LinkSide.observeAll_unnoticed rfl cfg h4.partner⟩

/-- The target of a write with `k` bits of the payload `p` behind it. -/
def RefTarget.loading (cfg : Config) (t : RefTarget) (p : Word) (k : Nat) : RefTarget :=
  if k = 16 then RefTarget.writeAction cfg { t with clocks := 20, payload := p } p
  else { t with clocks := 4 + k, payload := arrived k p }

theorem RefTarget.clockIn_loading {t : RefTarget} {cfg : Config} (hw : isReadCode cfg.codes.icsp t.cmd = false) (p : Word)
    {k : Nat} (hk : k < 16) :
    (t.loading cfg p k).clockIn cfg { dir := .out, lat := p.getLsbD k } = t.loading cfg p (k + 1) := by
  rw [RefTarget.loading, if_neg (Nat.ne_of_lt hk),
    RefTarget.clockIn_write (t := { t with clocks := 4 + k, payload := arrived k p })
      ⟨Nat.add_lt_add_left hk 4, fun h => absurd h (Nat.ne_of_gt (Nat.add_pos_left (by decide) k))⟩
      (Nat.le_add_right 4 k) hw]
  simp only [Nat.add_sub_cancel_left, arrived_succ, RefTarget.loading, Nat.add_assoc]
  by_cases hlast : k + 1 = 16
  · obtain rfl : k = 15 := by omega
    simp only [arrived_self, if_true]
  · rw [if_neg (by omega), if_neg hlast]

/-- `SendWord(p)` after a command of shape W: the target acts on it. -/
theorem LinkSide.Faces.sendWord {l : LinkSide} {t : RefTarget} (h : l.Faces .out { t with clocks := 4, payload := 0 })
    (ht : t.Live) {cfg : Config} (hw : isReadCode cfg.codes.icsp t.cmd = false) (p : Word) :
    (l.observeAll cfg (sendWordEvents p)).Faces .out
      (RefTarget.writeAction cfg { t with clocks := 20, payload := p } p) := by
  have h0 : t.loading cfg p 0 = { t with clocks := 4, payload := 0 } := by
    rw [RefTarget.loading, if_neg (by decide), arrived_zero]
  rw [← h0] at h
  have hlive (k : Nat) (hk : k < 16) : (t.loading cfg p k).Live := by
    rw [RefTarget.loading, if_neg (Nat.ne_of_lt hk)]
    exact ⟨ht.prog, ht.running⟩
  have h16 := h.outBits (f := t.loading cfg p) p 16 fun k hk => ⟨hlive k hk, RefTarget.clockIn_loading hw p hk⟩
  rw [sendWordEvents, LinkSide.observeAll_append]
  exact ⟨h16.pgcOut, h16.pgcLow, h16.pgd, LinkSide.observeAll_unnoticed rfl cfg h16.partner⟩

/-- A write transaction between transactions: the target acts on the payload (20_memory R87). -/
theorem LinkSide.Faces.sendInsn {l : LinkSide} {t : RefTarget} (h : l.Faces .out t) (ht : t.Live) (hb : t.between)
    {cfg : Config} {c : Nibble} (hc : isReadCode cfg.codes.icsp c = false) (p : Word) :
    (l.observeAll cfg (sendInsnEvents c p)).Faces .out
      (RefTarget.writeAction cfg { t with clocks := 20, cmd := c, payload := p } p) := by
  have hcmd : t.commanded cfg c = { t with clocks := 4, cmd := c, payload := 0 } := by
    rw [RefTarget.commanded, hc]
    rfl
  have h4 := h.sendCmd ht hb cfg c
  rw [hcmd] at h4
  rw [sendInsnEvents, LinkSide.observeAll_append]
  exact LinkSide.Faces.sendWord (t := { t with cmd := c }) h4 ⟨ht.prog, ht.running⟩ hc p

/-! ## The pointer that GotoAddress sets (43_addressing R160) -/

/-- A core word as a transaction, with the default codes. -/
theorem LinkSide.Faces.sendCore {l : LinkSide} {t : RefTarget} (h : l.Faces .out t) (ht : t.Live) (hb : t.between)
    {cfg : Config} (hcfg : cfg.codes = {}) (p : Word) :
    (l.observeAll cfg (sendInsnEvents 0 p)).Faces .out
      (RefTarget.coreAction cfg { t with clocks := 20, cmd := 0, payload := p } p) := by
  have hact : RefTarget.writeAction cfg { t with clocks := 20, cmd := 0, payload := p } p =
      RefTarget.coreAction cfg { t with clocks := 20, cmd := 0, payload := p } p := by
    unfold RefTarget.writeAction
    rw [hcfg]
    rfl
  rw [← hact]
  exact h.sendInsn ht hb (by rw [hcfg]; rfl) p

/-- MOVLW leaves its literal in W (20_memory R88). -/
theorem RefTarget.coreAction_movlw (cfg : Config) (t : RefTarget) (k : Byte) :
    t.coreAction cfg (CoreWords.movlwOf {} k) = { t with w := k } := by
  have hbit (i : Nat) :
      (CoreWords.movlwOf {} k).getLsbD i = ((0x0E00 : Word).getLsbD i || decide (i < 16) && k.getLsbD i) := by
    rw [CoreWords.movlwOf, BitVec.getLsbD_or, BitVec.getLsbD_setWidth]
  have hne : CoreWords.movlwOf {} k ≠ 0x0000 := fun h => by
    have h9 := congrArg (fun p : Word => p.getLsbD 9) h
    simp only [hbit] at h9
    cases h9
  have hop : CoreWords.movlwOf {} k &&& 0xFF00 = 0x0E00 := by
    apply BitVec.eq_of_getLsbD_eq
    intro i hi
    rw [BitVec.getLsbD_and, hbit]
    by_cases h8 : i < 8
    · interval_cases i <;> simp
    · rw [BitVec.getLsbD_of_ge k i (by omega)]
      interval_cases i <;> simp at h8 ⊢
  have hlit : (CoreWords.movlwOf {} k).setWidth 8 = k := by
    apply BitVec.eq_of_getLsbD_eq
    intro i hi
    rw [BitVec.getLsbD_setWidth, hbit]
    interval_cases i <;> simp
  rw [RefTarget.coreAction, if_neg hne, if_pos hop, hlit]

/-- The target after a core word `p` that left `k` in W and `x` in the table pointer. -/
def RefTarget.pointed (t : RefTarget) (p : Word) (k : Byte) (x : Addr) : RefTarget :=
  { t with clocks := 20, cmd := 0, payload := p, w := k, tblptr := x }

/-- MOVLW and a move of W into the pointer. -/
theorem LinkSide.Faces.loadPointer {l : LinkSide} {t : RefTarget} (h : l.Faces .out t) (ht : t.Live) (hb : t.between)
    {cfg : Config} (hcfg : cfg.codes = {}) {k : Byte} {p : Word} {x : Addr}
    (hx : (t.pointed p k t.tblptr).coreAction cfg p = t.pointed p k x) :
    (l.observeAll cfg (sendInsnEvents 0 (CoreWords.movlwOf {} k) ++ sendInsnEvents 0 p)).Faces .out (t.pointed p k x) := by
  have hw := h.sendCore ht hb hcfg (CoreWords.movlwOf {} k)
  rw [RefTarget.coreAction_movlw] at hw
  rw [LinkSide.observeAll_append, ← hx]
  exact hw.sendCore ⟨ht.prog, ht.running⟩ (.inr rfl) hcfg p

/-- The three bytes of an address, put into a pointer `x` one after the other from the highest, are the address. -/
theorem pointer_of_bytes (a x u h : Addr) (hu : u = ((a >>> 16).setWidth 8 : Byte) ++ x.setWidth 16)
    (hh : h = ((u >>> 16).setWidth 8 : Byte) ++ ((a >>> 8).setWidth 8 : Byte) ++ (u.setWidth 8 : Byte)) :
    (h >>> 8).setWidth 16 ++ a.setWidth 8 = a := by
  subst hu hh
  apply BitVec.eq_of_getLsbD_eq
  intro k hk
  simp only [BitVec.getLsbD_append, BitVec.getLsbD_setWidth, BitVec.getLsbD_ushiftRight]
  grind

/-- Settles O59: three loads of the pointer, and `pointer_of_bytes`. -/
theorem gotoAddressSetsPointer : Obligations.GotoAddressSetsPointer := by
  intro cfg l t a hcfg hready hpartner hprog hstopped hb
  obtain ⟨hout, hlow, hpgd⟩ := hready
  have h : l.Faces .out t := ⟨hout, hlow, hpgd, hpartner⟩
  have hu := h.loadPointer ⟨hprog, hstopped⟩ hb hcfg (k := (a >>> 16).setWidth 8) (p := 0x6EF8) rfl
  have hh := hu.loadPointer ⟨hprog, hstopped⟩ (.inr rfl) hcfg (k := (a >>> 8).setWidth 8) (p := 0x6EF7) rfl
  have hl := hh.loadPointer ⟨hprog, hstopped⟩ (.inr rfl) hcfg (k := a.setWidth 8) (p := 0x6EF6) (x := a)
    (congrArg (t.pointed 0x6EF6 (a.setWidth 8)) (pointer_of_bytes a t.tblptr _ _ rfl rfl))
  refine ⟨t.pointed 0x6EF6 (a.setWidth 8) a, ?_, ?_⟩
  · rw [hcfg, gotoAddressEvents]
    simp only [LinkSide.observeAll_append] at hl ⊢
    exact hl.partner
  · rw [RefTarget.pointed, BitVec.setWidth_eq_extractLsb' (by decide)]

end Sys2Proof.Machine

namespace Sys2Proof.Machine

/-! ## A read against the reference target (20_memory R87, R89) -/

/-- The target with `n` clocks of its transaction behind it. -/
def RefTarget.clocked (t : RefTarget) (n : Nat) : RefTarget := { t with clocks := n }

/-- The target in a read, its action done: from now on a clock only counts. -/
structure RefTarget.Reading (cfg : Config) (t : RefTarget) : Prop where
  live : t.Live
  read : isReadCode cfg.codes.icsp t.cmd = true

theorem RefTarget.Reading.clocked {cfg : Config} {t : RefTarget} (h : t.Reading cfg) (n : Nat) : (t.clocked n).Live :=
  ⟨h.live.prog, h.live.running⟩

theorem RefTarget.Reading.clockIn {cfg : Config} {t : RefTarget} (h : t.Reading cfg) {n : Nat} (h4 : 4 ≤ n) (hn : n < 20)
    (pgd : Line) : (t.clocked n).clockIn cfg pgd = t.clocked (n + 1) :=
  RefTarget.clockIn_read (t := t.clocked n) ⟨hn, fun h0 => absurd h0 (Nat.ne_of_gt (Nat.lt_of_lt_of_le (by decide) h4))⟩
    h4 h.read pgd

/-- During payload clocks 9 to 16 of a read the target drives TABLAT, least significant bit first (20_memory R87). -/
theorem RefTarget.Reading.drive {cfg : Config} {t : RefTarget} (h : t.Reading cfg) (n : Nat) :
    (t.clocked (13 + n)).drive cfg = some (t.tablat.getLsbD n) := by
  have hlive := h.clocked (13 + n)
  have hread : isReadCode cfg.codes.icsp (t.clocked (13 + n)).cmd = true ∧ 13 ≤ (t.clocked (13 + n)).clocks :=
    ⟨h.read, Nat.le_add_right 13 n⟩
  rw [RefTarget.drive, hlive.running, hlive.prog, if_neg (by decide), if_neg (by decide), if_pos hread]
  simp [RefTarget.clocked]

/-- The driven zeros and the turnaround of a read: eight clocks, and PGD an input (41_signal R134). -/
theorem LinkSide.Faces.readLead {l : LinkSide} {cfg : Config} {t : RefTarget} (h : l.Faces .out (t.clocked 4))
    (ht : t.Reading cfg) : (l.observeAll cfg readLeadEvents).Faces .inp (t.clocked 12) := by
  have hzeros : List.replicate 8 false = bitsLsbFirst 8 (0 : Byte) := by decide
  have h8 := h.outBits (f := fun k => t.clocked (4 + k)) (0 : Byte) 8 fun k hk =>
    ⟨ht.clocked (4 + k), ht.clockIn (Nat.le_add_right 4 k) (by omega) _⟩
  rw [readLeadEvents, LinkSide.observeAll_append, hzeros]
  exact ⟨h8.pgcOut, h8.pgcLow, rfl, LinkSide.observeAll_unnoticed rfl cfg h8.partner⟩

theorem LinkSide.draw_reference {l : LinkSide} {cfg : Config} {t : RefTarget} {b : Bool} (h : l.partner = .reference t)
    (hd : t.drive cfg = some b) : l.draw cfg = (b, l) := by
  unfold LinkSide.draw
  rw [h]
  simp only [hd]

/-- One input cell against a target in a read: the bit of TABLAT that is due. -/
theorem inCell_reference {s : State} (hs : s.calm) {t : RefTarget} {n : Nat}
    (h : s.link.Faces .inp (t.clocked (12 + n))) (ht : t.Reading s.cfg) (hn : n < 8) :
    ∃ l' es, l'.Faces .inp (t.clocked (12 + (n + 1))) ∧ inCell s = .ok (t.tablat.getLsbD n) (s.ran l' es) := by
  let l₁ := s.link.observeAll s.cfg inCellLeadEvents
  have hp : l₁.partner = .reference (t.clocked (13 + n)) := by
    refine (h.clock (ht.clocked _) (es := [.delay .tDv]) rfl s.cfg).trans ?_
    rw [ht.clockIn (by omega) (by omega), Nat.add_right_comm]
  have hd : l₁.draw s.cfg = (t.tablat.getLsbD n, l₁) := LinkSide.draw_reference hp (ht.drive n)
  have hsample := sample_calm (hs.ran l₁ inCellLeadEvents)
  rw [State.ran_link, State.ran_cfg, hd, State.ran_ran] at hsample
  let l₂ := l₁.observeAll s.cfg (.sample (t.tablat.getLsbD n) :: inCellTailEvents)
  refine ⟨l₂, inCellLeadEvents ++ [.sample (t.tablat.getLsbD n)] ++ inCellTailEvents,
    ⟨h.pgcOut, rfl, h.pgd, ?_⟩, ?_⟩
  · rw [← Nat.add_assoc, Nat.add_right_comm]
    exact LinkSide.observeAll_unnoticed rfl s.cfg hp
  · rw [inCell, Op.bind_ok (emitAll_calm hs inCellLeadEvents), State.recordAll_eq, Op.bind_ok hsample,
      Op.bind_ok (emitAll_calm (hs.ran _ _) inCellTailEvents), State.recordAll_eq, State.ran_ran]
    rfl

/-- The input cells of a read: the bits of TABLAT in order. -/
theorem inBits_reference (n j : Nat) {s : State} (hs : s.calm) {t : RefTarget}
    (h : s.link.Faces .inp (t.clocked (12 + j))) (ht : t.Reading s.cfg) (hn : j + n ≤ 8) :
    ∃ l' es, l'.Faces .inp (t.clocked (12 + (j + n))) ∧
      inBits n s = .ok ((List.range' j n).map t.tablat.getLsbD) (s.ran l' es) := by
  induction n generalizing j s with
  | zero => exact ⟨s.link, [], h, rfl⟩
  | succ n ih =>
    obtain ⟨l₁, es, h₁, he⟩ := inCell_reference hs h ht (by omega)
    obtain ⟨l₂, fs, h₂, he'⟩ := ih (j + 1) (hs.ran l₁ es) h₁ ht (by omega)
    refine ⟨l₂, es ++ fs, by rwa [Nat.add_right_comm j 1 n] at h₂, ?_⟩
    rw [inBits, Op.bind_ok he, Op.bind_ok he', State.ran_ran]
    rfl

/-- The eight bits of a byte, least significant first, make the byte (20_memory R69). -/
theorem byteOfBits_bitsLsbFirst (b : Byte) : byteOfBits (bitsLsbFirst 8 b) = b := by
  apply BitVec.eq_of_getLsbD_eq
  intro k hk
  rw [getLsbD_byteOfBits, decide_eq_true hk, Bool.true_and, bitsLsbFirst]
  simp [hk]

/-- `ReadWord()` against a target in a read: the byte in TABLAT. -/
theorem readWord_reference {s : State} (hs : s.calm) {u : RefTarget} (h : s.link.Faces .out (u.clocked 4))
    (hu : u.Reading s.cfg) : ∃ l' es, l'.partner = .reference (u.clocked 20) ∧ l'.rx = u.tablat.setWidth 16 ∧
      readWord s = .ok (u.tablat.setWidth 16) (s.ran l' es) := by
  have hlead := h.readLead hu
  rw [readWord, Op.bind_ok (emitAll_calm hs readLeadEvents), State.recordAll_eq]
  generalize s.link.observeAll s.cfg readLeadEvents = l₁ at hlead ⊢
  obtain ⟨l₂, es, h₂, hbits⟩ := inBits_reference 8 0 (hs.ran l₁ readLeadEvents) hlead (by rwa [State.ran_cfg])
    (Nat.le_refl 8)
  rw [show (List.range' 0 8).map u.tablat.getLsbD = bitsLsbFirst 8 u.tablat from rfl, State.ran_ran] at hbits
  refine ⟨{ l₂.observeAll s.cfg readTailEvents with rx := u.tablat.setWidth 16 }, readLeadEvents ++ es ++ readTailEvents,
    LinkSide.observeAll_unnoticed rfl s.cfg h₂.partner, rfl, ?_⟩
  rw [Op.bind_ok hbits, byteOfBits_bitsLsbFirst, Op.bind_ok (emitAll_calm (hs.ran _ _) readTailEvents),
    State.recordAll_eq, State.ran_ran, Op.bind_ok (keepRx_calm (hs.ran _ _) _), State.setRx_ran]
  rfl

/-- A read transaction against the reference target: the byte in TABLAT once the target has acted. -/
theorem readTxn_reference {s : State} (hs : s.calm) {t u : RefTarget} (h : s.link.Faces .out t) (ht : t.Live)
    (hb : t.between) {c : Nibble} (hc : t.commanded s.cfg c = u.clocked 4) (hu : u.Reading s.cfg) :
    ∃ l' es, l'.partner = .reference (u.clocked 20) ∧ l'.rx = u.tablat.setWidth 16 ∧
      readTxn c s = .ok u.tablat (s.ran l' es) := by
  have hcmd := h.sendCmd ht hb s.cfg c
  rw [hc] at hcmd
  rw [readTxn, Op.bind_ok (show sendCmd c s = _ from emitAll_calm hs (sendCmdEvents c)), State.recordAll_eq]
  generalize s.link.observeAll s.cfg (sendCmdEvents c) = l₁ at hcmd ⊢
  obtain ⟨l', es, hl', hrx, hword⟩ := readWord_reference (hs.ran l₁ (sendCmdEvents c)) hcmd
    (by rwa [State.ran_cfg])
  refine ⟨l', sendCmdEvents c ++ es, hl', hrx, ?_⟩
  rw [Op.bind_ok hword, byte_of_word, State.ran_ran]
  rfl

/-- The target once it has the command TBLRD_POSTINC: the byte is latched and the pointer is past it (20_memory R89). -/
def RefTarget.readPostinc (t : RefTarget) : RefTarget :=
  { t with clocks := 4, cmd := 9, payload := 0, tablat := t.byteAt t.tblptr.toNat, tblptr := t.tblptr + 1 }

theorem RefTarget.commanded_tblrdPostinc {cfg : Config} (h : cfg.codes = {}) (t : RefTarget) :
    t.commanded cfg 9 = t.readPostinc.clocked 4 := by
  rw [RefTarget.commanded, h]
  rfl

/-- Settles O60: the target acts on the command, and `readTxn_reference` brings its TABLAT. -/
theorem referenceTableRead : Obligations.ReferenceTableRead := by
  intro s t hpos hquiet hcfg hready hpartner hprog hstopped hb
  obtain ⟨hout, hlow, hpgd⟩ := hready
  have hs : s.calm := ⟨hquiet, by rw [Sequencer.replaying, hpos]⟩
  have hcmd : t.commanded s.cfg 9 = t.readPostinc.clocked 4 := t.commanded_tblrdPostinc hcfg
  have hreads : t.readPostinc.Reading s.cfg := ⟨⟨hprog, hstopped⟩, by rw [hcfg]; rfl⟩
  obtain ⟨l', es, hl', hrx, hrun⟩ :=
    readTxn_reference hs ⟨hout, hlow, hpgd, hpartner⟩ ⟨hprog, hstopped⟩ hb hcmd hreads
  have hread : readIcsp IcspCodes.tblrdPostinc s = .ok t.readPostinc.tablat { s with link := l' } := by
    rw [readIcsp, Op.bind_ok (Op.ask_run _ s), hcfg, ← State.ran_idle hpos l' es]
    exact hrun
  refine ⟨l', t.readPostinc.clocked 20, ?_, hrx, hl', rfl, rfl, rfl, rfl, rfl, rfl⟩
  show runLink (readAlone IcspCodes.tblrdPostinc) s = _
  rw [runLink, readAlone, Op.bind_ok hread]
  rfl

end Sys2Proof.Machine

/-! PROOF of O19. A veil over what a host access during an operation can change, the host bus and the four sticky STATUS
bits: two runs that begin alike behind it end alike behind it, whatever harmless accesses each has pending. First each
shared operation, then each operation's pseudocode, then the instruction. -/

namespace Sys2Proof.Machine

/-! ## The veil -/

/-- The state without the host bus and without the four sticky STATUS bits (20_memory R63). -/
def State.veil (s : State) : State :=
  { s with regs := { s.regs with done := false, progEvt := false, overrun := false, accErr := false }, bus := {} }

/-- What does not look behind the veil is the same for states that are alike before it. -/
theorem State.congr_veil {β : Type} {f : State → β} (hf : ∀ s : State, f s = f s.veil) {s u : State}
    (h : s.veil = u.veil) : f s = f u := by rw [hf s, hf u, h]

/-- No pending host access ends the step (20_memory R61, 70_reset R322). -/
def State.harmless (s : State) : Prop := ∀ x ∈ s.bus.inputs, x.act.benign = true

/-- A result behind the veil. -/
def Op.veiled {α : Type} : EStateM.Result Halt State α → EStateM.Result Halt State α
  | .ok a t => .ok a t.veil
  | .error e t => .error e t.veil

/-- The state that a result leaves. -/
def Op.left {α : Type} : EStateM.Result Halt State α → State
  | .ok _ t => t
  | .error _ t => t

/-- Harmless host accesses during the run change nothing of what it does, behind the veil. -/
structure Op.Heedless {α : Type} (x : Op α) : Prop where
  same : ∀ s u : State, s.harmless → u.harmless → s.veil = u.veil → Op.veiled (x s) = Op.veiled (x u)
  harmless : ∀ s : State, s.harmless → (Op.left (x s)).harmless

theorem State.harmless_of_inputs {s t : State} (h : s.harmless) (hi : t.bus.inputs = s.bus.inputs) : t.harmless := by
  rwa [State.harmless, hi]

theorem Op.veiled_ok {α : Type} {a : α} {t : State} {r : EStateM.Result Halt State α}
    (h : Op.veiled r = Op.veiled (.ok a t)) : ∃ u, r = .ok a u ∧ u.veil = t.veil := by
  cases r with
  | ok b u =>
    obtain ⟨rfl, hu⟩ := EStateM.Result.ok.inj h
    exact ⟨u, rfl, hu⟩
  | error e u => cases h

theorem Op.veiled_error {α : Type} {e : Halt} {t : State} {r : EStateM.Result Halt State α}
    (h : Op.veiled r = Op.veiled (.error e t)) : ∃ u, r = .error e u ∧ u.veil = t.veil := by
  cases r with
  | ok b u => cases h
  | error e' u =>
    obtain ⟨rfl, hu⟩ := EStateM.Result.error.inj h
    exact ⟨u, rfl, hu⟩

/-- A run in which no host access takes place, and which does not look behind the veil. -/
theorem Op.Heedless.overt {α : Type} {x : Op α} (h : ∀ s, Op.veiled (x s) = Op.veiled (x s.veil))
    (hbus : ∀ s, (Op.left (x s)).bus = s.bus) : x.Heedless where
  same s u _ _ hv := by rw [h s, h u, hv]
  harmless s hs := State.harmless_of_inputs hs (by rw [hbus])

theorem Op.Heedless.pure {α : Type} (a : α) : (Pure.pure a : Op α).Heedless := .overt (fun _ => rfl) fun _ => rfl

theorem Op.Heedless.bind {α β : Type} {x : Op α} {f : α → Op β} (hx : x.Heedless) (hf : ∀ a, (f a).Heedless) :
    (x >>= f).Heedless where
  same s u hs hu hv := by
    have h := hx.same s u hs hu hv
    have hs' := hx.harmless s hs
    have hu' := hx.harmless u hu
    cases hxu : x u with
    | ok a v =>
      rw [hxu] at h hu'
      obtain ⟨t, hxs, ht⟩ := Op.veiled_ok h
      rw [hxs] at hs'
      rw [Op.bind_ok hxs, Op.bind_ok hxu]
      exact (hf a).same t v hs' hu' ht
    | error e v =>
      rw [hxu] at h
      obtain ⟨t, hxs, ht⟩ := Op.veiled_error h
      rw [Op.bind_error hxs, Op.bind_error hxu]
      exact congrArg (EStateM.Result.error e) ht
  harmless s hs := by
    have hs' := hx.harmless s hs
    cases hxs : x s with
    | ok a t =>
      rw [hxs] at hs'
      rw [Op.bind_ok hxs]
      exact (hf a).harmless t hs'
    | error e t =>
      rw [hxs] at hs'
      rw [Op.bind_error hxs]
      exact hs'

theorem Op.Heedless.forUp {f : Nat → Op Unit} (hf : ∀ i, (f i).Heedless) (n start : Nat) :
    (Machine.forUp f n start).Heedless := by
  induction n generalizing start with
  | zero => exact .pure ()
  | succ n ih => exact (hf start).bind fun _ => ih (start + 1)

/-! ## Host accesses and actions -/

theorem State.busyRead_veil (s : State) (o : HostOffset) : (s.busyRead o).veil = s.veil := by
  unfold State.busyRead
  split <;> rfl

theorem State.busyWrite_veil (s : State) (o : HostOffset) (v : HostWord) : (s.busyWrite o v).veil = s.veil := by
  unfold State.busyWrite
  split <;> rfl

/-- A harmless access during an operation takes place, and stays behind the veil (20_memory R63). -/
theorem busyAct_benign {a : HostAct} (ha : a.benign = true) (s : State) :
    ∃ t, busyAct a s = .ok () t ∧ t.veil = s.veil ∧ t.bus.inputs = s.bus.inputs := by
  cases a with
  | read o w => exact ⟨s.busyRead o, if_pos ha, s.busyRead_veil o, (s.busyRead_kept o).1⟩
  | write o w v => exact ⟨s.busyWrite o v, if_pos ha, s.busyWrite_veil o v, (s.busyWrite_kept o v).1⟩
  | reset => cases ha

theorem serveDue_benign (is : List Input) (s : State) (his : ∀ x ∈ is, x.act.benign = true) (hs : s.harmless) :
    ∃ t, serveDue is s = .ok () t ∧ t.veil = s.veil ∧ t.harmless := by
  induction is generalizing s with
  | nil => exact ⟨s, rfl, rfl, hs⟩
  | cons i rest ih =>
    obtain ⟨_ | _ | n, a⟩ := i
    · exact ⟨s, rfl, rfl, hs⟩
    · obtain ⟨ha, hrest⟩ := List.forall_mem_cons.1 his
      obtain ⟨t, ht, hv, hi⟩ := busyAct_benign ha (s.withInputs rest)
      obtain ⟨u, hu, hv', hh⟩ := ih t hrest (State.harmless_of_inputs (s := s.withInputs rest) hrest hi)
      exact ⟨u, by rw [serveDue, Op.bind_ok (Op.update_run _ s), Op.bind_ok ht, hu], hv'.trans hv, hh⟩
    · exact ⟨s, rfl, rfl, hs⟩

/-- The harmless accesses that are due take place, and stay behind the veil. -/
theorem hostWindow_benign {s : State} (hs : s.harmless) :
    ∃ t, hostWindow s = .ok () t ∧ t.veil = s.veil ∧ t.harmless := by
  unfold hostWindow
  split
  · exact serveDue_benign s.bus.inputs s hs hs
  · exact ⟨s, rfl, rfl, hs⟩

theorem hostWindow_heedless : hostWindow.Heedless where
  same s u hs hu hv := by
    obtain ⟨t, ht, htv, -⟩ := hostWindow_benign hs
    obtain ⟨w, hw, hwv, -⟩ := hostWindow_benign hu
    rw [ht, hw, Op.veiled, Op.veiled, htv, hwv, hv]
  harmless s hs := by
    obtain ⟨t, ht, -, hh⟩ := hostWindow_benign hs
    rw [ht]
    exact hh

theorem State.tick_veil (s : State) : s.tick.veil = s.veil := by
  unfold State.tick
  split <;> rfl

theorem State.harmless_tick {s : State} (h : s.harmless) : s.tick.harmless := by
  unfold State.tick
  split
  case h_1 n a rest hb =>
    rw [State.harmless, hb, List.forall_mem_cons] at h
    exact List.forall_mem_cons.2 h
  case h_2 => exact h

theorem State.seq_of_veil {s u : State} (h : s.veil = u.veil) : s.seq = u.seq := State.congr_veil (fun _ => rfl) h

/-- An action whose effect does not look behind the veil. -/
theorem act_heedless {f : State → State} (hf : ∀ s : State, (f s).veil = (f s.veil).veil ∧ (f s).bus = s.bus) :
    (act f).Heedless := by
  have hperf (s : State) (hs : s.harmless) : (f s).tick.harmless :=
    State.harmless_tick (State.harmless_of_inputs hs (by rw [(hf s).2]))
  refine ⟨fun s u hs hu hv => ?_, fun s hs => ?_⟩
  · cases hr : s.seq.replaying with
    | true =>
      rw [act_replaying hr, act_replaying (by rw [← State.seq_of_veil hv, hr])]
      exact congrArg (fun t : State => EStateM.Result.ok () t.passOver) hv
    | false =>
      rw [act_performed hr, act_performed (by rw [← State.seq_of_veil hv, hr])]
      refine hostWindow_heedless.same _ _ (hperf s hs) (hperf u hu) ?_
      rw [State.tick_veil, State.tick_veil, (hf s).1, hv, ← (hf u).1]
  · cases hr : s.seq.replaying with
    | true =>
      rw [act_replaying hr]
      exact hs
    | false =>
      rw [act_performed hr]
      exact hostWindow_heedless.harmless _ (hperf s hs)

theorem assign_heedless {f : State → State} (hf : ∀ s : State, (f s).veil = (f s.veil).veil ∧ (f s).bus = s.bus) :
    (assign f).Heedless :=
  act_heedless fun s => ⟨congrArg (fun t : State => t.forth []) (hf s).1, (hf s).2⟩

theorem raise_heedless {α : Type} (c : Cause) (a : Addr) (e v : Word) : (raise c a e v : Op α).Heedless :=
  .overt (fun _ => rfl) fun _ => rfl

/-! ### Link transactions -/

theorem emit_heedless (e : LinkEvent) : (emit e).Heedless := act_heedless (f := fun s => s.record e) fun _ => ⟨rfl, rfl⟩

theorem emitAll_heedless (es : List LinkEvent) : (emitAll es).Heedless := by
  induction es with
  | nil => exact .pure ()
  | cons e es ih => exact (emit_heedless e).bind fun _ => ih

theorem sampledBit_heedless : sampledBit.Heedless := by
  have htake : takeAgain.Heedless := by
    refine .overt (fun s => ?_) fun s => ?_
    · unfold takeAgain
      rw [show s.veil.seq = s.seq from rfl]
      split <;> rfl
    · unfold takeAgain
      split <;> rfl
  have hdraw : drawBit.Heedless := .overt (fun _ => rfl) fun _ => rfl
  refine ⟨fun s u hs hu hv => ?_, fun s hs => ?_⟩
  · unfold sampledBit
    rw [State.seq_of_veil hv]
    split
    · exact htake.same s u hs hu hv
    · exact hdraw.same s u hs hu hv
  · unfold sampledBit
    split
    · exact htake.harmless s hs
    · exact hdraw.harmless s hs

theorem sample_heedless : sample.Heedless :=
  sampledBit_heedless.bind fun b => (emit_heedless _).bind fun _ => .pure b

theorem inBits_heedless (n : Nat) : (inBits n).Heedless := by
  induction n with
  | zero => exact .pure []
  | succ n ih =>
    have hcell : inCell.Heedless :=
      (emitAll_heedless _).bind fun _ => sample_heedless.bind fun b => (emitAll_heedless _).bind fun _ => .pure b
    exact hcell.bind fun b => ih.bind fun bs => .pure (b :: bs)

theorem keepRx_heedless (w : Word) : (keepRx w).Heedless := by
  refine .overt (fun s => ?_) fun s => ?_
  · unfold keepRx
    rw [show s.veil.seq = s.seq from rfl]
    split <;> rfl
  · unfold keepRx
    split <;> rfl

theorem readWord_heedless : readWord.Heedless :=
  (emitAll_heedless _).bind fun _ => (inBits_heedless 8).bind fun _ => (emitAll_heedless _).bind fun _ =>
    (keepRx_heedless _).bind fun _ => .pure _

/-- A look at what is not behind the veil. -/
theorem Op.Heedless.ask {α : Type} {f : State → α} (h : ∀ s, f s = f s.veil) : (Machine.ask f).Heedless :=
  .overt (fun s => congrArg (fun a => EStateM.Result.ok a s.veil) (h s)) fun _ => rfl

theorem readIcsp_heedless (f : IcspCodes → Nibble) : (readIcsp f).Heedless :=
  (Op.Heedless.ask fun _ => rfl).bind fun _ => (emitAll_heedless _).bind fun _ => readWord_heedless.bind fun _ => .pure _

theorem sendCore_heedless (f : CoreWords → Word) : (sendCore f).Heedless :=
  (Op.Heedless.ask fun _ => rfl).bind fun _ => emitAll_heedless _

theorem sendIcsp_heedless (f : IcspCodes → Nibble) (p : Word) : (sendIcsp f p).Heedless :=
  (Op.Heedless.ask fun _ => rfl).bind fun _ => emitAll_heedless _

theorem sendStartp_heedless (f : IcspCodes → Nibble) (p : Word) : (sendStartp f p).Heedless :=
  (sendIcsp_heedless f p).bind fun _ => (Op.Heedless.ask fun _ => rfl).bind fun _ => emitAll_heedless _

theorem gotoAddress_heedless (a : Addr) : (gotoAddress a).Heedless :=
  (Op.Heedless.ask fun _ => rfl).bind fun _ => emitAll_heedless _

theorem gotoShort_heedless (o : Byte) : (gotoShort o).Heedless :=
  (Op.Heedless.ask fun _ => rfl).bind fun _ => emitAll_heedless _

theorem eraseRegion_heedless (r : Nat) : (eraseRegion r).Heedless :=
  (Op.Heedless.ask fun _ => rfl).bind fun _ => emitAll_heedless _

theorem readPair_heedless (f g : IcspCodes → Nibble) : (do
    let lo ← readIcsp f
    let hi ← readIcsp g
    return hi ++ lo : Op Word).Heedless :=
  (readIcsp_heedless f).bind fun _ => (readIcsp_heedless g).bind fun _ => .pure _

/-! ### Buffers and progress -/

theorem memReadImg_heedless (w : Window) (i : Nat) : (memReadImg w i).Heedless := by
  refine .overt (fun s => ?_) fun s => ?_
  · unfold memReadImg
    rw [show s.veil.mem = s.mem from rfl]
    split <;> rfl
  · unfold memReadImg
    split <;> rfl

theorem memRead8_heedless (w : Window) (i : Nat) : (memRead8 w i).Heedless := by
  refine .overt (fun s => ?_) fun s => ?_
  · unfold memRead8
    rw [show s.veil.mem = s.mem from rfl]
    split <;> rfl
  · unfold memRead8
    split <;> rfl

theorem memWriteImg_heedless (w : Window) (i : Nat) (e : ImgEntry) : (memWriteImg w i e).Heedless :=
  assign_heedless fun _ => ⟨rfl, rfl⟩

theorem memWrite16_heedless (w : Window) (i : Nat) (v : Word) : (memWrite16 w i v).Heedless :=
  assign_heedless fun _ => ⟨rfl, rfl⟩

theorem memWrite8_heedless (w : Window) (i : Nat) (v : Byte) : (memWrite8 w i v).Heedless :=
  assign_heedless fun _ => ⟨rfl, rfl⟩

/-- Whether a report changes anything is not behind the veil; that it sets PROG_EVT is. -/
theorem emitProgress_heedless (ph : Phase) (p : BitVec 7) : (emitProgress ph p).Heedless := by
  refine assign_heedless fun s => ⟨?_, s.reportProgress_bus ph p⟩
  unfold State.reportProgress
  rw [show s.veil.seq = s.seq from rfl]
  split <;> rfl

theorem walkProgress_heedless (ph : Phase) (n : Nat) : (walkProgress ph n).Heedless :=
  (Op.Heedless.ask fun _ => rfl).bind fun _ => emitProgress_heedless ph _

/-! ## The pseudocode of each operation -/

/-- An assignment to the identity and geometry latches (10_state R25, R26). -/
theorem assignIdent_heedless (f : Identity → Identity) : (assign fun s => { s with ident := f s.ident }).Heedless :=
  assign_heedless fun _ => ⟨rfl, rfl⟩

theorem clearGeometry_heedless : clearGeometry.Heedless :=
  (assignIdent_heedless fun g => { g with codeSize := 0 }).bind fun _ =>
    (assignIdent_heedless fun g => { g with eraseBlocks := 0 }).bind fun _ =>
    assignIdent_heedless fun g => { g with wbufWords := 0 }

theorem setSession_heedless (x : Session) : (assign fun s => s.setSession x).Heedless :=
  assign_heedless fun _ => ⟨rfl, rfl⟩

theorem setCfgMm_heedless (v : Byte) : (assign fun s => s.setCfgMm v).Heedless := assign_heedless fun _ => ⟨rfl, rfl⟩

theorem enterBody_heedless : enterBody.Heedless :=
  (Op.Heedless.ask fun _ => rfl).bind fun _ => (emitAll_heedless _).bind fun _ =>
    (assignIdent_heedless fun g => { g with status := .unresolved }).bind fun _ =>
    (assignIdent_heedless fun g => { g with devid := 0 }).bind fun _ =>
    (assignIdent_heedless fun g => { g with rev := 0 }).bind fun _ => clearGeometry_heedless.bind fun _ =>
    (assignIdent_heedless fun g => { g with index := 0xFF }).bind fun _ => setSession_heedless _

theorem exitBody_heedless : exitBody.Heedless := (emitAll_heedless _).bind fun _ => setSession_heedless _

theorem identNotFound_heedless (d : Word) : (identNotFound d).Heedless :=
  (assignIdent_heedless fun g => { g with index := 0xFF }).bind fun _ => clearGeometry_heedless.bind fun _ =>
    (assignIdent_heedless fun g => { g with status := .notFound }).bind fun _ => raise_heedless _ _ _ _

theorem identResolved_heedless (k : Nat) (e : CatalogEntry) : (identResolved k e).Heedless :=
  (assignIdent_heedless fun g => { g with index := BitVec.ofNat 8 k }).bind fun _ =>
    (assignIdent_heedless fun g => { g with codeSize := e.codeSize }).bind fun _ =>
    (assignIdent_heedless fun g => { g with eraseBlocks := e.eraseBlocks }).bind fun _ =>
    (assignIdent_heedless fun g => { g with wbufWords := e.wbufWords }).bind fun _ =>
    assignIdent_heedless fun g => { g with status := .resolved }

theorem allocate_heedless (words : Nat) : (allocate words).Heedless :=
  (Op.Heedless.forUp (fun _ => memWriteImg_heedless _ _ _) words 0).bind fun _ =>
    .forUp (fun _ => memWriteImg_heedless _ _ _) 8 0

theorem identifyBody_heedless : identifyBody.Heedless := by
  refine ((gotoAddress_heedless _).bind fun _ => readPair_heedless _ _).bind fun d => ?_
  refine (assignIdent_heedless fun g => { g with devid := d }).bind fun _ =>
    (assignIdent_heedless fun g => { g with rev := revision d }).bind fun _ =>
    (Op.Heedless.ask fun _ => rfl).bind fun found => ?_
  rcases found with _ | ⟨k, e⟩
  · exact identNotFound_heedless d
  · exact (identResolved_heedless k e).bind fun _ => (allocate_heedless _).bind fun _ => setCfgMm_heedless 0

theorem eraseRegions_heedless (total : Nat) (rs : List Nat) (finished : Nat) :
    (eraseRegions total finished rs).Heedless := by
  induction rs generalizing finished with
  | nil => exact .pure ()
  | cons r rs ih =>
    exact (eraseRegion_heedless r).bind fun _ => (emitProgress_heedless _ _).bind fun _ => ih (finished + 1)

theorem eraseBlockBody_heedless : eraseBlockBody.Heedless :=
  (Op.Heedless.ask fun _ => rfl).bind fun r => (eraseRegion_heedless r).bind fun _ => emitProgress_heedless _ _

/-- A walk over the code memory (46_program_verify R212). -/
theorem codeWalk_heedless {f : Nat → Op Unit} (hf : ∀ a, (f a).Heedless) : (do
    gotoAddress 0x000000
    let n ← ask fun s => s.ident.nWords
    forUp f n 0 : Op Unit).Heedless :=
  (gotoAddress_heedless _).bind fun _ => (Op.Heedless.ask fun _ => rfl).bind fun n => .forUp hf n 0

theorem blankCheckBody_heedless : blankCheckBody.Heedless := by
  refine codeWalk_heedless fun a => (readPair_heedless _ _).bind fun d => ?_
  split
  · exact raise_heedless _ _ _ _
  · exact walkProgress_heedless _ _

theorem readBody_heedless : readBody.Heedless :=
  codeWalk_heedless fun _ => (readPair_heedless _ _).bind fun _ => (memWriteImg_heedless _ _ _).bind fun _ =>
    walkProgress_heedless _ _

theorem verifyCode_heedless : verifyCode.Heedless := by
  refine codeWalk_heedless fun a => (readPair_heedless _ _).bind fun d => (memReadImg_heedless _ _).bind fun e =>
    (Op.Heedless.ask fun _ => rfl).bind fun cfg => ?_
  split
  · split
    · exact raise_heedless _ _ _ _
    · exact walkProgress_heedless _ _
  · exact walkProgress_heedless _ _

theorem programWord_heedless (width base i : Nat) : (programWord width base i).Heedless := by
  refine (memReadImg_heedless _ _).bind fun e => ?_
  split
  · exact sendIcsp_heedless _ _
  · exact sendStartp_heedless _ _

theorem programCode_heedless : programCode.Heedless :=
  (sendCore_heedless _).bind fun _ => (sendCore_heedless _).bind fun _ => (sendCore_heedless _).bind fun _ =>
    (gotoAddress_heedless _).bind fun _ => (Op.Heedless.ask fun _ => rfl).bind fun _ =>
    .forUp (fun _ => (Op.Heedless.forUp (fun i => programWord_heedless _ _ i) _ 0).bind fun _ =>
      walkProgress_heedless _ _) _ 0

theorem cfgReadSlot_heedless (i : Nat) : (cfgReadSlot i).Heedless :=
  (gotoAddress_heedless _).bind fun _ => readPair_heedless _ _

theorem cfgWriteSlot_heedless (i : Nat) (v : Word) : (cfgWriteSlot i v).Heedless :=
  (Op.Heedless.ask fun _ => rfl).bind fun _ => (gotoAddress_heedless _).bind fun _ =>
    (sendStartp_heedless _ _).bind fun _ => (gotoShort_heedless _).bind fun _ => sendStartp_heedless _ _

theorem cfgWriteOne_heedless (i : Nat) : (cfgWriteOne i).Heedless := by
  refine (memReadImg_heedless _ _).bind fun c => ?_
  split
  · exact cfgWriteSlot_heedless i c.value
  · exact .pure ()

theorem cfgWritePass_heedless : cfgWritePass.Heedless := by
  refine (Op.Heedless.ask fun _ => rfl).bind fun any => ?_
  split
  · exact (sendCore_heedless _).bind fun _ => (sendCore_heedless _).bind fun _ => .forUp cfgWriteOne_heedless 8 0
  · exact .pure ()

theorem cfgVerifySlots_heedless (n i : Nat) (mm : Byte) : (cfgVerifySlots n i mm).Heedless := by
  induction n generalizing i mm with
  | zero => exact .pure mm
  | succ n ih =>
    refine (memReadImg_heedless _ _).bind fun c => ?_
    split
    · exact (cfgReadSlot_heedless i).bind fun _ => (memWrite16_heedless _ _ _).bind fun _ => ih (i + 1) _
    · exact ih (i + 1) mm

theorem cfgVerifyPass_heedless : cfgVerifyPass.Heedless :=
  (cfgVerifySlots_heedless 8 0 0).bind fun _ => setCfgMm_heedless _

theorem writeBody_heedless : writeBody.Heedless := by
  refine programCode_heedless.bind fun _ => (Op.Heedless.ask fun _ => rfl).bind fun verify => ?_
  cases verify with
  | true => exact verifyCode_heedless.bind fun _ => cfgWritePass_heedless.bind fun _ => cfgVerifyPass_heedless
  | false => exact cfgWritePass_heedless.bind fun _ => .pure ()

theorem eeAddress_heedless (e : Nat) : (eeAddress e).Heedless :=
  (sendCore_heedless _).bind fun _ => (sendCore_heedless _).bind fun _ => (sendCore_heedless _).bind fun _ =>
    (sendCore_heedless _).bind fun _ => (sendCore_heedless _).bind fun _ => sendCore_heedless _

theorem eeReadCell_heedless (e : Nat) : (eeReadCell e).Heedless :=
  (eeAddress_heedless e).bind fun _ => (sendCore_heedless _).bind fun _ => (sendCore_heedless _).bind fun _ =>
    (sendCore_heedless _).bind fun _ => (sendCore_heedless _).bind fun _ => readIcsp_heedless _

theorem setPolls_heedless (f : Word → Word) : (assign fun s => s.setPolls (f s.seq.polls)).Heedless :=
  assign_heedless fun _ => ⟨rfl, rfl⟩

theorem eePoll_heedless : eePoll.Heedless :=
  (sendCore_heedless _).bind fun _ => (sendCore_heedless _).bind fun _ => (sendCore_heedless _).bind fun _ =>
    (readIcsp_heedless _).bind fun _ => (setPolls_heedless (· + 1)).bind fun _ => .pure _

theorem eePollLoop_heedless (e : Nat) (d : Byte) (more : Nat) : (eePollLoop e d more).Heedless := by
  induction more with
  | zero =>
    refine eePoll_heedless.bind fun st => (Op.Heedless.ask fun _ => rfl).bind fun cfg => ?_
    split
    · exact .pure ()
    · exact raise_heedless _ _ _ _
  | succ more ih =>
    refine eePoll_heedless.bind fun st => (Op.Heedless.ask fun _ => rfl).bind fun cfg => ?_
    split
    · exact .pure ()
    · exact ih

theorem eeWriteCell_heedless (e : Nat) (d : Byte) : (eeWriteCell e d).Heedless :=
  (eeAddress_heedless e).bind fun _ => (sendCore_heedless _).bind fun _ => (sendCore_heedless _).bind fun _ =>
    (sendCore_heedless _).bind fun _ => (sendCore_heedless _).bind fun _ =>
    (setPolls_heedless fun _ => 0).bind fun _ => (Op.Heedless.ask fun _ => rfl).bind fun _ =>
    (eePollLoop_heedless e d _).bind fun _ => sendCore_heedless _

theorem eeSourceByte_heedless (e : Nat) : (eeSourceByte e).Heedless := by
  refine (Op.Heedless.ask fun _ => rfl).bind fun zero => ?_
  split
  · exact .pure _
  · exact memRead8_heedless _ _

theorem dumpSlot_heedless (i : Nat) : (dumpSlot i).Heedless :=
  (cfgReadSlot_heedless i).bind fun _ => memWrite16_heedless _ _ _

/-- The pseudocode of every instruction. -/
theorem pseudocode_heedless (i : Instr) : (pseudocode i).Heedless := by
  cases i with
  | enter => exact enterBody_heedless
  | exit => exact exitBody_heedless
  | identify => exact identifyBody_heedless
  | sendCmd => exact (Op.Heedless.ask fun _ => rfl).bind fun _ => emitAll_heedless _
  | sendWord => exact (Op.Heedless.ask fun _ => rfl).bind fun _ => emitAll_heedless _
  | readWord => exact readWord_heedless.bind fun _ => assign_heedless fun _ => ⟨rfl, rfl⟩
  | sendInsn =>
    exact (Op.Heedless.ask fun _ => rfl).bind fun _ => (Op.Heedless.ask fun _ => rfl).bind fun _ => emitAll_heedless _
  | gotoAddr => exact (Op.Heedless.ask fun _ => rfl).bind fun a => gotoAddress_heedless a
  | gotoShort => exact (Op.Heedless.ask fun _ => rfl).bind fun o => gotoShort_heedless o
  | blankCheck => exact blankCheckBody_heedless
  | bulkErase => exact (Op.Heedless.ask fun _ => rfl).bind fun rs => eraseRegions_heedless _ rs 0
  | eraseBlock => exact eraseBlockBody_heedless
  | read => exact readBody_heedless
  | write => exact writeBody_heedless
  | eepromRead =>
    exact (Op.Heedless.ask fun _ => rfl).bind fun n =>
      .forUp (fun e => (eeReadCell_heedless e).bind fun _ => memWrite8_heedless _ _ _) n 0
  | eepromWrite =>
    exact (Op.Heedless.ask fun _ => rfl).bind fun n =>
      .forUp (fun e => (eeSourceByte_heedless e).bind fun d => eeWriteCell_heedless e d) n 0
  | dumpUserId =>
    exact (gotoAddress_heedless _).bind fun _ =>
      .forUp (fun _ => (readIcsp_heedless _).bind fun _ => memWrite8_heedless _ _ _) 8 0
  | dumpConfig => exact .forUp dumpSlot_heedless 8 0
  | _ => exact .pure ()

/-! ## The instruction -/

/-- The state that an instruction ends in, behind the veil, where it ends the step. -/
theorem Op.Heedless.finish {x : Op Unit} (hx : x.Heedless) {s u t : State} (hs : s.harmless) (hu : u.harmless)
    (hv : s.veil = u.veil) (h : Machine.finish (x u) = .next t) :
    ∃ t', Machine.finish (x s) = .next t' ∧ t'.veil = t.veil := by
  have hsame := hx.same s u hs hu hv
  obtain ⟨w, hxu, rfl⟩ | hxu := finish_next h <;> rw [hxu] at hsame
  · obtain ⟨w', hxs, hw⟩ := Op.veiled_ok hsame
    exact ⟨w'.complete, by rw [hxs]; rfl, State.congr_veil (f := fun v => v.complete.veil) (fun _ => rfl) hw⟩
  · obtain ⟨t', hxs, ht⟩ := Op.veiled_error hsame
    exact ⟨t', by rw [hxs]; rfl, ht⟩

theorem Op.Heedless.runLink {x : Op Unit} (hx : x.Heedless) {s u t : State} (hs : s.harmless) (hu : u.harmless)
    (hv : s.veil = u.veil) (h : Machine.runLink x u = .next t) :
    ∃ t', Machine.runLink x s = .next t' ∧ t'.veil = t.veil := by
  have hsame := hx.same s u hs hu hv
  unfold Machine.runLink at h ⊢
  rcases hxu : x u with ⟨_, w⟩ | ⟨_ | _ | _, w⟩ <;> rw [hxu] at h hsame <;> cases h
  · obtain ⟨t', hxs, ht⟩ := Op.veiled_ok hsame
    exact ⟨t', by rw [hxs], ht⟩
  · obtain ⟨t', hxs, ht⟩ := Op.veiled_error hsame
    exact ⟨t', by rw [hxs], ht⟩

/-- An instruction that is no host operation is a link word. -/
theorem exec_eq_runLink_heedless {i : Instr} (h : hostOp i = none) : ∃ x : Op Unit, x.Heedless ∧ exec i = runLink x := by
  have hr (f : IcspCodes → Nibble) : (readAlone f).Heedless := (readIcsp_heedless f).bind fun _ => .pure ()
  cases i with
  | core p | tblwt p | tblwtPostinc2 p => exact ⟨_, sendIcsp_heedless _ p, rfl⟩
  | tblwtPostinc2Startp p | tblwtStartp p => exact ⟨_, sendStartp_heedless _ p, rfl⟩
  | shiftOutTablat | tblrd | tblrdPostinc | tblrdPostdec | tblrdPreinc => exact ⟨_, hr _, rfl⟩
  | reservedIcspCommand c p => exact ⟨_, emitAll_heedless (sendInsnEvents c p), rfl⟩
  | _ => cases h <;> exact ⟨_, sendCore_heedless _, rfl⟩

theorem State.begun_veil (i : Instr) (op : Byte) (s : State) : (s.begun i op).veil = (s.veil.begun i op).veil := by
  unfold State.begun
  split
  · rfl
  · split <;> rfl

theorem State.harmless_begun {s : State} (h : s.harmless) (i : Instr) (op : Byte) : (s.begun i op).harmless :=
  State.harmless_of_inputs h (by rw [State.begun_bus])

/-- From states that are alike behind the veil every instruction ends in states that are. -/
theorem exec_veil {i : Instr} {s u t : State} (hs : s.harmless) (hu : u.harmless) (hv : s.veil = u.veil)
    (h : exec i u = .next t) : ∃ t', exec i s = .next t' ∧ t'.veil = t.veil := by
  cases hi : hostOp i with
  | none =>
    obtain ⟨x, hx, he⟩ := exec_eq_runLink_heedless hi
    rw [he] at h ⊢
    exact hx.runLink hs hu hv h
  | some ok =>
    obtain ⟨op, k⟩ := ok
    obtain ⟨first, hfirst, he⟩ := exec_eq_issueFrom hi
    rw [he] at h ⊢
    have hbusy : s.seq.busy = u.seq.busy := by rw [State.seq_of_veil hv]
    have hcheck : issueCheck k (s.accept op) = issueCheck k (u.accept op) :=
      State.congr_veil (f := fun v => issueCheck k (v.accept op)) (fun _ => rfl) hv
    cases hb : u.seq.busy with
    | true =>
      rw [issueFrom_busy hb] at h
      cases h
      exact ⟨_, issueFrom_busy (hbusy.trans hb) op k first _,
        State.congr_veil (f := fun v => v.setOverrun.veil) (fun _ => rfl) hv⟩
    | false =>
      by_cases hc : issueCheck k (u.accept op) = .none
      · rw [issueFrom_accepted hb first _ hc, hfirst] at h
        rw [issueFrom_accepted (hbusy.trans hb) first _ (hcheck.trans hc), hfirst]
        exact (hostWindow_heedless.bind fun _ => pseudocode_heedless i).finish (State.harmless_begun hs i op)
          (State.harmless_begun hu i op) (by rw [State.begun_veil, hv, ← State.begun_veil]) h
      · rw [issueFrom_refused hb first _ hc] at h
        cases h
        refine ⟨_, issueFrom_refused (hbusy.trans hb) first _ (by rwa [hcheck]), ?_⟩
        rw [hcheck]
        exact State.congr_veil (f := fun v => (v.afterRefusal op _).veil) (fun _ => rfl) hv

/-- Settles O19: the pending accesses are behind the veil. -/
theorem hostAccessHarmless : Obligations.HostAccessHarmless := by
  intro i s t hs h
  have hnone : (s.withInputs []).harmless := fun x hx => absurd hx List.not_mem_nil
  obtain ⟨t', ht', hv⟩ := exec_veil hs hnone rfl h
  have hsame {β : Type} (f : State → β) (hf : ∀ v : State, f v = f v.veil) : f t' = f t := State.congr_veil hf hv
  exact ⟨t', ht', hsame State.link fun _ => rfl, hsame State.mem fun _ => rfl, hsame State.ident fun _ => rfl,
    hsame State.session fun _ => rfl, hsame State.seq fun _ => rfl, hsame State.cfg fun _ => rfl,
    hsame State.txns fun _ => rfl, hsame (fun v => { v.regs with
      done := t.regs.done, progEvt := t.regs.progEvt, overrun := t.regs.overrun, accErr := t.regs.accErr }) fun _ => rfl⟩

end Sys2Proof.Machine

/-! PROOF of the encoding statements O1, O2 and O3. A row of the opcode map, of the command table or of the core word table
pairs a code with its instruction; `InTable` says which words stand in them. The decoder answers a listed instruction or one
of the three forms that no table lists, and the encoder writes each instruction as the word it is listed at. -/

namespace Sys2Proof

/-! ## Looking up a row -/

/-- A row that is found is in the table. -/
theorem mem_of_findRow {n : Nat} {w : BitVec n} {rows : List (BitVec n × Instr)} {i : Instr}
    (h : findRow w rows = some i) : (w, i) ∈ rows := by
  induction rows with
  | nil => cases h
  | cons row rows ih =>
    obtain ⟨code, j⟩ := row
    rw [findRow] at h
    split at h
    case isTrue hc =>
      cases h
      exact hc ▸ List.mem_cons_self
    case isFalse => exact List.mem_cons_of_mem _ (ih h)

/-- None is found exactly where no row has the code. -/
theorem findRow_eq_none {n : Nat} {w : BitVec n} {rows : List (BitVec n × Instr)} :
    findRow w rows = none ↔ w ∉ rows.map Prod.fst := by
  induction rows with
  | nil => simp [findRow]
  | cons row rows ih =>
    rw [findRow, List.map_cons, List.mem_cons, not_or, ← ih]
    split
    case isTrue hc => simp [hc]
    case isFalse hc => simp [Ne.symm hc]

/-- Where no two rows share a code, every row is found by its own. -/
theorem findRow_of_mem {n : Nat} {w : BitVec n} {rows : List (BitVec n × Instr)} {i : Instr}
    (hd : (rows.map Prod.fst).Nodup) (h : (w, i) ∈ rows) : findRow w rows = some i := by
  induction rows with
  | nil => cases h
  | cons row rows ih =>
    obtain ⟨hrow, hrows⟩ := List.nodup_cons.1 hd
    rw [findRow]
    obtain rfl | h := List.mem_cons.1 h
    · exact if_pos rfl
    · have hne : row.1 ≠ w := fun hw => hrow (hw ▸ List.mem_map_of_mem h)
      rw [if_neg hne, ih hrows h]

/-! ## The codes of each table -/

theorem hostRows_codes : hostRows.map Prod.fst = hostOpcodes := rfl

/-- The rows of shape R stand before CORE in the table (30_encoding R105), and after it in the list of all codes. -/
theorem icspRows_codes (c : IcspCodes) (p : Word) : ((icspRows c p).map Prod.fst).Perm c.all :=
  List.perm_middle (l₁ := [c.shiftOutTablat, c.tblrd, c.tblrdPostinc, c.tblrdPostdec, c.tblrdPreinc])

theorem coreRows_codes (c : CoreWords) : (coreRows c).map Prod.fst = c.fixed := rfl

/-- Codes that can be told apart: each table's are distinct, and no word of the core table has the form of MOVLW. -/
theorem Codes.distinct_iff (c : Codes) : c.distinct = true ↔
    c.icsp.all.Nodup ∧ c.core.fixed.Nodup ∧ c.core.movlw &&& 0x00FF = 0 ∧
      ∀ w ∈ c.core.fixed, w &&& 0xFF00 ≠ c.core.movlw := by
  simp [Codes.distinct, and_assoc]

/-! ## MOVLW and its literal -/

/-- The literal stands in the low byte, where the MOVLW word has no bits (30_encoding R108). -/
theorem CoreWords.movlwOf_low {c : CoreWords} (h : c.movlw &&& 0x00FF = 0) (k : Byte) :
    (c.movlwOf k).setWidth 8 = k := by
  have hlow : c.movlw.setWidth 8 = (0 : Byte) :=
    calc c.movlw.setWidth 8 = c.movlw.setWidth 8 &&& BitVec.allOnes 8 := BitVec.and_allOnes.symm
      _ = (c.movlw &&& 0x00FF).setWidth 8 := by rw [BitVec.setWidth_and]; rfl
      _ = 0 := by rw [h]; rfl
  rw [CoreWords.movlwOf, BitVec.setWidth_or, hlow, Machine.byte_of_word]
  exact BitVec.zero_or

/-- The high byte is the MOVLW word's own. -/
theorem CoreWords.movlwOf_high {c : CoreWords} (h : c.movlw &&& 0x00FF = 0) (k : Byte) :
    c.movlwOf k &&& 0xFF00 = c.movlw := by
  have hmovlw : c.movlw &&& 0xFF00 = c.movlw :=
    calc c.movlw &&& 0xFF00 = c.movlw &&& 0xFF00 ||| c.movlw &&& 0x00FF := by rw [h]; exact BitVec.or_zero.symm
      _ = c.movlw &&& BitVec.allOnes 16 := BitVec.and_or_distrib_left.symm
      _ = c.movlw := BitVec.and_allOnes
  have hk : k.setWidth 16 &&& (0xFF00 : Word) = 0 := by revert k; decide
  rw [CoreWords.movlwOf, BitVec.and_or_distrib_right, hmovlw, hk]
  exact BitVec.or_zero

/-- A word of the MOVLW form stands in no other row. -/
theorem Codes.movlwOf_not_fixed {c : Codes} (hd : c.distinct = true) (k : Byte) :
    c.core.movlwOf k ∉ c.core.fixed := by
  obtain ⟨-, -, hmovlw, hfixed⟩ := c.distinct_iff.1 hd
  exact fun hw => hfixed _ hw (CoreWords.movlwOf_high hmovlw k)

/-! ## Words and the rows they are listed at -/

/-- The word stands with the instruction in a table of 30_encoding R101, R104 or R108. -/
def InTable (c : Codes) : CodeWord → Instr → Prop
  | .hostOpcode op, i => (op, i) ∈ hostRows
  | .link (.icsp code p), i => (code, i) ∈ icspRows c.icsp p
  | .link (.coreWord w), i => (w, i) ∈ coreRows c.core

/-- The instructions that no table lists: the two reserved rows (30_encoding R103, R106), and MOVLW with its literal
(R108). -/
inductive OffTable : Instr → Prop
  | reservedHostOpcode (op : Byte) : OffTable (.reservedHostOpcode op)
  | reservedIcspCommand (code : Nibble) (p : Word) : OffTable (.reservedIcspCommand code p)
  | movlw (k : Byte) : OffTable (.movlw k)

/-- The encoder writes every other instruction as a word that is listed with it. -/
theorem encode_inTable (c : Codes) (i : Instr) : InTable c (encode c i) i ∨ OffTable i := by
  cases i with
  | reservedHostOpcode op => exact .inr (.reservedHostOpcode op)
  | reservedIcspCommand code p => exact .inr (.reservedIcspCommand code p)
  | movlw k => exact .inr (.movlw k)
  | _ => exact .inl (by simp [InTable, encode, hostRows, icspRows, coreRows])

/-- A listed instruction is well formed. -/
theorem wf_of_inTable {c : Codes} {cw : CodeWord} {i : Instr} (h : InTable c cw i) : i.wf c = true := by
  cases i with
  | reservedHostOpcode | reservedIcspCommand =>
    revert h
    unfold InTable
    split <;> simp [hostRows, icspRows, coreRows]
  | _ => rfl

theorem encode_hostRows (c : Codes) : ∀ row ∈ hostRows, encode c row.2 = .hostOpcode row.1 := by
  simp [hostRows, encode]

theorem encode_coreRows (c : Codes) : ∀ row ∈ coreRows c.core, encode c row.2 = .link (.coreWord row.1) := by
  simp [coreRows, encode]

/-- A command of shape W is written with its payload, and one of shape R with zeros (30_encoding R100, R105). -/
theorem encode_icspRows (c : Codes) (p : Word) : ∀ row ∈ icspRows c.icsp p,
    encode c row.2 = .link (.icsp row.1 p) ∨
      Machine.isReadCode c.icsp row.1 = true ∧ encode c row.2 = .link (.icsp row.1 0) := by
  simp [icspRows, encode, Machine.isReadCode]

/-- The encoder writes a listed instruction as a word it is listed with, but for the payload of a command of shape R. -/
theorem encode_of_inTable {c : Codes} {cw : CodeWord} {i : Instr} (h : InTable c cw i) :
    encode c i = cw ∨
      ∃ code p, cw = .link (.icsp code p) ∧ Machine.isReadCode c.icsp code = true ∧
        encode c i = .link (.icsp code 0) :=
  match cw with
  | .hostOpcode _ => .inl (encode_hostRows c _ h)
  | .link (.icsp code p) =>
    (encode_icspRows c p _ h).imp_right fun ⟨hread, he⟩ => ⟨code, p, rfl, hread, he⟩
  | .link (.coreWord _) => .inl (encode_coreRows c _ h)

/-! ## The decoder -/

/-- An opcode outside the table of R101 is the reserved row's (30_encoding R103). -/
theorem decodeHost_reserved {op : Byte} (h : op ∉ hostOpcodes) : decodeHost op = .reservedHostOpcode op := by
  rw [decodeHost, findRow_eq_none.2 (hostRows_codes ▸ h), Option.getD_none]

/-- A code that names no command is the reserved row's (30_encoding R106). -/
theorem decodeIcsp_reserved {c : IcspCodes} {code : Nibble} (h : code ∉ c.all) (p : Word) :
    decodeIcsp c code p = .reservedIcspCommand code p := by
  rw [decodeIcsp, findRow_eq_none.2 ((icspRows_codes c p).mem_iff.not.2 h), Option.getD_none]

/-- A word of the MOVLW form that stands in no other row gives its literal back (30_encoding R108). -/
theorem decodeCore_movlw {c : Codes} (hd : c.distinct = true) (k : Byte) :
    decodeCore c.core (c.core.movlwOf k) = .ok (.movlw k) := by
  obtain ⟨-, -, hmovlw, -⟩ := c.distinct_iff.1 hd
  rw [decodeCore, findRow_eq_none.2 (coreRows_codes c.core ▸ Codes.movlwOf_not_fixed hd k)]
  simp only [CoreWords.movlwOf_low hmovlw, if_true]

/-- Where the codes can be told apart, a listed word is read as the instruction it is listed with. -/
theorem decode_of_inTable {c : Codes} (hd : c.distinct = true) {cw : CodeWord} {i : Instr} (h : InTable c cw i) :
    decode c cw = .ok i := by
  obtain ⟨hicsp, hcore, -, -⟩ := c.distinct_iff.1 hd
  match cw with
  | .hostOpcode op =>
    have hrow : findRow op hostRows = some i := findRow_of_mem (hostRows_codes ▸ by decide) h
    rw [decode, decodeHost, hrow, Option.getD_some]
  | .link (.icsp code p) =>
    have hrow : findRow code (icspRows c.icsp p) = some i :=
      findRow_of_mem ((icspRows_codes c.icsp p).nodup_iff.2 hicsp) h
    rw [decode, decodeLink, decodeIcsp, hrow, Option.getD_some]
  | .link (.coreWord w) =>
    have hrow : findRow w (coreRows c.core) = some i := findRow_of_mem hcore h
    rw [decode, decodeLink, decodeCore, hrow]

/-- Everything the decoder can answer: an instruction listed at the word, or one that no table lists, which is well formed
and written as that very word. -/
theorem decode_cases {c : Codes} {cw : CodeWord} {i : Instr} (h : decode c cw = .ok i) :
    InTable c cw i ∨ i.wf c = true ∧ encode c i = cw := by
  match cw with
  | .hostOpcode op =>
    cases h
    rw [decodeHost]
    cases hrow : findRow op hostRows with
    | some i => exact .inl (mem_of_findRow hrow)
    | none =>
      have hop : op ∉ hostOpcodes := findRow_eq_none.1 hrow
      exact .inr ⟨by simp [Instr.wf, hop], rfl⟩
  | .link (.icsp code p) =>
    cases h
    rw [decodeIcsp]
    cases hrow : findRow code (icspRows c.icsp p) with
    | some i => exact .inl (mem_of_findRow hrow)
    | none =>
      have hcode : code ∉ c.icsp.all := (icspRows_codes c.icsp p).mem_iff.not.1 (findRow_eq_none.1 hrow)
      exact .inr ⟨by simp [Instr.wf, hcode], rfl⟩
  | .link (.coreWord w) =>
    rw [decode, decodeLink, decodeCore] at h
    cases hrow : findRow w (coreRows c.core) with
    | some j =>
      rw [hrow] at h
      cases h
      exact .inl (mem_of_findRow hrow)
    | none =>
      rw [hrow] at h
      by_cases hw : c.core.movlwOf (w.setWidth 8) = w
      · rw [if_pos hw] at h
        cases h
        exact .inr ⟨rfl, by rw [encode, hw]⟩
      · rw [if_neg hw] at h
        cases h

/-- Settles O1: the encoder writes a listed instruction as a word that decodes to it, and the three forms that no table
lists decode because their values are in no row. -/
theorem decodeEncodeAll : Obligations.DecodeEncodeAll := by
  intro c i hd hwf
  obtain h | h := encode_inTable c i
  · exact decode_of_inTable hd h
  cases h with
  | reservedHostOpcode op =>
    have hop : op ∉ hostOpcodes := by simpa [Instr.wf] using hwf
    rw [encode, decode, decodeHost_reserved hop]
  | reservedIcspCommand code p =>
    have hcode : code ∉ c.icsp.all := by simpa [Instr.wf] using hwf
    rw [encode, decode, decodeLink, decodeIcsp_reserved hcode]
  | movlw k => rw [encode, decode, decodeLink, decodeCore_movlw hd]

/-- Settles O2: by `decode_cases`, only a listed command of shape R is written with another payload. -/
theorem encodeDecode : Obligations.EncodeDecode := by
  intro c cw i h
  obtain hrow | ⟨hwf, hencode⟩ := decode_cases h
  · exact ⟨wf_of_inTable hrow, encode_of_inTable hrow⟩
  · exact ⟨hwf, .inl hencode⟩

/-- Settles O3: the decoder evaluated at each of the words. -/
theorem specWordsDecode : Obligations.SpecWordsDecode :=
  ⟨rfl, rfl, rfl, rfl, rfl, rfl, rfl, rfl, rfl, rfl, rfl, rfl, rfl⟩

end Sys2Proof

/-! PROOF of O4 and of the link word statements O48, O49 and O50: a reserved opcode never passes its issue check, and a link
word run by itself on an idle block leaves what its undisturbed transaction does to the link. -/

namespace Sys2Proof.Machine

/-! ## Reserved opcodes -/

/-- Settles O4: the issue check of a reserved opcode is BADOP in every session state (60_exceptions R282). -/
theorem reservedOpcodeBadop : Obligations.ReservedOpcodeBadop := by
  refine ⟨fun op hop => decodeHost_reserved (by simpa using hop), fun op s hidle => ?_⟩
  have hcheck : issueCheck .reserved (s.accept op) = .badop := rfl
  rw [show exec (.reservedHostOpcode op) s = issue op .reserved (pure ()) s from rfl,
    issue_refused hidle _ (by rw [hcheck]; decide), hcheck]

/-! ## A link word by itself (log 6) -/

/-- An idle block that no host access disturbs is calm. -/
theorem State.calm_of_idle {s : State} (hpos : s.seq.position = none) (hquiet : s.quiet) : s.calm :=
  ⟨hquiet, by rw [Sequencer.replaying, hpos]⟩

/-- A link word that only emits `es` leaves the state `afterLink` names: an idle block has no position to move. -/
theorem runLink_output {s : State} (hpos : s.seq.position = none) {x : Op Unit} {es : List LinkEvent}
    (h : x s = .ok () (s.recordAll es)) : runLink x s = .next (s.afterLink es) := by
  rw [runLink, h, State.recordAll_eq, State.ran_idle hpos]
  rfl

/-- A read transaction by itself: its eight bits, and the byte they make in the receive register (log 7). -/
theorem runLink_readAlone {s : State} (hpos : s.seq.position = none) (hs : s.calm) (f : IcspCodes → Nibble) :
    ∃ (bits : List Bool) (l' : LinkSide), bits.length = 8 ∧ s.link.Ran l' (readTxnEvents (f s.cfg.codes.icsp) bits) ∧
      l'.rx = (byteOfBits bits).setWidth 16 ∧ runLink (readAlone f) s = .next { s with link := l' } := by
  obtain ⟨bits, l', hlen, hran, hrx, hread⟩ := readIcsp_calm hs f
  refine ⟨bits, l', hlen, hran, hrx, ?_⟩
  rw [runLink, readAlone, Op.bind_ok hread, ← State.ran_idle hpos l' (readTxnEvents (f s.cfg.codes.icsp) bits)]
  rfl

/-- Settles O48: each row is a write transaction, or one with its programming pulse. -/
theorem linkWriteRows : Obligations.LinkWriteRows := by
  intro s p code hpos hquiet
  have hs := State.calm_of_idle hpos hquiet
  have hwrite (f : IcspCodes → Nibble) := runLink_output hpos (sendIcsp_calm hs f p)
  have hstartp (f : IcspCodes → Nibble) := runLink_output hpos (sendStartp_calm hs f p)
  exact ⟨hwrite _, hwrite _, hwrite _, hstartp _, hstartp _, runLink_output hpos (emitAll_calm hs _)⟩

/-- Settles O49: each row is a read transaction with the row's command. -/
theorem linkReadRows : Obligations.LinkReadRows := by
  intro s i code hpos hquiet hrow
  obtain ⟨f, rfl, hexec⟩ : ∃ f : IcspCodes → Nibble, f s.cfg.codes.icsp = code ∧ exec i = runLink (readAlone f) := by
    simp only [List.mem_cons, List.not_mem_nil, or_false, Prod.mk.injEq] at hrow
    obtain ⟨rfl, rfl⟩ | ⟨rfl, rfl⟩ | ⟨rfl, rfl⟩ | ⟨rfl, rfl⟩ | ⟨rfl, rfl⟩ := hrow <;> exact ⟨_, rfl, rfl⟩
  rw [hexec]
  exact runLink_readAlone hpos (State.calm_of_idle hpos hquiet) f

/-- Settles O50: each row is a CORE transaction with the row's word. -/
theorem coreWordRows : Obligations.CoreWordRows := by
  intro s i w k hpos hquiet hrow
  obtain ⟨f, rfl, hexec⟩ : ∃ f : CoreWords → Word, f s.cfg.codes.core = w ∧ exec i = runLink (sendCore f) := by
    simp only [List.mem_cons, List.not_mem_nil, or_false, Prod.mk.injEq] at hrow
    casesm* _ ∨ _
    all_goals
      obtain ⟨rfl, rfl⟩ := hrow
      exact ⟨_, rfl, rfl⟩
  rw [hexec]
  exact runLink_output hpos (sendCore_calm (State.calm_of_idle hpos hquiet) f)

end Sys2Proof.Machine

/-! PROOF of O51 (70_reset R336). Each procedure's clock pulses, from the output cell up: a sequence's pulses are the sum of
its parts'. -/

namespace Sys2Proof.Machine

/-! ## Sequences of events -/

/-- The pulses are the rises of PGC among the events. -/
theorem clockPulses_eq_count (es : List LinkEvent) : clockPulses es = es.count (.pin .pgc true) := by
  induction es using clockPulses.induct with
  | case1 => rfl
  | case2 es ih => rw [clockPulses, ih, List.count_cons_self]
  | case3 p v es hne ih => rw [clockPulses, ih, List.count_cons_of_ne] <;> simpa using hne
  | case4 p d es ih => rw [clockPulses, ih, List.count_cons_of_ne]; simp
  | case5 t es ih => rw [clockPulses, ih, List.count_cons_of_ne]; simp
  | case6 b es ih => rw [clockPulses, ih, List.count_cons_of_ne]; simp

@[simp] theorem clockPulses_append (es fs : List LinkEvent) :
    clockPulses (es ++ fs) = clockPulses es + clockPulses fs := by
  simp only [clockPulses_eq_count, List.count_append]

/-- Repetitions that take `n` pulses each. -/
theorem clockPulses_flatMap {α : Type} {l : List α} {f : α → List LinkEvent} {n : Nat}
    (h : ∀ a ∈ l, clockPulses (f a) = n) : clockPulses (l.flatMap f) = l.length * n := by
  induction l with
  | nil => rw [List.flatMap_nil, List.length_nil, Nat.zero_mul]; rfl
  | cons a l ih =>
    obtain ⟨ha, hl⟩ := List.forall_mem_cons.1 h
    rw [List.flatMap_cons, clockPulses_append, ha, ih hl, List.length_cons, Nat.add_one_mul, Nat.add_comm]

/-- `n` repetitions, the index below `n`. -/
theorem clockPulses_range {f : Nat → List LinkEvent} {n k : Nat} (h : ∀ j < n, clockPulses (f j) = k) :
    clockPulses ((List.range n).flatMap f) = n * k := by
  rw [clockPulses_flatMap fun j hj => h j (List.mem_range.1 hj), List.length_range]

/-! ## The shifter's procedures -/

@[simp] theorem clockPulses_outBits (bs : List Bool) : clockPulses (outBitsEvents bs) = bs.length := by
  rw [outBitsEvents, clockPulses_flatMap fun b _ => (rfl : clockPulses (outCellEvents b) = 1), Nat.mul_one]

@[simp] theorem length_bitsLsbFirst {w : Nat} (n : Nat) (v : BitVec w) : (bitsLsbFirst n v).length = n := by
  simp [bitsLsbFirst]

@[simp] theorem clockPulses_sendCmd (c : Nibble) : clockPulses (sendCmdEvents c) = 4 := by
  rw [sendCmdEvents, clockPulses_append, clockPulses_outBits, length_bitsLsbFirst]
  rfl

@[simp] theorem clockPulses_sendWord (w : Word) : clockPulses (sendWordEvents w) = 16 := by
  rw [sendWordEvents, clockPulses_append, clockPulses_outBits, length_bitsLsbFirst]
  rfl

@[simp] theorem clockPulses_sendInsn (c : Nibble) (w : Word) : clockPulses (sendInsnEvents c w) = 20 := by
  rw [sendInsnEvents, clockPulses_append, clockPulses_sendCmd, clockPulses_sendWord]

/-- Eight driven zeros, then one pulse for each bit sampled. -/
theorem clockPulses_readWord (bs : List Bool) : clockPulses (readWordEvents bs) = 8 + bs.length := by
  have hcells : clockPulses (bs.flatMap inCellEvents) = bs.length * 1 := clockPulses_flatMap fun _ _ => rfl
  rw [readWordEvents, clockPulses_append, clockPulses_append, hcells, Nat.mul_one]
  rfl

/-- A read transaction of eight bits. -/
theorem clockPulses_readTxn (c : Nibble) {bs : List Bool} (h : bs.length = 8) : clockPulses (readTxnEvents c bs) = 20 := by
  rw [readTxnEvents, clockPulses_append, clockPulses_sendCmd, clockPulses_readWord, h]

theorem length_slice8 {bits : List Bool} {k : Nat} (h : k + 8 ≤ bits.length) : (slice8 bits k).length = 8 := by
  rw [slice8, List.length_take, List.length_drop]
  omega

theorem clockPulses_readPair (c d : Nibble) {bits : List Bool} {k : Nat} (h : k + 16 ≤ bits.length) :
    clockPulses (readPairEvents c d bits k) = 2 * 20 := by
  rw [readPairEvents, clockPulses_append, clockPulses_readTxn c (length_slice8 (by omega)),
    clockPulses_readTxn d (length_slice8 (by omega))]

@[simp] theorem clockPulses_core (c : Codes) (ws : List Word) : clockPulses (coreEvents c ws) = ws.length * 20 := by
  rw [coreEvents, clockPulses_flatMap fun w _ => clockPulses_sendInsn c.icsp.core w]

@[simp] theorem clockPulses_gotoAddress (c : Codes) (a : Addr) : clockPulses (gotoAddressEvents c a) = 6 * 20 := by
  simp only [gotoAddressEvents, clockPulses_append, clockPulses_sendInsn]

@[simp] theorem clockPulses_gotoShort (c : Codes) (o : Byte) : clockPulses (gotoShortEvents c o) = 2 * 20 := by
  simp only [gotoShortEvents, clockPulses_append, clockPulses_sendInsn]

/-! ## The session -/

theorem clockPulses_enter (cfg : Config) : clockPulses (enterEvents cfg) = 32 := by
  rw [enterEvents, clockPulses_append, clockPulses_append, clockPulses_outBits, bitsMsbFirst, List.length_reverse,
    length_bitsLsbFirst]
  rfl

/-! ## The engines' sequences -/

/-- The pulses of a programming pulse: four, and its trailing operand (46_program_verify R210). -/
def pulseClocks (cfg : Config) : Nat := if cfg.pulseTrailingOperand then 20 else 4

@[simp] theorem clockPulses_progPulse (cfg : Config) : clockPulses (progPulseEvents cfg) = pulseClocks cfg := by
  rw [progPulseEvents, clockPulses_append, clockPulses_append, clockPulses_outBits, pulseClocks]
  split
  · rw [clockPulses_sendWord]
    rfl
  · rfl

/-- The hold itself takes none; around it stand two NOPs (45_erase R190). -/
theorem clockPulses_eraseHold (cfg : Config) : clockPulses (eraseHoldEvents cfg) = 2 * 20 := by
  rw [eraseHoldEvents]
  split <;> simp only [clockPulses_append, clockPulses_sendInsn, clockPulses_sendCmd, clockPulses_sendWord] <;> rfl

theorem clockPulses_eraseBlock (cfg : Config) (r : Nat) : clockPulses (eraseBlockEvents cfg r) = 15 * 20 := by
  simp only [eraseBlockEvents, clockPulses_append, clockPulses_gotoAddress, clockPulses_gotoShort, clockPulses_sendInsn,
    clockPulses_eraseHold]

/-- The last scope has the configuration, the boot block and every code block (45_erase R192). -/
theorem Identity.length_scopeRegions_three (g : Identity) : (g.scopeRegions 3).length = 2 + g.eraseBlocks.toNat := by
  have hscope : g.scopeRegions 3 = [0, 1] ++ g.codeRegions := rfl
  rw [hscope, List.length_append, Identity.codeRegions, List.length_map, List.length_range]
  rfl

/-- A chunk is `width` table writes and one programming pulse (46_program_verify R213). -/
theorem clockPulses_programChunk (cfg : Config) (m : Memory) {width : Nat} (h : 0 < width) (j : Nat) :
    clockPulses (programChunkEvents cfg m width j) = width * 20 + pulseClocks cfg := by
  obtain ⟨n, rfl⟩ := Nat.exists_eq_add_one.2 h
  rw [programChunkEvents, List.range_succ, List.flatMap_append, clockPulses_append, List.flatMap_singleton,
    Nat.add_sub_cancel, if_neg (Nat.lt_irrefl n),
    clockPulses_range (k := 20) fun i hi => by rw [if_pos hi, clockPulses_sendInsn], clockPulses_append,
    clockPulses_sendInsn, clockPulses_progPulse]
  omega

theorem clockPulses_programCode (cfg : Config) (m : Memory) {width : Nat} (h : 0 < width) (k : Nat) :
    clockPulses (programCodeEvents cfg m width k) = 9 * 20 + k * width * 20 + k * pulseClocks cfg := by
  have hchunks := clockPulses_range (n := k) fun j _ => clockPulses_programChunk cfg m h j
  rw [programCodeEvents, clockPulses_append, clockPulses_append, clockPulses_core, clockPulses_gotoAddress, hchunks,
    Nat.mul_add, ← Nat.mul_assoc, ← Nat.add_assoc]
  rfl

theorem clockPulses_codeRead (c : Codes) {bits : List Bool} {n : Nat} (h : 16 * n ≤ bits.length) :
    clockPulses (codeReadEvents c bits n) = 2 * n * 20 := by
  rw [codeReadEvents, clockPulses_range fun a ha => clockPulses_readPair _ _ (by omega)]
  omega

theorem clockPulses_eeReadCell (c : Codes) (e : Nat) {bits : List Bool} (h : bits.length = 8) :
    clockPulses (eeReadCellEvents c e bits) = 10 * 20 + 20 := by
  rw [eeReadCellEvents, clockPulses_append, clockPulses_core, clockPulses_readTxn _ h]
  rfl

@[simp] theorem clockPulses_eeWriteSetup (c : Codes) (e : Nat) (d : Byte) :
    clockPulses (eeWriteSetupEvents c e d) = 10 * 20 := by
  rw [eeWriteSetupEvents, clockPulses_core]
  rfl

/-- `k` polls of a cell, each three CORE transactions and a read (47_eeprom R241). -/
theorem clockPulses_eePolls (c : Codes) {bits : List Bool} {k : Nat} (h : 8 * k ≤ bits.length) :
    clockPulses ((List.range k).flatMap fun j => eePollEvents c (slice8 bits (8 * j))) = k * (3 * 20 + 20) :=
  clockPulses_range fun j hj => by
    rw [eePollEvents, clockPulses_append, clockPulses_core, clockPulses_readTxn _ (length_slice8 (by omega))]
    rfl

theorem clockPulses_eeWriteCell (c : Codes) (e : Nat) (d : Byte) {bits : List Bool} {k : Nat} (h : 8 * k ≤ bits.length) :
    clockPulses (eeWriteCellEvents c e d bits 0 k) = 10 * 20 + k * (3 * 20 + 20) + 20 := by
  simp only [eeWriteCellEvents, clockPulses_append, clockPulses_eeWriteSetup, clockPulses_core, Nat.zero_add,
    clockPulses_eePolls c h, List.length_singleton, Nat.one_mul]

theorem clockPulses_cfgWriteSlot (cfg : Config) (i : Nat) (v : Word) :
    clockPulses (cfgWriteSlotEvents cfg i v) = 10 * 20 + 2 * pulseClocks cfg := by
  simp only [cfgWriteSlotEvents, clockPulses_append, clockPulses_gotoAddress, clockPulses_gotoShort,
    clockPulses_sendInsn, clockPulses_progPulse]
  omega

theorem clockPulses_dumpUserId (c : Codes) {bits : List Bool} (h : 64 ≤ bits.length) :
    clockPulses (dumpUserIdEvents c bits) = 6 * 20 + 8 * 20 := by
  rw [dumpUserIdEvents, clockPulses_append, clockPulses_gotoAddress,
    clockPulses_range fun i hi => clockPulses_readTxn _ (length_slice8 (by omega))]

/-- Settles O51: row by row, from the procedures each row is made of. -/
theorem clockCounts : Obligations.ClockCounts := by
  intro cfg m bits c w a o d g r i k n width hbits hpolls hwords hwidth
  have hbyte : (slice8 bits 0).length = 8 := length_slice8 (by omega)
  have hpair (c d : Nibble) : clockPulses (readPairEvents c d bits 0) = 2 * 20 := clockPulses_readPair c d (by omega)
  refine ⟨clockPulses_sendInsn c w, clockPulses_readTxn c hbyte, clockPulses_progPulse cfg, clockPulses_enter cfg, rfl,
    clockPulses_gotoAddress _ a, clockPulses_gotoShort _ o, ?readDevId, clockPulses_eraseBlock cfg r, ?bulkErase,
    clockPulses_programCode cfg m hwidth k, ?codeRead, clockPulses_eeReadCell _ i hbyte,
    clockPulses_eeWriteCell _ i d hpolls, ?timeout, ?cfgReadSlot, clockPulses_cfgWriteSlot cfg i w,
    clockPulses_dumpUserId _ hbits⟩
  case readDevId => rw [readDevIdEvents, clockPulses_append, clockPulses_gotoAddress, hpair]
  case bulkErase => rw [clockPulses_flatMap fun r _ => clockPulses_eraseBlock cfg r, g.length_scopeRegions_three]
  case codeRead => rw [clockPulses_append, clockPulses_gotoAddress, clockPulses_codeRead _ hwords]
  case timeout => rw [clockPulses_append, clockPulses_eeWriteSetup, clockPulses_eePolls _ hpolls]
  case cfgReadSlot => rw [clockPulses_append, clockPulses_gotoAddress, hpair]

end Sys2Proof.Machine

/-! PROOF of the shifter's raw operations O26 and O27: outside a session the issue check refuses an operation that requires
one, and in a session SEND_CMD, SEND_WORD and SEND_INSN only emit while READ_WORD also leaves its word in RESULT. -/

namespace Sys2Proof.Machine

/-! ## The session gate (60_exceptions R281, R282) -/

/-- The session comes right after the opcode in the issue check's priority (60_exceptions R282). -/
theorem issueCheck_wrongSession {s : State} {k : OpClass} (hk : k ≠ .reserved) (hs : s.session ≠ k.session) :
    issueCheck k s = .state := by
  rw [issueCheck, if_neg hk, if_pos hs]

/-- Every operation that requires a session is refused outside one, whatever its pseudocode. -/
theorem sessionGate_of_hostOp {i : Instr} {op : Byte} {k : OpClass} (hi : hostOp i = some (op, k)) (hk : k ≠ .reserved)
    (hses : k.session = .programming) : sessionGate i op := by
  intro s hidle hs
  have hcheck : issueCheck k (s.accept op) = .state := issueCheck_wrongSession hk (by rwa [hses, State.accept_session])
  obtain ⟨hbusy, -⟩ | ⟨-, -, hexec⟩ | ⟨-, hpassed, -⟩ := exec_host_cases hi s
  · rw [hidle] at hbusy
    cases hbusy
  · rw [hexec, hcheck]
  · rw [hcheck] at hpassed
    cases hpassed

theorem sessionGate_raw {i : Instr} {op : Byte} (hi : hostOp i = some (op, .raw)) : sessionGate i op :=
  sessionGate_of_hostOp hi (by decide) rfl

/-! ## Operands bit by bit (20_memory R69) -/

/-- An operand's bits are one output cell each, the least significant first. -/
theorem outBitsEvents_bitsLsbFirst {w : Nat} (n : Nat) (v : BitVec w) :
    outBitsEvents (bitsLsbFirst n v) = (List.range n).flatMap fun k => outCellEvents (v.getLsbD k) := by
  rw [outBitsEvents, bitsLsbFirst, List.flatMap_map]

/-- The bits of a latch's low field are the latch's own low bits. -/
theorem bitsLsbFirst_setWidth {w n : Nat} (v : BitVec w) : bitsLsbFirst n (v.setWidth n) = bitsLsbFirst n v :=
  List.map_congr_left fun k hk => by simp [List.mem_range.1 hk]

/-- SendCmd of the nibble in ARG0 (41_signal R132, R137). -/
theorem sendCmdEvents_setWidth (a : Addr) : sendCmdEvents (a.setWidth 4) =
    ((List.range 4).flatMap fun k => outCellEvents (a.getLsbD k)) ++ [.delay .tCmdData] := by
  rw [sendCmdEvents, bitsLsbFirst_setWidth, outBitsEvents_bitsLsbFirst]

/-- SendWord of the word in ARG1 (41_signal R133, R138). -/
theorem sendWordEvents_eq (w : Word) : sendWordEvents w =
    ((List.range 16).flatMap fun k => outCellEvents (w.getLsbD k)) ++ [.delay .tDataCmd] := by
  rw [sendWordEvents, outBitsEvents_bitsLsbFirst]

/-! ## The operations in a session -/

section

variable {s : State}

/-- A raw operation whose pseudocode only emits `es`. -/
theorem exec_raw_output (hs : s.sessionReady) {i : Instr} {op : Byte} {body : Op Unit} {es : List LinkEvent}
    (hexec : exec i s = issue op .raw body s) (hbody : body (s.accept op) = emitAll es (s.accept op)) :
    exec i s = .next (s.afterOutput op es) := by
  obtain ⟨hidle, hsession, hquiet⟩ := hs
  rw [hexec]
  exact issue_output hidle hquiet (issueCheck_raw hsession) (hbody.trans (emitAll_calm (State.accept_calm hquiet op) es))

/-- SEND_CMD emits its latched nibble (41_signal R137). -/
theorem exec_sendCmd (hs : s.sessionReady) :
    exec .sendCmd s = .next (s.afterOutput 0x10 (sendCmdEvents (s.regs.arg0.setWidth 4))) :=
  exec_raw_output hs (body := sendCmdBody) rfl rfl

/-- SEND_WORD emits its latched word (41_signal R138). -/
theorem exec_sendWord (hs : s.sessionReady) :
    exec .sendWord s = .next (s.afterOutput 0x11 (sendWordEvents s.regs.arg1)) :=
  exec_raw_output hs (body := sendWordBody) rfl rfl

/-- SEND_INSN emits its latched nibble, then its latched word (41_signal R140). -/
theorem exec_sendInsn (hs : s.sessionReady) :
    exec .sendInsn s = .next (s.afterOutput 0x13 (sendInsnEvents (s.regs.arg0.setWidth 4) s.regs.arg1)) :=
  exec_raw_output hs (body := sendInsnBody) rfl rfl

theorem State.setResult_ran (s : State) (l' : LinkSide) (es : List LinkEvent) (w : Word) :
    (s.ran l' es).setResult w = (s.setResult w).ran l' es := rfl

/-- READ_WORD's pseudocode undisturbed: the transaction, then one assignment. -/
theorem readWordBody_calm (h : s.calm) :
    ∃ (bits : List Bool) (l' : LinkSide), bits.length = 8 ∧ s.link.Ran l' (readWordEvents bits) ∧
      readWordBody s =
        .ok () (((s.setResult ((byteOfBits bits).setWidth 16)).ran l' (readWordEvents bits)).forth []) := by
  obtain ⟨bits, l', hlen, hran, -, hread⟩ := readWord_calm h
  refine ⟨bits, l', hlen, hran, ?_⟩
  rw [readWordBody, Op.bind_ok hread, assign_calm (h.ran l' _) h.1, State.setResult_ran]

/-- READ_WORD leaves the word it received in RESULT, on a link that has run its transaction (41_signal R139). -/
theorem exec_readWord (hs : s.sessionReady) :
    ∃ (bits : List Bool) (l' : LinkSide), bits.length = 8 ∧ s.link.Ran l' (readWordEvents bits) ∧
      exec .readWord s = .next { s with
        regs := { s.regs.afterOp 0x12 with result := (byteOfBits bits).setWidth 16 }
        seq := s.latched 0x12
        link := l' } := by
  obtain ⟨hidle, hsession, hquiet⟩ := hs
  obtain ⟨bits, l', hlen, hran, hbody⟩ := readWordBody_calm (State.accept_calm hquiet 0x12)
  refine ⟨bits, l', hlen, hran, ?_⟩
  rw [show exec .readWord s = issue 0x12 .raw readWordBody s from rfl,
    issue_quiet hidle hquiet _ (issueCheck_raw hsession), hbody, finish, State.complete_forth, State.complete_ran]
  rfl

end

/-- A byte in a word: its eight bits, and zeros above them (41_signal R139). -/
theorem getLsbD_byteOfBits_setWidth {bits : List Bool} (hlen : bits.length = 8) {k : Nat} (hk : k < 16) :
    ((byteOfBits bits).setWidth 16).getLsbD k = bits.getD k false := by
  rw [BitVec.getLsbD_setWidth, decide_eq_true hk, Bool.true_and]
  exact sampledBits.1 bits k hlen

/-- Settles O26: each operation's transaction, its operands' bits spelled out. -/
theorem sendOperations : Obligations.SendOperations := by
  refine ⟨sessionGate_raw rfl, sessionGate_raw rfl, sessionGate_raw rfl, fun s hs => ⟨?sendCmd, ?sendWord, ?sendInsn⟩⟩
  case sendCmd => rw [exec_sendCmd hs, sendCmdEvents_setWidth]
  case sendWord => rw [exec_sendWord hs, sendWordEvents_eq]
  case sendInsn => rw [exec_sendInsn hs, sendInsnEvents, sendCmdEvents_setWidth, sendWordEvents_eq, ← List.append_assoc]

/-- Settles O27: the received word, its bits by O25. -/
theorem readWordResult : Obligations.ReadWordResult := by
  refine ⟨sessionGate_raw rfl, fun s hs => ?_⟩
  obtain ⟨bits, l', hlen, hran, hexec⟩ := exec_readWord hs
  exact ⟨bits, l', _, hlen, hran, fun k hk => getLsbD_byteOfBits_setWidth hlen hk, hexec⟩

end Sys2Proof.Machine

/-! PROOF of the session operations O29 and O30. A host read during a sequence of events splits the sequence where it
arrives and changes nothing but what the host has read; ENTER's events are then followed by assignments that leave no
identity, and EXIT's by the session's end. -/

namespace Sys2Proof.Machine

/-! ## A host read during a sequence of events (20_memory R63, log 11) -/

section

variable {s : State} {rest : List Input} {o : HostOffset}

theorem State.busyRead_quiet (h : s.quiet) (o : HostOffset) : (s.busyRead o).quiet := by
  rw [State.quiet, (s.busyRead_kept o).1]
  exact h

theorem State.calm.busyRead (h : s.calm) (o : HostOffset) : (s.busyRead o).calm :=
  ⟨State.busyRead_quiet h.1 o, by rw [(s.busyRead_kept o).2, h.2]⟩

/-- A read of a register returns its current value, whatever is pending. -/
theorem State.busyRead_reg (s : State) (r : Reg) : s.busyRead r.offset = s.gotRead r.offset (regWord s r) := by
  rw [State.busyRead, placeAt_offset]

/-- An input that waits for more actions does not come in the window before them. -/
theorem hostWindow_waits (s : State) (n : Nat) (a : HostAct) (rest : List Input) :
    hostWindow (s.withInputs ({ gap := some (n + 1), act := a } :: rest)) =
      .ok () (s.withInputs ({ gap := some (n + 1), act := a } :: rest)) := by
  unfold hostWindow
  split <;> rfl

/-- A read that is due is served, and nothing after it is. -/
theorem hostWindow_read (hbusy : s.seq.busy = true) (hquiet : (s.withInputs rest).quiet) (ho : accessDefined o 4 = true) :
    hostWindow (s.withInputs ({ gap := some 0, act := .read o 4 } :: rest)) = .ok () ((s.withInputs rest).busyRead o) := by
  rw [hostWindow, if_pos (by simpa using hbusy), State.withInputs_bus, serveDue, Op.bind_ok (Op.update_run _ _)]
  exact (Op.bind_ok (busyAct_read ho)).trans (serveDue_quiet hquiet _)

/-- One event brings the pending input one action nearer. -/
theorem emit_nearer (hperf : s.seq.replaying = false) (e : LinkEvent) (n : Nat) (a : HostAct) (rest : List Input) :
    emit e (s.withInputs ({ gap := some (n + 1), act := a } :: rest)) =
      hostWindow ((s.record e).withInputs ({ gap := some n, act := a } :: rest)) := by
  rw [emit, act_performed (by simpa using hperf)]
  rfl

/-- The state that has emitted `es`, with a read of `o` by the host after the first `n` of them. -/
def State.recordReading (s : State) (es : List LinkEvent) (n : Nat) (o : HostOffset) (rest : List Input) : State :=
  (((s.recordAll (es.take n)).withInputs rest).busyRead o).recordAll (es.drop n)

/-- By induction on the number of events before the read: each brings it one action nearer. -/
theorem emitAll_withInputs_reading (hbusy : s.seq.busy = true) (hperf : s.seq.replaying = false)
    (hquiet : rest.head?.bind Input.gap = none) (ho : accessDefined o 4 = true) {es : List LinkEvent} {n : Nat}
    (hn : n ≤ es.length) :
    (do hostWindow; emitAll es : Op Unit) (s.withInputs ({ gap := some n, act := .read o 4 } :: rest)) =
      .ok () (s.recordReading es n o rest) := by
  induction n generalizing s es with
  | zero =>
    have hcalm : (s.withInputs rest).calm := ⟨hquiet, hperf⟩
    rw [Op.bind_ok (hostWindow_read hbusy hcalm.1 ho), emitAll_calm (hcalm.busyRead o)]
    rfl
  | succ n ih =>
    cases es with
    | nil => cases hn
    | cons e es =>
      have hnext := ih (s := s.record e) (by simpa using hbusy) (by simpa using hperf) (Nat.le_of_succ_le_succ hn)
      rw [Op.bind_ok (hostWindow_waits s n _ rest), emitAll, Op.bind_run, emit_nearer hperf e n _ rest, ← Op.bind_run,
        hnext]
      rfl

/-- A read that arrives after `n` events finds the state they leave, and the others follow undisturbed. -/
theorem emitAll_reading (hbusy : s.seq.busy = true) (hperf : s.seq.replaying = false) {n : Nat}
    (hin : s.bus.inputs = { gap := some n, act := .read o 4 } :: rest) (hquiet : rest.head?.bind Input.gap = none)
    (ho : accessDefined o 4 = true) {es : List LinkEvent} (hn : n ≤ es.length) :
    (do hostWindow; emitAll es : Op Unit) s = .ok () (s.recordReading es n o rest) := by
  have hrun := emitAll_withInputs_reading hbusy hperf hquiet ho hn
  rwa [← hin, State.withInputs_self] at hrun

theorem State.recordReading_calm (hperf : s.seq.replaying = false) (hquiet : rest.head?.bind Input.gap = none)
    (es : List LinkEvent) (n : Nat) (o : HostOffset) : (s.recordReading es n o rest).calm := by
  have hcalm : ((s.recordAll (es.take n)).withInputs rest).calm := ⟨hquiet, by simpa using hperf⟩
  exact (hcalm.busyRead o).recordAll _

end

/-! ## Assignments to the identity latches (10_state R25, R26) -/

/-- Undisturbed, the run assigns `f` to the identity, moves the position, and does nothing else. -/
structure Op.Latches (f : Identity → Identity) (x : Op Unit) : Prop where
  run : ∀ s : State, s.calm → ∃ p, x s = .ok () { s with ident := f s.ident, seq := { s.seq with position := p } } ∧
    ({ s with ident := f s.ident, seq := { s.seq with position := p } } : State).calm

theorem Op.Latches.bind {f g : Identity → Identity} {x y : Op Unit} (hx : x.Latches f) (hy : y.Latches g) :
    (x >>= fun _ => y).Latches (g ∘ f) := ⟨fun s hs => by
  obtain ⟨p, hrun, hcalm⟩ := hx.run s hs
  obtain ⟨q, hrun', hcalm'⟩ := hy.run _ hcalm
  exact ⟨q, (Op.bind_ok hrun).trans hrun', hcalm'⟩⟩

theorem assignIdent_latches (f : Identity → Identity) : (assign fun s => { s with ident := f s.ident }).Latches f :=
  ⟨fun s hs => ⟨_, assign_calm hs hs.1, State.calm.forth (s := { s with ident := f s.ident }) hs []⟩⟩

theorem clearGeometry_latches :
    clearGeometry.Latches fun g => { g with codeSize := 0, eraseBlocks := 0, wbufWords := 0 } :=
  (assignIdent_latches fun g => { g with codeSize := 0 }).bind <|
    (assignIdent_latches fun g => { g with eraseBlocks := 0 }).bind <|
    assignIdent_latches fun g => { g with wbufWords := 0 }

/-- The latches that ENTER clears after its events (42_session R150). -/
def forgetIdentity : Op Unit := do
  assign fun s => s.setIdentStatus .unresolved
  assign fun s => s.setDevId 0
  assign fun s => s.setRev 0
  clearGeometry
  assign fun s => s.setIndex 0xFF

/-- They are all the latches of the identity. -/
theorem forgetIdentity_latches : forgetIdentity.Latches fun _ => {} :=
  (assignIdent_latches fun g => { g with status := .unresolved }).bind <|
    (assignIdent_latches fun g => { g with devid := 0 }).bind <|
    (assignIdent_latches fun g => { g with rev := 0 }).bind <| clearGeometry_latches.bind <|
    assignIdent_latches fun g => { g with index := 0xFF }

/-! ## ENTER (42_session R150) -/

/-- An operation that requires another session than the present one is refused (60_exceptions R281). -/
theorem exec_wrongSession {s : State} {i : Instr} {op : Byte} {k : OpClass} (hi : hostOp i = some (op, k))
    (hk : k ≠ .reserved) (hidle : s.seq.busy = false) (hs : s.session ≠ k.session) :
    exec i s = .next (s.afterRefusal op .state) := by
  obtain ⟨first, -, hexec⟩ := exec_eq_issueFrom hi
  have hcheck : issueCheck k (s.accept op) = .state := issueCheck_wrongSession hk (by rwa [State.accept_session])
  rw [hexec, issueFrom_refused hidle first _ (by rw [hcheck]; decide), hcheck]

theorem issueCheck_enter {s : State} (h : s.session = .idle) (op : Byte) : issueCheck .enter (s.accept op) = .none := by
  simp [issueCheck, OpClass.session, OpClass.isEngine, h]

/-- What ENTER does after its events: the identity is forgotten and the session begins. -/
def enterAssignments : Op Unit := do
  forgetIdentity
  assign fun s => s.setSession .programming

/-- ENTER is its events, then its assignments. -/
theorem enterBody_run (s : State) :
    enterBody s = (do emitAll (enterEvents s.cfg); enterAssignments : Op Unit) s := by
  rw [enterBody, Op.bind_ok (Op.ask_run State.cfg s)]
  simp only [enterAssignments, forgetIdentity, bind_assoc]

/-- The host accesses right after the acceptance leave the key, which is the configuration's, alone. -/
theorem hostWindow_enterBody (s : State) : (do hostWindow; enterBody : Op Unit) s =
    (do (do hostWindow; emitAll (enterEvents s.cfg) : Op Unit); enterAssignments : Op Unit) s := by
  have hcfg := hostWindow_drives.run s
  rw [bind_assoc, Op.bind_run, Op.bind_run]
  cases h : hostWindow s with
  | error e t => rfl
  | ok _ t =>
    rw [h] at hcfg
    exact (enterBody_run t).trans (by rw [hcfg.1.cfg])

/-- ENTER's assignments end the operation with no identity, in session PROGRAMMING. -/
theorem finish_enterAssignments {s : State} (h : s.calm) :
    finish (enterAssignments s) = .next { s.complete with session := .programming, ident := {} } := by
  obtain ⟨p, hrun, hcalm⟩ := forgetIdentity_latches.run s h
  rw [enterAssignments, Op.bind_ok hrun, assign_calm hcalm hcalm.1]
  rfl

/-- ENTER undisturbed. -/
theorem exec_enter {s : State} (hidle : s.seq.busy = false) (hsession : s.session = .idle) (hquiet : s.quiet) :
    exec .enter s = .next { s.afterOutput 0x01 (enterEvents s.cfg) with session := .programming, ident := {} } := by
  have hcalm : ((s.accept 0x01).setSession .enteringKey).calm := State.accept_calm hquiet 0x01
  rw [show exec .enter s = issueFrom 0x01 .enter (fun t => t.setSession .enteringKey) enterBody s from rfl,
    issueFrom_quiet hidle hcalm.1 _ (issueCheck_enter hsession 0x01), enterBody_run, Op.bind_ok (emitAll_calm hcalm _),
    finish_enterAssignments (hcalm.recordAll _), State.recordAll_eq, State.complete_ran]
  rfl

/-- ENTER's pseudocode with a read that arrives after `n` of its events. -/
theorem finish_enterBody_reading {s : State} {n : Nat} {o : HostOffset} {rest : List Input} (hbusy : s.seq.busy = true)
    (hperf : s.seq.replaying = false) (hin : s.bus.inputs = { gap := some n, act := .read o 4 } :: rest)
    (hquiet : rest.head?.bind Input.gap = none) (ho : accessDefined o 4 = true) (hn : n ≤ (enterEvents s.cfg).length) :
    finish ((do hostWindow; enterBody : Op Unit) s) =
      .next { (s.recordReading (enterEvents s.cfg) n o rest).complete with session := .programming, ident := {} } := by
  rw [hostWindow_enterBody, Op.bind_ok (emitAll_reading hbusy hperf hin hquiet ho hn),
    finish_enterAssignments (State.recordReading_calm hperf hquiet _ n o)]

/-- ENTER with a read that arrives after `n` of its events. -/
theorem exec_enter_reading {s : State} {n : Nat} {o : HostOffset} {rest : List Input} (hidle : s.seq.busy = false)
    (hsession : s.session = .idle) (hin : s.bus.inputs = { gap := some n, act := .read o 4 } :: rest)
    (hquiet : rest.head?.bind Input.gap = none) (ho : accessDefined o 4 = true) (hn : n ≤ (enterEvents s.cfg).length) :
    exec .enter s = .next { (((s.accept 0x01).setSession .enteringKey).recordReading (enterEvents s.cfg) n o rest).complete
      with session := .programming, ident := {} } := by
  rw [show exec .enter s = issueFrom 0x01 .enter (fun t => t.setSession .enteringKey) enterBody s from rfl,
    issueFrom_accepted hidle _ _ (issueCheck_enter hsession 0x01)]
  exact finish_enterBody_reading rfl rfl hin hquiet ho hn

/-- The key goes out most significant bit first (42_session R150). -/
theorem outBitsEvents_bitsMsbFirst {w : Nat} (n : Nat) (v : BitVec w) :
    outBitsEvents (bitsMsbFirst n v) = (List.range n).flatMap fun j => outCellEvents (v.getLsbD (n - 1 - j)) := by
  have hbits : bitsMsbFirst n v = (List.range n).map fun j => v.getLsbD (n - 1 - j) := by
    rw [bitsMsbFirst, bitsLsbFirst, ← List.map_reverse, List.range_eq_range', List.reverse_range', List.map_map]
    simp [Function.comp_def, List.range_eq_range']
  rw [hbits, outBitsEvents, List.flatMap_map]

/-- The lines after ENTER, whatever they were. -/
theorem Lines.applyAll_enter (l : Lines) (cfg : Config) : l.applyAll (enterEvents cfg) =
    { pgc := { dir := .out, lat := false }, pgd := { dir := .out, lat := false }, mclr := { dir := .out, lat := true } } := by
  obtain ⟨⟨hpgcDir, hpgcLat, hpgdDir⟩, hmclr⟩ := l.inSession_enter cfg
  obtain ⟨hmclrDir, hmclrLat⟩ : (l.applyAll (enterEvents cfg)).mclr.dir = .out ∧
      (l.applyAll (enterEvents cfg)).mclr.lat = true := by
    simpa [Line.drives] using hmclr
  have hpgdLat : (l.applyAll (enterEvents cfg)).pgd.lat = false := by
    rw [enterEvents, Lines.applyAll_append]
    rfl
  generalize l.applyAll (enterEvents cfg) = l' at *
  obtain ⟨⟨_, _⟩, ⟨_, _⟩, ⟨_, _⟩⟩ := l'
  simp_all

/-- The events of ENTER as R150 lists them. -/
theorem enterEvents_eq (cfg : Config) : enterEvents cfg =
    [.pin .pgc false, .dir .pgc .out, .pin .pgd false, .dir .pgd .out, .dir .mclr .inp, .delay .tEn1, .pin .mclr true,
      .dir .mclr .out, .delay .tEn2, .pin .mclr false, .delay .tEn3] ++
    ((List.range 32).flatMap fun j => outCellEvents (cfg.magicKey.getLsbD (31 - j))) ++
    [.pin .pgd false, .delay .tKeyEnd, .pin .mclr true, .delay .tEnDone] := by
  rw [enterEvents, outBitsEvents_bitsMsbFirst]

/-- What a read of STATUS finds within ENTER's events. -/
theorem reads_recordReading_status {s : State} (es : List LinkEvent) (n : Nat) (rest : List Input)
    (hbusy : s.seq.busy = true) (hsession : s.session = .enteringKey) :
    ∃ w : HostWord, (s.recordReading es n Reg.status.offset rest).bus.reads = (Reg.status.offset, w) :: s.bus.reads ∧
      w.getLsbD 0 = true ∧ w.extractLsb' 1 2 = 1 := by
  obtain ⟨hbit, hfield, -⟩ := statusRegisterFields ((s.recordAll (es.take n)).withInputs rest)
  refine ⟨statusWord ((s.recordAll (es.take n)).withInputs rest), ?_, ?_, ?_⟩
  · simp [State.recordReading, State.busyRead_reg, regWord]
  · rw [hbit]
    simpa using hbusy
  · rw [hfield]
    simp [hsession]

/-- Settles O29: ENTER's refusal, its run with a read of STATUS, and its undisturbed run. -/
theorem enterResult : Obligations.EnterResult := by
  refine ⟨fun s hidle hses => exec_wrongSession rfl (by decide) hidle hses, ?read, ?undisturbed⟩
  case read =>
    intro s n rest hidle hses hin hquiet hn
    obtain ⟨w, hreads, hbit, hfield⟩ :=
      reads_recordReading_status (s := (s.accept 0x01).setSession .enteringKey) (enterEvents s.cfg) n rest rfl rfl
    exact ⟨_, w, exec_enter_reading hidle hses hin hquiet Reg.status.offset_defined hn, hreads, hbit, hfield, rfl⟩
  case undisturbed =>
    intro s hidle hses hquiet
    refine ⟨_, exec_enter hidle hses hquiet, by rw [enterEvents_eq], ?_⟩
    exact (LinkSide.observeAll_lines s.cfg _ s.link).trans (s.link.lines.applyAll_enter s.cfg)

/-! ## EXIT (42_session R151) -/

theorem issueCheck_exit {s : State} (h : s.session = .programming) (op : Byte) :
    issueCheck .exit (s.accept op) = .none := by
  simp [issueCheck, OpClass.session, OpClass.isEngine, h]

/-- EXIT's pseudocode undisturbed: its events, then one assignment. -/
theorem exitBody_calm {s : State} (h : s.calm) :
    exitBody s = .ok () (((s.recordAll exitEvents).setSession .idle).forth []) := by
  have hcalm := h.recordAll exitEvents
  rw [exitBody, Op.bind_ok (emitAll_calm h exitEvents), assign_calm hcalm hcalm.1]

/-- EXIT undisturbed. -/
theorem exec_exit {s : State} (hs : s.sessionReady) :
    exec .exit s = .next { s.afterOutput 0x02 exitEvents with session := .idle } := by
  obtain ⟨hidle, hsession, hquiet⟩ := hs
  rw [show exec .exit s = issue 0x02 .exit exitBody s from rfl,
    issue_quiet hidle hquiet _ (issueCheck_exit hsession 0x02), exitBody_calm (State.accept_calm hquiet 0x02)]
  rfl

/-- Settles O30: EXIT's refusal outside a session, and its undisturbed run. -/
theorem exitResult : Obligations.ExitResult := ⟨sessionGate_of_hostOp rfl (by decide) rfl, fun _ => exec_exit⟩

end Sys2Proof.Machine

/-! PROOF of the addressing operations O28. Each only emits, and what it emits is a run of core words: the literal and the
move of every pointer byte, the bytes being fields of ARG0. -/

namespace Sys2Proof.Machine

/-! ## The pointer bytes (43_addressing R160, R161) -/

/-- GotoAddress as core words, each byte of the address a field of its bits. -/
theorem gotoAddressEvents_eq (c : Codes) (a : Addr) : gotoAddressEvents c a = coreEvents c
    [c.core.movlwOf (a.extractLsb' 16 8), c.core.movwfTblptru, c.core.movlwOf (a.extractLsb' 8 8), c.core.movwfTblptrh,
      c.core.movlwOf (a.extractLsb' 0 8), c.core.movwfTblptrl] := by
  have hfield (n : Nat) : (a >>> n).setWidth 8 = a.extractLsb' n 8 := BitVec.setWidth_ushiftRight_eq_extractLsb
  have hlow : a.setWidth 8 = a.extractLsb' 0 8 := BitVec.setWidth_eq_extractLsb' (by decide)
  rw [gotoAddressEvents, hfield 16, hfield 8, hlow]
  simp only [coreEvents, List.flatMap_cons, List.flatMap_nil, List.append_nil, List.append_assoc]

/-- GotoShort as core words. -/
theorem gotoShortEvents_eq (c : Codes) (o : Byte) :
    gotoShortEvents c o = coreEvents c [c.core.movlwOf o, c.core.movwfTblptrl] := by
  rw [gotoShortEvents, ← coreEvents_single, ← coreEvents_single, ← coreEvents_append, List.singleton_append]

/-! ## The operations in a session (43_addressing R162, R163) -/

section

variable {s : State}

/-- GOTO_ADDR emits GotoAddress of its latched address, whatever the address. -/
theorem exec_gotoAddr (hs : s.sessionReady) :
    exec .gotoAddr s = .next (s.afterOutput 0x14 (gotoAddressEvents s.cfg.codes s.regs.arg0)) :=
  exec_raw_output hs (body := gotoAddrBody) rfl rfl

/-- GOTO_SHORT emits GotoShort of its latched offset. -/
theorem exec_gotoShort (hs : s.sessionReady) :
    exec .gotoShort s = .next (s.afterOutput 0x15 (gotoShortEvents s.cfg.codes (s.regs.arg0.setWidth 8))) :=
  exec_raw_output hs (body := gotoShortBody) rfl rfl

end

/-- Settles O28: the gate of a raw operation, and each operation's events as core words. -/
theorem gotoOperations : Obligations.GotoOperations := by
  refine ⟨sessionGate_raw rfl, sessionGate_raw rfl, fun s hs => ⟨?gotoAddr, ?gotoShort⟩⟩
  case gotoAddr => rw [exec_gotoAddr hs, gotoAddressEvents_eq]
  case gotoShort => rw [exec_gotoShort hs, gotoShortEvents_eq, BitVec.setWidth_eq_extractLsb' (by decide)]

end Sys2Proof.Machine

/-! PROOF of the identity operations O31, O32 and O33. What the comparator finds decides how IDENTIFY goes on from the ID
it has read: with the latches of an entry and the allocation of the images, or with the latches of an unknown ID and a
fault. -/

namespace Sys2Proof.Machine

/-! ## The comparator (44_identity R173) -/

/-- The comparator finds nothing exactly where no entry has the masked ID. -/
theorem lookup_none_iff {m : Word} {es : List CatalogEntry} : lookup m es = none ↔ ∀ e ∈ es, e.maskedId ≠ m := by
  refine ⟨lookupFrom_none, fun h => ?_⟩
  rcases hf : lookup m es with _ | ⟨k, e⟩
  · rfl
  · obtain ⟨hk, he⟩ := lookup_some hf
    exact absurd he (h e (List.mem_of_getElem? hk))

/-- The entries of a well-formed catalog differ in their masked IDs (00_scope R8). -/
theorem catalog_index_unique {d : DeviceParams} (hwf : d.wf = true) {j k : Nat} {e f : CatalogEntry}
    (hj : d.catalog[j]? = some e) (hk : d.catalog[k]? = some f) (hid : e.maskedId = f.maskedId) : j = k := by
  simp only [DeviceParams.wf, Bool.and_eq_true, decide_eq_true_eq] at hwf
  obtain ⟨⟨⟨⟨⟨-, hnodup⟩, -⟩, -⟩, -⟩, -⟩ := hwf
  obtain ⟨hlt, -⟩ := List.getElem?_eq_some_iff.1 hj
  refine (List.getElem?_inj (by rwa [List.length_map]) hnodup).1 ?_
  rw [List.getElem?_map, List.getElem?_map, hj, hk, Option.map_some, Option.map_some, hid]

/-- In a well-formed catalog the comparator finds the entry with the masked ID, wherever it stands. -/
theorem lookup_some_iff {d : DeviceParams} (hwf : d.wf = true) {m : Word} {k : Nat} {e : CatalogEntry} :
    lookup m d.catalog = some (k, e) ↔ d.catalog[k]? = some e ∧ e.maskedId = m := by
  refine ⟨lookup_some, fun ⟨hk, he⟩ => ?_⟩
  rcases hf : lookup m d.catalog with _ | ⟨j, f⟩
  · exact absurd he (lookup_none_iff.1 hf e (List.mem_of_getElem? hk))
  · obtain ⟨hj, hfm⟩ := lookup_some hf
    obtain rfl := catalog_index_unique hwf hj hk (hfm.trans he.symm)
    obtain rfl : f = e := Option.some.inj (hj.symm.trans hk)
    rfl

/-- Settles O31: the comparator is exact, and a well-formed catalog has no two entries with one masked ID. -/
theorem catalogLookup : Obligations.CatalogLookup := fun _ _ hwf =>
  ⟨fun _ _ => lookup_some_iff hwf, lookup_none_iff, fun _ _ _ _ hj hk hid => catalog_index_unique hwf hj hk hid⟩

/-! ## Allocation (10_state R28) -/

/-- The buffers after allocation: the code image's first `words` entries and the configuration image are absent
`0xFFFF`. -/
def Memory.allocated (words : Nat) (m : Memory) : Memory :=
  Memory.clearImgs .cfgImg 8 0 (Memory.clearImgs .codeImg words 0 m)

/-- Clearing the configuration image leaves the code image alone. -/
theorem Memory.img_codeImg_allocated {words : Nat} (m : Memory) {a : Nat} (ha : a < words) :
    (m.allocated words).img .codeImg a = some { value := 0xFFFF, present := false } := by
  have hapart (j : Nat) : (m.allocated words).byte (Window.codeImg.addr a + j) =
      (Memory.clearImgs .codeImg words 0 m).byte (Window.codeImg.addr a + j) :=
    Memory.byte_clearImgs .cfgImg 8 0 _ _ fun i _ hi => by
      simp only [Window.addr, Window.base]
      omega
  rw [Memory.img_congr .codeImg a (hapart 0) (hapart 1) (hapart 2), Memory.img_clearImgs, if_pos (by omega)]

theorem Memory.img_cfgImg_allocated (words : Nat) (m : Memory) {i : Nat} (hi : i < 8) :
    (m.allocated words).img .cfgImg i = some { value := 0xFFFF, present := false } := by
  rw [Memory.allocated, Memory.img_clearImgs, if_pos (by omega)]

/-- Allocation changes no byte outside the entries it clears. -/
theorem Memory.byte_allocated {words : Nat} (m : Memory) {b : Nat}
    (hcode : ∀ a < words, ¬(Window.codeImg.addr a ≤ b ∧ b < Window.codeImg.addr a + 3))
    (hcfg : ∀ i < 8, ¬(Window.cfgImg.addr i ≤ b ∧ b < Window.cfgImg.addr i + 3)) :
    (m.allocated words).byte b = m.byte b := by
  rw [Memory.allocated, Memory.byte_clearImgs _ _ _ _ _ fun i _ hi => hcfg i (by omega),
    Memory.byte_clearImgs _ _ _ _ _ fun a _ ha => hcode a (by omega)]

/-! ## IDENTIFY after the ID is read (44_identity R172) -/

/-- The latches that IDENTIFY writes whatever the comparator finds. -/
def latchDevId (d : Word) : Op Unit := do
  assign fun s => s.setDevId d
  assign fun s => s.setRev (revision d)

theorem latchDevId_latches (d : Word) : (latchDevId d).Latches fun g => { g with devid := d, rev := revision d } :=
  (assignIdent_latches fun g => { g with devid := d }).bind <| assignIdent_latches fun g => { g with rev := revision d }

/-- The latches of an ID that no entry has. -/
def latchNotFound : Op Unit := do
  assign fun s => s.setIndex 0xFF
  clearGeometry
  assign fun s => s.setIdentStatus .notFound

/-- With them, the identity is that of an unknown ID. -/
theorem latchUnknown_latches (d : Word) : (do latchDevId d; latchNotFound : Op Unit).Latches fun _ => .unknown d :=
  (latchDevId_latches d).bind <| (assignIdent_latches fun g => { g with index := 0xFF }).bind <|
    clearGeometry_latches.bind <| assignIdent_latches fun g => { g with status := .notFound }

/-- The latches of an entry: with them, the identity is the entry's. -/
theorem latchEntry_latches (d : Word) (k : Nat) (e : CatalogEntry) :
    (do latchDevId d; identResolved k e : Op Unit).Latches fun _ => .ofEntry d k e :=
  (latchDevId_latches d).bind <| (assignIdent_latches fun g => { g with index := BitVec.ofNat 8 k }).bind <|
    (assignIdent_latches fun g => { g with codeSize := e.codeSize }).bind <|
    (assignIdent_latches fun g => { g with eraseBlocks := e.eraseBlocks }).bind <|
    (assignIdent_latches fun g => { g with wbufWords := e.wbufWords }).bind <|
    assignIdent_latches fun g => { g with status := .resolved }

section

variable {s : State} {d : Word}

/-- How IDENTIFY goes on from what the comparator finds. -/
def resolveFound (d : Word) : Option (Nat × CatalogEntry) → Op Unit
  | none => identNotFound d
  | some (k, e) => do
    identResolved k e
    allocate (e.codeSize.toNat / 2)
    assign fun s => s.setCfgMm 0

/-- The catalog is the configuration's: the latches written before the comparator runs do not change what it finds. -/
theorem resolveDevId_run (h : s.calm) {found : Option (Nat × CatalogEntry)}
    (hfound : lookup (maskedId d) s.cfg.dev.catalog = found) :
    resolveDevId d s = (do latchDevId d; resolveFound d found : Op Unit) s := by
  obtain ⟨p, hrun, -⟩ := (latchDevId_latches d).run s h
  have hsplit : resolveDevId d = (do
      latchDevId d
      let found ← ask fun s => lookup (maskedId d) s.cfg.dev.catalog
      resolveFound d found) := by
    rw [latchDevId, bind_assoc]
    rfl
  rw [hsplit, Op.bind_ok hrun, Op.bind_ok hrun, Op.bind_ok (Op.ask_run _ _), hfound]

/-- IDENTIFY of an ID that no entry has ends with the fault, at the address the ID is read from. -/
theorem finish_resolveDevId_none (h : s.calm) (hfound : lookup (maskedId d) s.cfg.dev.catalog = none) :
    finish (resolveDevId d s) = .next { (s.withCause .ident 0x3FFFFE 0 d).complete with ident := .unknown d } := by
  obtain ⟨p, hrun, -⟩ := (latchUnknown_latches d).run s h
  have hsplit : (do latchDevId d; identNotFound d : Op Unit) =
      (do (do latchDevId d; latchNotFound : Op Unit); raise .ident 0x3FFFFE 0 d : Op Unit) := by
    simp only [latchNotFound, identNotFound, bind_assoc]
  rw [resolveDevId_run h hfound, resolveFound, hsplit, Op.bind_ok hrun]
  rfl

/-- CFG_MM is cleared at the end, wherever the run stands and whatever it has stored (10_state R40). -/
theorem finish_setCfgMm {p : Option Position} (h : ({ s with seq := { s.seq with position := p } } : State).calm)
    (v : Byte) (m : Memory) :
    finish ((assign fun t => t.setCfgMm v) { s with seq := { s.seq with position := p }, mem := m }) =
      .next { (s.setCfgMm v).complete with mem := m } := by
  have hcalm : ({ s with seq := { s.seq with position := p }, mem := m } : State).calm := h
  rw [assign_calm hcalm hcalm.1]
  rfl

/-- The allocation and the clearing of CFG_MM end the operation. -/
theorem finish_allocate (h : s.calm) (words : Nat) :
    finish ((do allocate words; assign fun t => t.setCfgMm 0 : Op Unit) s) =
      .next { (s.setCfgMm 0).complete with mem := s.mem.allocated words } := by
  obtain ⟨p, hcalm, halloc⟩ := allocate_calm h words
  rw [Op.bind_ok halloc, finish_setCfgMm hcalm, Memory.allocated]

/-- IDENTIFY of an ID that an entry has ends with the entry's latches and the images allocated. -/
theorem finish_resolveDevId_some (h : s.calm) {k : Nat} {e : CatalogEntry}
    (hfound : lookup (maskedId d) s.cfg.dev.catalog = some (k, e)) :
    finish (resolveDevId d s) = .next { (s.setCfgMm 0).complete with
      ident := .ofEntry d k e, mem := s.mem.allocated (e.codeSize.toNat / 2) } := by
  obtain ⟨p, hrun, hcalm⟩ := (latchEntry_latches d k e).run s h
  rw [resolveDevId_run h hfound, resolveFound, ← bind_assoc, Op.bind_ok hrun, finish_allocate hcalm]
  rfl

end

/-! ## IDENTIFY (44_identity R171, R172) -/

section

variable {s : State}

theorem issueCheck_identify (h : s.session = .programming) (hid : s.ident.status = .unresolved) (op : Byte) :
    issueCheck .identify (s.accept op) = .none := by
  simp [issueCheck, OpClass.session, OpClass.isEngine, h, hid]

/-- The two transactions that read the ID sample its 16 bits. -/
theorem samplesOf_readDevId (c : Codes) {bits : List Bool} (hlen : bits.length = 16) :
    samplesOf (readDevIdEvents c bits) = bits := by
  have hhigh : (bits.drop 8).take 8 = bits.drop 8 := List.take_of_length_le (by rw [List.length_drop]; omega)
  rw [readDevIdEvents, readPairEvents, samplesOf_append, samplesOf_append, samplesOf_gotoAddress, samplesOf_readTxn,
    samplesOf_readTxn, slice8, slice8, Nat.zero_add, hhigh, List.drop_zero, List.nil_append, List.take_append_drop]

/-- A partner with the ID's bits pending answers the read of the ID with them. -/
theorem readDevId_answered (h : s.calm) {bits rest : List Bool} (hlen : bits.length = 16)
    (hpartner : s.link.partner = .oracle (bits ++ rest)) :
    ∃ l', s.link.Ran l' (readDevIdEvents s.cfg.codes bits) ∧
      readDevId s = .ok (wordFrom bits 0) (s.ran l' (readDevIdEvents s.cfg.codes bits)) := by
  obtain ⟨sampled, l', hlen', hran, hread⟩ := readDevId_calm h
  have hsamples := samplesOf_readDevId s.cfg.codes hlen'
  have ⟨_, _, hanswers⟩ := hran
  obtain ⟨hbits, -⟩ := hanswers bits rest hpartner (by rw [hsamples, hlen, hlen'])
  obtain rfl : sampled = bits := hsamples.symm.trans hbits
  exact ⟨l', hran, hread⟩

theorem State.setCfgMm_ran (s : State) (l' : LinkSide) (es : List LinkEvent) (v : Byte) :
    (s.ran l' es).setCfgMm v = (s.setCfgMm v).ran l' es := rfl

theorem State.withCause_ran (s : State) (l' : LinkSide) (es : List LinkEvent) (c : Cause) (a : Addr) (x v : Word) :
    (s.ran l' es).withCause c a x v = (s.withCause c a x v).ran l' es := rfl

/-- An accepted IDENTIFY that no host access disturbs. -/
theorem acceptIdentify_calm (h : s.quiet) : ((s.accept 0x03).setCfgMm 0).calm := State.accept_calm h 0x03

/-- IDENTIFY in a session reads the ID, and goes on with it. -/
theorem exec_identify (hs : s.sessionReady) (hid : s.ident.status = .unresolved) {bits rest : List Bool}
    (hlen : bits.length = 16) (hpartner : s.link.partner = .oracle (bits ++ rest)) :
    ∃ l', s.link.Ran l' (readDevIdEvents s.cfg.codes bits) ∧ exec .identify s =
      finish (resolveDevId (wordFrom bits 0)
        (((s.accept 0x03).setCfgMm 0).ran l' (readDevIdEvents s.cfg.codes bits))) := by
  obtain ⟨hidle, hsession, hquiet⟩ := hs
  have hcalm := acceptIdentify_calm hquiet
  obtain ⟨l', hran, hread⟩ := readDevId_answered hcalm hlen hpartner
  refine ⟨l', hran, ?_⟩
  rw [show exec .identify s = issueFrom 0x03 .identify (fun t => t.setCfgMm 0) identifyBody s from rfl,
    issueFrom_quiet hidle hcalm.1 _ (issueCheck_identify hsession hid 0x03), identifyBody, Op.bind_ok hread]
  rfl

end

/-- Settles O32: the comparator finds the entry, whose latches and allocation are the rest of the run. -/
theorem identifyResolves : Obligations.IdentifyResolves := by
  intro s bits rest k e hs hid hlen hpartner hk he
  obtain ⟨l', hran, hexec⟩ := exec_identify hs hid hlen hpartner
  have hfound : lookup (maskedId (wordFrom bits 0)) s.cfg.dev.catalog = some (k, e) :=
    (lookup_some_iff s.cfg.dev_wf).2 ⟨hk, he⟩
  obtain ⟨-, -, hquiet⟩ := hs
  refine ⟨l', s.mem.allocated (e.codeSize.toNat / 2), hran, ?next, fun a => s.mem.img_codeImg_allocated,
    fun i => s.mem.img_cfgImg_allocated _, fun b => s.mem.byte_allocated⟩
  case next =>
    rw [hexec, finish_resolveDevId_some ((acceptIdentify_calm hquiet).ran _ _) hfound, State.setCfgMm_ran,
      State.complete_ran]
    rfl

/-- Settles O33: the comparator finds nothing, and the rest of the run is the latches of an unknown ID and the fault. -/
theorem identifyNotFound : Obligations.IdentifyNotFound := by
  intro s bits rest hs hid hlen hpartner hne
  obtain ⟨l', hran, hexec⟩ := exec_identify hs hid hlen hpartner
  have hfound : lookup (maskedId (wordFrom bits 0)) s.cfg.dev.catalog = none := lookup_none_iff.2 hne
  obtain ⟨-, -, hquiet⟩ := hs
  refine ⟨l', hran, ?_⟩
  rw [hexec, finish_resolveDevId_none ((acceptIdentify_calm hquiet).ran _ _) hfound, State.withCause_ran,
    State.complete_ran]
  rfl

end Sys2Proof.Machine

/-! PROOF of the erase operations O34 and O35. Each region is erased by a run of events and then reported; the state
that leaves has one form however many regions there were, and host reads that wait for a report find it so. -/

namespace Sys2Proof.Machine

/-! ## The gate of an engine operation (44_identity R175, 60_exceptions R281, R282) -/

/-- An issue whose check finds a cause is refused with it. -/
theorem exec_refused {s : State} {i : Instr} {op : Byte} {k : OpClass} {c : Cause} (hi : hostOp i = some (op, k))
    (hidle : s.seq.busy = false) (hcheck : issueCheck k (s.accept op) = c) (hc : c ≠ .none) :
    exec i s = .next (s.afterRefusal op c) := by
  subst hcheck
  obtain ⟨first, -, hexec⟩ := exec_eq_issueFrom hi
  rw [hexec, issueFrom_refused hidle first _ hc]

theorem OpClass.isEngine_iff {k : OpClass} : k.isEngine = true ↔ k = .engine ∨ k = .eraseBlock := by
  cases k <;> simp [OpClass.isEngine]

/-- Without an identity the check of an engine operation goes no further than the identity. -/
theorem issueCheck_unidentified {s : State} {k : OpClass} (hk : k.isEngine = true) (hs : s.session = .programming)
    (op : Byte) :
    (s.ident.status = .unresolved → issueCheck k (s.accept op) = .state) ∧
      (s.ident.status = .notFound → issueCheck k (s.accept op) = .ident) := by
  obtain rfl | rfl := OpClass.isEngine_iff.1 hk
  all_goals exact ⟨fun hid => by simp [issueCheck, OpClass.session, OpClass.isEngine, hs, hid],
    fun hid => by simp [issueCheck, OpClass.session, OpClass.isEngine, hs, hid]⟩

theorem engineGate_of_hostOp {i : Instr} {op : Byte} {k : OpClass} (hi : hostOp i = some (op, k))
    (hk : k.isEngine = true) : engineGate i op := by
  obtain ⟨hnot, hsession⟩ : k ≠ .reserved ∧ k.session = .programming := by
    obtain rfl | rfl := OpClass.isEngine_iff.1 hk <;> exact ⟨by decide, rfl⟩
  refine ⟨sessionGate_of_hostOp hi hnot hsession, fun s hidle hs => ?_⟩
  obtain ⟨hunresolved, hnotFound⟩ := issueCheck_unidentified hk hs op
  exact ⟨fun hid => exec_refused hi hidle (hunresolved hid) (by decide),
    fun hid => exec_refused hi hidle (hnotFound hid) (by decide)⟩

/-- With a session and an identity, what is left to ERASE_BLOCK's check is the region (45_erase R191). -/
theorem issueCheck_eraseBlock {s : State} (hs : s.session = .programming) (hid : s.ident.status = .resolved)
    (op : Byte) :
    issueCheck .eraseBlock (s.accept op) =
      if s.ident.regionLegal (s.accept op).seq.region then .none else .badarg := by
  cases hlegal : s.ident.regionLegal (s.accept op).seq.region <;>
    simp_all [issueCheck, OpClass.session, OpClass.isEngine]

/-! ## The operands (45_erase R191, R192) -/

/-- The low bits of a latch, masked or cut out. -/
theorem toNat_setWidth_eq_and (a : Addr) (n : Nat) (hn : n ≤ 24) :
    (a.setWidth n).toNat = (a &&& BitVec.ofNat 24 (2 ^ n - 1)).toNat := by
  have hlt : 2 ^ n - 1 < 2 ^ 24 := by
    have hpow : 2 ^ n ≤ 2 ^ 24 := Nat.pow_le_pow_right (by decide) hn
    omega
  rw [BitVec.toNat_setWidth, BitVec.toNat_and, BitVec.toNat_ofNat, Nat.mod_eq_of_lt hlt, Nat.and_two_pow_sub_one_eq_mod]

theorem State.accept_region (s : State) (op : Byte) : (s.accept op).seq.region = (s.regs.arg0 &&& 0xF).toNat :=
  toNat_setWidth_eq_and s.regs.arg0 4 (by decide)

theorem State.accept_scope (s : State) (op : Byte) : (s.accept op).seq.scope.toNat = (s.regs.arg0 &&& 3).toNat :=
  toNat_setWidth_eq_and s.regs.arg0 2 (by decide)

theorem Identity.regionLegal_iff (g : Identity) (r : Nat) :
    g.regionLegal r = true ↔ r ≤ 10 ∧ (r < 3 ∨ r - 3 < g.eraseBlocks.toNat) := by
  simp [Identity.regionLegal]

theorem Identity.codeRegions_eq (g : Identity) : g.codeRegions = List.range' 3 g.eraseBlocks.toNat :=
  List.range'_eq_map_range.symm

/-- The regions of each scope, in order (30_encoding R113). -/
theorem Identity.scopeRegions_cases (g : Identity) (scope : BitVec 2) :
    scope = 0 ∧ g.scopeRegions scope = [1] ∨ scope = 1 ∧ g.scopeRegions scope = List.range' 3 g.eraseBlocks.toNat ∨
      scope = 2 ∧ g.scopeRegions scope = [2] ∨
      scope = 3 ∧ g.scopeRegions scope = 0 :: 1 :: List.range' 3 g.eraseBlocks.toNat := by
  have hscope : scope = 0 ∨ scope = 1 ∨ scope = 2 ∨ scope = 3 := by
    revert scope
    decide
  rw [← g.codeRegions_eq]
  obtain rfl | rfl | rfl | rfl := hscope <;> simp [Identity.scopeRegions]

/-- With a block to erase, no scope is empty. -/
theorem Identity.scopeRegions_ne_nil {g : Identity} (h : 0 < g.eraseBlocks.toNat) (scope : BitVec 2) :
    g.scopeRegions scope ≠ [] := by
  have hblocks : List.range' 3 g.eraseBlocks.toNat ≠ [] := fun hnil => by
    rw [List.range'_eq_nil_iff] at hnil
    omega
  obtain ⟨-, hr⟩ | ⟨-, hr⟩ | ⟨-, hr⟩ | ⟨-, hr⟩ := g.scopeRegions_cases scope <;> rw [hr]
  · exact List.cons_ne_nil _ _
  · exact hblocks
  · exact List.cons_ne_nil _ _
  · exact List.cons_ne_nil _ _

/-! ## The events of one region (45_erase R190) -/

theorem regionSelector_fin (cfg : Config) (r : Fin 11) : regionSelector cfg r = cfg.dev.regionCode[r] := by
  simp [regionSelector]

/-- EraseBlock with the selector and the register addresses as fields of their bits. -/
theorem eraseBlockEvents_eq (cfg : Config) (r : Nat) :
    eraseBlockEvents cfg r =
      gotoAddressEvents cfg.codes cfg.eraseCtrlBase ++
        sendInsnEvents cfg.codes.icsp.tblwt
          ((regionSelector cfg r).extractLsb' 0 8 ++ (regionSelector cfg r).extractLsb' 0 8) ++
        gotoShortEvents cfg.codes (cfg.eraseCtrlBase.extractLsb' 0 8 + 1) ++
        sendInsnEvents cfg.codes.icsp.tblwt
          ((regionSelector cfg r).extractLsb' 8 8 ++ (regionSelector cfg r).extractLsb' 8 8) ++
        gotoShortEvents cfg.codes (cfg.eraseCtrlBase.extractLsb' 0 8 + 2) ++
        sendInsnEvents cfg.codes.icsp.tblwt
          ((regionSelector cfg r).extractLsb' 16 8 ++ (regionSelector cfg r).extractLsb' 16 8) ++
        eraseHoldEvents cfg := by
  have hlow (a : Addr) : a.setWidth 8 = a.extractLsb' 0 8 := BitVec.setWidth_eq_extractLsb' (by decide)
  have hfield (a : Addr) (n : Nat) : (a >>> n).setWidth 8 = a.extractLsb' n 8 :=
    BitVec.setWidth_ushiftRight_eq_extractLsb
  simp only [eraseBlockEvents, doubled, hlow (regionSelector cfg r), hlow cfg.eraseCtrlBase, hfield]

theorem eraseHoldEvents_afterNops {cfg : Config} (h : cfg.eraseHold = .afterNops) :
    eraseHoldEvents cfg =
      coreEvents cfg.codes [cfg.codes.core.nop, cfg.codes.core.nop] ++ [.pin .pgd false, .delay .tErase] := by
  simp [eraseHoldEvents, h, coreEvents]

theorem eraseHoldEvents_inSecondNop {cfg : Config} (h : cfg.eraseHold = .inSecondNop) :
    eraseHoldEvents cfg =
      coreEvents cfg.codes [cfg.codes.core.nop] ++ sendCmdEvents cfg.codes.icsp.core ++
        [.pin .pgd false, .delay .tErase] ++ sendWordEvents 0 := by
  simp [eraseHoldEvents, h, coreEvents]

/-! ## One region erased and reported -/

/-- A report does not move the run. -/
@[simp] theorem State.reportProgress_replaying (s : State) (ph : Phase) (p : BitVec 7) :
    (s.reportProgress ph p).seq.replaying = s.seq.replaying := by
  rw [State.reportProgress_seq]
  rfl

/-- `EraseBlock(r)` and the report of `p` percent after it. -/
def eraseTurn (r : Nat) (p : BitVec 7) : Op Unit := do
  eraseRegion r
  emitProgress .erase p

/-- The state they leave. -/
def State.erased (s : State) (r : Nat) (p : BitVec 7) : State :=
  ((s.recordAll (eraseBlockEvents s.cfg r)).reportProgress .erase p).forth []

@[simp] theorem State.erased_cfg (s : State) (r : Nat) (p : BitVec 7) : (s.erased r p).cfg = s.cfg := by
  simp [State.erased]

@[simp] theorem State.erased_bus (s : State) (r : Nat) (p : BitVec 7) : (s.erased r p).bus = s.bus := by
  simp [State.erased]

@[simp] theorem State.erased_busy (s : State) (r : Nat) (p : BitVec 7) : (s.erased r p).seq.busy = s.seq.busy := by
  simp [State.erased, State.reportProgress_seq]

@[simp] theorem State.erased_replaying (s : State) (r : Nat) (p : BitVec 7) :
    (s.erased r p).seq.replaying = s.seq.replaying := by
  simp [State.erased]

theorem State.calm.erased {s : State} (h : s.calm) (r : Nat) (p : BitVec 7) : (s.erased r p).calm :=
  ⟨by rw [State.quiet, State.erased_bus]; exact h.1, by rw [State.erased_replaying, h.2]⟩

theorem eraseTurn_calm {s : State} (h : s.calm) (r : Nat) (p : BitVec 7) : eraseTurn r p s = .ok () (s.erased r p) := by
  rw [eraseTurn, Op.bind_ok (eraseRegion_calm h r), emitProgress_calm (h.recordAll _)]
  rfl

/-- The state that has emitted `es` and reported `p` percent of an erase. -/
def State.afterErase (s : State) (es : List LinkEvent) (p : BitVec 7) : State :=
  { s with
    link := s.link.observeAll s.cfg es
    regs := { s.regs with progEvt := true }
    seq := { s.seq with lastPct := some p, phase := .erase } }

theorem State.afterErase_afterErase (s : State) (es fs : List LinkEvent) (p q : BitVec 7) :
    (s.afterErase es p).afterErase fs q = s.afterErase (es ++ fs) q := by
  simp [State.afterErase, LinkSide.observeAll_append]

theorem State.afterErase_progEvt (s : State) (es : List LinkEvent) (p : BitVec 7) :
    (s.afterErase es p).regs.progEvt = true := rfl

/-- Completion leaves PROG_EVT alone. -/
theorem State.complete_progEvt (s : State) : s.complete.regs.progEvt = s.regs.progEvt := rfl

/-- A report writes the registers and the sequencer, and nothing else. -/
theorem State.reportProgress_frame (s : State) (ph : Phase) (p : BitVec 7) :
    s.reportProgress ph p = { s with regs := (s.reportProgress ph p).regs, seq := (s.reportProgress ph p).seq } := by
  unfold State.reportProgress
  split <;> rfl

/-- The report sets PROG_EVT: either the phase is new, or an earlier report has set it (46_program_verify R211). -/
theorem State.reportProgress_erase {s : State} (h : s.seq.phase ≠ .erase ∨ s.regs.progEvt = true) (p : BitVec 7) :
    s.reportProgress .erase p = s.afterErase [] p := by
  have hregs : (s.reportProgress .erase p).regs = { s.regs with progEvt := true } := by
    rw [State.reportProgress_regs]
    split
    next => rfl
    next hsame =>
      obtain hphase | hevt := h
      · exact absurd (by simp [progressChanges, hphase.symm]) hsame
      · rw [← hevt]
  rw [State.reportProgress_frame, hregs, State.reportProgress_seq]
  rfl

/-- An operation that emitted `es` and reported `p` percent of an erase last. -/
theorem State.accept_complete_afterErase (s : State) (op : Byte) (es : List LinkEvent) (p : BitVec 7) :
    (s.accept op).complete.afterErase es p = { s.afterOutput op es with
      regs := { s.regs.afterOp op with progEvt := true }
      seq := { s.latched op with lastPct := some p, phase := .erase } } := rfl

/-- Completed, the state says only what was emitted and what was reported. -/
theorem State.complete_erased {s : State} (h : s.seq.phase ≠ .erase ∨ s.regs.progEvt = true) (r : Nat) (p : BitVec 7) :
    (s.erased r p).complete = s.complete.afterErase (eraseBlockEvents s.cfg r) p := by
  rw [State.erased, State.complete_forth, State.reportProgress_erase (by simpa using h), State.recordAll_eq, State.ran,
    Sequencer.after_eq]
  generalize eraseBlockEvents s.cfg r = es
  rfl

theorem State.erased_progEvt {s : State} (h : s.seq.phase ≠ .erase ∨ s.regs.progEvt = true) (r : Nat) (p : BitVec 7) :
    (s.erased r p).regs.progEvt = true := by
  rw [← State.complete_progEvt, State.complete_erased h, State.afterErase_progEvt]

/-- An accepted operation has reported nothing yet. -/
theorem State.accept_phase_ne_erase (s : State) (op : Byte) : (s.accept op).seq.phase ≠ .erase := nofun

/-! ## ERASE_BLOCK (45_erase R191) -/

/-- ERASE_BLOCK of a legal region, undisturbed. -/
theorem exec_eraseBlock {s : State} (hs : s.engineReady)
    (hlegal : s.ident.regionLegal (s.regs.arg0 &&& 0xF).toNat = true) :
    exec .eraseBlock s = .next { s.afterOutput 0x22 (eraseBlockEvents s.cfg (s.regs.arg0 &&& 0xF).toNat) with
      regs := { s.regs.afterOp 0x22 with progEvt := true }
      seq := { s.latched 0x22 with lastPct := some 100, phase := .erase } } := by
  obtain ⟨⟨hidle, hsession, hquiet⟩, hid⟩ := hs
  have hcheck : issueCheck .eraseBlock (s.accept 0x22) = .none := by
    rw [issueCheck_eraseBlock hsession hid, State.accept_region, if_pos hlegal]
  have hbody : eraseBlockBody (s.accept 0x22) = eraseTurn (s.regs.arg0 &&& 0xF).toNat 100 (s.accept 0x22) := by
    rw [eraseBlockBody, Op.bind_ok (Op.ask_run _ _), State.accept_region, eraseTurn]
  rw [show exec .eraseBlock s = issue 0x22 .eraseBlock eraseBlockBody s from rfl, issue_quiet hidle hquiet _ hcheck,
    hbody, eraseTurn_calm (State.accept_calm hquiet 0x22), finish,
    State.complete_erased (.inl (State.accept_phase_ne_erase _ _)),
    State.accept_complete_afterErase, State.accept_cfg]

/-- Settles O34: the gate and the region's check, then the events of the region as R190 lists them. -/
theorem eraseBlockResult : Obligations.EraseBlockResult := by
  refine ⟨engineGate_of_hostOp rfl rfl, ?illegal, ?legal⟩
  case illegal =>
    intro s ⟨⟨hidle, hsession, _⟩, hid⟩ hr
    have hillegal : ¬s.ident.regionLegal (s.accept 0x22).seq.region = true := by
      rw [State.accept_region, Identity.regionLegal_iff]
      omega
    exact exec_refused rfl hidle (by rw [issueCheck_eraseBlock hsession hid, if_neg hillegal]) (by decide)
  case legal =>
    intro s r hs hr hlegal
    have hregion : s.ident.regionLegal (s.regs.arg0 &&& 0xF).toNat = true := by
      rw [Identity.regionLegal_iff]
      omega
    rw [exec_eraseBlock hs hregion, hr, eraseBlockEvents_eq, regionSelector_fin]
    cases hhold : s.cfg.eraseHold with
    | afterNops => rw [eraseHoldEvents_afterNops hhold]
    | inSecondNop => rw [eraseHoldEvents_inSecondNop hhold]

/-! ## The regions of a scope in turn (45_erase R192) -/

/-- The state after the regions `rs` are erased and reported in turn, `finished` of `total` being done before. -/
def State.erasedAll (total : Nat) : (finished : Nat) → List Nat → State → State
  | _, [], s => s
  | finished, r :: rs, s => State.erasedAll total (finished + 1) rs (s.erased r (erasePct (finished + 1) total))

/-- The actions of these turns: a region's events, and the report after them. -/
def eraseActions (cfg : Config) (rs : List Nat) : Nat := (rs.map fun r => (eraseBlockEvents cfg r).length + 1).sum

theorem eraseActions_cons (cfg : Config) (r : Nat) (rs : List Nat) :
    eraseActions cfg (r :: rs) = (eraseBlockEvents cfg r).length + (eraseActions cfg rs + 1) := by
  simp only [eraseActions, List.map_cons, List.sum_cons]
  omega

theorem eraseRegions_cons (total finished r : Nat) (rs : List Nat) :
    eraseRegions total finished (r :: rs) = (do
      eraseTurn r (erasePct (finished + 1) total)
      eraseRegions total (finished + 1) rs) := by
  rw [eraseRegions, eraseTurn, bind_assoc]

section

variable {s : State} (total : Nat)

@[simp] theorem State.erasedAll_bus (finished : Nat) (rs : List Nat) (s : State) :
    (State.erasedAll total finished rs s).bus = s.bus := by
  induction rs generalizing finished s with
  | nil => rfl
  | cons r rs ih => rw [State.erasedAll, ih, State.erased_bus]

@[simp] theorem State.erasedAll_busy (finished : Nat) (rs : List Nat) (s : State) :
    (State.erasedAll total finished rs s).seq.busy = s.seq.busy := by
  induction rs generalizing finished s with
  | nil => rfl
  | cons r rs ih => rw [State.erasedAll, ih, State.erased_busy]

/-- Undisturbed, the loop erases and reports every region. -/
theorem eraseRegions_calm (h : s.calm) (finished : Nat) (rs : List Nat) :
    eraseRegions total finished rs s = .ok () (State.erasedAll total finished rs s) := by
  induction rs generalizing finished s with
  | nil => rfl
  | cons r rs ih => rw [eraseRegions_cons, Op.bind_ok (eraseTurn_calm h _ _), ih (h.erased _ _), State.erasedAll]

/-- Completed, the state says what the regions emitted, in order, and the last report. -/
theorem State.complete_erasedAll (h : s.seq.phase ≠ .erase ∨ s.regs.progEvt = true) (finished : Nat) {rs : List Nat}
    (hrs : rs ≠ []) :
    (State.erasedAll total finished rs s).complete =
      s.complete.afterErase (rs.flatMap (eraseBlockEvents s.cfg)) (erasePct (finished + rs.length) total) := by
  induction rs generalizing finished s with
  | nil => exact absurd rfl hrs
  | cons r rs ih =>
    rcases rs with _ | ⟨r', rs⟩
    · rw [State.erasedAll, State.erasedAll, State.complete_erased h, List.flatMap_singleton]
      rfl
    · rw [State.erasedAll, ih (.inr (State.erased_progEvt h _ _)) _ (List.cons_ne_nil _ _), State.complete_erased h,
        State.afterErase_afterErase, State.erased_cfg, ← List.flatMap_cons, Nat.add_assoc, Nat.add_comm 1]
      rfl

end

/-! ## Host reads that wait for a report (logs 5, 11) -/

section

variable {s : State}

/-- An input that waits for `m` actions and then for one more waits now. -/
theorem hostWindow_waits_add (s : State) (m n : Nat) (a : HostAct) (rest : List Input) :
    hostWindow (s.withInputs ({ gap := some (m + (n + 1)), act := a } :: rest)) =
      .ok () (s.withInputs ({ gap := some (m + (n + 1)), act := a } :: rest)) :=
  hostWindow_waits s (m + n) a rest

/-- What is pending does not change what a report does. -/
theorem State.reportProgress_withInputs (s : State) (is : List Input) (ph : Phase) (p : BitVec 7) :
    (s.withInputs is).reportProgress ph p = (s.reportProgress ph p).withInputs is := by
  unfold State.reportProgress
  by_cases h : progressChanges s.seq ph p
  · rw [if_pos h]
    exact if_pos h
  · rw [if_neg h]
    exact if_neg h

/-- Events before a waiting input bring it nearer; the host accesses due after the last of them come then. -/
theorem emitAll_nearer (hperf : s.seq.replaying = false) (es : List LinkEvent) (n : Nat) (a : HostAct)
    (rest : List Input) :
    emitAll es (s.withInputs ({ gap := some (es.length + (n + 1)), act := a } :: rest)) =
      .ok () ((s.recordAll es).withInputs ({ gap := some (n + 1), act := a } :: rest)) := by
  induction es generalizing s with
  | nil => rw [List.length_nil, Nat.zero_add]; rfl
  | cons e es ih =>
    have hcount : (e :: es).length + (n + 1) = es.length + n + 1 + 1 := by rw [List.length_cons]; omega
    rw [emitAll, hcount, Op.bind_ok ((emit_nearer hperf e _ a rest).trans (hostWindow_waits _ _ a rest))]
    exact ih (by simpa using hperf)

/-- So does a report. -/
theorem emitProgress_nearer (hperf : s.seq.replaying = false) (ph : Phase) (p : BitVec 7) (n : Nat) (a : HostAct)
    (rest : List Input) :
    emitProgress ph p (s.withInputs ({ gap := some (n + 1), act := a } :: rest)) =
      hostWindow (((s.reportProgress ph p).forth []).withInputs ({ gap := some n, act := a } :: rest)) := by
  rw [emitProgress, assign, act_performed (by simpa using hperf), State.reportProgress_withInputs]
  rfl

/-- An input that waits for a region's events, its report and `n` more actions waits for `n` after the report. -/
theorem eraseTurn_nearer (hperf : s.seq.replaying = false) (r : Nat) (p : BitVec 7) (n : Nat) (a : HostAct)
    (rest : List Input) :
    (do hostWindow; eraseTurn r p : Op Unit)
        (s.withInputs ({ gap := some ((eraseBlockEvents s.cfg r).length + (n + 1)), act := a } :: rest)) =
      hostWindow ((s.erased r p).withInputs ({ gap := some n, act := a } :: rest)) := by
  rw [Op.bind_ok (hostWindow_waits_add s _ n a rest), eraseTurn, eraseRegion, bind_assoc,
    Op.bind_ok (Op.ask_run _ _), State.withInputs_cfg, Op.bind_ok (emitAll_nearer hperf _ n a rest),
    emitProgress_nearer (by simpa using hperf), State.erased]

/-- A read of STATUS and one of PROGRESS, with `rest` still to come. -/
def State.progressRead (s : State) (rest : List Input) : State :=
  ((s.withInputs rest).gotRead Reg.status.offset (statusWord s)).gotRead Reg.progress.offset (progressWord s.seq)

/-- The inputs of these reads, the first after `n` actions and the second at once after it. -/
def progressReads (n : Nat) (rest : List Input) : List Input :=
  { gap := some n, act := .read Reg.status.offset 4 } :: { gap := some 0, act := .read Reg.progress.offset 4 } :: rest

theorem hostWindow_progressRead (hbusy : s.seq.busy = true) {rest : List Input}
    (hquiet : rest.head?.bind Input.gap = none) :
    hostWindow (s.withInputs (progressReads 0 rest)) = .ok () (s.progressRead rest) := by
  have hread (t : State) (r : Reg) : busyAct (.read r.offset 4) t = .ok () (t.gotRead r.offset (regWord t r)) := by
    rw [busyAct_read r.offset_defined, State.busyRead_reg]
  rw [hostWindow, if_pos (by simpa using hbusy), State.withInputs_bus, progressReads, serveDue,
    Op.bind_ok (Op.update_run _ _), Op.bind_ok (hread _ _), serveDue, Op.bind_ok (Op.update_run _ _),
    Op.bind_ok (hread _ _)]
  exact serveDue_quiet (s := s.withInputs rest) hquiet _

/-- Reads that wait for the first `j` regions find the state those leave, and the others follow undisturbed; by
induction on `j`, each region bringing the reads nearer by its actions. -/
theorem eraseRegions_reading (hbusy : s.seq.busy = true) (hperf : s.seq.replaying = false) {rest : List Input}
    (hquiet : rest.head?.bind Input.gap = none) (total finished : Nat) {j : Nat} {rs : List Nat} (hj : j ≤ rs.length) :
    (do hostWindow; eraseRegions total finished rs : Op Unit)
        (s.withInputs (progressReads (eraseActions s.cfg (rs.take j)) rest)) =
      .ok () (State.erasedAll total (finished + j) (rs.drop j)
        ((State.erasedAll total finished (rs.take j) s).progressRead rest)) := by
  induction j generalizing s finished rs with
  | zero =>
    have hcalm : (s.progressRead rest).calm := ⟨hquiet, hperf⟩
    exact (Op.bind_ok (hostWindow_progressRead hbusy hquiet)).trans (eraseRegions_calm total hcalm finished rs)
  | succ j ih =>
    rcases rs with _ | ⟨r, rs⟩
    · cases hj
    · have hnext := ih (s := s.erased r (erasePct (finished + 1) total)) (by simpa using hbusy) (by simpa using hperf)
        (finished + 1) (Nat.le_of_succ_le_succ hj)
      rw [State.erased_cfg] at hnext
      rw [eraseRegions_cons, ← bind_assoc, Op.bind_run, List.take_succ_cons, eraseActions_cons, progressReads,
        eraseTurn_nearer hperf, ← Op.bind_run, ← progressReads, hnext, Nat.add_assoc finished, Nat.add_comm 1]
      rfl

end

/-! ## BULK_ERASE (45_erase R192) -/

/-- The percentage that BULK_ERASE reports fits its field. -/
theorem toNat_erasePct {finished total : Nat} (h : finished ≤ total) :
    (erasePct finished total).toNat = finished * 100 / total := by
  have hle : finished * 100 / total ≤ 100 := Nat.div_le_of_le_mul (by omega)
  rw [erasePct, BitVec.toNat_ofNat, Nat.mod_eq_of_lt (by omega)]

theorem erasePct_self {total : Nat} (h : 0 < total) : erasePct total total = 100 := by
  rw [erasePct, Nat.mul_div_cancel_left _ h]
  rfl

/-- The host accesses right after the acceptance leave the operands and the identity, and so the regions, alone. -/
theorem hostWindow_bulkEraseBody (s : State) : (do hostWindow; bulkEraseBody : Op Unit) s =
    (do hostWindow
        eraseRegions (s.ident.scopeRegions s.seq.scope).length 0 (s.ident.scopeRegions s.seq.scope) : Op Unit) s := by
  have hdrives := hostWindow_drives.run s
  rw [Op.bind_run, Op.bind_run]
  cases h : hostWindow s with
  | error e t => rfl
  | ok _ t =>
    rw [h] at hdrives
    obtain ⟨hdrove, -⟩ := hdrives
    have hscope : t.seq.scope = s.seq.scope := (congrArg Sequencer.scope hdrove.seq :)
    exact (Op.bind_ok (Op.ask_run _ t)).trans (by rw [hdrove.ident, hscope])

section

variable {s : State} {regions : List Nat}

theorem exec_bulkErase (hidle : s.seq.busy = false) (hsession : s.session = .programming)
    (hid : s.ident.status = .resolved)
    (hregions : s.ident.scopeRegions (s.accept 0x21).seq.scope = regions) :
    exec .bulkErase s = finish ((do hostWindow; eraseRegions regions.length 0 regions : Op Unit) (s.accept 0x21)) := by
  rw [show exec .bulkErase s = issueFrom 0x21 .engine id bulkEraseBody s from rfl,
    issueFrom_accepted hidle _ _ (issueCheck_engine hsession hid), id, hostWindow_bulkEraseBody,
    State.accept_ident, hregions]

/-- BULK_ERASE undisturbed. -/
theorem exec_bulkErase_quiet (hidle : s.seq.busy = false) (hsession : s.session = .programming)
    (hid : s.ident.status = .resolved)
    (hregions : s.ident.scopeRegions (s.accept 0x21).seq.scope = regions) (hne : regions ≠ []) (hquiet : s.quiet) :
    exec .bulkErase s = .next { s.afterOutput 0x21 (regions.flatMap (eraseBlockEvents s.cfg)) with
      regs := { s.regs.afterOp 0x21 with progEvt := true }
      seq := { s.latched 0x21 with lastPct := some 100, phase := .erase } } := by
  have hcalm := State.accept_calm hquiet 0x21
  rw [exec_bulkErase hidle hsession hid hregions, Op.bind_ok (hostWindow_quiet hcalm.1), eraseRegions_calm _ hcalm,
    finish, State.complete_erasedAll _ (.inl (s.accept_phase_ne_erase _)) 0 hne, Nat.zero_add,
    erasePct_self (List.length_pos_iff.2 hne), State.accept_complete_afterErase, State.accept_cfg]

/-- BULK_ERASE with a read of STATUS and one of PROGRESS after the report of region `j`. -/
theorem exec_bulkErase_reading (hidle : s.seq.busy = false) (hsession : s.session = .programming)
    (hid : s.ident.status = .resolved)
    (hregions : s.ident.scopeRegions (s.accept 0x21).seq.scope = regions) {j : Nat} (hj : j < regions.length)
    {rest : List Input} (hquiet : rest.head?.bind Input.gap = none)
    (hin : s.bus.inputs = progressReads (eraseActions s.cfg (regions.take (j + 1))) rest) :
    exec .bulkErase s = .next (State.erasedAll regions.length (j + 1) (regions.drop (j + 1))
      ((State.erasedAll regions.length 0 (regions.take (j + 1)) (s.accept 0x21)).progressRead rest)).complete := by
  have hrun := eraseRegions_reading (s := s.accept 0x21) rfl rfl hquiet regions.length 0 (Nat.succ_le_of_lt hj)
  rw [State.accept_cfg, ← hin, ← State.accept_bus s 0x21, State.withInputs_self, Nat.zero_add] at hrun
  rw [exec_bulkErase hidle hsession hid hregions, hrun, finish]

end

/-- What PROGRESS shows after at least one region: the last report, valid, and the erase phase. -/
theorem progressWord_erasedAll {s : State} (h : s.seq.phase ≠ .erase) (total finished : Nat) {rs : List Nat}
    (hrs : rs ≠ []) :
    let w := progressWord (State.erasedAll total finished rs s).seq
    w.extractLsb' 0 7 = erasePct (finished + rs.length) total ∧ w.getLsbD 7 = true ∧ w.extractLsb' 8 3 = 1 := by
  have hcomplete := State.complete_erasedAll total (.inl h) finished hrs
  have hpct : (State.erasedAll total finished rs s).seq.lastPct = some (erasePct (finished + rs.length) total) :=
    congrArg (fun t => t.seq.lastPct) hcomplete
  have hphase : (State.erasedAll total finished rs s).seq.phase = .erase := congrArg (fun t => t.seq.phase) hcomplete
  obtain ⟨hvalid, hfield, hcode, -⟩ := progressWord_fields (State.erasedAll total finished rs s).seq
  refine ⟨?_, ?_, ?_⟩
  · rw [hfield, hpct, Option.getD_some]
  · rw [hvalid, hpct, Option.isSome_some]
  · rw [hcode, hphase, Phase.code]

/-- Settles O35: the undisturbed run, and the run with the two reads after the report of region `j`. -/
theorem bulkEraseResult : Obligations.BulkEraseResult := by
  intro s regions hidle hsession hid hblocks hmatch
  have hregions : s.ident.scopeRegions (s.accept 0x21).seq.scope = regions := by
    rw [hmatch, ← State.accept_scope s 0x21]
    obtain ⟨hscope, hr⟩ | ⟨hscope, hr⟩ | ⟨hscope, hr⟩ | ⟨hscope, hr⟩ :=
      s.ident.scopeRegions_cases (s.accept 0x21).seq.scope <;> rw [hr, hscope] <;> rfl
  have hne : regions ≠ [] := hregions ▸ Identity.scopeRegions_ne_nil hblocks _
  refine ⟨exec_bulkErase_quiet hidle hsession hid hregions hne, fun j n rest hj hquiet hn hin => ?_⟩
  subst hn
  have hlen : (regions.take (j + 1)).length = j + 1 := by rw [List.length_take]; omega
  have htake : regions.take (j + 1) ≠ [] := List.ne_nil_of_length_pos (by omega)
  obtain ⟨hpct, hvalid, hphase⟩ := progressWord_erasedAll (s.accept_phase_ne_erase 0x21) regions.length 0 htake
  have hbusy :
      (statusWord (State.erasedAll regions.length 0 (regions.take (j + 1)) (s.accept 0x21))).getLsbD 0 = true := by
    rw [(statusRegisterFields _).1, State.erasedAll_busy, State.accept_seq]
  refine ⟨_, _, _, exec_bulkErase_reading hidle hsession hid hregions hj hquiet hin, ?reads, hbusy, ?pct, hvalid,
    hphase⟩
  case reads =>
    rw [State.complete_bus, State.erasedAll_bus, State.progressRead, State.gotRead_bus, State.gotRead_bus,
      State.withInputs_bus, State.erasedAll_bus, State.accept_bus]
    rfl
  case pct => rw [hpct, hlen, Nat.zero_add, toNat_erasePct hj]

end Sys2Proof.Machine

/-! PROOF of O21: what a report changes, when it is an action of a run, and how the percentage of a walk rises. -/

namespace Sys2Proof.Machine

/-! ## The percentage of a walk (46_program_verify R211) -/

section

variable {size : Addr} {n d : Nat}

/-- Within the walk the percentage fits its field. -/
theorem toNat_walkPct (hsize : size.toNat = 2 * n) (hd : d ≤ n) : (walkPct d size).toNat = d * 200 / size.toNat := by
  have hle : d * 200 / size.toNat ≤ 100 := Nat.div_le_of_le_mul (by omega)
  rw [walkPct, BitVec.toNat_ofNat, Nat.mod_eq_of_lt (by omega)]

/-- It does not fall: more words done are no smaller a share. -/
theorem walkPct_mono (hsize : size.toNat = 2 * n) {d' : Nat} (hd : d ≤ d') (hd' : d' ≤ n) :
    (walkPct d size).toNat ≤ (walkPct d' size).toNat := by
  rw [toNat_walkPct hsize (hd.trans hd'), toNat_walkPct hsize hd']
  exact Nat.div_le_div_right (Nat.mul_le_mul_right 200 hd)

/-- It is 100 only where every word is done. -/
theorem walkPct_eq_hundred_iff (hsize : size.toNat = 2 * n) (hn : 0 < n) (hd : d ≤ n) :
    walkPct d size = 100 ↔ d = n := by
  have hdiv : 100 ≤ d * 200 / size.toNat ↔ 100 * size.toNat ≤ d * 200 := Nat.le_div_iff_mul_le (by omega)
  have hle : (walkPct d size).toNat ≤ 100 := walkPct_le (by omega)
  rw [toNat_walkPct hsize hd] at hle
  rw [← BitVec.toNat_inj, toNat_walkPct hsize hd, show (100 : BitVec 7).toNat = 100 from rfl]
  omega

end

/-! ## A report as an action of a run (log 11) -/

/-- The reporter's condition, as R211 words it. -/
theorem progressChanges_iff (q : Sequencer) (ph : Phase) (p : BitVec 7) :
    progressChanges q ph p = true ↔ ph ≠ q.phase ∨ q.lastPct = none ∨ q.lastPct ≠ some p := by
  cases h : q.lastPct <;> simp [progressChanges, h]

/-- A report that a run performs at the position `q`. -/
theorem emitProgress_at {s : State} {q : Position} (hquiet : s.quiet) (hposition : s.seq.position = some q)
    (hagain : q.again = 0) (ph : Phase) (p : BitVec 7) :
    emitProgress ph p s = .ok () { s.reportProgress ph p with
      seq := { (s.reportProgress ph p).seq with position := some { q with taken := q.taken + 1 } } } := by
  have hcalm : s.calm := ⟨hquiet, by simp [Sequencer.replaying, hposition, hagain]⟩
  have hreport : (s.reportProgress ph p).seq.position = some q := by rw [State.reportProgress_seq, hposition]
  rw [emitProgress_calm hcalm, State.forth, Sequencer.forth, hreport]
  rfl

/-- Settles O21: the reporter's condition, the report as an action, and the percentage of a walk. -/
theorem progressEmission : Obligations.ProgressEmission := by
  refine ⟨fun s ph p => ?report, fun s ph p q hquiet hposition hagain => emitProgress_at hquiet hposition hagain ph p,
    fun size n hsize hn => ⟨fun d hd => ⟨toNat_walkPct hsize hd, walkPct_le (by omega)⟩,
      fun d d' hd hd' => walkPct_mono hsize hd hd', fun d hd => walkPct_eq_hundred_iff hsize hn hd⟩⟩
  case report =>
    simp only [State.reportProgress, progressChanges_iff]

end Sys2Proof.Machine

/-! SUPPORT for the code memory statements: an undisturbed run seen from its end. What a run's state would leave if the
operation completed there does not show the position, so every procedure is said once as a change of that state. -/

namespace Sys2Proof.Machine

/-! ## What a run would leave -/

/-- `u` is a state of an undisturbed run, and completing the operation there leaves `g`. -/
structure State.Leaves (u g : State) : Prop where
  calm : u.calm
  complete : u.complete = g

/-- From `u` the procedure answers `a`, undisturbed, in a state that leaves `g`. -/
def Op.Reaches {α : Type} (x : Op α) (u : State) (a : α) (g : State) : Prop := ∃ t, x u = .ok a t ∧ t.Leaves g

section

variable {α β : Type} {u g g' : State} {a : α}

theorem State.Leaves.cfg (h : u.Leaves g) : u.cfg = g.cfg := by rw [← h.complete, State.complete_cfg]

theorem State.Leaves.mem (h : u.Leaves g) : u.mem = g.mem := by rw [← h.complete, State.complete_mem]

theorem State.Leaves.ident (h : u.Leaves g) : u.ident = g.ident := by rw [← h.complete, State.complete_ident]

theorem State.Leaves.link (h : u.Leaves g) : u.link = g.link := by rw [← h.complete, State.complete_link]

/-- What an operation begins with: the accepted state, completed. -/
theorem State.Leaves.accept {s : State} (h : s.quiet) (op : Byte) : (s.accept op).Leaves (s.accept op).complete :=
  ⟨State.accept_calm h op, rfl⟩

theorem State.Leaves.ctrl (h : u.Leaves g) : u.seq.ctrl = g.seq.ctrl := by rw [← h.complete, State.complete_seq]

theorem State.Leaves.ran (h : u.Leaves g) (l : LinkSide) (es : List LinkEvent) :
    (u.ran l es).Leaves { g with link := l } :=
  ⟨h.calm.ran l es, by rw [State.complete_ran, h.complete]⟩

/-! ## Composition -/

theorem Op.Reaches.pure (h : u.Leaves g) (a : α) : Op.Reaches (Pure.pure a) u a g := ⟨u, rfl, h⟩

/-- Looking at what completion does not change. -/
theorem Op.Reaches.ask (h : u.Leaves g) {f : State → α} (hf : ∀ v : State, f v.complete = f v) :
    Op.Reaches (Machine.ask f) u (f g) g :=
  ⟨u, by rw [Op.ask_run, ← hf, h.complete], h⟩

/-- A run goes on from where its first procedure has led, whatever the position is there. -/
theorem Op.Reaches.bind {x : Op α} {f : α → Op β} {b : β} (hx : Op.Reaches x u a g)
    (hf : ∀ t : State, t.Leaves g → Op.Reaches (f a) t b g') : Op.Reaches (x >>= f) u b g' := by
  obtain ⟨t, hrun, ht⟩ := hx
  obtain ⟨t', hrun', ht'⟩ := hf t ht
  exact ⟨t', (Op.bind_ok hrun).trans hrun', ht'⟩

theorem Op.Reaches.of_eq {x y : Op α} {t : State} (hxy : x u = y t) (hy : Op.Reaches y t a g) : Op.Reaches x u a g := by
  obtain ⟨v, hrun, hv⟩ := hy
  exact ⟨v, hxy.trans hrun, hv⟩

/-- A body that ends leaves the completed state. -/
theorem Op.Reaches.finish {x : Op Unit} (hx : Op.Reaches x u () g) : Machine.finish (x u) = .next g := by
  obtain ⟨t, hrun, ht⟩ := hx
  rw [hrun, Machine.finish, ht.complete]

/-- A fault completes the operation with its four registers written (60_exceptions R286). -/
theorem raise_leaves (h : u.Leaves g) (c : Cause) (x : Addr) (e v : Word) :
    (raise c x e v : Op α) u = .error .ended (g.withCause c x e v) := by
  rw [Op.raise_run, ← h.complete]
  rfl

/-! ## Procedures that only emit -/

@[simp] theorem State.afterLink_ident (s : State) (es : List LinkEvent) : (s.afterLink es).ident = s.ident := rfl

theorem State.afterLink_afterLink (s : State) (es fs : List LinkEvent) :
    (s.afterLink es).afterLink fs = s.afterLink (es ++ fs) := by
  simp [State.afterLink, LinkSide.observeAll_append]

/-- The procedure emits `es` and does nothing else, in a run that has done nothing but emit since it would leave `g`. -/
def Op.Emits (x : Op Unit) (g : State) (es : List LinkEvent) : Prop :=
  ∀ (before : List LinkEvent) (u : State), u.Leaves (g.afterLink before) →
    Op.Reaches x u () (g.afterLink (before ++ es))

theorem Op.Emits.reaches {x : Op Unit} {es : List LinkEvent} (hx : x.Emits g es) (h : u.Leaves g) :
    Op.Reaches x u () (g.afterLink es) := hx [] u h

theorem Op.Emits.of_recordAll {x : Op Unit} {es : List LinkEvent}
    (hx : ∀ u : State, u.calm → u.cfg = g.cfg → x u = .ok () (u.recordAll es)) : x.Emits g es := by
  intro before u h
  refine ⟨_, hx u h.calm h.cfg, h.calm.recordAll es, ?_⟩
  rw [State.recordAll_eq, State.complete_ran, h.complete, h.link, h.cfg, ← State.afterLink_afterLink]
  rfl

theorem Op.Emits.pure (g : State) : (Pure.pure () : Op Unit).Emits g [] := .of_recordAll fun _ _ _ => rfl

theorem Op.Emits.bind {x y : Op Unit} {es fs : List LinkEvent} (hx : x.Emits g es) (hy : y.Emits g fs) :
    (do x; y : Op Unit).Emits g (es ++ fs) := by
  intro before u h
  rw [← List.append_assoc]
  exact (hx before u h).bind fun t ht => hy (before ++ es) t ht

/-- The last turn's part of a sequence that has one for each turn. -/
theorem flatMap_range_succ {α : Type} (f : Nat → List α) (n : Nat) :
    (List.range (n + 1)).flatMap f = (List.range n).flatMap f ++ f n := by
  rw [List.range_succ, List.flatMap_append, List.flatMap_singleton]

/-- A loop emits what its turns emit. -/
theorem Op.Emits.forUp {f : Nat → Op Unit} {events : Nat → List LinkEvent} (n : Nat)
    (hf : ∀ i < n, (f i).Emits g (events i)) : (forUp f n 0).Emits g ((List.range n).flatMap events) := by
  intro before u h
  have hloop := forUp_ok (P := fun i u => u.Leaves (g.afterLink (before ++ (List.range i).flatMap events))) n 0
    (fun i u _ hi hu => by
      have hturn := hf i (by omega) _ u hu
      rwa [List.append_assoc, ← flatMap_range_succ] at hturn)
    (by rw [List.range_zero, List.flatMap_nil, List.append_nil]; exact h)
  rwa [Nat.zero_add] at hloop

theorem sendCore_emits (g : State) (f : CoreWords → Word) :
    (sendCore f).Emits g (coreEvents g.cfg.codes [f g.cfg.codes.core]) :=
  .of_recordAll fun u hu hcfg => by rw [sendCore_calm hu, coreEvents_single, hcfg]

theorem gotoAddress_emits (g : State) (a : Addr) : (gotoAddress a).Emits g (gotoAddressEvents g.cfg.codes a) :=
  .of_recordAll fun u hu hcfg => by rw [gotoAddress_calm hu, hcfg]

theorem sendIcsp_emits (g : State) (f : IcspCodes → Nibble) (p : Word) :
    (sendIcsp f p).Emits g (sendInsnEvents (f g.cfg.codes.icsp) p) :=
  .of_recordAll fun u hu hcfg => by rw [sendIcsp_calm hu, hcfg]

theorem sendStartp_emits (g : State) (f : IcspCodes → Nibble) (p : Word) :
    (sendStartp f p).Emits g (sendInsnEvents (f g.cfg.codes.icsp) p ++ progPulseEvents g.cfg) :=
  .of_recordAll fun u hu hcfg => by rw [sendStartp_calm hu, hcfg]

theorem cfgWriteSlot_emits (g : State) (i : Nat) (v : Word) :
    (cfgWriteSlot i v).Emits g (cfgWriteSlotEvents g.cfg i v) :=
  .of_recordAll fun u hu hcfg => by rw [cfgWriteSlot_calm hu, hcfg]

/-! ## Buffers and reports -/

theorem memReadImg_reaches (h : u.Leaves g) {w : Window} {i : Nat} {e : ImgEntry} (he : g.mem.img w i = some e) :
    Op.Reaches (memReadImg w i) u e g :=
  ⟨u, memReadImg_ok (by rw [h.mem, he]), h⟩

/-- What is emitted after an image entry is read depends on the entry. -/
theorem Op.Emits.readImg {w : Window} {i : Nat} {e : ImgEntry} {f : ImgEntry → Op Unit} {es : List LinkEvent}
    (he : g.mem.img w i = some e) (hf : (f e).Emits g es) : (memReadImg w i >>= f).Emits g es :=
  fun before _ h => (memReadImg_reaches h he).bind fun t ht => hf before t ht

theorem memWriteImg_reaches (h : u.Leaves g) (w : Window) (i : Nat) (e : ImgEntry) :
    Op.Reaches (memWriteImg w i e) u () { g with mem := g.mem.setImg w i e } := by
  obtain ⟨hcalm, rfl⟩ := h
  exact ⟨_, memWriteImg_calm hcalm w i e, State.calm.forth (s := { u with mem := u.mem.setImg w i e }) hcalm [], rfl⟩

theorem memWrite16_reaches (h : u.Leaves g) (w : Window) (i : Nat) (v : Word) :
    Op.Reaches (memWrite16 w i v) u () { g with mem := g.mem.setEntry16 w i v } := by
  obtain ⟨hcalm, rfl⟩ := h
  exact ⟨_, memWrite16_calm hcalm w i v, State.calm.forth (s := { u with mem := u.mem.setEntry16 w i v }) hcalm [], rfl⟩

theorem setCfgMm_reaches (h : u.Leaves g) (v : Byte) :
    Op.Reaches (assign fun s => s.setCfgMm v) u () (g.setCfgMm v) := by
  obtain ⟨hcalm, rfl⟩ := h
  exact ⟨_, assign_calm (f := fun s => s.setCfgMm v) hcalm hcalm.1, State.calm.forth (s := u.setCfgMm v) hcalm [], rfl⟩

theorem State.complete_reportProgress (s : State) (ph : Phase) (p : BitVec 7) :
    (s.reportProgress ph p).complete = s.complete.reportProgress ph p := by
  unfold State.reportProgress
  split <;> rename_i hchanges
  · exact (if_pos (show progressChanges s.complete.seq ph p = true from hchanges)).symm
  · exact (if_neg (show ¬progressChanges s.complete.seq ph p = true from hchanges)).symm

theorem emitProgress_reaches (h : u.Leaves g) (ph : Phase) (p : BitVec 7) :
    Op.Reaches (emitProgress ph p) u () (g.reportProgress ph p) := by
  refine ⟨_, emitProgress_calm h.calm ph p, State.calm.forth ⟨?quiet, ?performs⟩ [], ?_⟩
  case quiet => rw [State.quiet, State.reportProgress_bus]; exact h.calm.1
  case performs => rw [State.reportProgress_replaying, h.calm.2]
  rw [State.complete_forth, State.complete_reportProgress, h.complete]

end

/-- Events that are no samples, before a link run. -/
theorem State.ran_afterLink (s : State) {l : LinkSide} {es fs : List LinkEvent} (hes : samplesOf es = [])
    (h : (s.afterLink es).link.Ran l fs) : s.link.Ran l (es ++ fs) :=
  (LinkSide.ran_observeAll s.cfg s.link hes).trans h

/-! ## The reports of a walk (46_program_verify R211) -/

/-- The state whose walk of phase `ph` has `d` words done, and has reported each time it had more. -/
def State.walked (s : State) (ph : Phase) (d : Nat) : State :=
  { s with
    regs := { s.regs with progEvt := s.regs.progEvt || decide (0 < d) }
    seq := { s.seq with
      lastPct := if d = 0 then s.seq.lastPct else some (walkPct d s.ident.codeSize)
      phase := if d = 0 then s.seq.phase else ph } }

theorem State.walked_zero (s : State) (ph : Phase) : s.walked ph 0 = s := by
  simp [State.walked]

/-- The state whose walk of phase `ph` is done. -/
def State.walkedAll (s : State) (ph : Phase) : State :=
  { s with regs := { s.regs with progEvt := true }, seq := { s.seq with lastPct := some 100, phase := ph } }

/-- A walk that is done is at 100 percent. -/
theorem State.walked_done {s : State} {n : Nat} (hsize : s.ident.codeSize.toNat = 2 * n) (hn : 0 < n) (ph : Phase) :
    s.walked ph n = s.walkedAll ph := by
  rw [State.walked, (walkPct_eq_hundred_iff hsize hn (Nat.le_refl n)).2 rfl]
  simp [State.walkedAll, hn, hn.ne']

theorem State.Leaves.walkedAll {u s : State} {ph : Phase} {n : Nat} (h : u.Leaves (s.walked ph n))
    (hsize : s.ident.codeSize.toNat = 2 * n) (hn : 0 < n) : u.Leaves (s.walkedAll ph) := by
  rwa [← State.walked_done hsize hn]

/-- The next report of a walk: either the phase is new with it, or an earlier report has set PROG_EVT. -/
theorem State.reportProgress_walked {s : State} {ph : Phase} (hph : s.seq.phase ≠ ph) (d : Nat) {d' : Nat}
    (hd' : 0 < d') :
    (s.walked ph d).reportProgress ph (walkPct d' s.ident.codeSize) = s.walked ph d' := by
  have hregs : ((s.walked ph d).reportProgress ph (walkPct d' s.ident.codeSize)).regs = (s.walked ph d').regs := by
    rw [State.reportProgress_regs]
    obtain rfl | hd := Nat.eq_zero_or_pos d
    · have hchanges : progressChanges (s.walked ph 0).seq ph (walkPct d' s.ident.codeSize) = true :=
        (progressChanges_iff _ _ _).2 (.inl hph.symm)
      rw [if_pos hchanges]
      simp [State.walked, hd']
    · simp [State.walked, hd, hd']
  rw [State.reportProgress_frame, hregs, State.reportProgress_seq]
  simp [State.walked, hd'.ne']

/-- The report of `d'` words done in a walk that has reported `d`. -/
theorem walkProgress_reaches {u g : State} {ph : Phase} {d : Nat} (h : u.Leaves (g.walked ph d))
    (hph : g.seq.phase ≠ ph) {d' : Nat} (hd' : 0 < d') : Op.Reaches (walkProgress ph d') u () (g.walked ph d') := by
  rw [← State.reportProgress_walked hph d hd']
  exact (Op.Reaches.ask h fun _ => rfl).bind fun t ht => emitProgress_reaches ht ph _

/-! ## The code memory in turn (46_program_verify R212) -/

/-- A walk over the code memory sets the pointer to word 0 and takes each word in turn (46_program_verify R212). -/
def codeWalk (f : Nat → Op Unit) : Op Unit := do
  gotoAddress 0x000000
  let n ← ask fun s => s.ident.nWords
  forUp f n 0

/-- With the pointer set, a walk is its loop. -/
theorem codeWalk_run {u g : State} (h : u.Leaves g) (f : Nat → Op Unit) :
    ∃ t : State, t.Leaves (g.afterLink (gotoAddressEvents g.cfg.codes 0)) ∧
      codeWalk f u = forUp f g.ident.nWords 0 t := by
  obtain ⟨t, hrun, ht⟩ := (gotoAddress_emits g 0).reaches h
  refine ⟨t, ht, ?_⟩
  rw [codeWalk, Op.bind_ok hrun, Op.bind_ok (Op.ask_run _ t), ht.ident, State.afterLink_ident]

end Sys2Proof.Machine

/-! PROOF of the code read and blank check statements O36, O37 and O38: the bits of each word in those of the whole
walk, then the word that READ stores, and the words that BLANK_CHECK passes or stops at. -/

namespace Sys2Proof.Machine

/-! ## The bits of each word (20_memory R70) -/

section

variable {bits bs : List Bool} {k : Nat}

theorem slice8_append_left (h : k + 8 ≤ bits.length) : slice8 (bits ++ bs) k = slice8 bits k := by
  rw [slice8, slice8, List.drop_append_of_le_length (by omega), List.take_append_of_le_length]
  rw [List.length_drop]
  omega

theorem wordFrom_append_left (h : k + 16 ≤ bits.length) : wordFrom (bits ++ bs) k = wordFrom bits k := by
  rw [wordFrom, wordFrom, byteFrom, byteFrom, byteFrom, byteFrom, slice8_append_left (by omega),
    slice8_append_left (by omega)]

theorem readPairEvents_append_left (c d : Nibble) (h : k + 16 ≤ bits.length) :
    readPairEvents c d (bits ++ bs) k = readPairEvents c d bits k := by
  rw [readPairEvents, readPairEvents, slice8_append_left (by omega), slice8_append_left (by omega)]

/-- The sixteen bits from place `k` on hold the two slices there. -/
theorem slice8_window (bits : List Bool) (k : Nat) :
    slice8 ((bits.drop k).take 16) 0 = slice8 bits k ∧ slice8 ((bits.drop k).take 16) 8 = slice8 bits (k + 8) := by
  simp [slice8, List.drop_take, List.take_take, List.drop_drop]

theorem wordFrom_window (bits : List Bool) (k : Nat) : wordFrom ((bits.drop k).take 16) 0 = wordFrom bits k := by
  obtain ⟨hlow, hhigh⟩ := slice8_window bits k
  rw [wordFrom, byteFrom, byteFrom, hlow, hhigh]
  rfl

theorem readPairEvents_window (c d : Nibble) (bits : List Bool) (k : Nat) :
    readPairEvents c d ((bits.drop k).take 16) 0 = readPairEvents c d bits k := by
  obtain ⟨hlow, hhigh⟩ := slice8_window bits k
  rw [readPairEvents, hlow, hhigh]
  rfl

/-- Sixteen bits after others are the window at their place. -/
theorem window_append (h : bits.length = k) (hbs : bs.length = 16) : ((bits ++ bs).drop k).take 16 = bs := by
  rw [← h, List.drop_left, List.take_of_length_le hbs.le]

theorem wordFrom_append_right (h : bits.length = k) (hbs : bs.length = 16) :
    wordFrom (bits ++ bs) k = wordFrom bs 0 := by
  rw [← wordFrom_window, window_append h hbs]

theorem readPairEvents_append_right (c d : Nibble) (h : bits.length = k) (hbs : bs.length = 16) :
    readPairEvents c d (bits ++ bs) k = readPairEvents c d bs 0 := by
  rw [← readPairEvents_window, window_append h hbs]

theorem codeReadEvents_succ (c : Codes) (bits : List Bool) (n : Nat) :
    codeReadEvents c bits (n + 1) =
      codeReadEvents c bits n ++ readPairEvents c.icsp.tblrdPostinc c.icsp.tblrdPostinc bits (16 * n) := by
  rw [codeReadEvents, flatMap_range_succ, codeReadEvents]

/-- The bits of one more word change nothing about the words before it. -/
theorem codeReadEvents_snoc (c : Codes) {n : Nat} (h : bits.length = 16 * n) (hbs : bs.length = 16) :
    codeReadEvents c (bits ++ bs) (n + 1) =
      codeReadEvents c bits n ++ readPairEvents c.icsp.tblrdPostinc c.icsp.tblrdPostinc bs 0 := by
  rw [codeReadEvents_succ, readPairEvents_append_right _ _ h hbs, codeReadEvents, codeReadEvents]
  refine congrArg (· ++ _) (List.flatMap_congr fun a ha => ?_)
  have ha := List.mem_range.1 ha
  exact readPairEvents_append_left _ _ (by omega)

/-- Two read transactions sample the sixteen bits at their place. -/
theorem samplesOf_readPair (c d : Nibble) (bits : List Bool) (k : Nat) :
    samplesOf (readPairEvents c d bits k) = (bits.drop k).take 16 := by
  rw [readPairEvents, samplesOf_append, samplesOf_readTxn, samplesOf_readTxn, slice8, slice8, ← List.drop_drop,
    ← List.take_add]

theorem samplesOf_codeRead (c : Codes) (bits : List Bool) (n : Nat) :
    samplesOf (codeReadEvents c bits n) = bits.take (16 * n) := by
  induction n with
  | zero => rfl
  | succ n ih => rw [codeReadEvents_succ, samplesOf_append, ih, samplesOf_readPair, Nat.mul_succ, ← List.take_add]

end

/-! ## A code word read (46_program_verify R212) -/

section

variable {u g : State} {ph : Phase} {bits rest : List Bool} {n k a : Nat}

theorem readCodeWord_reaches (h : u.Leaves g) :
    ∃ (bs : List Bool) (l : LinkSide), bs.length = 16 ∧
      g.link.Ran l (readPairEvents g.cfg.codes.icsp.tblrdPostinc g.cfg.codes.icsp.tblrdPostinc bs 0) ∧
      Op.Reaches readCodeWord u (wordFrom bs 0) { g with link := l } := by
  obtain ⟨bs, l, hlen, hran, hrun⟩ := readCodeWord_calm h.calm
  rw [h.link, h.cfg] at hran
  exact ⟨bs, l, hlen, hran, _, hrun, h.ran l _⟩

/-- Where the answers to a word are pending, they are its bits. -/
theorem readCodeWord_answered (h : u.Leaves g) (hlen : bits.length = 16)
    (hpartner : g.link.partner = .oracle (bits ++ rest)) :
    ∃ l : LinkSide,
      g.link.Ran l (readPairEvents g.cfg.codes.icsp.tblrdPostinc g.cfg.codes.icsp.tblrdPostinc bits 0) ∧
      Op.Reaches readCodeWord u (wordFrom bits 0) { g with link := l } := by
  obtain ⟨bs, l, hbs, hran, hread⟩ := readCodeWord_reaches h
  have hsamples : samplesOf (readPairEvents g.cfg.codes.icsp.tblrdPostinc g.cfg.codes.icsp.tblrdPostinc bs 0) = bs := by
    rw [samplesOf_readPair, List.drop_zero, List.take_of_length_le hbs.le]
  have ⟨_, _, hanswers⟩ := hran
  obtain ⟨hbits, -⟩ := hanswers bits rest hpartner (by rw [hsamples, hlen, hbs])
  obtain rfl : bs = bits := hsamples.symm.trans hbits
  exact ⟨l, hran, hread⟩

/-! ## READ (46_program_verify R215) -/

theorem Identity.shape.nWords_eq {i : Identity} {n k : Nat} (h : i.shape n k) : i.nWords = n := by
  obtain ⟨hsize, -, -⟩ := h
  rw [Identity.nWords]
  omega

/-- A write of an image entry leaves the window's others alone. -/
theorem Memory.img_setImg_other (m : Memory) (w : Window) {i j : Nat} (hne : i ≠ j) (e : ImgEntry) :
    (m.setImg w j e).img w i = m.img w i := by
  have hapart : w.addr i + 2 < w.addr j ∨ w.addr j + 2 < w.addr i := by
    unfold Window.addr
    omega
  apply Memory.img_congr <;> rw [Memory.byte_setImg, if_neg (by omega), if_neg (by omega), if_neg (by omega)]

/-- From `g` READ has read `a` words, with the bits `bits`, and stored them: the link side is `l`, the buffers are
`m`. -/
structure State.WordsStored (g : State) (a : Nat) (bits : List Bool) (l : LinkSide) (m : Memory) : Prop where
  length : bits.length = 16 * a
  ran : g.link.Ran l (codeReadEvents g.cfg.codes bits a)
  stored : ∀ j < a, m.img .codeImg j = some { value := wordFrom bits (16 * j), present := true }
  frame : ∀ b, (∀ j < a, ¬(0x100000 + 4 * j ≤ b ∧ b < 0x100000 + 4 * j + 3)) → m.byte b = g.mem.byte b

theorem State.WordsStored.zero (g : State) : g.WordsStored 0 [] g.link g.mem :=
  ⟨rfl, .refl _, fun _ hj => absurd hj (Nat.not_lt_zero _), fun _ _ => rfl⟩

/-- The next word is read and stored. -/
theorem State.WordsStored.succ {bs : List Bool} {l l' : LinkSide} {m : Memory} (h : g.WordsStored a bits l m)
    (hbs : bs.length = 16)
    (hran : l.Ran l' (readPairEvents g.cfg.codes.icsp.tblrdPostinc g.cfg.codes.icsp.tblrdPostinc bs 0)) :
    g.WordsStored (a + 1) (bits ++ bs) l' (m.setImg .codeImg a { value := wordFrom bs 0, present := true }) := by
  have hlen := h.length
  refine ⟨by rw [List.length_append, hlen, hbs, Nat.mul_succ], ?ran, fun j hj => ?stored, fun b hb => ?frame⟩
  case ran =>
    rw [codeReadEvents_snoc _ hlen hbs]
    exact h.ran.trans hran
  case stored =>
    obtain hlt | rfl := Nat.lt_succ_iff_lt_or_eq.1 hj
    · rw [Memory.img_setImg_other _ _ hlt.ne, h.stored j hlt, wordFrom_append_left (by omega)]
    · rw [Memory.img_setImg, wordFrom_append_right hlen hbs]
  case frame =>
    have hword := hb a (Nat.lt_succ_self a)
    rw [Memory.byte_setImg, if_neg, if_neg, if_neg, h.frame b fun j hj => hb j (Nat.lt_succ_of_lt hj)] <;>
      simp only [Window.addr, Window.base] <;> omega

/-- One turn of READ. -/
theorem readImageWord_turn (hph : g.seq.phase ≠ .read) {l : LinkSide} {m : Memory} (hstored : g.WordsStored a bits l m)
    (h : u.Leaves (({ g with link := l, mem := m } : State).walked .read a)) :
    ∃ (bs : List Bool) (l' : LinkSide) (m' : Memory), g.WordsStored (a + 1) bs l' m' ∧
      Op.Reaches (readImageWord a) u () (({ g with link := l', mem := m' } : State).walked .read (a + 1)) := by
  obtain ⟨bs, l', hbs, hran, hread⟩ := readCodeWord_reaches h
  let m' := m.setImg .codeImg a { value := wordFrom bs 0, present := true }
  refine ⟨bits ++ bs, l', m', hstored.succ hbs hran, hread.bind fun t ht => ?_⟩
  exact (memWriteImg_reaches ht .codeImg a _).bind fun v hv =>
    walkProgress_reaches (g := { g with link := l', mem := m' }) hv hph (Nat.succ_pos a)

/-- READ's loop over `n` words. -/
theorem readWords_reaches (h : u.Leaves g) (hph : g.seq.phase ≠ .read) (n : Nat) :
    ∃ (bits : List Bool) (l : LinkSide) (m : Memory), g.WordsStored n bits l m ∧
      Op.Reaches (forUp readImageWord n 0) u () (({ g with link := l, mem := m } : State).walked .read n) := by
  obtain ⟨t, hrun, bits, l, m, hstored, ht⟩ := forUp_ok (f := readImageWord)
    (P := fun a u => ∃ (bits : List Bool) (l : LinkSide) (m : Memory),
      g.WordsStored a bits l m ∧ u.Leaves (({ g with link := l, mem := m } : State).walked .read a))
    n 0 (fun a u _ _ ⟨_, _, _, hstored, hu⟩ => by
      obtain ⟨bits, l, m, hstored', t, hturn, ht⟩ := readImageWord_turn hph hstored hu
      exact ⟨t, hturn, bits, l, m, hstored', ht⟩)
    ⟨[], g.link, g.mem, .zero g, by rw [State.walked_zero]; exact h⟩
  rw [Nat.zero_add] at hstored ht
  exact ⟨bits, l, m, hstored, t, hrun, ht⟩

/-- READ's pseudocode. -/
theorem readBody_reaches (h : u.Leaves g) (hph : g.seq.phase ≠ .read) (hshape : g.ident.shape n k) :
    ∃ (bits : List Bool) (l : LinkSide) (m : Memory), bits.length = 16 * n ∧
      g.link.Ran l (gotoAddressEvents g.cfg.codes 0 ++ codeReadEvents g.cfg.codes bits n) ∧
      Op.Reaches readBody u () (({ g with link := l, mem := m } : State).walkedAll .read) ∧
      (∀ a < n, m.img .codeImg a = some { value := wordFrom bits (16 * a), present := true }) ∧
      ∀ b, (∀ a < n, ¬(0x100000 + 4 * a ≤ b ∧ b < 0x100000 + 4 * a + 3)) → m.byte b = g.mem.byte b := by
  have ⟨hsize, _, hn⟩ := hshape
  obtain ⟨t, ht, hwalk⟩ := codeWalk_run h readImageWord
  rw [hshape.nWords_eq] at hwalk
  have hes := samplesOf_gotoAddress g.cfg.codes 0
  generalize gotoAddressEvents g.cfg.codes 0 = es at ht hes ⊢
  obtain ⟨bits, l, m, ⟨hlen, hran, hstored, hframe⟩, v, hrun, hv⟩ := readWords_reaches ht hph n
  exact ⟨bits, l, m, hlen, g.ran_afterLink hes hran, ⟨v, hwalk.trans hrun, hv.walkedAll hsize hn⟩, hstored, hframe⟩

/-- Settles O36: READ's pseudocode from the accepted state. -/
theorem readResult : Obligations.ReadResult := by
  rintro s n k ⟨⟨hidle, hsession, hquiet⟩, hid⟩ hshape
  obtain ⟨bits, l, m, hlen, hran, hbody, hstored, hframe⟩ :=
    readBody_reaches (State.Leaves.accept hquiet 0x30) nofun hshape
  refine ⟨bits, l, m, hlen, hran, ?next, hstored, hframe⟩
  case next =>
    rw [show exec .read s = issue 0x30 .engine readBody s from rfl,
      issue_quiet hidle hquiet _ (issueCheck_engine hsession hid), hbody.finish]
    rfl

/-! ## A walk against pending answers -/

/-- A walk that began in `g`, against an oracle that answers `bits`, stands before word `a`. -/
def State.Walking (g : State) (ph : Phase) (bits : List Bool) (a : Nat) (u : State) : Prop :=
  ∃ l : LinkSide, g.link.Ran l (codeReadEvents g.cfg.codes bits a) ∧
    u.Leaves (({ g with link := l } : State).walked ph a)

/-- Word `a` is the one that the answers from its place on name. -/
theorem State.Walking.readCodeWord (h : g.Walking ph bits a u) (hpartner : g.link.partner = .oracle (bits ++ rest))
    (hlen : 16 * (a + 1) ≤ bits.length) :
    ∃ l : LinkSide, g.link.Ran l (codeReadEvents g.cfg.codes bits (a + 1)) ∧
      Op.Reaches readCodeWord u (wordFrom bits (16 * a)) (({ g with link := l } : State).walked ph a) := by
  obtain ⟨l, hran, hu⟩ := h
  have ⟨_, _, hanswers⟩ := hran
  have hlen' : (bits.take (16 * a)).length = (samplesOf (codeReadEvents g.cfg.codes bits a)).length := by
    rw [samplesOf_codeRead]
  obtain ⟨-, hl⟩ := hanswers (bits.take (16 * a)) (bits.drop (16 * a) ++ rest)
    (by rw [← List.append_assoc, List.take_append_drop, hpartner]) hlen'
  have hword : ((bits.drop (16 * a)).take 16).length = 16 := by
    rw [List.length_take, List.length_drop]
    omega
  obtain ⟨l', hran', hread⟩ := readCodeWord_answered (rest := (bits.drop (16 * a)).drop 16 ++ rest) hu hword
    (by rw [← List.append_assoc, List.take_append_drop]; exact hl)
  rw [wordFrom_window] at hread
  refine ⟨l', ?_, hread⟩
  rw [codeReadEvents_succ, ← readPairEvents_window]
  exact hran.trans hran'

/-- A word that is done is reported, and the walk stands before the next. -/
theorem State.Walking.report {l : LinkSide} (hran : g.link.Ran l (codeReadEvents g.cfg.codes bits (a + 1)))
    (hph : g.seq.phase ≠ ph) (h : u.Leaves (({ g with link := l } : State).walked ph a)) :
    ∃ t, walkProgress ph (a + 1) u = .ok () t ∧ g.Walking ph bits (a + 1) t := by
  obtain ⟨t, hrun, ht⟩ := walkProgress_reaches h hph (Nat.succ_pos a)
  exact ⟨t, hrun, l, hran, ht⟩

/-- The turn of word `a` goes on to the next word. -/
def Op.PassesWord (x : Op Unit) (g : State) (ph : Phase) (bits : List Bool) (a : Nat) : Prop :=
  ∀ u : State, g.Walking ph bits a u → ∃ t, x u = .ok () t ∧ g.Walking ph bits (a + 1) t

/-- The turn of word `a` reads the word and then faults, with what `faulted` writes of the fault. -/
def Op.FaultsAtWord (x : Op Unit) (g : State) (ph : Phase) (bits : List Bool) (a : Nat) (faulted : State → State) :
    Prop :=
  ∀ u : State, g.Walking ph bits a u → ∃ l : LinkSide, g.link.Ran l (codeReadEvents g.cfg.codes bits (a + 1)) ∧
    x u = .error .ended (faulted (({ g with link := l } : State).walked ph a))

theorem forUp_passesWords {f : Nat → Op Unit} (hf : ∀ j < a, (f j).PassesWord g ph bits j) (h : u.Leaves g) :
    ∃ t, forUp f a 0 u = .ok () t ∧ g.Walking ph bits a t := by
  have hstart : g.Walking ph bits 0 u := ⟨g.link, .refl _, by rw [State.walked_zero]; exact h⟩
  have hloop := forUp_ok (P := fun j u => g.Walking ph bits j u) a 0
    (fun j u _ hj hu => hf j (by omega) u hu) hstart
  rwa [Nat.zero_add] at hloop

/-- A walk whose every word passes. -/
theorem codeWalk_passes {f : Nat → Op Unit} (h : u.Leaves g) (hshape : g.ident.shape n k)
    (hf : ∀ es : List LinkEvent, ∀ j < n, (f j).PassesWord (g.afterLink es) ph bits j) :
    ∃ l : LinkSide, g.link.Ran l (gotoAddressEvents g.cfg.codes 0 ++ codeReadEvents g.cfg.codes bits n) ∧
      Op.Reaches (codeWalk f) u () (({ g with link := l } : State).walkedAll ph) := by
  have ⟨hsize, _, hn⟩ := hshape
  obtain ⟨t, ht, hwalk⟩ := codeWalk_run h f
  have hes := samplesOf_gotoAddress g.cfg.codes 0
  generalize gotoAddressEvents g.cfg.codes 0 = es at ht hes ⊢
  obtain ⟨v, hrun, l, hran, hv⟩ := forUp_passesWords (hf es) ht
  exact ⟨l, g.ran_afterLink hes hran, v, by rw [hwalk, hshape.nWords_eq, hrun], hv.walkedAll hsize hn⟩

/-- A walk that faults at word `a`, the words before it passing, reads nothing after it. -/
theorem codeWalk_faults {f : Nat → Op Unit} {faulted : State → State} (h : u.Leaves g) (hshape : g.ident.shape n k)
    (ha : a < n) (hf : ∀ es : List LinkEvent, ∀ j < a, (f j).PassesWord (g.afterLink es) ph bits j)
    (hstop : ∀ es : List LinkEvent, (f a).FaultsAtWord (g.afterLink es) ph bits a faulted) :
    ∃ l : LinkSide, g.link.Ran l (gotoAddressEvents g.cfg.codes 0 ++ codeReadEvents g.cfg.codes bits (a + 1)) ∧
      codeWalk f u = .error .ended (faulted (({ g with link := l } : State).walked ph a)) := by
  obtain ⟨t, ht, hwalk⟩ := codeWalk_run h f
  have hes := samplesOf_gotoAddress g.cfg.codes 0
  generalize gotoAddressEvents g.cfg.codes 0 = es at ht hes ⊢
  obtain ⟨v, hrun, hv⟩ := forUp_passesWords (hf es) ht
  obtain ⟨l, hran, hfault⟩ := hstop es v hv
  obtain ⟨m, hm⟩ := Nat.exists_eq_add_of_lt ha
  refine ⟨l, g.ran_afterLink hes hran, ?_⟩
  rw [hwalk, hshape.nWords_eq, hm, Nat.add_assoc, forUp_add f a (m + 1) 0 hrun, Nat.zero_add, forUp,
    Op.bind_error hfault]
  rfl

/-! ## BLANK_CHECK (46_program_verify R216) -/

theorem blankWord_passes (hpartner : g.link.partner = .oracle (bits ++ rest)) (hph : g.seq.phase ≠ .blank)
    (hlen : 16 * (a + 1) ≤ bits.length) (hword : wordFrom bits (16 * a) = 0xFFFF) :
    (blankWord a).PassesWord g .blank bits a := by
  intro u hu
  obtain ⟨l, hran, t, hread, ht⟩ := hu.readCodeWord hpartner hlen
  rw [blankWord, Op.bind_ok hread, if_neg (not_not.2 hword)]
  exact State.Walking.report hran hph ht

theorem blankWord_faults (hpartner : g.link.partner = .oracle (bits ++ rest)) (hlen : 16 * (a + 1) ≤ bits.length)
    (hword : wordFrom bits (16 * a) ≠ 0xFFFF) :
    (blankWord a).FaultsAtWord g .blank bits a
      fun s => s.withCause .nonblank (wordAddr a) 0xFFFF (wordFrom bits (16 * a)) := by
  intro u hu
  obtain ⟨l, hran, t, hread, ht⟩ := hu.readCodeWord hpartner hlen
  refine ⟨l, hran, ?_⟩
  rw [blankWord, Op.bind_ok hread, if_pos hword]
  exact raise_leaves ht _ _ _ _

/-- A word all of whose answers are ones. -/
theorem wordFrom_ones {n k : Nat} (h : k + 16 ≤ n) : wordFrom (List.replicate n true) k = 0xFFFF := by
  have hslice : ∀ j, j + 8 ≤ n → slice8 (List.replicate n true) j = List.replicate 8 true := fun j hj => by
    rw [slice8, List.drop_replicate, List.take_replicate, Nat.min_eq_left (by omega)]
  rw [wordFrom, byteFrom, byteFrom, hslice k (by omega), hslice (k + 8) (by omega)]
  rfl

end

/-- Events take no answer from an oracle. -/
theorem State.afterLink_oracle {g : State} {answers : List Bool} (h : g.link.partner = .oracle answers)
    (es : List LinkEvent) : (g.afterLink es).link.partner = .oracle answers :=
  LinkSide.observeAll_oracle g.cfg es h

/-- BLANK_CHECK in a session with an identity is its body. -/
theorem exec_blankCheck {s : State} (hs : s.engineReady) :
    exec .blankCheck s = finish (blankCheckBody (s.accept 0x20)) := by
  obtain ⟨⟨hidle, hsession, hquiet⟩, hid⟩ := hs
  exact issue_quiet hidle hquiet blankCheckBody (issueCheck_engine hsession hid)

/-- Settles O37: every word passes. -/
theorem blankCheckBlank : Obligations.BlankCheckBlank := by
  intro s n k rest hs hshape hpartner
  have ⟨⟨_, _, hquiet⟩, _⟩ := hs
  obtain ⟨l, hran, hbody⟩ := codeWalk_passes (ph := .blank) (f := blankWord) (State.Leaves.accept hquiet 0x20) hshape
    fun es a ha => blankWord_passes (State.afterLink_oracle hpartner es) nofun (by rw [List.length_replicate]; omega)
      (wordFrom_ones (by omega))
  refine ⟨l, hran, ?_⟩
  rw [exec_blankCheck hs, show blankCheckBody = codeWalk blankWord from rfl, hbody.finish]
  rfl

/-- Settles O38: the words of ones pass, and the next one faults. -/
theorem blankCheckNonblank : Obligations.BlankCheckNonblank := by
  intro s n k a bits rest hs hshape ha hbits hword hpartner
  have ⟨⟨_, _, hquiet⟩, _⟩ := hs
  have hones : (List.replicate (16 * a) true).length = 16 * a := List.length_replicate
  have hlen : (List.replicate (16 * a) true ++ bits).length = 16 * (a + 1) := by
    rw [List.length_append, hones, hbits, Nat.mul_succ]
  have hlast : wordFrom (List.replicate (16 * a) true ++ bits) (16 * a) = wordFrom bits 0 :=
    wordFrom_append_right hones hbits
  obtain ⟨l, hran, hbody⟩ := codeWalk_faults (ph := .blank) (State.Leaves.accept hquiet 0x20) hshape ha
    (fun es j hj => blankWord_passes (State.afterLink_oracle hpartner es) nofun (by omega)
      (by rw [wordFrom_append_left (by omega), wordFrom_ones (by omega)]))
    (fun es => blankWord_faults (State.afterLink_oracle hpartner es) hlen.ge (by rwa [hlast]))
  refine ⟨l, hran, ?_⟩
  rw [exec_blankCheck hs, show blankCheckBody = codeWalk blankWord from rfl, hbody, hlast]
  rfl

end Sys2Proof.Machine

/-! PROOF of the statements about WRITE O39 and O41: the chunks that are programmed and reported, the configuration
slots that are written, and the code words that verify passes or stops at. -/

namespace Sys2Proof.Machine

/-! ## The chunks (46_program_verify R213) -/

section

variable {u g : State} {n k : Nat}

/-- Word `i` of the chunk that starts at word `base`. -/
def programWordEvents (cfg : Config) (m : Memory) (width base i : Nat) : List LinkEvent :=
  if i < width - 1 then sendInsnEvents cfg.codes.icsp.tblwtPostinc2 (imagePayload m (base + i))
  else sendInsnEvents cfg.codes.icsp.tblwtPostinc2Startp (imagePayload m (base + i)) ++ progPulseEvents cfg

theorem programChunkEvents_eq (cfg : Config) (m : Memory) (width j : Nat) :
    programChunkEvents cfg m width j = (List.range width).flatMap (programWordEvents cfg m width (j * width)) := rfl

theorem programWord_emits {width base i : Nat} (hw : (g.mem.img .codeImg (base + i)).isSome) :
    (programWord width base i).Emits g (programWordEvents g.cfg g.mem width base i) := by
  obtain ⟨e, he⟩ := Option.isSome_iff_exists.1 hw
  have hpayload : imagePayload g.mem (base + i) = e.payload := by rw [imagePayload, he]
  refine .readImg he ?_
  rw [programWordEvents, hpayload]
  split
  · exact sendIcsp_emits g _ _
  · exact sendStartp_emits g _ _

/-- One chunk: its words, and the report after them. -/
theorem programChunk_reaches {width j d : Nat} (hph : g.seq.phase ≠ .program) (hpos : 0 < width)
    (hw : ∀ i < width, (g.mem.img .codeImg (j * width + i)).isSome) (h : u.Leaves (g.walked .program d)) :
    Op.Reaches (programChunk width j) u ()
      ((g.afterLink (programChunkEvents g.cfg g.mem width j)).walked .program ((j + 1) * width)) := by
  rw [programChunkEvents_eq]
  have hwords := Op.Emits.forUp (g := g.walked .program d) width fun i hi =>
    programWord_emits (width := width) (hw i hi)
  refine (hwords.reaches h).bind fun t ht => ?_
  exact walkProgress_reaches (g := g.afterLink _) ht hph (Nat.mul_pos (Nat.succ_pos j) hpos)

/-- `chunks` chunks, where every word of them has been written. -/
theorem programChunks_reaches {width : Nat} (chunks : Nat) (hph : g.seq.phase ≠ .program) (hpos : 0 < width)
    (hw : ∀ a < chunks * width, (g.mem.img .codeImg a).isSome) (h : u.Leaves g) :
    Op.Reaches (forUp (programChunk width) chunks 0) u ()
      ((g.afterLink ((List.range chunks).flatMap (programChunkEvents g.cfg g.mem width))).walked .program
        (chunks * width)) := by
  have hloop := forUp_ok
    (P := fun j u => u.Leaves ((g.afterLink ((List.range j).flatMap (programChunkEvents g.cfg g.mem width))).walked
      .program (j * width))) chunks 0
    (fun j u _ hj hu => by
      have hle : (j + 1) * width ≤ chunks * width := Nat.mul_le_mul_right _ (by omega)
      rw [Nat.succ_mul] at hle
      let emitted := (List.range j).flatMap (programChunkEvents g.cfg g.mem width)
      have hchunk := programChunk_reaches (g := g.afterLink emitted) (j := j) hph hpos
        (fun i hi => hw (j * width + i) (by omega)) hu
      rw [flatMap_range_succ, ← State.afterLink_afterLink]
      exact hchunk)
    (by rw [Nat.zero_mul, State.walked_zero]; exact h)
  rwa [Nat.zero_add] at hloop

/-- The access mode and the pointer, before the first chunk. -/
def programSetup : Op Unit := do
  sendCore CoreWords.bsfEepgd
  sendCore CoreWords.bcfCfgs
  sendCore CoreWords.bsfWren
  gotoAddress 0x000000

def programSetupEvents (c : Codes) : List LinkEvent :=
  coreEvents c [c.core.bsfEepgd, c.core.bcfCfgs, c.core.bsfWren] ++ gotoAddressEvents c 0

theorem programSetup_emits (g : State) : programSetup.Emits g (programSetupEvents g.cfg.codes) := by
  have h := (sendCore_emits g CoreWords.bsfEepgd).bind ((sendCore_emits g CoreWords.bcfCfgs).bind
    ((sendCore_emits g CoreWords.bsfWren).bind (gotoAddress_emits g 0)))
  rwa [← List.append_assoc, ← List.append_assoc, List.append_assoc (coreEvents _ _), ← coreEvents_append,
    ← coreEvents_append] at h

theorem programCode_eq : programCode = (do
    programSetup
    let geom ← ask State.ident
    forUp (programChunk geom.wbufWords.toNat) geom.nChunks 0) := by
  simp only [programCode, programSetup, bind_assoc]

theorem programCodeEvents_eq (cfg : Config) (m : Memory) (width chunks : Nat) :
    programCodeEvents cfg m width chunks =
      programSetupEvents cfg.codes ++ (List.range chunks).flatMap (programChunkEvents cfg m width) := rfl

/-- The geometry of a shape: the buffers are full, and together they are the code memory. -/
theorem Identity.shape.chunks {i : Identity} (h : i.shape n k) :
    i.nChunks = k ∧ 0 < i.wbufWords.toNat ∧ k * i.wbufWords.toNat = n := by
  obtain ⟨hsize, hn, hpos⟩ := h
  have hwidth : 0 < i.wbufWords.toNat := Nat.pos_of_mul_pos_left (hn ▸ hpos)
  refine ⟨?_, hwidth, hn.symm⟩
  rw [Identity.nChunks, Identity.shape.nWords_eq ⟨hsize, hn, hpos⟩, hn, Nat.mul_div_cancel _ hwidth]

/-- `ProgramCode()` over a written image. -/
theorem programCode_reaches (hph : g.seq.phase ≠ .program) (hshape : g.ident.shape n k)
    (hw : ∀ a < n, (g.mem.img .codeImg a).isSome) (h : u.Leaves g) :
    Op.Reaches programCode u ()
      ((g.afterLink (programCodeEvents g.cfg g.mem g.ident.wbufWords.toNat k)).walkedAll .program) := by
  obtain ⟨hchunks, hwidth, hk⟩ := hshape.chunks
  have ⟨hsize, _, hn⟩ := hshape
  rw [programCode_eq, programCodeEvents_eq]
  refine ((programSetup_emits g).reaches h).bind fun t ht => ?_
  generalize programSetupEvents g.cfg.codes = es at ht ⊢
  obtain ⟨v, hrun, hv⟩ := programChunks_reaches (g := g.afterLink es) k hph hwidth (by rw [hk]; exact hw) ht
  rw [State.afterLink_afterLink] at hv
  rw [hk] at hv
  refine ⟨v, ?_, hv.walkedAll hsize hn⟩
  rw [Op.bind_ok (Op.ask_run _ t), ht.ident, State.afterLink_ident, hchunks]
  exact hrun

end

/-! ### What is emitted takes no sample -/

theorem samplesOf_flatMap {α : Type} {l : List α} {f : α → List LinkEvent} (h : ∀ x ∈ l, samplesOf (f x) = []) :
    samplesOf (l.flatMap f) = [] := by
  induction l with
  | nil => rfl
  | cons x l ih =>
    rw [List.flatMap_cons, samplesOf_append, h x List.mem_cons_self, ih fun y hy => h y (List.mem_cons_of_mem _ hy)]
    rfl

theorem samplesOf_programCode (cfg : Config) (m : Memory) (width chunks : Nat) :
    samplesOf (programCodeEvents cfg m width chunks) = [] := by
  have hword : ∀ base i, samplesOf (programWordEvents cfg m width base i) = [] := fun base i => by
    rw [programWordEvents]
    split
    · exact samplesOf_sendInsn _ _
    · rw [samplesOf_append, samplesOf_sendInsn, samplesOf_progPulse]
      rfl
  rw [programCodeEvents_eq, programSetupEvents, samplesOf_append, samplesOf_append, samplesOf_core,
    samplesOf_gotoAddress]
  exact samplesOf_flatMap fun j _ => samplesOf_flatMap fun i _ => hword _ i

theorem samplesOf_cfgWritePass (cfg : Config) (m : Memory) : samplesOf (cfgWritePassEvents cfg m) = [] := by
  have hslot : ∀ i v, samplesOf (cfgWriteSlotEvents cfg i v) = [] := fun i v => by
    simp [cfgWriteSlotEvents, samplesOf_append, samplesOf_gotoAddress, samplesOf_sendInsn, samplesOf_progPulse,
      samplesOf_gotoShort]
  rw [cfgWritePassEvents]
  split
  · rw [samplesOf_append, samplesOf_core]
    refine samplesOf_flatMap fun i _ => ?_
    rw [cfgSlotEvents]
    split
    · split
      · exact hslot i _
      · rfl
    · rfl
  · rfl

/-! ## The configuration write (48_config R257) -/

section

variable {u g : State} {n k : Nat}

theorem cfgWriteOne_emits {i : Nat} (hw : (g.mem.img .cfgImg i).isSome) :
    (cfgWriteOne i).Emits g (cfgSlotEvents g.cfg g.mem i) := by
  obtain ⟨e, he⟩ := Option.isSome_iff_exists.1 hw
  refine .readImg he ?_
  rw [cfgSlotEvents, he]
  dsimp only
  split
  · exact cfgWriteSlot_emits g i e.value
  · exact .pure g

theorem cfgWritePass_emits (hw : ∀ i < 8, (g.mem.img .cfgImg i).isSome) :
    cfgWritePass.Emits g (cfgWritePassEvents g.cfg g.mem) := by
  intro before u h
  have hask : Op.Reaches (ask fun s => anySlotPresent s.mem) u (anySlotPresent g.mem) (g.afterLink before) :=
    .ask h fun _ => rfl
  refine hask.bind fun t ht => ?_
  rw [cfgWritePassEvents]
  cases anySlotPresent g.mem with
  | true =>
    have hemits := (sendCore_emits g CoreWords.bsfEepgd).bind ((sendCore_emits g CoreWords.bsfCfgs).bind
      (.forUp 8 fun i hi => cfgWriteOne_emits (hw i hi)))
    rw [← List.append_assoc, ← coreEvents_append] at hemits
    exact hemits before t ht
  | false => exact Op.Emits.pure g before t ht

/-! ## Code verify (46_program_verify R214) -/

theorem verifyExpects_eq {cfg : Config} {m : Memory} {a : Nat} {e : ImgEntry} (he : m.img .codeImg a = some e) :
    verifyExpects cfg m a = expectedWord cfg e := by
  rw [verifyExpects, he, expectedWord]
  cases cfg.verifyAbsent <;> simp

variable {bits rest : List Bool} {a : Nat}

/-- The comparison that ends the turn of word `a`, where the target holds `d`. -/
def compareWord (a : Nat) (d : Word) : Option Word → Op Unit
  | some v => if d ≠ v then raise .verify (wordAddr a) v d else walkProgress .verify (a + 1)
  | none => walkProgress .verify (a + 1)

/-- Word `a` read and its entry looked up, what is left of the turn is the comparison. -/
theorem verifyWord_run (hpartner : g.link.partner = .oracle (bits ++ rest)) (hlen : 16 * (a + 1) ≤ bits.length)
    (hw : (g.mem.img .codeImg a).isSome) (hu : g.Walking .verify bits a u) :
    ∃ (l : LinkSide) (t : State), g.link.Ran l (codeReadEvents g.cfg.codes bits (a + 1)) ∧
      t.Leaves (({ g with link := l } : State).walked .verify a) ∧
      verifyWord a u = compareWord a (wordFrom bits (16 * a)) (verifyExpects g.cfg g.mem a) t := by
  obtain ⟨e, he⟩ := Option.isSome_iff_exists.1 hw
  obtain ⟨l, hran, t, hread, ht⟩ := hu.readCodeWord hpartner hlen
  refine ⟨l, t, hran, ht, ?_⟩
  rw [verifyWord, Op.bind_ok hread, Op.bind_ok (memReadImg_ok (by rw [ht.mem]; exact he)),
    Op.bind_ok (Op.ask_run State.cfg t), show t.cfg = g.cfg from ht.cfg, verifyExpects_eq he]
  cases expectedWord g.cfg e <;> rfl

theorem verifyWord_passes (hpartner : g.link.partner = .oracle (bits ++ rest)) (hph : g.seq.phase ≠ .verify)
    (hlen : 16 * (a + 1) ≤ bits.length) (hw : (g.mem.img .codeImg a).isSome)
    (hagrees : verifyAgrees g.cfg g.mem a (wordFrom bits (16 * a))) :
    (verifyWord a).PassesWord g .verify bits a := by
  intro u hu
  obtain ⟨l, t, hran, ht, hrun⟩ := verifyWord_run hpartner hlen hw hu
  rw [hrun]
  rw [verifyAgrees] at hagrees
  cases hexpects : verifyExpects g.cfg g.mem a with
  | none => exact State.Walking.report hran hph ht
  | some v =>
    rw [hexpects, Option.all_some, beq_iff_eq] at hagrees
    rw [compareWord, if_neg (not_not.2 hagrees.symm)]
    exact State.Walking.report hran hph ht

theorem verifyWord_faults (hpartner : g.link.partner = .oracle (bits ++ rest)) (hlen : 16 * (a + 1) ≤ bits.length)
    (hw : (g.mem.img .codeImg a).isSome) {v : Word} (hexpects : verifyExpects g.cfg g.mem a = some v)
    (hword : wordFrom bits (16 * a) ≠ v) :
    (verifyWord a).FaultsAtWord g .verify bits a
      fun s => s.withCause .verify (wordAddr a) v (wordFrom bits (16 * a)) := by
  intro u hu
  obtain ⟨l, t, hran, ht, hrun⟩ := verifyWord_run hpartner hlen hw hu
  refine ⟨l, hran, ?_⟩
  rw [hrun, hexpects, compareWord, if_pos hword]
  exact raise_leaves ht _ _ _ _

/-! ## WRITE up to its code verify (46_program_verify R217) -/

/-- What WRITE does after it has programmed the code depends on VERIFY_EN. -/
theorem writeBody_run {t : State} (h : programCode u = .ok () t) :
    writeBody u =
      (if verifyEn t.seq.ctrl then (do verifyCode; cfgWritePass; cfgVerifyPass) else cfgWritePass) t := by
  rw [writeBody, Op.bind_ok h, Op.bind_ok (Op.ask_run _ t)]
  cases verifyEn t.seq.ctrl with
  | true => rfl
  | false => simp only [Bool.false_eq_true, if_false, bind_pure_unit]

/-- The code programmed, with VERIFY_EN as the operation latched it. -/
theorem writeBody_programmed (h : u.Leaves g) (hph : g.seq.phase ≠ .program) (hshape : g.ident.shape n k)
    (hw : ∀ a < n, (g.mem.img .codeImg a).isSome) :
    ∃ t : State,
      t.Leaves ((g.afterLink (programCodeEvents g.cfg g.mem g.ident.wbufWords.toNat k)).walkedAll .program) ∧
      writeBody u =
        (if verifyEn g.seq.ctrl then (do verifyCode; cfgWritePass; cfgVerifyPass) else cfgWritePass) t := by
  obtain ⟨t, hrun, ht⟩ := programCode_reaches hph hshape hw h
  refine ⟨t, ht, ?_⟩
  generalize programCodeEvents g.cfg g.mem g.ident.wbufWords.toNat k = es at ht
  have hctrl : t.seq.ctrl = g.seq.ctrl := ht.ctrl
  rw [writeBody_run hrun, hctrl]

/-- Without verify WRITE goes on to the configuration (O39). -/
theorem writeBody_unverified (h : u.Leaves g) (hph : g.seq.phase ≠ .program) (hshape : g.ident.shape n k)
    (hw : ∀ a < n, (g.mem.img .codeImg a).isSome) (hcfg : ∀ i < 8, (g.mem.img .cfgImg i).isSome)
    (hverify : verifyEn g.seq.ctrl = false) :
    Op.Reaches writeBody u () ((g.afterLink (programCodeEvents g.cfg g.mem g.ident.wbufWords.toNat k ++
      cfgWritePassEvents g.cfg g.mem)).walkedAll .program) := by
  obtain ⟨t, ht, hbody⟩ := writeBody_programmed h hph hshape hw
  rw [hverify, if_neg Bool.false_ne_true] at hbody
  generalize programCodeEvents g.cfg g.mem g.ident.wbufWords.toNat k = es at ht ⊢
  obtain ⟨v, hrun, hv⟩ := (cfgWritePass_emits (g := (g.afterLink es).walkedAll .program) hcfg).reaches ht
  refine ⟨v, hbody.trans hrun, ?_⟩
  rw [← State.afterLink_afterLink]
  exact hv

/-- With verify, a code word that differs ends WRITE there (O41). -/
theorem writeBody_mismatch (h : u.Leaves g) (hph : g.seq.phase ≠ .program) (hshape : g.ident.shape n k)
    (hw : ∀ a < n, (g.mem.img .codeImg a).isSome) (hverify : verifyEn g.seq.ctrl = true)
    (ha : a < n) (hlen : bits.length = 16 * (a + 1)) (hpartner : g.link.partner = .oracle (bits ++ rest))
    (hagree : ∀ b < a, verifyAgrees g.cfg g.mem b (wordFrom bits (16 * b))) {v : Word}
    (hexpects : verifyExpects g.cfg g.mem a = some v) (hword : wordFrom bits (16 * a) ≠ v) :
    ∃ l : LinkSide,
      g.link.Ran l (programCodeEvents g.cfg g.mem g.ident.wbufWords.toNat k ++ gotoAddressEvents g.cfg.codes 0 ++
        codeReadEvents g.cfg.codes bits (a + 1)) ∧
      writeBody u = .error .ended (((({ g with link := l } : State).walkedAll .program).walked .verify a).withCause
        .verify (wordAddr a) v (wordFrom bits (16 * a))) := by
  obtain ⟨t, ht, hbody⟩ := writeBody_programmed h hph hshape hw
  have hes := samplesOf_programCode g.cfg g.mem g.ident.wbufWords.toNat k
  generalize programCodeEvents g.cfg g.mem g.ident.wbufWords.toNat k = es at ht hes ⊢
  have hanswers : ∀ fs : List LinkEvent,
      (((g.afterLink es).walkedAll .program).afterLink fs).link.partner = .oracle (bits ++ rest) :=
    fun fs => State.afterLink_oracle (g := (g.afterLink es).walkedAll .program)
      (State.afterLink_oracle hpartner es) fs
  obtain ⟨l, hran, hfault⟩ := codeWalk_faults (f := verifyWord) (ph := .verify) ht hshape ha
    (fun fs j hj => verifyWord_passes (hanswers fs) nofun (by omega) (hw j (by omega)) (hagree j hj))
    (fun fs => verifyWord_faults (hanswers fs) hlen.ge (hw a ha) hexpects hword)
  refine ⟨l, ?ran, ?run⟩
  case ran =>
    rw [List.append_assoc]
    exact g.ran_afterLink hes hran
  case run =>
    rw [hverify, if_pos rfl] at hbody
    rw [hbody, show verifyCode = codeWalk verifyWord from rfl, Op.bind_error hfault]
    rfl

end

/-- An accepted WRITE: CFG_MM is cleared in the acceptance (10_state R40). -/
theorem acceptWrite_leaves {s : State} (h : s.quiet) :
    ((s.accept 0x31).setCfgMm 0).Leaves ((s.accept 0x31).setCfgMm 0).complete :=
  ⟨State.accept_calm h 0x31, rfl⟩

/-- WRITE in a session with an identity is its body. -/
theorem exec_write {s : State} (hs : s.engineReady) :
    exec .write s = finish (writeBody ((s.accept 0x31).setCfgMm 0)) := by
  obtain ⟨⟨hidle, hsession, hquiet⟩, hid⟩ := hs
  exact issueFrom_quiet (first := fun t => t.setCfgMm 0) hidle hquiet writeBody (issueCheck_engine hsession hid)

/-- Settles O39: WRITE's body without verify, from the accepted state. -/
theorem writeWithoutVerify : Obligations.WriteWithoutVerify := by
  intro s n k hs hshape ⟨hw, hcfg⟩ hverify
  have ⟨⟨_, _, hquiet⟩, _⟩ := hs
  rw [hshape.nWords_eq] at hw
  have hbody := writeBody_unverified (acceptWrite_leaves hquiet) nofun hshape hw hcfg hverify
  rw [exec_write hs, hbody.finish]
  rfl

/-- Settles O41: WRITE's body up to the word that differs, from the accepted state. -/
theorem writeVerifyMismatch : Obligations.WriteVerifyMismatch := by
  intro s n k a v bits rest hs hshape ⟨hw, _⟩ hverify ha hlen hpartner hagree hexpects hword
  have ⟨⟨_, _, hquiet⟩, _⟩ := hs
  rw [hshape.nWords_eq] at hw
  obtain ⟨l, hran, hbody⟩ := writeBody_mismatch (acceptWrite_leaves hquiet) nofun hshape hw hverify ha hlen hpartner
    hagree hexpects hword
  refine ⟨l, hran, ?_⟩
  rw [exec_write hs, hbody]
  rfl

end Sys2Proof.Machine

/-! PROOF of the statement about a verified WRITE, O40: the configuration slots that are read back, each with its place
among the bits, its entry of CFG_RB and its bit of CFG_MM. -/

namespace Sys2Proof.Machine

/-! ## The present slots (48_config R258) -/

section

variable {m : Memory} {i j : Nat}

theorem presentBelow_succ (m : Memory) (i : Nat) :
    presentBelow m (i + 1) = presentBelow m i + if m.present .cfgImg i then 1 else 0 := by
  rw [presentBelow, List.range_succ, List.filter_append, List.length_append, presentBelow]
  cases h : m.present .cfgImg i <;> simp [h]

/-- A present slot is counted below every later slot. -/
theorem presentBelow_lt (hij : j < i) (hj : m.present .cfgImg j = true) : presentBelow m j < presentBelow m i := by
  induction i, hij using Nat.le_induction with
  | base => rw [presentBelow_succ, if_pos hj]; omega
  | succ i _ ih => rw [presentBelow_succ]; omega

theorem Memory.img_eq_some {w : Window} {e : ImgEntry} (h : m.img w i = some e) :
    m.entry16 w i = some e.value ∧ m.present w i = e.present := by
  cases hv : m.entry16 w i with
  | none => simp [Memory.img, hv] at h
  | some v =>
    obtain rfl : ({ value := v, present := m.present w i } : ImgEntry) = e := by simpa [Memory.img, hv] using h
    exact ⟨rfl, rfl⟩

/-- A 16-bit entry is unchanged by what leaves its two bytes. -/
theorem Memory.entry16_congr {m' : Memory} (w : Window) (h0 : m'.byte (w.addr i) = m.byte (w.addr i))
    (h1 : m'.byte (w.addr i + 1) = m.byte (w.addr i + 1)) : m'.entry16 w i = m.entry16 w i := by
  rw [Memory.entry16, Memory.entry16, h0, h1]

theorem Memory.entry16_setEntry16_other (m : Memory) (w : Window) (hne : j ≠ i) (v : Word) :
    (m.setEntry16 w i v).entry16 w j = m.entry16 w j := by
  have hapart : w.addr j + 1 < w.addr i ∨ w.addr i + 1 < w.addr j := by
    unfold Window.addr
    omega
  apply Memory.entry16_congr <;> rw [Memory.byte_setEntry16, if_neg (by omega), if_neg (by omega)]

theorem getLsbD_slotBit (hi : i < 8) (j : Nat) : (slotBit i).getLsbD j = decide (j = i) := by
  have hpow : slotBit i = BitVec.ofNat 8 (2 ^ i) := by rw [slotBit, Nat.one_shiftLeft]; rfl
  rw [hpow, BitVec.getLsbD_ofNat, Nat.testBit_two_pow, Bool.eq_iff_iff]
  simp only [Bool.and_eq_true, decide_eq_true_iff]
  omega

/-! ## The slots read back -/

/-- The events of slot `i` of `CfgVerifyPass()`. -/
def slotReadEvents (c : Codes) (m : Memory) (bits : List Bool) (i : Nat) : List LinkEvent :=
  if m.present .cfgImg i then
    gotoAddressEvents c (slotAddr i) ++ readPairEvents c.icsp.tblrdPostinc c.icsp.tblrd bits (16 * presentBelow m i)
  else []

theorem cfgVerifyEvents_eq (c : Codes) (m : Memory) (bits : List Bool) :
    cfgVerifyEvents c m bits = (List.range 8).flatMap (slotReadEvents c m bits) := rfl

/-- The bits of one more slot change nothing about the slots before it. -/
theorem slotReadEvents_append (c : Codes) {bits bs : List Bool} (hlen : bits.length = 16 * presentBelow m i)
    (hij : j < i) : slotReadEvents c m (bits ++ bs) j = slotReadEvents c m bits j := by
  unfold slotReadEvents
  split
  next hj =>
    have hlt := presentBelow_lt hij hj
    rw [readPairEvents_append_left _ _ (by omega)]
  next => rfl

variable {g : State} {bits : List Bool} {l : LinkSide} {mm : Byte}

/-- From `g` the slots below `i` have been read back, with the bits `bits`: the link side is `l`, the buffers are `m`,
and `mm` marks the slots that differ. -/
structure State.SlotsVerified (g : State) (i : Nat) (bits : List Bool) (l : LinkSide) (m : Memory) (mm : Byte) :
    Prop where
  length : bits.length = 16 * presentBelow g.mem i
  ran : g.link.Ran l ((List.range i).flatMap (slotReadEvents g.cfg.codes g.mem bits))
  stored : ∀ j < i, g.mem.present .cfgImg j = true →
    m.entry16 .cfgRb j = some (wordFrom bits (16 * presentBelow g.mem j))
  differs : ∀ j, mm.getLsbD j = true ↔ j < i ∧ g.mem.present .cfgImg j = true ∧
    g.mem.entry16 .cfgImg j ≠ some (wordFrom bits (16 * presentBelow g.mem j))
  frame : ∀ b, (∀ j < i, g.mem.present .cfgImg j = true → b ≠ 0x120 + 4 * j ∧ b ≠ 0x120 + 4 * j + 1) →
    m.byte b = g.mem.byte b

theorem State.SlotsVerified.zero (g : State) : g.SlotsVerified 0 [] g.link g.mem 0 :=
  ⟨rfl, .refl _, fun _ hj => absurd hj (Nat.not_lt_zero _), fun j => by simp, fun _ _ => rfl⟩

/-- The pass writes nothing of the configuration image. -/
theorem State.SlotsVerified.img (h : g.SlotsVerified i bits l m mm) (hj : j < 8) :
    m.img .cfgImg j = g.mem.img .cfgImg j := by
  have hkept : ∀ b < 0x120, m.byte b = g.mem.byte b := fun b hb => h.frame b fun _ _ _ => by omega
  have haddr : Window.cfgImg.addr j + 2 < 0x120 := by
    simp only [Window.addr, Window.base]
    omega
  exact Memory.img_congr _ _ (hkept _ (by omega)) (hkept _ (by omega)) (hkept _ haddr)

/-- An absent slot is not read. -/
theorem State.SlotsVerified.absent (h : g.SlotsVerified i bits l m mm) (hi : g.mem.present .cfgImg i = false) :
    g.SlotsVerified (i + 1) bits l m mm := by
  have hbelow : ∀ {j}, j < i + 1 → g.mem.present .cfgImg j = true → j < i := fun {j} hj hp => by
    have hne : j ≠ i := fun heq => by simp [heq, hi] at hp
    omega
  refine ⟨?length, ?ran, fun j hj hp => h.stored j (hbelow hj hp) hp, fun j => (h.differs j).trans ?differs,
    fun b hb => h.frame b fun j hj => hb j (Nat.lt_succ_of_lt hj)⟩
  case length => rw [h.length, presentBelow_succ, hi]; rfl
  case ran =>
    rw [flatMap_range_succ, slotReadEvents, hi, if_neg Bool.false_ne_true, List.append_nil]
    exact h.ran
  case differs =>
    exact ⟨fun ⟨hj, hp, hne⟩ => ⟨Nat.lt_succ_of_lt hj, hp, hne⟩, fun ⟨hj, hp, hne⟩ => ⟨hbelow hj hp, hp, hne⟩⟩

/-- A present slot is read into CFG_RB and compared. -/
theorem State.SlotsVerified.present (h : g.SlotsVerified i bits l m mm) (hi : i < 8) {e : ImgEntry}
    (he : g.mem.img .cfgImg i = some e) (hp : e.present = true) {bs : List Bool} (hbs : bs.length = 16)
    {l' : LinkSide} (hran : l.Ran l' (gotoAddressEvents g.cfg.codes (slotAddr i) ++
      readPairEvents g.cfg.codes.icsp.tblrdPostinc g.cfg.codes.icsp.tblrd bs 0)) :
    g.SlotsVerified (i + 1) (bits ++ bs) l' (m.setEntry16 .cfgRb i (wordFrom bs 0))
      (if wordFrom bs 0 ≠ e.value then mm ||| slotBit i else mm) := by
  obtain ⟨hvalue, hpresent⟩ := Memory.img_eq_some he
  rw [hp] at hpresent
  have hlen := h.length
  have hlast : wordFrom (bits ++ bs) (16 * presentBelow g.mem i) = wordFrom bs 0 := wordFrom_append_right hlen hbs
  have hbefore : ∀ {j}, j < i → g.mem.present .cfgImg j = true →
      wordFrom (bits ++ bs) (16 * presentBelow g.mem j) = wordFrom bits (16 * presentBelow g.mem j) := fun hj hpj => by
    have hlt := presentBelow_lt hj hpj
    exact wordFrom_append_left (by omega)
  refine ⟨?length, ?ran, fun j hj hpj => ?stored, fun j => ?differs, fun b hb => ?frame⟩
  case length => rw [List.length_append, hlen, hbs, presentBelow_succ, if_pos hpresent, Nat.mul_succ]
  case ran =>
    rw [flatMap_range_succ, slotReadEvents, if_pos hpresent, readPairEvents_append_right _ _ hlen hbs,
      List.flatMap_congr fun j hj => slotReadEvents_append g.cfg.codes hlen (List.mem_range.1 hj)]
    exact h.ran.trans hran
  case stored =>
    obtain hlt | rfl := Nat.lt_succ_iff_lt_or_eq.1 hj
    · rw [Memory.entry16_setEntry16_other _ _ hlt.ne, h.stored j hlt hpj, hbefore hlt hpj]
    · rw [Memory.entry16_setEntry16, hlast]
  case differs =>
    have hbit : (if wordFrom bs 0 ≠ e.value then mm ||| slotBit i else mm).getLsbD j = true ↔
        mm.getLsbD j = true ∨ (j = i ∧ wordFrom bs 0 ≠ e.value) := by
      split
      next hne => rw [BitVec.getLsbD_or, getLsbD_slotBit hi, Bool.or_eq_true, decide_eq_true_iff, and_iff_left hne]
      next heq => exact ⟨.inl, fun hor => hor.resolve_right fun hand => heq hand.2⟩
    rw [hbit, h.differs j]
    obtain hlt | rfl | hgt := Nat.lt_trichotomy j i
    · constructor
      · rintro (⟨_, hpj, hne⟩ | ⟨rfl, _⟩)
        · exact ⟨Nat.lt_succ_of_lt hlt, hpj, by rwa [hbefore hlt hpj]⟩
        · exact absurd hlt (Nat.lt_irrefl _)
      · rintro ⟨_, hpj, hne⟩
        exact .inl ⟨hlt, hpj, by rwa [hbefore hlt hpj] at hne⟩
    · rw [hlast, hvalue]
      simp [hpresent, eq_comm]
    · exact ⟨by omega, by omega⟩
  case frame =>
    have hslot := hb i (Nat.lt_succ_self i) hpresent
    rw [Memory.byte_setEntry16, if_neg, if_neg, h.frame b fun j hj => hb j (Nat.lt_succ_of_lt hj)] <;>
      simp only [Window.addr, Window.base] <;> omega

/-- What the pass leaves of one slot: its entry of CFG_RB and its bit. -/
theorem State.SlotsVerified.slot (h : g.SlotsVerified 8 bits l m mm) (hi : i < 8) {e : ImgEntry}
    (he : g.mem.img .cfgImg i = some e) :
    if e.present then
      m.entry16 .cfgRb i = some (wordFrom bits (16 * presentBelow g.mem i)) ∧
        (mm.getLsbD i = true ↔ wordFrom bits (16 * presentBelow g.mem i) ≠ e.value)
    else m.entry16 .cfgRb i = g.mem.entry16 .cfgRb i ∧ mm.getLsbD i = false := by
  obtain ⟨hvalue, hpresent⟩ := Memory.img_eq_some he
  rw [← hpresent]
  split
  next hp =>
    refine ⟨h.stored i hi hp, ?_⟩
    rw [h.differs i, hvalue]
    simp [hi, hp, eq_comm]
  next hp =>
    have hapart : ∀ b, b = 0x120 + 4 * i ∨ b = 0x120 + 4 * i + 1 → m.byte b = g.mem.byte b := fun b hb =>
      h.frame b fun j _ hpj => by
        have hne : j ≠ i := fun heq => hp (heq ▸ hpj)
        omega
    refine ⟨Memory.entry16_congr _ (hapart _ (.inl rfl)) (hapart _ (.inr rfl)), ?_⟩
    rw [← Bool.not_eq_true, h.differs i]
    exact fun hand => hp hand.2.1

/-! ## `CfgVerifyPass()` -/

variable {u : State}

theorem cfgReadSlot_reaches (h : u.Leaves g) (i : Nat) :
    ∃ (bs : List Bool) (l : LinkSide), bs.length = 16 ∧
      g.link.Ran l (gotoAddressEvents g.cfg.codes (slotAddr i) ++
        readPairEvents g.cfg.codes.icsp.tblrdPostinc g.cfg.codes.icsp.tblrd bs 0) ∧
      Op.Reaches (cfgReadSlot i) u (wordFrom bs 0) { g with link := l } := by
  obtain ⟨bs, l, hlen, hran, hrun⟩ := cfgReadSlot_calm h.calm i
  rw [h.link, h.cfg] at hran
  exact ⟨bs, l, hlen, hran, _, hrun, h.ran l _⟩

/-- The slots from `i` on, the ones below being done. -/
theorem cfgVerifySlots_reaches (hw : ∀ i < 8, (g.mem.img .cfgImg i).isSome) (n : Nat) (hn : i + n ≤ 8)
    (hdone : g.SlotsVerified i bits l m mm) (h : u.Leaves { g with link := l, mem := m }) :
    ∃ (bits' : List Bool) (l' : LinkSide) (m' : Memory) (mm' : Byte), g.SlotsVerified (i + n) bits' l' m' mm' ∧
      Op.Reaches (cfgVerifySlots n i mm) u mm' { g with link := l', mem := m' } := by
  induction n generalizing i bits l m mm u with
  | zero => exact ⟨bits, l, m, mm, hdone, .pure h mm⟩
  | succ n ih =>
    obtain ⟨e, he⟩ := Option.isSome_iff_exists.1 (hw i (by omega))
    have hread := memReadImg_ok (s := u) (w := .cfgImg) (i := i) (e := e) (by
      rw [h.mem]
      exact (hdone.img (by omega)).trans he)
    rw [show i + (n + 1) = i + 1 + n by omega]
    cases hp : e.present with
    | true =>
      obtain ⟨bs, l', hbs, hran, t, hslot, ht⟩ := cfgReadSlot_reaches h i
      obtain ⟨v, hstore, hv⟩ := memWrite16_reaches ht .cfgRb i (wordFrom bs 0)
      have hturn : cfgVerifySlots (n + 1) i mm u =
          cfgVerifySlots n (i + 1) (if wordFrom bs 0 ≠ e.value then mm ||| slotBit i else mm) v := by
        rw [cfgVerifySlots, Op.bind_ok hread, if_pos hp, Op.bind_ok hslot, Op.bind_ok hstore]
      obtain ⟨bits', l', m', mm', hdone', hrest⟩ := ih (by omega) (hdone.present (by omega) he hp hbs hran) hv
      exact ⟨bits', l', m', mm', hdone', .of_eq hturn hrest⟩
    | false =>
      have hpresent := (Memory.img_eq_some he).2
      have hturn : cfgVerifySlots (n + 1) i mm u = cfgVerifySlots n (i + 1) mm u := by
        rw [cfgVerifySlots, Op.bind_ok hread, if_neg (by simp [hp])]
      obtain ⟨bits', l', m', mm', hdone', hrest⟩ := ih (by omega) (hdone.absent (by rw [hpresent, hp])) h
      exact ⟨bits', l', m', mm', hdone', .of_eq hturn hrest⟩

theorem cfgVerifyPass_reaches (hw : ∀ i < 8, (g.mem.img .cfgImg i).isSome) (h : u.Leaves g) :
    ∃ (bits : List Bool) (l : LinkSide) (m : Memory) (mm : Byte), g.SlotsVerified 8 bits l m mm ∧
      Op.Reaches cfgVerifyPass u () (({ g with link := l, mem := m } : State).setCfgMm mm) := by
  obtain ⟨bits, l, m, mm, hdone, hslots⟩ := cfgVerifySlots_reaches hw 8 (Nat.le_refl _) (.zero g) h
  exact ⟨bits, l, m, mm, hdone, hslots.bind fun t ht => setCfgMm_reaches ht mm⟩

end

/-! ## WRITE with verify (46_program_verify R217) -/

section

variable {u g : State} {n k : Nat} {bits rest : List Bool}

/-- `VerifyCode()` against a target that answers the image. -/
theorem verifyCode_reaches (h : u.Leaves g) (hph : g.seq.phase ≠ .verify) (hshape : g.ident.shape n k)
    (hw : ∀ a < n, (g.mem.img .codeImg a).isSome) (hlen : bits.length = 16 * n)
    (hpartner : g.link.partner = .oracle (bits ++ rest))
    (hagree : ∀ a < n, verifyAgrees g.cfg g.mem a (wordFrom bits (16 * a))) :
    ∃ l : LinkSide, g.link.Ran l (gotoAddressEvents g.cfg.codes 0 ++ codeReadEvents g.cfg.codes bits n) ∧
      Op.Reaches verifyCode u () (({ g with link := l } : State).walkedAll .verify) :=
  codeWalk_passes h hshape fun es a ha =>
    verifyWord_passes (State.afterLink_oracle hpartner es) hph (by omega) (hw a ha) (hagree a ha)

/-- The code programmed and verified, the slots written and read back. -/
theorem writeBody_verified (h : u.Leaves g) (hph : g.seq.phase ≠ .program) (hshape : g.ident.shape n k)
    (hw : ∀ a < n, (g.mem.img .codeImg a).isSome) (hcfg : ∀ i < 8, (g.mem.img .cfgImg i).isSome)
    (hverify : verifyEn g.seq.ctrl = true) (hlen : bits.length = 16 * n)
    (hpartner : g.link.partner = .oracle (bits ++ rest))
    (hagree : ∀ a < n, verifyAgrees g.cfg g.mem a (wordFrom bits (16 * a))) :
    ∃ (more : List Bool) (l : LinkSide) (m : Memory) (mm : Byte), more.length = 16 * presentBelow g.mem 8 ∧
      g.link.Ran l (programCodeEvents g.cfg g.mem g.ident.wbufWords.toNat k ++ gotoAddressEvents g.cfg.codes 0 ++
        codeReadEvents g.cfg.codes bits n ++ cfgWritePassEvents g.cfg g.mem ++ cfgVerifyEvents g.cfg.codes g.mem more) ∧
      Op.Reaches writeBody u () ((({ g with link := l, mem := m } : State).walkedAll .verify).setCfgMm mm) ∧
      (∀ i < 8, ∀ e, g.mem.img .cfgImg i = some e →
        if e.present then
          m.entry16 .cfgRb i = some (wordFrom more (16 * presentBelow g.mem i)) ∧
            (mm.getLsbD i = true ↔ wordFrom more (16 * presentBelow g.mem i) ≠ e.value)
        else m.entry16 .cfgRb i = g.mem.entry16 .cfgRb i ∧ mm.getLsbD i = false) ∧
      ∀ b, (∀ i < 8, g.mem.present .cfgImg i = true → b ≠ 0x120 + 4 * i ∧ b ≠ 0x120 + 4 * i + 1) →
        m.byte b = g.mem.byte b := by
  obtain ⟨t, ht, hbody⟩ := writeBody_programmed h hph hshape hw
  have hes := samplesOf_programCode g.cfg g.mem g.ident.wbufWords.toNat k
  have hfs := samplesOf_cfgWritePass g.cfg g.mem
  rw [hverify, if_pos rfl] at hbody
  generalize programCodeEvents g.cfg g.mem g.ident.wbufWords.toNat k = es at ht hes ⊢
  let programmed := (g.afterLink es).walkedAll .program
  obtain ⟨l₁, hran₁, t₁, hrun₁, ht₁⟩ := verifyCode_reaches (g := programmed) ht nofun hshape hw hlen
    (State.afterLink_oracle hpartner es) hagree
  let verified := ({ programmed with link := l₁ } : State).walkedAll .verify
  have hwrites := cfgWritePass_emits (g := verified) hcfg
  rw [show cfgWritePassEvents verified.cfg verified.mem = cfgWritePassEvents g.cfg g.mem from rfl] at hwrites
  generalize cfgWritePassEvents g.cfg g.mem = fs at hfs hwrites ⊢
  obtain ⟨t₂, hrun₂, ht₂⟩ := hwrites.reaches ht₁
  obtain ⟨more, l, m, mm, hdone, t₃, hrun₃, ht₃⟩ := cfgVerifyPass_reaches (g := verified.afterLink fs) hcfg ht₂
  refine ⟨more, l, m, mm, hdone.length, ?ran, ⟨t₃, ?run, ht₃⟩, fun i hi e he => hdone.slot hi he, hdone.frame⟩
  case ran =>
    have hread : l₁.Ran l (fs ++ cfgVerifyEvents g.cfg.codes g.mem more) := by
      rw [cfgVerifyEvents_eq]
      exact verified.ran_afterLink hfs hdone.ran
    have hall : g.link.Ran l (es ++ ((gotoAddressEvents g.cfg.codes 0 ++ codeReadEvents g.cfg.codes bits n) ++
        (fs ++ cfgVerifyEvents g.cfg.codes g.mem more))) := g.ran_afterLink hes (hran₁.trans hread)
    simpa only [List.append_assoc] using hall
  case run =>
    rw [hbody, Op.bind_ok hrun₁, Op.bind_ok hrun₂, hrun₃]

end

/-- Settles O40: WRITE's body with verify, from the accepted state. -/
theorem writeVerified : Obligations.WriteVerified := by
  intro s n k bits rest hs hshape ⟨hw, hcfg⟩ hverify hlen hpartner hagree
  have ⟨⟨_, _, hquiet⟩, _⟩ := hs
  rw [hshape.nWords_eq] at hw
  obtain ⟨more, l, m, mm, hmore, hran, hbody, hslots, hframe⟩ := writeBody_verified (acceptWrite_leaves hquiet) nofun
    hshape hw hcfg hverify hlen hpartner hagree
  refine ⟨more, l, m, mm, hmore, hran, ?_, hslots, hframe⟩
  rw [exec_write hs, hbody.finish]
  rfl

end Sys2Proof.Machine

/-! PROOF of EEPROM_READ, O42: each cell that is read adds its bits to those of the whole run, and its byte is the only one
that its entry of the image keeps. -/

namespace Sys2Proof.Machine

section

/-! ## The bytes of each cell (20_memory R69) -/

variable {bits bs : List Bool} {k : Nat}

theorem byteFrom_append_left (h : k + 8 ≤ bits.length) : byteFrom (bits ++ bs) k = byteFrom bits k := by
  rw [byteFrom, byteFrom, slice8_append_left h]

/-- Eight bits after others are the slice at their place. -/
theorem slice8_append_right (h : bits.length = k) (hbs : bs.length = 8) : slice8 (bits ++ bs) k = bs := by
  rw [slice8, ← h, List.drop_left, List.take_of_length_le hbs.le]

theorem eepromReadEvents_snoc (c : Codes) {n : Nat} (h : bits.length = 8 * n) (hbs : bs.length = 8) :
    eepromReadEvents c (n + 1) (bits ++ bs) = eepromReadEvents c n bits ++ eeReadCellEvents c n bs := by
  have hbefore : ∀ e ∈ List.range n,
      eeReadCellEvents c e (slice8 (bits ++ bs) (8 * e)) = eeReadCellEvents c e (slice8 bits (8 * e)) := fun e he => by
    have hlt := List.mem_range.1 he
    rw [slice8_append_left (by omega)]
  rw [eepromReadEvents, flatMap_range_succ, List.flatMap_congr hbefore, slice8_append_right h hbs, eepromReadEvents]

/-! ## The image entries (20_memory R62) -/

/-- An 8-bit entry reads back what was written. -/
theorem Memory.entry8_setEntry8 (m : Memory) (w : Window) (i : Nat) (v : Byte) :
    (m.setEntry8 w i v).entry8 w i = some v := by
  rw [Memory.entry8, Memory.byte_setEntry8, if_pos rfl]

/-- A write of an 8-bit entry leaves the window's others alone. -/
theorem Memory.entry8_setEntry8_other (m : Memory) (w : Window) {i j : Nat} (hne : i ≠ j) (v : Byte) :
    (m.setEntry8 w j v).entry8 w i = m.entry8 w i := by
  have hapart : w.addr i ≠ w.addr j := by
    unfold Window.addr
    omega
  rw [Memory.entry8, Memory.byte_setEntry8, if_neg hapart, Memory.entry8]

/-! ## EEPROM_READ (47_eeprom R242) -/

variable {u g : State} {l l' : LinkSide} {m : Memory} {n : Nat}

/-- From `g` EEPROM_READ has read `n` cells, with the bits `bits`, and stored them: the link side is `l`, the buffers are
`m`. -/
structure State.CellsStored (g : State) (n : Nat) (bits : List Bool) (l : LinkSide) (m : Memory) : Prop where
  length : bits.length = 8 * n
  ran : g.link.Ran l (eepromReadEvents g.cfg.codes n bits)
  stored : ∀ e < n, m.entry8 .eeImg e = some (byteFrom bits (8 * e))
  frame : ∀ b, (∀ e < n, b ≠ 0x1000 + 4 * e) → m.byte b = g.mem.byte b

theorem State.CellsStored.zero (g : State) : g.CellsStored 0 [] g.link g.mem :=
  ⟨rfl, .refl _, fun _ he => absurd he (Nat.not_lt_zero _), fun _ _ => rfl⟩

/-- The next cell is read and stored. -/
theorem State.CellsStored.succ (h : g.CellsStored n bits l m) (hbs : bs.length = 8)
    (hran : l.Ran l' (eeReadCellEvents g.cfg.codes n bs)) :
    g.CellsStored (n + 1) (bits ++ bs) l' (m.setEntry8 .eeImg n (byteOfBits bs)) := by
  have hlen := h.length
  refine ⟨by rw [List.length_append, hlen, hbs, Nat.mul_succ], ?ran, fun e he => ?stored, fun b hb => ?frame⟩
  case ran =>
    rw [eepromReadEvents_snoc _ hlen hbs]
    exact h.ran.trans hran
  case stored =>
    obtain hlt | rfl := Nat.lt_succ_iff_lt_or_eq.1 he
    · rw [Memory.entry8_setEntry8_other _ _ hlt.ne, h.stored e hlt, byteFrom_append_left (by omega)]
    · rw [Memory.entry8_setEntry8, byteFrom, slice8_append_right hlen hbs]
  case frame =>
    have hcell : b ≠ Window.eeImg.addr n := hb n (Nat.lt_succ_self n)
    rw [Memory.byte_setEntry8, if_neg hcell, h.frame b fun e he => hb e (Nat.lt_succ_of_lt he)]

theorem eeReadCell_reaches (h : u.Leaves g) (e : Nat) :
    ∃ (bs : List Bool) (l : LinkSide), bs.length = 8 ∧ g.link.Ran l (eeReadCellEvents g.cfg.codes e bs) ∧
      Op.Reaches (eeReadCell e) u (byteOfBits bs) { g with link := l } := by
  obtain ⟨bs, l, hlen, hran, hrun⟩ := eeReadCell_calm h.calm e
  rw [h.link, h.cfg] at hran
  exact ⟨bs, l, hlen, hran, _, hrun, h.ran l _⟩

theorem memWrite8_reaches (h : u.Leaves g) (w : Window) (i : Nat) (v : Byte) :
    Op.Reaches (memWrite8 w i v) u () { g with mem := g.mem.setEntry8 w i v } := by
  obtain ⟨hcalm, rfl⟩ := h
  exact ⟨_, memWrite8_calm hcalm w i v, State.calm.forth (s := { u with mem := u.mem.setEntry8 w i v }) hcalm [], rfl⟩

/-- One turn of EEPROM_READ. -/
theorem eepromReadOne_turn (hstored : g.CellsStored n bits l m)
    (h : u.Leaves { g with link := l, mem := m }) :
    ∃ (bits' : List Bool) (l' : LinkSide) (m' : Memory), g.CellsStored (n + 1) bits' l' m' ∧
      Op.Reaches (eepromReadOne n) u () { g with link := l', mem := m' } := by
  obtain ⟨bs, l', hbs, hran, hread⟩ := eeReadCell_reaches h n
  exact ⟨bits ++ bs, l', _, hstored.succ hbs hran, hread.bind fun _ ht => memWrite8_reaches ht .eeImg n _⟩

/-- EEPROM_READ's pseudocode. -/
theorem eepromReadBody_reaches (h : u.Leaves g) :
    ∃ (bits : List Bool) (l : LinkSide) (m : Memory), g.CellsStored g.cfg.eeSize bits l m ∧
      Op.Reaches eepromReadBody u () { g with link := l, mem := m } := by
  obtain ⟨t, hrun, bits, l, m, hstored, ht⟩ := forUp_ok (f := eepromReadOne)
    (P := fun n u => ∃ (bits : List Bool) (l : LinkSide) (m : Memory),
      g.CellsStored n bits l m ∧ u.Leaves { g with link := l, mem := m })
    g.cfg.eeSize 0 (fun n u _ _ ⟨_, _, _, hstored, hu⟩ => by
      obtain ⟨bits, l, m, hstored', t, hturn, ht⟩ := eepromReadOne_turn hstored hu
      exact ⟨t, hturn, bits, l, m, hstored', ht⟩)
    ⟨[], g.link, g.mem, .zero g, h⟩
  rw [Nat.zero_add] at hstored
  refine ⟨bits, l, m, hstored, t, ?_, ht⟩
  rw [eepromReadBody, Op.bind_ok (Op.ask_run _ u), h.cfg, hrun]

end

/-- Settles O42: the gate of an engine operation, then EEPROM_READ's pseudocode from the accepted state. -/
theorem eepromReadResult : Obligations.EepromReadResult := by
  refine ⟨engineGate_of_hostOp rfl rfl, ?_⟩
  rintro s ⟨⟨hidle, hsession, hquiet⟩, hid⟩
  obtain ⟨bits, l, m, ⟨hlen, hran, hstored, hframe⟩, hbody⟩ := eepromReadBody_reaches (State.Leaves.accept hquiet 0x40)
  refine ⟨bits, l, m, hlen, hran, ?next, hstored, hframe⟩
  case next =>
    rw [show exec .eepromRead s = issue 0x40 .engine eepromReadBody s from rfl,
      issue_quiet hidle hquiet _ (issueCheck_engine hsession hid), hbody.finish]
    rfl

end Sys2Proof.Machine

/-! SUPPORT for the EEPROM_WRITE statements O43, O44 and O58: the cell procedures as runs of core words, and the events
of a cell's polls. -/

namespace Sys2Proof.Machine

/-! ## Runs of core words (30_encoding R108) -/

/-- One CORE transaction for each core word that `fs` picks. -/
def sendCores : List (CoreWords → Word) → Op Unit
  | [] => pure ()
  | f :: fs => do
    sendCore f
    sendCores fs

theorem coreEvents_cons (c : Codes) (w : Word) (ws : List Word) :
    coreEvents c (w :: ws) = coreEvents c [w] ++ coreEvents c ws := coreEvents_append c [w] ws

theorem sendCores_emits (g : State) (fs : List (CoreWords → Word)) :
    (sendCores fs).Emits g (coreEvents g.cfg.codes (fs.map fun f => f g.cfg.codes.core)) := by
  induction fs with
  | nil => exact .pure g
  | cons f fs ih =>
    rw [List.map_cons, coreEvents_cons]
    exact (sendCore_emits g f).bind ih

/-! ## The cell procedures (47_eeprom R241) -/

/-- What a cell's write sends before its first poll. -/
def eeSetupCores (e : Nat) (d : Byte) : List (CoreWords → Word) :=
  [CoreWords.bcfEepgd, CoreWords.bcfCfgs,
    fun c => c.movlwOf ((BitVec.ofNat 16 e : Word).setWidth 8), CoreWords.movwfEeadr,
    fun c => c.movlwOf (((BitVec.ofNat 16 e : Word) >>> 8).setWidth 8), CoreWords.movwfEeadrh,
    fun c => c.movlwOf d, CoreWords.movwfEedata, CoreWords.bsfWren, CoreWords.bsfWr]

/-- What a poll sends before it reads. -/
def eePollCores : List (CoreWords → Word) := [CoreWords.movfEecon1W, CoreWords.movwfTablat, CoreWords.nop]

theorem eeSetupCores_events (c : Codes) (e : Nat) (d : Byte) :
    coreEvents c ((eeSetupCores e d).map fun f => f c.core) = eeWriteSetupEvents c e d := by
  have hlow : (BitVec.ofNat 16 e : Word).setWidth 8 = BitVec.ofNat 8 e := BitVec.setWidth_ofNat_of_le (by decide) e
  have hhigh : ((BitVec.ofNat 16 e : Word) >>> 8).setWidth 8 = BitVec.ofNat 8 (e / 256) := by
    apply BitVec.eq_of_toNat_eq
    simp only [BitVec.toNat_setWidth, BitVec.toNat_ushiftRight, BitVec.toNat_ofNat, Nat.shiftRight_eq_div_pow]
    omega
  simp only [eeSetupCores, eeWriteSetupEvents, eeAddressWords, List.map_cons, List.map_nil, hlow, hhigh,
    List.cons_append, List.nil_append]

theorem eeWriteCell_eq (e : Nat) (d : Byte) : eeWriteCell e d = (do
    sendCores (eeSetupCores e d)
    assign fun s => s.setPolls 0
    let cap ← ask fun s => s.seq.pollCap
    eePollLoop e d (cap - 1)
    sendCore CoreWords.bcfWren) := by
  simp only [eeWriteCell, eeAddress, sendCores, eeSetupCores, bind_assoc, pure_bind]

theorem eePoll_eq : eePoll = (do
    sendCores eePollCores
    let st ← readIcsp IcspCodes.shiftOutTablat
    assign fun s => s.setPolls (s.seq.polls + 1)
    return st) := by
  simp only [eePoll, sendCores, eePollCores, bind_assoc, pure_bind]

/-! ## The events of a cell's polls -/

/-- `n` polls of a cell, the first sampling from the byte at place `p` on. -/
def eePollsEvents (c : Codes) (bits : List Bool) (p n : Nat) : List LinkEvent :=
  (List.range n).flatMap fun j => eePollEvents c (slice8 bits (8 * (p + j)))

theorem eePollsEvents_zero (c : Codes) (bits : List Bool) (p : Nat) : eePollsEvents c bits p 0 = [] := rfl

theorem eePollsEvents_succ (c : Codes) (bits : List Bool) (p n : Nat) :
    eePollsEvents c bits p (n + 1) = eePollsEvents c bits p n ++ eePollEvents c (slice8 bits (8 * (p + n))) :=
  flatMap_range_succ _ n

theorem eeWriteCellEvents_eq (c : Codes) (e : Nat) (d : Byte) (bits : List Bool) (p k : Nat) :
    eeWriteCellEvents c e d bits p k =
      eeWriteSetupEvents c e d ++ eePollsEvents c bits p k ++ coreEvents c [c.core.bcfWren] := rfl

/-! ## A poll undisturbed -/

theorem State.Leaves.setPolls {u g : State} (h : u.Leaves g) (n : Word) :
    ((u.setPolls n).forth []).Leaves (g.setPolls n) := by
  obtain ⟨hcalm, rfl⟩ := h
  exact ⟨State.calm.forth (s := u.setPolls n) hcalm [], rfl⟩

theorem State.Leaves.polls {u g : State} (h : u.Leaves g) : u.seq.polls = g.seq.polls := by
  rw [← h.complete, State.complete_seq]

theorem State.Leaves.pollCap {u g : State} (h : u.Leaves g) : u.seq.pollCap = g.seq.pollCap := by
  rw [← h.complete, State.complete_seq, Sequencer.pollCap, Sequencer.pollCap]

/-- `g` with the link side `l` and the poll counter at `k`. -/
def State.withPolls (g : State) (l : LinkSide) (k : Nat) : State :=
  ({ g with link := l } : State).setPolls (BitVec.ofNat 16 k)

theorem eePoll_reaches {u g : State} {l : LinkSide} {k : Nat} (h : u.Leaves (g.withPolls l k)) :
    ∃ (bs : List Bool) (l' : LinkSide), bs.length = 8 ∧ l.Ran l' (eePollEvents g.cfg.codes bs) ∧
      Op.Reaches eePoll u (byteOfBits bs) (g.withPolls l' (k + 1)) := by
  obtain ⟨bs, l', hlen, hran, hrun⟩ := eePoll_calm h.calm
  have hcount : u.seq.polls + 1 = BitVec.ofNat 16 (k + 1) := by
    rw [h.polls, BitVec.ofNat_add]
    rfl
  rw [h.link, h.cfg] at hran
  rw [hcount] at hrun
  exact ⟨bs, l', hlen, hran, _, hrun, (h.ran l' _).setPolls _⟩

end Sys2Proof.Machine

/-! PROOF of the EEPROM_WRITE results O43 and O44, against an oracle: a poll takes the next byte of the answers, the
polls that read busy only take the loop further, and what the next poll reads ends the cell well or at its cap. -/

namespace Sys2Proof.Machine

/-! ## A write in progress -/

/-- An undisturbed EEPROM_WRITE that began in `g` has emitted `es`, the oracle's pending answers are `answers`, and the
poll counter is `k`. -/
def State.Writing (g : State) (answers : List Bool) (es : List LinkEvent) (k : Nat) (u : State) : Prop :=
  ∃ l : LinkSide, g.link.Ran l es ∧ l.partner = .oracle answers ∧ u.Leaves (g.withPolls l k)

section

variable {g u : State} {answers bits rest : List Bool} {es : List LinkEvent} {e p k : Nat}

theorem State.Writing.cfg (h : g.Writing answers es k u) : u.cfg = g.cfg := by
  obtain ⟨_, -, -, hu⟩ := h
  exact hu.cfg

theorem State.Writing.mem (h : g.Writing answers es k u) : u.mem = g.mem := by
  obtain ⟨_, -, -, hu⟩ := h
  exact hu.mem

theorem State.Writing.pollCap (h : g.Writing answers es k u) : u.seq.pollCap = g.seq.pollCap := by
  obtain ⟨_, -, -, hu⟩ := h
  exact hu.pollCap

/-- Events that are no samples take no answer. -/
theorem State.Writing.emits {x : Op Unit} {fs : List LinkEvent} (h : g.Writing answers es k u)
    (hx : ∀ g' : State, g'.cfg = g.cfg → x.Emits g' fs) (hfs : samplesOf fs = []) :
    ∃ t, x u = .ok () t ∧ g.Writing answers (es ++ fs) k t := by
  obtain ⟨l, hran, hl, hu⟩ := h
  obtain ⟨t, hrun, ht⟩ := (hx (g.withPolls l k) rfl).reaches hu
  exact ⟨t, hrun, l.observeAll g.cfg fs, hran.trans (LinkSide.ran_observeAll g.cfg l hfs),
    LinkSide.observeAll_oracle g.cfg fs hl, ht⟩

theorem State.Writing.sendCores (h : g.Writing answers es k u) (fs : List (CoreWords → Word)) :
    ∃ t, Machine.sendCores fs u = .ok () t ∧
      g.Writing answers (es ++ coreEvents g.cfg.codes (fs.map fun f => f g.cfg.codes.core)) k t :=
  h.emits (fun g' hg => hg ▸ sendCores_emits g' fs) (samplesOf_core _ _)

theorem State.Writing.sendCore (h : g.Writing answers es k u) (f : CoreWords → Word) :
    ∃ t, Machine.sendCore f u = .ok () t ∧
      g.Writing answers (es ++ coreEvents g.cfg.codes [f g.cfg.codes.core]) k t :=
  h.emits (fun g' hg => hg ▸ sendCore_emits g' f) (samplesOf_core _ _)

/-- A cell's write begins with the counter at 0. -/
theorem State.Writing.clearPolls (h : g.Writing answers es k u) :
    ∃ t, assign (fun s => s.setPolls 0) u = .ok () t ∧ g.Writing answers es 0 t := by
  obtain ⟨l, hran, hl, hu⟩ := h
  exact ⟨_, assign_calm (f := fun s => s.setPolls 0) hu.calm hu.calm.1, l, hran, hl, hu.setPolls 0⟩

/-! ## One cell (47_eeprom R241) -/

/-- A poll takes the eight answers that are next, and counts. -/
theorem State.Writing.poll {bs : List Bool} (h : g.Writing (bs ++ answers) es k u) (hbs : bs.length = 8) :
    ∃ t, eePoll u = .ok (byteOfBits bs) t ∧ g.Writing answers (es ++ eePollEvents g.cfg.codes bs) (k + 1) t := by
  obtain ⟨l, hran, hl, hu⟩ := h
  obtain ⟨bs', l', hlen, hran', t, hrun, ht⟩ := eePoll_reaches hu
  have ⟨_, _, hanswers⟩ := hran'
  obtain ⟨hbits, hl'⟩ := hanswers bs answers hl (by rw [samplesOf_eePoll, hbs, hlen])
  rw [samplesOf_eePoll] at hbits
  subst hbits
  exact ⟨t, hrun, l', hran.trans hran', hl', ht⟩

/-- The next poll of a cell, its answer the byte at place `p`. -/
theorem State.Writing.pollAt (h : g.Writing (bits.drop (8 * p) ++ rest) es k u) (hp : 8 * (p + 1) ≤ bits.length) :
    ∃ t, eePoll u = .ok (byteFrom bits (8 * p)) t ∧ g.Writing (bits.drop (8 * (p + 1)) ++ rest)
      (es ++ eePollEvents g.cfg.codes (slice8 bits (8 * p))) (k + 1) t := by
  rw [slice8_append_drop, List.append_assoc] at h
  exact h.poll (slice8_length hp)

theorem eeDone_eq_false {cfg : Config} {st : Byte} (h : st.getLsbD cfg.eeBusyBit = true) : eeDone cfg st = false := by
  rw [eeDone, h]
  rfl

theorem eeDone_eq_true {cfg : Config} {st : Byte} (h : st.getLsbD cfg.eeBusyBit = false) : eeDone cfg st = true := by
  rw [eeDone, h]
  rfl

/-- Polls that read busy take the loop as many polls further. -/
theorem State.Writing.pollsBusy (h : g.Writing (bits.drop (8 * p) ++ rest) es 0 u) (e : Nat) (d : Byte) (n more : Nat)
    (hlen : 8 * (p + n) ≤ bits.length)
    (hbusy : ∀ j < n, (byteFrom bits (8 * (p + j))).getLsbD g.cfg.eeBusyBit = true) :
    ∃ t, eePollLoop e d (more + n) u = eePollLoop e d more t ∧
      g.Writing (bits.drop (8 * (p + n)) ++ rest) (es ++ eePollsEvents g.cfg.codes bits p n) n t := by
  induction n generalizing more with
  | zero => exact ⟨u, rfl, by rwa [eePollsEvents_zero, List.append_nil]⟩
  | succ n ih =>
    obtain ⟨v, hloop, hv⟩ := ih (more + 1) (by omega) fun j hj => hbusy j (Nat.lt_succ_of_lt hj)
    obtain ⟨t, hpoll, ht⟩ := hv.pollAt hlen
    obtain ⟨-, hturn⟩ := eePollLoop_turn hpoll e d more
    have hnot : eeDone t.cfg (byteFrom bits (8 * (p + n))) = false := by
      rw [ht.cfg]
      exact eeDone_eq_false (hbusy n (Nat.lt_succ_self n))
    refine ⟨t, ?_, by rwa [eePollsEvents_succ, ← List.append_assoc]⟩
    rw [show more + (n + 1) = more + 1 + n by omega, hloop, hturn hnot]

/-- The poll loop of a cell that the target finishes at its `k`-th poll. -/
theorem State.Writing.pollsDone (h : g.Writing (bits.drop (8 * p) ++ rest) es 0 u) (e : Nat) (d : Byte)
    {more : Nat} (hk : 1 ≤ k) (hmore : k ≤ more + 1) (hlen : 8 * (p + k) ≤ bits.length)
    (hdone : cellDone g.cfg bits p k) :
    ∃ t, eePollLoop e d more u = .ok () t ∧
      g.Writing (bits.drop (8 * (p + k)) ++ rest) (es ++ eePollsEvents g.cfg.codes bits p k) k t := by
  obtain ⟨n, rfl⟩ := Nat.exists_eq_add_of_le' hk
  obtain ⟨m, rfl⟩ := Nat.exists_eq_add_of_le' (Nat.le_of_succ_le_succ hmore)
  obtain ⟨v, hloop, hv⟩ := h.pollsBusy e d n m (by omega) fun j hj => by
    rw [hdone j (Nat.lt_succ_of_lt hj)]
    exact decide_eq_true (Nat.succ_lt_succ hj)
  obtain ⟨t, hpoll, ht⟩ := hv.pollAt hlen
  obtain ⟨hturn, -⟩ := eePollLoop_turn hpoll e d m
  have hlast : eeDone t.cfg (byteFrom bits (8 * (p + n))) = true := by
    rw [ht.cfg]
    refine eeDone_eq_true ?_
    rw [hdone n (Nat.lt_succ_self n)]
    exact decide_eq_false (Nat.lt_irrefl _)
  exact ⟨t, hloop.trans (hturn hlast), by rwa [eePollsEvents_succ, ← List.append_assoc]⟩

/-- The poll loop of a cell that still reads busy at its last poll times out there. -/
theorem State.Writing.pollsTimeout (h : g.Writing (bits.drop (8 * p) ++ rest) es 0 u) (e : Nat) (d : Byte) {more : Nat}
    (hlen : 8 * (p + (more + 1)) ≤ bits.length)
    (hbusy : ∀ j < more + 1, (byteFrom bits (8 * (p + j))).getLsbD g.cfg.eeBusyBit = true) :
    ∃ l : LinkSide, g.link.Ran l (es ++ eePollsEvents g.cfg.codes bits p (more + 1)) ∧
      eePollLoop e d more u = .error .ended ((g.withPolls l (more + 1)).withCause
        .eeTimeout (BitVec.ofNat 24 e) (d.setWidth 16) ((byteFrom bits (8 * (p + more))).setWidth 16)) := by
  obtain ⟨v, hloop, hv⟩ := h.pollsBusy e d more 0 (by omega) fun j hj => hbusy j (Nat.lt_succ_of_lt hj)
  obtain ⟨t, hpoll, ht⟩ := hv.pollAt hlen
  have hnot : eeDone t.cfg (byteFrom bits (8 * (p + more))) = false := by
    rw [ht.cfg]
    exact eeDone_eq_false (hbusy more (Nat.lt_succ_self more))
  rw [List.append_assoc, ← eePollsEvents_succ] at ht
  obtain ⟨l, hran, -, hleaves⟩ := ht
  refine ⟨l, hran, ?_⟩
  rw [Nat.zero_add] at hloop
  rw [hloop, eePollLoop, Op.bind_ok hpoll, Op.bind_ok (Op.ask_run _ t), if_neg (by simp [hnot])]
  exact raise_leaves hleaves _ _ _ _

/-- A cell's write up to its poll loop. -/
theorem State.Writing.setup (h : g.Writing answers es k u) (e : Nat) (d : Byte) :
    ∃ t, g.Writing answers (es ++ eeWriteSetupEvents g.cfg.codes e d) 0 t ∧
      eeWriteCell e d u = (do eePollLoop e d (g.seq.pollCap - 1); Machine.sendCore CoreWords.bcfWren : Op Unit) t := by
  obtain ⟨v, hsetup, hv⟩ := h.sendCores (eeSetupCores e d)
  rw [eeSetupCores_events] at hv
  obtain ⟨t, hclear, ht⟩ := hv.clearPolls
  refine ⟨t, ht, ?_⟩
  rw [eeWriteCell_eq, Op.bind_ok hsetup, Op.bind_ok hclear, Op.bind_ok (Op.ask_run _ t), ht.pollCap]

/-- A cell that the target finishes at its `k`-th poll, within the cap. -/
theorem State.Writing.cell {n : Nat} (h : g.Writing (bits.drop (8 * p) ++ rest) es n u) (e : Nat) (d : Byte)
    (hk : 1 ≤ k) (hcap : k ≤ g.seq.pollCap) (hlen : 8 * (p + k) ≤ bits.length) (hdone : cellDone g.cfg bits p k) :
    ∃ t, eeWriteCell e d u = .ok () t ∧
      g.Writing (bits.drop (8 * (p + k)) ++ rest) (es ++ eeWriteCellEvents g.cfg.codes e d bits p k) k t := by
  obtain ⟨v, hv, hcell⟩ := h.setup e d
  obtain ⟨w, hloop, hw⟩ := hv.pollsDone e d (more := g.seq.pollCap - 1) hk (by omega) hlen hdone
  obtain ⟨t, hclear, ht⟩ := hw.sendCore CoreWords.bcfWren
  refine ⟨t, by rw [hcell, Op.bind_ok hloop, hclear], ?_⟩
  rwa [eeWriteCellEvents_eq, ← List.append_assoc, ← List.append_assoc]

/-- A cell that still reads busy at the cap, after which write-enable is not cleared. -/
theorem State.Writing.cellTimeout {n : Nat} (h : g.Writing (bits.drop (8 * p) ++ rest) es n u) (e : Nat) (d : Byte)
    (hlen : 8 * (p + g.seq.pollCap) ≤ bits.length)
    (hbusy : ∀ j < g.seq.pollCap, (byteFrom bits (8 * (p + j))).getLsbD g.cfg.eeBusyBit = true) :
    ∃ l : LinkSide,
      g.link.Ran l (es ++ eeWriteSetupEvents g.cfg.codes e d ++ eePollsEvents g.cfg.codes bits p g.seq.pollCap) ∧
      eeWriteCell e d u =
        .error .ended ((g.withPolls l g.seq.pollCap).withCause
          .eeTimeout (BitVec.ofNat 24 e) (d.setWidth 16) ((byteFrom bits (8 * (p + g.seq.pollCap - 1))).setWidth 16)) := by
  have hpos : 1 ≤ g.seq.pollCap := Nat.le_max_right _ _
  obtain ⟨v, hv, hcell⟩ := h.setup e d
  generalize g.seq.pollCap = cap at hpos hlen hbusy hcell ⊢
  obtain ⟨more, rfl⟩ := Nat.exists_eq_add_of_le' hpos
  obtain ⟨l, hran, hloop⟩ := hv.pollsTimeout e d hlen hbusy
  exact ⟨l, hran, by rw [hcell, Nat.add_sub_cancel, Op.bind_error hloop]; rfl⟩

/-! ## The cells in turn (47_eeprom R243) -/

/-- The byte that is programmed into a cell, where the engine needs no entry or the entry has been loaded. -/
theorem State.Writing.sourceByte (h : g.Writing answers es k u)
    (hload : g.cfg.eeZeroBug = true ∨ (g.mem.entry8 .eeImg e).isSome) : eeSourceByte e u = .ok (eeByte g e) u := by
  cases hz : g.cfg.eeZeroBug with
  | true =>
    rw [eeSourceByte, Op.bind_ok (Op.ask_run _ u), h.cfg, hz, eeByte, hz]
    rfl
  | false =>
    obtain ⟨v, hv⟩ := Option.isSome_iff_exists.1 (hload.resolve_left (by simp [hz]))
    rw [eeSourceByte_eq (by rw [h.cfg, hz]), memRead8_ok (by rw [h.mem, hv]), eeByte, hz, hv]
    rfl

theorem getLastD_take_succ {ks : List Nat} {j : Nat} (hj : j < ks.length) :
    (ks.take (j + 1)).getLastD 0 = ks.getD j 0 := by
  rw [List.take_add_one, List.getElem?_eq_getElem hj, Option.toList_some, List.getLastD_concat,
    List.getD_eq_getElem _ _ hj]

/-- The events of cell `e` in a write of the cells of `ks`. -/
def eeCellEvents (g : State) (ks : List Nat) (bits : List Bool) (e : Nat) : List LinkEvent :=
  eeWriteCellEvents g.cfg.codes e (eeByte g e) bits (ks.take e).sum (ks.getD e 0)

theorem eeCellsEvents_eq (g : State) (ks : List Nat) (bits : List Bool) :
    eeCellsEvents g ks bits = (List.range ks.length).flatMap (eeCellEvents g ks bits) := rfl

/-- The cells of `ks` are written, each in its polls, where their entries have been loaded. -/
theorem State.Writing.cells {ks : List Nat} (h : g.Writing (bits ++ rest) [] 0 u)
    (hload : ∀ j < ks.length, g.cfg.eeZeroBug = true ∨ (g.mem.entry8 .eeImg j).isSome)
    (hks : cellsDone g.cfg ks bits g.seq.pollCap) (hlen : 8 * ks.sum ≤ bits.length) :
    ∃ t, forUp eepromWriteOne ks.length 0 u = .ok () t ∧
      g.Writing (bits.drop (8 * ks.sum) ++ rest) (eeCellsEvents g ks bits) (ks.getLastD 0) t := by
  obtain ⟨t, hrun, ht⟩ := forUp_ok (f := eepromWriteOne)
    (P := fun j u => g.Writing (bits.drop (8 * (ks.take j).sum) ++ rest)
      ((List.range j).flatMap (eeCellEvents g ks bits)) ((ks.take j).getLastD 0) u)
    ks.length 0 (fun j u _ hj hu => by
      rw [Nat.zero_add] at hj
      obtain ⟨hk, hcap, hdone⟩ := hks j hj
      have hle := sum_take_le ks (j + 1)
      rw [getLastD_take_succ hj, flatMap_range_succ]
      rw [sum_take_succ] at hle ⊢
      rw [eepromWriteOne, Op.bind_ok (hu.sourceByte (hload j hj))]
      exact hu.cell j (eeByte g j) hk hcap (by omega) hdone) h
  rw [Nat.zero_add, List.take_length, ← eeCellsEvents_eq] at ht
  exact ⟨t, hrun, ht⟩

end

/-- What EEPROM_WRITE begins with. -/
theorem acceptEepromWrite_writing {s : State} (hquiet : s.quiet) {answers : List Bool}
    (hpartner : s.link.partner = .oracle answers) :
    (s.accept 0x41).complete.Writing answers [] 0 (s.accept 0x41) :=
  ⟨s.link, .refl _, hpartner, State.Leaves.accept hquiet 0x41⟩

/-- EEPROM_WRITE in a session with an identity is its loop over the cells. -/
theorem exec_eepromWrite {s : State} (hs : s.engineReady) :
    exec .eepromWrite s = finish (forUp eepromWriteOne s.cfg.eeSize 0 (s.accept 0x41)) := by
  obtain ⟨⟨hidle, hsession, hquiet⟩, hid⟩ := hs
  exact issue_quiet hidle hquiet eepromWriteBody (issueCheck_engine hsession hid)

/-- Settles O43: every cell of the EEPROM is one of `ks`. -/
theorem eepromWriteResult : Obligations.EepromWriteResult := by
  intro s ks bits rest hs hload hcells hks hlen hpartner
  have ⟨⟨_, _, hquiet⟩, _⟩ := hs
  obtain ⟨t, hrun, l, hran, -, ht⟩ := (acceptEepromWrite_writing hquiet hpartner).cells
    (fun j hj => hload.imp_right fun hloaded => hloaded j (hcells ▸ hj)) hks hlen.ge
  refine ⟨l, hran, ?_⟩
  rw [exec_eepromWrite hs, ← hcells, hrun, finish, ht.complete]
  rfl

/-- Settles O44: the cells of `ks` are written, and the next one times out. -/
theorem eepromWriteTimeout : Obligations.EepromWriteTimeout := by
  rintro s e cap ks bits rest hs hload he rfl rfl hks hlen hpartner hbusy
  have ⟨⟨_, _, hquiet⟩, _⟩ := hs
  have hloaded : ∀ j ≤ ks.length, s.cfg.eeZeroBug = true ∨ (s.mem.entry8 .eeImg j).isSome :=
    fun j hj => hload.imp_right fun hloaded => hloaded j hj
  obtain ⟨t, hrun, ht⟩ := (acceptEepromWrite_writing hquiet hpartner).cells (fun j hj => hloaded j hj.le) hks
    (by omega)
  obtain ⟨l, hran, hcell⟩ := ht.cellTimeout ks.length (eeByte s ks.length) hlen.ge hbusy
  have hturn := (Op.bind_ok (f := eeWriteCell ks.length) (ht.sourceByte (hloaded _ (Nat.le_refl _)))).trans hcell
  obtain ⟨m, hm⟩ := Nat.exists_eq_add_of_lt he
  refine ⟨l, hran, ?_⟩
  rw [exec_eepromWrite hs, hm, Nat.add_assoc, forUp_add _ _ (m + 1) _ hrun, Nat.zero_add, forUp, eepromWriteOne,
    Op.bind_error hturn]
  rfl

end Sys2Proof.Machine

/-! PROOF of O58. A language of event sequences, closed under their beginnings, and the rule of each procedure that keeps
a run within it whatever the host does: a run that ends has emitted the procedure's events, and one that halts has emitted
a beginning that the language holds. Then the language of a cell's write. -/

namespace Sys2Proof.Machine

/-! ## What a run has emitted -/

/-- A run that began in `b` and passes over no action has emitted `es`, and the poll counter is `n`. -/
structure State.Sent (b : State) (es : List LinkEvent) (n : Word) (u : State) : Prop where
  performing : u.seq.replaying = false
  cfg : u.cfg = b.cfg
  pollMax : u.seq.pollMax = b.seq.pollMax
  polls : u.seq.polls = n
  trace : u.link.trace = es.reverse ++ b.link.trace

/-- However a run that began in `b` halts, it has emitted a sequence in `V`. -/
def State.HaltsIn (b : State) (V : List LinkEvent → Prop) (_ : Halt) (t : State) : Prop :=
  ∃ es, V es ∧ t.link.trace = es.reverse ++ b.link.trace

section

variable {b : State} {V : List LinkEvent → Prop} {es : List LinkEvent} {n : Word}

theorem State.Sent.start (h : b.seq.replaying = false) : b.Sent [] b.seq.polls b := ⟨h, rfl, rfl, rfl, rfl⟩

theorem State.Sent.pollCap {u : State} (h : b.Sent es n u) : u.seq.pollCap = b.seq.pollCap := by
  rw [Sequencer.pollCap, h.pollMax, Sequencer.pollCap]

/-- What a host access can change is none of it. -/
theorem State.Sent.veil {u t : State} (h : b.Sent es n u) (hv : t.veil = u.veil) : b.Sent es n t := by
  have hseq : t.seq = u.seq := State.seq_of_veil hv
  have hcfg : t.cfg = u.cfg := State.congr_veil (fun _ => rfl) hv
  have hlink : t.link = u.link := State.congr_veil (fun _ => rfl) hv
  exact ⟨hseq ▸ h.performing, hcfg.trans h.cfg, hseq ▸ h.pollMax, hseq ▸ h.polls, hlink ▸ h.trace⟩

/-! ## Host accesses during the run (20_memory R63, 70_reset R322) -/

/-- An access that takes place stays behind the veil, and neither a refused one nor a reset takes back an event. -/
theorem busyAct_veil (a : HostAct) (u : State) :
    Op.EndsIn (fun _ t => t.veil = u.veil) (fun _ t => t.link.trace = u.link.trace) (busyAct a u) := by
  cases a with
  | read o w =>
    by_cases h : accessDefined o w
    · rw [show busyAct (.read o w) u = .ok () (u.busyRead o) from if_pos h]
      exact u.busyRead_veil o
    · rw [show busyAct (.read o w) u = .error (.refused (.undefinedAccess o w)) u from if_neg h]
      rfl
  | write o w v =>
    by_cases h : accessDefined o w
    · rw [show busyAct (.write o w v) u = .ok () (u.busyWrite o v) from if_pos h]
      exact u.busyWrite_veil o v
    · rw [show busyAct (.write o w v) u = .error (.refused (.undefinedAccess o w)) u from if_neg h]
      rfl
  | reset => rfl

theorem busyAct_sent (hes : V es) (a : HostAct) :
    Op.Leads (b.Sent es n) (busyAct a) (fun _ => b.Sent es n) (b.HaltsIn V) := by
  refine ⟨fun u hu => ?_⟩
  have h := busyAct_veil a u
  cases hr : busyAct a u with
  | ok x t =>
    rw [hr] at h
    exact hu.veil h
  | error e t =>
    rw [hr] at h
    exact ⟨es, hes, h.trans hu.trace⟩

theorem serveDue_sent (hes : V es) (is : List Input) :
    Op.Leads (b.Sent es n) (serveDue is) (fun _ => b.Sent es n) (b.HaltsIn V) := by
  induction is with
  | nil => exact ⟨fun _ hu => hu⟩
  | cons i rest ih =>
    obtain ⟨_ | _ | m, a⟩ := i
    · exact ⟨fun _ hu => hu⟩
    · have hupdate : Op.Leads (b.Sent es n) (update fun s => s.withInputs rest) (fun _ => b.Sent es n) (b.HaltsIn V) :=
        .update fun _ hu => hu.veil rfl
      exact hupdate.bind fun _ => (busyAct_sent hes a).bind fun _ => ih
    · exact ⟨fun _ hu => hu⟩

theorem hostWindow_sent (hes : V es) :
    Op.Leads (b.Sent es n) hostWindow (fun _ => b.Sent es n) (b.HaltsIn V) := by
  refine ⟨fun u hu => ?_⟩
  unfold hostWindow
  split
  · exact (serveDue_sent hes _).run u hu
  · exact hu

/-! ## Actions -/

/-- An action whose effect takes the run from `es` to `fs` has done so when the host's accesses come. -/
theorem act_sent {f : State → State} {fs : List LinkEvent} {m : Word} (hfs : V fs)
    (hf : ∀ u, b.Sent es n u → b.Sent fs m (f u)) :
    Op.Leads (b.Sent es n) (act f) (fun _ => b.Sent fs m) (b.HaltsIn V) := by
  refine ⟨fun u hu => ?_⟩
  rw [act_performed hu.performing]
  exact (hostWindow_sent hfs).run _ ((hf u hu).veil (State.tick_veil _))

theorem assignPolls_sent (hes : V es) (f : Word → Word) :
    Op.Leads (b.Sent es n) (assign fun s => s.setPolls (f s.seq.polls)) (fun _ => b.Sent es (f n)) (b.HaltsIn V) :=
  act_sent hes fun _ hu =>
    ⟨(Sequencer.forth_replaying _ _).trans hu.performing, hu.cfg, hu.pollMax, congrArg f hu.polls, hu.trace⟩

theorem emit_sent {e : LinkEvent} (he : V (es ++ [e])) :
    Op.Leads (b.Sent es n) (emit e) (fun _ => b.Sent (es ++ [e]) n) (b.HaltsIn V) :=
  act_sent (f := fun s => s.record e) he fun u hu =>
    ⟨(Sequencer.forth_replaying _ _).trans hu.performing, hu.cfg, hu.pollMax, hu.polls, by
      rw [List.reverse_concat, List.cons_append, ← hu.trace]
      rfl⟩

end

section

variable {b : State} {V : List LinkEvent → Prop} {es : List LinkEvent} {n : Word}
  {α β : Type} {P : State → Prop} {Q : β → State → Prop} {E : Halt → State → Prop}

/-! ## Looking, and values of a run -/

/-- A look at what every state of the run has the same. -/
theorem Op.Leads.look {f : State → α} {x : α → Op β} {a : α} (hf : ∀ u, P u → f u = a)
    (hx : Op.Leads P (x a) Q E) :
    Op.Leads P (Machine.ask f >>= x) Q E := by
  refine ⟨fun u hu => ?_⟩
  rw [Op.bind_ok (Op.ask_run f u), hf u hu]
  exact hx.run u hu

theorem Op.Leads.of_and {p : Prop} {x : Op β} (h : p → Op.Leads P x Q E) : Op.Leads (fun u => p ∧ P u) x Q E :=
  ⟨fun u ⟨hp, hu⟩ => (h hp).run u hu⟩

theorem Op.Leads.of_exists {ι : Type} {p : ι → Prop} {R : ι → State → Prop} {x : Op β}
    (h : ∀ i, p i → Op.Leads (R i) x Q E) : Op.Leads (fun u => ∃ i, p i ∧ R i u) x Q E :=
  ⟨fun u ⟨i, hu⟩ => (of_and (h i)).run u hu⟩

theorem Op.Leads.of_imp {x : Op β} {R : β → State → Prop} (h : Op.Leads P x Q E) (hQ : ∀ a u, Q a u → R a u) :
    Op.Leads P x R E :=
  h.mono (fun _ hu => hu) hQ fun _ _ he => he

/-- A value that is returned, where the run stands. -/
theorem Op.Leads.returns {a : β} (h : ∀ u, P u → Q a u) : Op.Leads P (Pure.pure a) Q E := ⟨h⟩

/-- The receive register is no part of what is emitted. -/
theorem keepRx_sent (w : Word) : Op.Leads (b.Sent es n) (keepRx w) (fun _ => b.Sent es n) E := by
  refine ⟨fun u hu => ?_⟩
  rw [keepRx, if_neg (by simp [hu.performing])]
  exact ⟨hu.performing, hu.cfg, hu.pollMax, hu.polls, hu.trace⟩

/-- A sample, whatever bit it takes (20_memory R64). -/
theorem sample_sent (h : ∀ v, V (es ++ [.sample v])) :
    Op.Leads (b.Sent es n) sample (fun v => b.Sent (es ++ [.sample v]) n) (b.HaltsIn V) := by
  have hbit : Op.Leads (b.Sent es n) sampledBit (fun _ => b.Sent es n) (b.HaltsIn V) := by
    refine ⟨fun u hu => ?_⟩
    have htrace : (u.link.draw u.cfg).2.trace = u.link.trace := by
      unfold LinkSide.draw
      split <;> (try split) <;> rfl
    rw [sampledBit, if_neg (by simp [hu.performing])]
    exact ⟨hu.performing, hu.cfg, hu.pollMax, hu.polls, htrace.trans hu.trace⟩
  exact hbit.bind fun v => (emit_sent (h v)).bind fun _ => .returns fun _ hu => hu

end

section

variable {b : State} {V : List LinkEvent → Prop} (hV : ∀ es fs, V (es ++ fs) → V es) {es : List LinkEvent}
  {n : Word}
include hV

/-! ## Link transactions -/

theorem emitAll_sent {fs : List LinkEvent} (hfs : V (es ++ fs)) :
    Op.Leads (b.Sent es n) (emitAll fs) (fun _ => b.Sent (es ++ fs) n) (b.HaltsIn V) := by
  induction fs generalizing es with
  | nil => exact .returns fun u hu => by rwa [List.append_nil]
  | cons e fs ih =>
    rw [List.append_cons] at hfs ⊢
    exact (emit_sent (hV _ _ hfs)).bind fun _ => ih hfs

theorem inCell_sent (h : ∀ v, V (es ++ inCellEvents v)) :
    Op.Leads (b.Sent es n) inCell (fun v => b.Sent (es ++ inCellEvents v) n) (b.HaltsIn V) := by
  simp only [inCellEvents, ← List.append_assoc] at h ⊢
  exact (emitAll_sent hV (hV _ _ (hV _ _ (h false)))).bind fun _ =>
    (sample_sent fun v => hV _ _ (h v)).bind fun v => (emitAll_sent hV (h v)).bind fun _ => .returns fun _ hu => hu

theorem inBits_sent (k : Nat) (h : ∀ bs : List Bool, bs.length = k → V (es ++ bs.flatMap inCellEvents)) :
    Op.Leads (b.Sent es n) (inBits k)
      (fun bs u => bs.length = k ∧ b.Sent (es ++ bs.flatMap inCellEvents) n u) (b.HaltsIn V) := by
  induction k generalizing es with
  | zero => exact .returns fun u hu => ⟨rfl, by rwa [List.flatMap_nil, List.append_nil]⟩
  | succ k ih =>
    have hcons (v : Bool) (bs : List Bool) :
        es ++ (v :: bs).flatMap inCellEvents = es ++ inCellEvents v ++ bs.flatMap inCellEvents := by
      rw [List.flatMap_cons, List.append_assoc]
    have hcell (v : Bool) : V (es ++ inCellEvents v) :=
      hV _ _ (hcons v (List.replicate k false) ▸ h _ (by rw [List.length_cons, List.length_replicate]))
    refine (inCell_sent hV hcell).bind fun v => ?_
    refine (ih fun bs hbs => hcons v bs ▸ h _ (by rw [List.length_cons, hbs])).bind fun bs => ?_
    exact .returns fun u ⟨hbs, hu⟩ => ⟨by rw [List.length_cons, hbs], hcons v bs ▸ hu⟩

theorem readWord_sent (h : ∀ bits : List Bool, bits.length = 8 → V (es ++ readWordEvents bits)) :
    Op.Leads (b.Sent es n) readWord
      (fun _ u => ∃ bits : List Bool, bits.length = 8 ∧ b.Sent (es ++ readWordEvents bits) n u) (b.HaltsIn V) := by
  simp only [readWordEvents, ← List.append_assoc] at h ⊢
  have hlead : V (es ++ readLeadEvents) := hV _ _ (hV _ _ (h (List.replicate 8 false) rfl))
  refine (emitAll_sent hV hlead).bind fun _ => ?_
  refine (inBits_sent hV 8 fun bits hlen => hV _ _ (h bits hlen)).bind fun bits => ?_
  refine .of_and fun hlen => (emitAll_sent hV (h bits hlen)).bind fun _ => (keepRx_sent _).bind fun _ => ?_
  exact .returns fun u hu => ⟨bits, hlen, hu⟩

theorem readTxn_sent (c : Nibble) (h : ∀ bits : List Bool, bits.length = 8 → V (es ++ readTxnEvents c bits)) :
    Op.Leads (b.Sent es n) (readTxn c)
      (fun _ u => ∃ bits : List Bool, bits.length = 8 ∧ b.Sent (es ++ readTxnEvents c bits) n u) (b.HaltsIn V) := by
  simp only [readTxnEvents, ← List.append_assoc] at h ⊢
  have hcmd : V (es ++ sendCmdEvents c) := hV _ _ (h (List.replicate 8 false) rfl)
  exact (emitAll_sent hV hcmd).bind fun _ => (readWord_sent hV h).bind fun _ => .returns fun _ hu => hu

theorem readIcsp_sent (f : IcspCodes → Nibble)
    (h : ∀ bits : List Bool, bits.length = 8 → V (es ++ readTxnEvents (f b.cfg.codes.icsp) bits)) :
    Op.Leads (b.Sent es n) (readIcsp f) (fun _ u => ∃ bits : List Bool, bits.length = 8 ∧
      b.Sent (es ++ readTxnEvents (f b.cfg.codes.icsp) bits) n u) (b.HaltsIn V) :=
  .look (a := b.cfg.codes.icsp) (fun _ hu => by rw [hu.cfg]) (readTxn_sent hV _ h)

theorem sendCore_sent (f : CoreWords → Word) (h : V (es ++ coreEvents b.cfg.codes [f b.cfg.codes.core])) :
    Op.Leads (b.Sent es n) (sendCore f) (fun _ => b.Sent (es ++ coreEvents b.cfg.codes [f b.cfg.codes.core]) n)
      (b.HaltsIn V) := by
  rw [coreEvents_single] at h ⊢
  exact .look (a := b.cfg.codes) (fun _ hu => by rw [hu.cfg]) (emitAll_sent hV h)

theorem sendCores_sent (fs : List (CoreWords → Word))
    (h : V (es ++ coreEvents b.cfg.codes (fs.map fun f => f b.cfg.codes.core))) :
    Op.Leads (b.Sent es n) (sendCores fs)
      (fun _ => b.Sent (es ++ coreEvents b.cfg.codes (fs.map fun f => f b.cfg.codes.core)) n) (b.HaltsIn V) := by
  induction fs generalizing es with
  | nil => exact .returns fun u hu => by simpa [coreEvents] using hu
  | cons f fs ih =>
    rw [List.map_cons, coreEvents_cons, ← List.append_assoc] at h ⊢
    exact (sendCore_sent hV f (hV _ _ h)).bind fun _ => ih h

theorem eeSetup_sent {e : Nat} {d : Byte} (h : V (eeWriteSetupEvents b.cfg.codes e d)) :
    Op.Leads (b.Sent [] n) (sendCores (eeSetupCores e d)) (fun _ => b.Sent (eeWriteSetupEvents b.cfg.codes e d) n)
      (b.HaltsIn V) := by
  rw [← eeSetupCores_events] at h ⊢
  exact sendCores_sent hV (es := []) _ h

/-- A poll, whatever it reads: it counts. -/
theorem eePoll_sent (h : ∀ bits : List Bool, bits.length = 8 → V (es ++ eePollEvents b.cfg.codes bits)) :
    Op.Leads (b.Sent es n) eePoll (fun _ u => ∃ bits : List Bool, bits.length = 8 ∧
      b.Sent (es ++ eePollEvents b.cfg.codes bits) (n + 1) u) (b.HaltsIn V) := by
  rw [eePoll_eq]
  simp only [eePollEvents, ← List.append_assoc] at h ⊢
  refine (sendCores_sent hV eePollCores (hV _ _ (h (List.replicate 8 false) rfl))).bind fun _ => ?_
  refine (readIcsp_sent hV IcspCodes.shiftOutTablat h).bind fun st => ?_
  refine .of_exists fun bits hlen => ?_
  exact (assignPolls_sent (h bits hlen) (· + 1)).bind fun _ => .returns fun u hu => ⟨bits, hlen, hu⟩

end

/-! ## The polls of a cell (47_eeprom R241) -/

section

variable {b : State} {e cap k : Nat} {d : Byte} {bits bs : List Bool}

/-- `es` begins the write of cell `e` with some number of polls from 1 to `cap`. -/
def BeginsCell (c : Codes) (e : Nat) (d : Byte) (cap : Nat) (es : List LinkEvent) : Prop :=
  ∃ bits k after, 1 ≤ k ∧ k ≤ cap ∧ bits.length = 8 * k ∧ es ++ after = eeWriteCellEvents c e d bits 0 k

theorem BeginsCell.left {c : Codes} (es fs : List LinkEvent) (h : BeginsCell c e d cap (es ++ fs)) :
    BeginsCell c e d cap es := by
  obtain ⟨bits, k, after, hk, hcap, hlen, hwhole⟩ := h
  exact ⟨bits, k, fs ++ after, hk, hcap, hlen, by rw [← List.append_assoc, hwhole]⟩

/-- The whole of a cell's write. -/
theorem BeginsCell.whole (c : Codes) (e : Nat) (d : Byte) (hk : 1 ≤ k) (hcap : k ≤ cap)
    (hlen : bits.length = 8 * k) :
    BeginsCell c e d cap (eeWriteSetupEvents c e d ++ eePollsEvents c bits 0 k ++ coreEvents c [c.core.bcfWren]) :=
  ⟨bits, k, [], hk, hcap, hlen, List.append_nil _⟩

/-- The bits of one more poll change nothing about the polls before it. -/
theorem eePollsEvents_snoc (c : Codes) (hlen : bits.length = 8 * k) (hbs : bs.length = 8) :
    eePollsEvents c (bits ++ bs) 0 (k + 1) = eePollsEvents c bits 0 k ++ eePollEvents c bs := by
  have hbefore : ∀ j ∈ List.range k,
      eePollEvents c (slice8 (bits ++ bs) (8 * (0 + j))) = eePollEvents c (slice8 bits (8 * (0 + j))) := fun j hj => by
    have hlt := List.mem_range.1 hj
    rw [slice8_append_left (by omega)]
  rw [eePollsEvents_succ, eePollsEvents, List.flatMap_congr hbefore, Nat.zero_add, slice8_append_right hlen hbs,
    eePollsEvents]

/-- The run has set cell `e` up and polled it `k` times. -/
def State.CellPolled (b : State) (e : Nat) (d : Byte) (k : Nat) (u : State) : Prop :=
  ∃ bits : List Bool, bits.length = 8 * k ∧
    b.Sent (eeWriteSetupEvents b.cfg.codes e d ++ eePollsEvents b.cfg.codes bits 0 k) (BitVec.ofNat 16 k) u

theorem eePoll_polled (hcap : k + 1 ≤ cap) :
    Op.Leads (b.CellPolled e d k) eePoll (fun _ => b.CellPolled e d (k + 1))
      (b.HaltsIn (BeginsCell b.cfg.codes e d cap)) := by
  refine .of_exists fun bits hlen => ?_
  have hsnoc (bs : List Bool) (hbs : bs.length = 8) :
      eeWriteSetupEvents b.cfg.codes e d ++ eePollsEvents b.cfg.codes bits 0 k ++ eePollEvents b.cfg.codes bs =
        eeWriteSetupEvents b.cfg.codes e d ++ eePollsEvents b.cfg.codes (bits ++ bs) 0 (k + 1) := by
    rw [eePollsEvents_snoc _ hlen hbs, List.append_assoc]
  have hlen' (bs : List Bool) (hbs : bs.length = 8) : (bits ++ bs).length = 8 * (k + 1) := by
    rw [List.length_append, hlen, hbs, Nat.mul_succ]
  refine (eePoll_sent BeginsCell.left fun bs hbs => ?language).of_imp fun _ u ⟨bs, hbs, hu⟩ => ?polled
  case language =>
    rw [hsnoc bs hbs]
    exact .left _ _ (.whole b.cfg.codes e d (Nat.le_add_left 1 k) hcap (hlen' bs hbs))
  case polled =>
    rw [hsnoc bs hbs] at hu
    exact ⟨bits ++ bs, hlen' bs hbs, BitVec.ofNat_add k 1 ▸ hu⟩

/-- A timeout emits nothing. -/
theorem raise_polled {Q : Unit → State → Prop} (hk : 1 ≤ k) (hcap : k ≤ cap) (c : Cause) (a : Addr) (x v : Word) :
    Op.Leads (b.CellPolled e d k) (raise c a x v) Q (b.HaltsIn (BeginsCell b.cfg.codes e d cap)) :=
  ⟨fun _ ⟨_, hlen, hu⟩ => ⟨_, .left _ _ (.whole b.cfg.codes e d hk hcap hlen), hu.trace⟩⟩

/-- The poll loop that may go on to the cap ends with at least one poll more and at most the cap. -/
theorem eePollLoop_polled {more : Nat} (hcap : k + more + 1 ≤ cap) :
    Op.Leads (b.CellPolled e d k) (eePollLoop e d more)
      (fun _ u => ∃ j, (1 ≤ j ∧ j ≤ cap) ∧ b.CellPolled e d j u) (b.HaltsIn (BeginsCell b.cfg.codes e d cap)) := by
  induction more generalizing k with
  | zero =>
    refine (eePoll_polled hcap).bind fun st => .look (a := b.cfg) (fun _ ⟨_, _, hu⟩ => hu.cfg) ?_
    split
    · exact .returns fun u hu => ⟨k + 1, ⟨Nat.le_add_left 1 k, hcap⟩, hu⟩
    · exact raise_polled (Nat.le_add_left 1 k) hcap _ _ _ _
  | succ more ih =>
    refine (eePoll_polled (by omega)).bind fun st => .look (a := b.cfg) (fun _ ⟨_, _, hu⟩ => hu.cfg) ?_
    split
    · exact .returns fun u hu => ⟨k + 1, ⟨Nat.le_add_left 1 k, by omega⟩, hu⟩
    · exact ih (by omega)

theorem State.Sent.cellPolled_zero {u : State} (h : b.Sent (eeWriteSetupEvents b.cfg.codes e d) 0 u) :
    b.CellPolled e d 0 u :=
  ⟨[], rfl, by rwa [eePollsEvents_zero, List.append_nil]⟩

/-- A cell's write, whatever the target answers and the host does. -/
theorem eeWriteCell_sent (b : State) (e : Nat) (d : Byte) {n : Word} :
    Op.Leads (b.Sent [] n) (eeWriteCell e d)
      (fun _ t => ∃ bits k, 1 ≤ k ∧ k ≤ b.seq.pollCap ∧ bits.length = 8 * k ∧
        b.Sent (eeWriteCellEvents b.cfg.codes e d bits 0 k) (BitVec.ofNat 16 k) t)
      (b.HaltsIn (BeginsCell b.cfg.codes e d b.seq.pollCap)) := by
  have hpos : 1 ≤ b.seq.pollCap := Nat.le_max_right _ _
  have hbegins : BeginsCell b.cfg.codes e d b.seq.pollCap (eeWriteSetupEvents b.cfg.codes e d) :=
    .left _ _ (.left _ _ (.whole b.cfg.codes e d (bits := List.replicate 8 false) (Nat.le_refl 1) hpos rfl))
  rw [eeWriteCell_eq]
  refine (eeSetup_sent BeginsCell.left hbegins).bind fun _ => ?_
  refine ((assignPolls_sent hbegins fun _ => 0).of_imp fun _ _ hu => hu.cellPolled_zero).bind fun _ => ?_
  refine .look (a := b.seq.pollCap) (fun u ⟨_, _, hu⟩ => hu.pollCap) ?_
  refine (eePollLoop_polled (by omega)).bind fun _ => .of_exists fun k ⟨hk, hcap⟩ => .of_exists fun bits hlen => ?_
  refine (sendCore_sent BeginsCell.left CoreWords.bcfWren (.whole b.cfg.codes e d hk hcap hlen)).of_imp fun _ t ht => ?_
  exact ⟨bits, k, hk, hcap, hlen, ht⟩

end

/-- Settles O58: how a cell's write ends or halts, its beginnings split where it halts. -/
theorem pollCap : Obligations.PollCap := by
  rintro s t e d cap hs rfl
  have hrun := (eeWriteCell_sent s e d).run s (.start hs)
  refine ⟨fun hok => ?ended, fun h herror => ?halted⟩
  case ended =>
    rw [hok] at hrun
    obtain ⟨bits, k, hk, hcap, hlen, ht⟩ := hrun
    exact ⟨bits, k, hk, hcap, hlen, ht.polls, ht.trace⟩
  case halted =>
    rw [herror] at hrun
    obtain ⟨before, ⟨bits, k, after, hk, hcap, hlen, hwhole⟩, htrace⟩ := hrun
    exact ⟨bits, k, before, after, hk, hcap, hlen, hwhole, htrace⟩

end Sys2Proof.Machine

/-! PROOF of the configuration register and user-ID reads O46 and O47: each slot or byte that is read adds its bits to
those of the whole run, and its own bytes are the only ones of the buffers that it writes. -/

namespace Sys2Proof.Machine

section

variable {u g : State} {l l' : LinkSide} {m : Memory} {bits bs : List Bool} {n : Nat}

/-! ## DUMP_CONFIG (48_config R260) -/

/-- The first `n` slots read (48_config R255). -/
def slotsReadEvents (c : Codes) (bits : List Bool) (n : Nat) : List LinkEvent :=
  (List.range n).flatMap fun i =>
    gotoAddressEvents c (slotAddr i) ++ readPairEvents c.icsp.tblrdPostinc c.icsp.tblrd bits (16 * i)

theorem dumpConfigEvents_eq (c : Codes) (bits : List Bool) : dumpConfigEvents c bits = slotsReadEvents c bits 8 := rfl

/-- The bits of one more slot change nothing about the slots before it. -/
theorem slotsReadEvents_snoc (c : Codes) (h : bits.length = 16 * n) (hbs : bs.length = 16) :
    slotsReadEvents c (bits ++ bs) (n + 1) = slotsReadEvents c bits n ++
      (gotoAddressEvents c (slotAddr n) ++ readPairEvents c.icsp.tblrdPostinc c.icsp.tblrd bs 0) := by
  rw [slotsReadEvents, flatMap_range_succ, readPairEvents_append_right _ _ h hbs, slotsReadEvents]
  refine congrArg (· ++ _) (List.flatMap_congr fun i hi => ?_)
  have hlt := List.mem_range.1 hi
  rw [readPairEvents_append_left _ _ (by omega)]

/-- From `g` the first `n` slots have been read, with the bits `bits`, and stored: the link side is `l`, the buffers are
`m`. -/
structure State.SlotsDumped (g : State) (n : Nat) (bits : List Bool) (l : LinkSide) (m : Memory) : Prop where
  length : bits.length = 16 * n
  ran : g.link.Ran l (slotsReadEvents g.cfg.codes bits n)
  stored : ∀ i < n, m.entry16 .cfgRb i = some (wordFrom bits (16 * i))
  frame : ∀ b, (∀ i < n, b ≠ 0x120 + 4 * i ∧ b ≠ 0x120 + 4 * i + 1) → m.byte b = g.mem.byte b

theorem State.SlotsDumped.zero (g : State) : g.SlotsDumped 0 [] g.link g.mem :=
  ⟨rfl, .refl _, fun _ hi => absurd hi (Nat.not_lt_zero _), fun _ _ => rfl⟩

/-- The next slot is read and stored. -/
theorem State.SlotsDumped.succ (h : g.SlotsDumped n bits l m) (hbs : bs.length = 16)
    (hran : l.Ran l' (gotoAddressEvents g.cfg.codes (slotAddr n) ++
      readPairEvents g.cfg.codes.icsp.tblrdPostinc g.cfg.codes.icsp.tblrd bs 0)) :
    g.SlotsDumped (n + 1) (bits ++ bs) l' (m.setEntry16 .cfgRb n (wordFrom bs 0)) := by
  have hlen := h.length
  refine ⟨by rw [List.length_append, hlen, hbs, Nat.mul_succ], ?ran, fun i hi => ?stored, fun b hb => ?frame⟩
  case ran =>
    rw [slotsReadEvents_snoc _ hlen hbs]
    exact h.ran.trans hran
  case stored =>
    obtain hlt | rfl := Nat.lt_succ_iff_lt_or_eq.1 hi
    · rw [Memory.entry16_setEntry16_other _ _ hlt.ne, h.stored i hlt, wordFrom_append_left (by omega)]
    · rw [Memory.entry16_setEntry16, wordFrom_append_right hlen hbs]
  case frame =>
    obtain ⟨hlow, hhigh⟩ : b ≠ Window.cfgRb.addr n ∧ b ≠ Window.cfgRb.addr n + 1 := hb n (Nat.lt_succ_self n)
    rw [Memory.byte_setEntry16, if_neg hhigh, if_neg hlow, h.frame b fun i hi => hb i (Nat.lt_succ_of_lt hi)]

/-- One turn of DUMP_CONFIG. -/
theorem dumpSlot_turn (hdone : g.SlotsDumped n bits l m) (h : u.Leaves { g with link := l, mem := m }) :
    ∃ (bits' : List Bool) (l' : LinkSide) (m' : Memory), g.SlotsDumped (n + 1) bits' l' m' ∧
      Op.Reaches (dumpSlot n) u () { g with link := l', mem := m' } := by
  obtain ⟨bs, l', hbs, hran, hread⟩ := cfgReadSlot_reaches h n
  exact ⟨bits ++ bs, l', _, hdone.succ hbs hran, hread.bind fun _ ht => memWrite16_reaches ht .cfgRb n _⟩

/-- DUMP_CONFIG's pseudocode. -/
theorem dumpConfigBody_reaches (h : u.Leaves g) :
    ∃ (bits : List Bool) (l : LinkSide) (m : Memory), g.SlotsDumped 8 bits l m ∧
      Op.Reaches dumpConfigBody u () { g with link := l, mem := m } := by
  obtain ⟨t, hrun, bits, l, m, hdone, ht⟩ := forUp_ok (f := dumpSlot)
    (P := fun n u => ∃ (bits : List Bool) (l : LinkSide) (m : Memory),
      g.SlotsDumped n bits l m ∧ u.Leaves { g with link := l, mem := m })
    8 0 (fun n u _ _ ⟨_, _, _, hdone, hu⟩ => by
      obtain ⟨bits, l, m, hdone', t, hturn, ht⟩ := dumpSlot_turn hdone hu
      exact ⟨t, hturn, bits, l, m, hdone', ht⟩)
    ⟨[], g.link, g.mem, .zero g, h⟩
  exact ⟨bits, l, m, hdone, t, hrun, ht⟩

/-! ## DUMP_USER_ID (48_config R261) -/

/-- The first `n` user-ID bytes read. -/
def userBytesEvents (c : Codes) (bits : List Bool) (n : Nat) : List LinkEvent :=
  (List.range n).flatMap fun i => readTxnEvents c.icsp.tblrdPostinc (slice8 bits (8 * i))

theorem dumpUserIdEvents_eq (c : Codes) (bits : List Bool) :
    dumpUserIdEvents c bits = gotoAddressEvents c 0x200000 ++ userBytesEvents c bits 8 := rfl

/-- The bits of one more byte change nothing about the bytes before it. -/
theorem userBytesEvents_snoc (c : Codes) (h : bits.length = 8 * n) (hbs : bs.length = 8) :
    userBytesEvents c (bits ++ bs) (n + 1) = userBytesEvents c bits n ++ readTxnEvents c.icsp.tblrdPostinc bs := by
  rw [userBytesEvents, flatMap_range_succ, slice8_append_right h hbs, userBytesEvents]
  refine congrArg (· ++ _) (List.flatMap_congr fun i hi => ?_)
  have hlt := List.mem_range.1 hi
  rw [slice8_append_left (by omega)]

/-- From `g` the first `n` user-ID bytes have been read, with the bits `bits`, and stored: the link side is `l`, the
buffers are `m`. -/
structure State.UserBytesDumped (g : State) (n : Nat) (bits : List Bool) (l : LinkSide) (m : Memory) : Prop where
  length : bits.length = 8 * n
  ran : g.link.Ran l (userBytesEvents g.cfg.codes bits n)
  stored : ∀ i < n, m.entry8 .uidBuf i = some (byteFrom bits (8 * i))
  frame : ∀ b, (∀ i < n, b ≠ 0x140 + 4 * i) → m.byte b = g.mem.byte b

theorem State.UserBytesDumped.zero (g : State) : g.UserBytesDumped 0 [] g.link g.mem :=
  ⟨rfl, .refl _, fun _ hi => absurd hi (Nat.not_lt_zero _), fun _ _ => rfl⟩

/-- The next byte is read and stored. -/
theorem State.UserBytesDumped.succ (h : g.UserBytesDumped n bits l m) (hbs : bs.length = 8)
    (hran : l.Ran l' (readTxnEvents g.cfg.codes.icsp.tblrdPostinc bs)) :
    g.UserBytesDumped (n + 1) (bits ++ bs) l' (m.setEntry8 .uidBuf n (byteOfBits bs)) := by
  have hlen := h.length
  refine ⟨by rw [List.length_append, hlen, hbs, Nat.mul_succ], ?ran, fun i hi => ?stored, fun b hb => ?frame⟩
  case ran =>
    rw [userBytesEvents_snoc _ hlen hbs]
    exact h.ran.trans hran
  case stored =>
    obtain hlt | rfl := Nat.lt_succ_iff_lt_or_eq.1 hi
    · rw [Memory.entry8_setEntry8_other _ _ hlt.ne, h.stored i hlt, byteFrom_append_left (by omega)]
    · rw [Memory.entry8_setEntry8, byteFrom, slice8_append_right hlen hbs]
  case frame =>
    have hbyte : b ≠ Window.uidBuf.addr n := hb n (Nat.lt_succ_self n)
    rw [Memory.byte_setEntry8, if_neg hbyte, h.frame b fun i hi => hb i (Nat.lt_succ_of_lt hi)]

theorem readIcsp_reaches (h : u.Leaves g) (f : IcspCodes → Nibble) :
    ∃ (bs : List Bool) (l : LinkSide), bs.length = 8 ∧ g.link.Ran l (readTxnEvents (f g.cfg.codes.icsp) bs) ∧
      Op.Reaches (readIcsp f) u (byteOfBits bs) { g with link := l } := by
  obtain ⟨bs, l, hlen, hran, -, hrun⟩ := readIcsp_calm h.calm f
  rw [h.link, h.cfg] at hran
  exact ⟨bs, l, hlen, hran, _, hrun, h.ran l _⟩

/-- One turn of DUMP_USER_ID. -/
theorem dumpUserByte_turn (hdone : g.UserBytesDumped n bits l m) (h : u.Leaves { g with link := l, mem := m }) :
    ∃ (bits' : List Bool) (l' : LinkSide) (m' : Memory), g.UserBytesDumped (n + 1) bits' l' m' ∧
      Op.Reaches (dumpUserByte n) u () { g with link := l', mem := m' } := by
  obtain ⟨bs, l', hbs, hran, hread⟩ := readIcsp_reaches h IcspCodes.tblrdPostinc
  exact ⟨bits ++ bs, l', _, hdone.succ hbs hran, hread.bind fun _ ht => memWrite8_reaches ht .uidBuf n _⟩

/-- DUMP_USER_ID's loop. -/
theorem dumpUserBytes_reaches (h : u.Leaves g) :
    ∃ (bits : List Bool) (l : LinkSide) (m : Memory), g.UserBytesDumped 8 bits l m ∧
      Op.Reaches (forUp dumpUserByte 8 0) u () { g with link := l, mem := m } := by
  obtain ⟨t, hrun, bits, l, m, hdone, ht⟩ := forUp_ok (f := dumpUserByte)
    (P := fun n u => ∃ (bits : List Bool) (l : LinkSide) (m : Memory),
      g.UserBytesDumped n bits l m ∧ u.Leaves { g with link := l, mem := m })
    8 0 (fun n u _ _ ⟨_, _, _, hdone, hu⟩ => by
      obtain ⟨bits, l, m, hdone', t, hturn, ht⟩ := dumpUserByte_turn hdone hu
      exact ⟨t, hturn, bits, l, m, hdone', ht⟩)
    ⟨[], g.link, g.mem, .zero g, h⟩
  exact ⟨bits, l, m, hdone, t, hrun, ht⟩

/-- DUMP_USER_ID's pseudocode: the pointer is set once, and the reads move it. -/
theorem dumpUserIdBody_reaches (h : u.Leaves g) :
    ∃ (bits : List Bool) (l : LinkSide) (m : Memory),
      (g.afterLink (gotoAddressEvents g.cfg.codes 0x200000)).UserBytesDumped 8 bits l m ∧
      Op.Reaches dumpUserIdBody u () { g with link := l, mem := m } := by
  have hgoto := (gotoAddress_emits g 0x200000).reaches h
  generalize gotoAddressEvents g.cfg.codes 0x200000 = es at hgoto ⊢
  obtain ⟨t, hrun, ht⟩ := hgoto
  obtain ⟨bits, l, m, hdone, hloop⟩ := dumpUserBytes_reaches ht
  exact ⟨bits, l, m, hdone, .of_eq (Op.bind_ok hrun) hloop⟩

end

/-- An engine operation that is accepted undisturbed leaves what its pseudocode reaches from the accepted state. -/
theorem issue_engine_reaches {s g : State} (hs : s.engineReady) {op : Byte} {body : Op Unit}
    (hbody : Op.Reaches body (s.accept op) () g) : issue op .engine body s = .next g := by
  obtain ⟨⟨hidle, hsession, hquiet⟩, hid⟩ := hs
  rw [issue_quiet hidle hquiet _ (issueCheck_engine hsession hid), hbody.finish]

/-- Settles O46: the gate of an engine operation, then DUMP_CONFIG's pseudocode from the accepted state. -/
theorem dumpConfigResult : Obligations.DumpConfigResult := by
  refine ⟨engineGate_of_hostOp rfl rfl, fun s hs => ?_⟩
  have ⟨⟨_, _, hquiet⟩, _⟩ := hs
  obtain ⟨bits, l, m, ⟨hlen, hran, hstored, hframe⟩, hbody⟩ := dumpConfigBody_reaches (State.Leaves.accept hquiet 0x51)
  rw [← dumpConfigEvents_eq] at hran
  exact ⟨bits, l, m, hlen, hran, issue_engine_reaches hs hbody, hstored, hframe⟩

/-- Settles O47: the gate of an engine operation, then DUMP_USER_ID's pseudocode from the accepted state. -/
theorem dumpUserIdResult : Obligations.DumpUserIdResult := by
  refine ⟨engineGate_of_hostOp rfl rfl, fun s hs => ?_⟩
  have ⟨⟨_, _, hquiet⟩, _⟩ := hs
  obtain ⟨bits, l, m, ⟨hlen, hran, hstored, hframe⟩, hbody⟩ := dumpUserIdBody_reaches (State.Leaves.accept hquiet 0x50)
  refine ⟨bits, l, m, hlen, ?_, issue_engine_reaches hs hbody, hstored, hframe⟩
  rw [dumpUserIdEvents_eq]
  exact State.ran_afterLink _ (samplesOf_gotoAddress _ _) hran

end Sys2Proof.Machine

/-! PROOF of the statements about issue, the step and the IRQ output O23, O7, O8 and O20, and of the reset state O5 and
O6. -/

namespace Sys2Proof.Machine

/-! ## Refusals at issue (60_exceptions R281, R282) -/

/-- An identity that is there already stops IDENTIFY (60_exceptions R282). -/
theorem issueCheck_identified {s : State} (hs : s.session = .programming) (hid : s.ident.status ≠ .unresolved)
    (op : Byte) : issueCheck .identify (s.accept op) = .state := by
  simp [issueCheck, OpClass.session, hs, hid]

/-- Settles O23: each cause of the issue check in its place of the priority. -/
theorem refusedIssue : Obligations.RefusedIssue := by
  intro i op k s hi hidle
  refine ⟨?reserved, ?enter, ?session, ?identify, ?unidentified, ?notFound, ?region⟩
  case reserved =>
    rintro rfl
    exact exec_refused hi hidle rfl (by decide)
  case enter =>
    rintro rfl hs
    cases hi
    exact exec_wrongSession rfl (by decide) hidle hs
  case session =>
    intro hk hne hs
    exact exec_wrongSession hi hk hidle (by rwa [hostOp_session hi hne])
  case identify =>
    rintro rfl hs hid
    cases hi
    exact exec_refused rfl hidle (issueCheck_identified hs hid _) (by decide)
  case unidentified =>
    intro hk hs hid
    exact exec_refused hi hidle ((issueCheck_unidentified (OpClass.isEngine_iff.2 hk) hs op).1 hid) (by decide)
  case notFound =>
    intro hk hs hid
    exact exec_refused hi hidle ((issueCheck_unidentified (OpClass.isEngine_iff.2 hk) hs op).2 hid) (by decide)
  case region =>
    rintro rfl hs hid hr
    cases hi
    have hillegal : ¬s.ident.regionLegal (s.accept 0x22).seq.region = true := by
      rw [State.accept_region, Identity.regionLegal_iff]
      omega
    exact exec_refused rfl hidle (by rw [issueCheck_eraseBlock hs hid, if_neg hillegal]) (by decide)

/-! ## The step -/

section

variable {s : State}

theorem step_busy (h : s.seq.busy = true) : step s = resume s := by
  rw [step, if_pos h]

/-- A placed word comes before the host's inputs (log 6). -/
theorem step_placed (h : s.seq.busy = false) {w : LinkWord} {rest : List LinkWord} (ht : s.txns = w :: rest) {i : Instr}
    (hw : decodeLink s.cfg.codes w = .ok i) : step s = exec i { s with txns := rest } := by
  simp only [step, h, ht, hw, Bool.false_eq_true, if_false]

theorem step_unknown (h : s.seq.busy = false) {w : LinkWord} {rest : List LinkWord} (ht : s.txns = w :: rest) {x : Word}
    (hw : decodeLink s.cfg.codes w = .error (.unknownCoreWord x)) : step s = .refused (.unknownCoreWord x) := by
  simp only [step, h, ht, hw, Bool.false_eq_true, if_false]

/-- The next host input, where it is a write of CMD (60_exceptions R280). -/
theorem step_issue (h : s.seq.busy = false) (ht : s.txns = []) {i : Input} {rest : List Input}
    (hin : s.bus.inputs = i :: rest) {op : Byte} (hi : issuedOpcode i.act = some op) :
    step s = exec (decodeHost op) (s.withInputs rest) := by
  simp only [step, h, ht, hin, hi, Bool.false_eq_true, if_false]

/-- The next host input, where it is another access or a reset (70_reset R332). -/
theorem step_access (h : s.seq.busy = false) (ht : s.txns = []) {i : Input} {rest : List Input}
    (hin : s.bus.inputs = i :: rest) (hi : issuedOpcode i.act = none) :
    step s = hostTurn i.act (s.withInputs rest) := by
  simp only [step, h, ht, hin, hi, Bool.false_eq_true, if_false]

theorem step_idle (h : s.seq.busy = false) (ht : s.txns = []) (hin : s.bus.inputs = []) : step s = .next s := by
  simp only [step, h, ht, hin, Bool.false_eq_true, if_false]

end

/-- A core word that is refused is named by the refusal. -/
theorem decodeCore_error {c : CoreWords} {w x : Word} (h : decodeCore c w = .error (.unknownCoreWord x)) : x = w := by
  unfold decodeCore at h
  split at h
  · cases h
  · split at h <;> cases h
    rfl

/-- Settles O7: the two kinds of step that run an instruction. -/
theorem stepRunsInstruction : Obligations.StepRunsInstruction :=
  ⟨fun _ _ _ _ hidle htxns hin => step_issue hidle htxns hin rfl,
    fun _ _ _ _ hidle htxns hdecode => step_placed hidle htxns hdecode⟩

/-- Settles O8: the four kinds of step that run none. -/
theorem stepOtherwise : Obligations.StepOtherwise := by
  refine ⟨fun s => step_busy, fun s w x rest hidle htxns hdecode => ?unknown,
    fun s i rest hidle htxns hin hact => step_access hidle htxns hin hact, fun s => step_idle⟩
  case unknown =>
    obtain rfl := decodeCore_error hdecode
    exact step_unknown hidle htxns hdecode

/-! ## The IRQ output (60_exceptions R288, R290) -/

theorem irq_iff (r : HostRegs) :
    irq r = true ↔ (r.done = true ∧ doneIe r.ctrl = true) ∨ (r.progEvt = true ∧ progIe r.ctrl = true) := by
  simp [irq]

/-- The host's acknowledgement of DONE and PROG_EVT, bits 5 and 8 of STATUS. -/
theorem HostRegs.w1c_acknowledge (r : HostRegs) :
    r.w1c 0x00000120 = { r with done := false, progEvt := false } := by
  simp [HostRegs.w1c]

/-- Settles O20: OVERRUN and ACC_ERR are not in the IRQ level, and the acknowledgement clears what is. -/
theorem irqOutput : Obligations.IrqOutput := by
  intro r
  refine ⟨irq_iff r, fun _ _ => rfl, ?_⟩
  rw [HostRegs.w1c_acknowledge]
  exact ⟨rfl, rfl, rfl, rfl, rfl⟩

/-! ## The reset state (70_reset R320) -/

/-- The low byte of an entry is no present bit. -/
theorem isPresentByte_addr (w : Window) (i : Nat) : isPresentByte (w.addr i) = false := by
  have hmod : w.addr i % 4 ≠ 2 := by
    cases w <;> simp only [Window.addr, Window.base] <;> omega
  simp [isPresentByte, hmod]

/-- A byte of empty buffers is a present bit, which is 0, or holds no value (10_state R27). -/
theorem Memory.byte_nil (a : Nat) : Memory.byte [] a = if isPresentByte a then some 0 else none := rfl

theorem Memory.byte_nil_addr (w : Window) (i : Nat) : Memory.byte [] (w.addr i) = none := by
  rw [Memory.byte_nil, isPresentByte_addr, if_neg Bool.false_ne_true]

theorem Memory.present_nil (w : Window) (i : Nat) : Memory.present [] w i = false := by
  rw [Memory.present, Memory.byte_nil]
  cases isPresentByte (w.addr i + 2) <;> rfl

/-- After reset the host reads 0 from every register but IDINFO, whose index is 0xFF, and the poll cap (R30). -/
theorem regWord_hardReset (s : State) (r : Reg) : regWord s.hardReset r =
    if r = .idinfo then 0x0000FF00 else if r = .eePollMax then s.cfg.dev.eePollMaxReset.setWidth 32 else 0 := by
  cases r with
  | status =>
    simp [regWord, statusWord, flagAt, fieldAt, faultFlag, cfgMismatchFlag, Session.code, IdentStatus.code]
  | idinfo => exact show idinfoWord {} = 0x0000FF00 by decide
  | geom => exact show geomWord {} = 0 by decide
  | pins => exact show pinsWord {} = 0 by decide
  | eePollMax => simp [regWord, fieldAt]
  | _ => rfl

/-- Settles O5: the fields by the definition of the reset, the buffers and the registers by the lemmas above. -/
theorem resetState : Obligations.ResetState := by
  intro s
  refine ⟨s.hardReset, rfl, by simp, rfl, rfl, rfl, rfl, rfl, rfl, rfl, rfl, rfl, rfl, rfl, rfl, rfl, rfl, rfl, rfl,
    rfl, rfl, fun w i _ => ⟨Memory.present_nil w i, Memory.byte_nil_addr w i⟩, fun reg => ?registers, rfl, rfl, rfl, rfl⟩
  case registers =>
    rw [regWord_hardReset]
    cases reg <;> rfl

/-- Settles O6: the reset state of a configuration is its own reset, which is at rest. -/
theorem resetMeetsInvariant : Obligations.ResetMeetsInvariant := by
  intro cfg
  obtain ⟨hidle, hsound⟩ := (State.resetFor cfg).atRest_hardReset
  exact (State.inv_iff _).2 ⟨Memory.wf_nil, hidle, hsound⟩

end Sys2Proof.Machine

/-! PROOF of O24. A pending reset ends a run where it arrives: among the events of an operation that samples nothing it
ends their sequence, and of any operation's pseudocode a run that has the reset next before it has it next after it, or
is ended by it. -/

namespace Sys2Proof.Machine

/-! ## A reset during a sequence of events (70_reset R322) -/

section

variable {s : State} {rest : List Input} {es : List LinkEvent} {n : Nat}

/-- A reset that is due ends the run. -/
theorem hostWindow_reset (hbusy : s.seq.busy = true) :
    hostWindow (s.withInputs ({ gap := some 0, act := .reset } :: rest)) =
      .error .ended (s.withInputs rest).hardReset := by
  rw [hostWindow, if_pos (by simpa using hbusy), State.withInputs_bus, serveDue, Op.bind_ok (Op.update_run _ _)]
  rfl

/-- By induction on the number of events before the reset: each brings it one action nearer. -/
theorem emitAll_withInputs_reset (hbusy : s.seq.busy = true) (hperf : s.seq.replaying = false) (hn : n < es.length) :
    emitAll es (s.withInputs ({ gap := some (n + 1), act := .reset } :: rest)) =
      .error .ended ((s.recordAll (es.take (n + 1))).withInputs rest).hardReset := by
  induction n generalizing s es with
  | zero =>
    cases es with
    | nil => cases hn
    | cons e es =>
      have hemit := (emit_nearer hperf e 0 .reset rest).trans (hostWindow_reset (by simpa using hbusy))
      rw [emitAll, Op.bind_error hemit]
      rfl
  | succ n ih =>
    cases es with
    | nil => cases hn
    | cons e es =>
      have hemit := (emit_nearer hperf e (n + 1) .reset rest).trans (hostWindow_waits _ n .reset rest)
      rw [emitAll, Op.bind_ok hemit,
        ih (s := s.record e) (by simpa using hbusy) (by simpa using hperf) (Nat.lt_of_succ_lt_succ hn)]
      rfl

/-- The run emits `es` first: where they are cut short, so is it. -/
def Op.Starts (x : Op Unit) (s : State) (es : List LinkEvent) : Prop :=
  ∀ t, emitAll es s = .error .ended t → x s = .error .ended t

theorem Op.Starts.of_eq {x : Op Unit} (h : x s = emitAll es s) : x.Starts s es := fun _ ht => h.trans ht

theorem Op.Starts.of_bind {x : Op Unit} {f : Unit → Op Unit} (h : x s = (emitAll es >>= f) s) : x.Starts s es :=
  fun _ ht => h.trans (Op.bind_error ht)

theorem enterBody_starts (s : State) : enterBody.Starts s (enterEvents s.cfg) := .of_bind (enterBody_run s)

theorem exitBody_starts (s : State) : exitBody.Starts s exitEvents :=
  .of_bind (f := fun _ => assign fun s => s.setSession .idle) rfl

theorem eraseBlockBody_starts (s : State) : eraseBlockBody.Starts s (eraseBlockEvents s.cfg s.seq.region) :=
  .of_bind (f := fun _ => emitProgress .erase 100) <| by
    rw [eraseBlockBody, Op.bind_ok (Op.ask_run _ s), Op.bind_run, Op.bind_run, eraseRegion,
      Op.bind_ok (Op.ask_run State.cfg s)]

/-- An operation that a reset meets right after its acceptance, or after `n` of the events it emits first. -/
theorem operation_reset {x : Op Unit} (hbusy : s.seq.busy = true) (hperf : s.seq.replaying = false)
    (hin : s.bus.inputs = { gap := some n, act := .reset } :: rest) (hx : x.Starts s es) (hn : n ≤ es.length) :
    (do hostWindow; x : Op Unit) s = .error .ended ((s.recordAll (es.take n)).withInputs rest).hardReset := by
  have hs : s = s.withInputs ({ gap := some n, act := .reset } :: rest) := by rw [← hin, State.withInputs_self]
  cases n with
  | zero =>
    rw [hs]
    exact Op.bind_error (hostWindow_reset hbusy)
  | succ n =>
    have hwaits : hostWindow s = .ok () s := by
      rw [hs]
      exact hostWindow_waits s n .reset rest
    have hemit : emitAll es s = .error .ended ((s.recordAll (es.take (n + 1))).withInputs rest).hardReset := by
      conv_lhs => rw [hs]
      exact emitAll_withInputs_reset hbusy hperf hn
    rw [Op.bind_ok hwaits, hx _ hemit]

/-- The block after a reset in a run that began in `s`, with the events `before` emitted and the inputs `rest` still to
come: of the outside the trace, the partner and what the host has read stay (log 15). -/
def State.afterReset (s : State) (before : List LinkEvent) (partner : Partner) (draws : Nat) (rest : List Input) :
    State :=
  { State.resetFor s.cfg with
    link := { trace := before ++ s.link.trace, partner := partner, draws := draws }
    bus := { s.bus with inputs := rest } }

/-- A reset that has cut the events of an accepted operation short. -/
theorem State.hardReset_begun (s : State) (i : Instr) (op : Byte) (es : List LinkEvent) (rest : List Input) :
    (((s.begun i op).recordAll es).withInputs rest).hardReset =
      s.afterReset es.reverse (s.link.observeAll s.cfg es).partner s.link.draws rest := by
  obtain ⟨hcfg, -, -, hlink, -⟩ := s.begun_kept i op
  have hbus := State.begun_bus i op s
  simp [State.hardReset, State.afterReset, hcfg, hlink, hbus]

/-- An operation that emits `es` first, with a reset after `n` of them. -/
theorem exec_reset {i : Instr} {op : Byte} {k : OpClass} (hi : hostOp i = some (op, k)) (hidle : s.seq.busy = false)
    (hcheck : issueCheck k (s.accept op) = .none)
    (hin : s.bus.inputs = { gap := some n, act := .reset } :: rest) (hx : (pseudocode i).Starts (s.begun i op) es)
    (hn : n ≤ es.length) :
    exec i s = .next
      (s.afterReset (es.take n).reverse (s.link.observeAll s.cfg (es.take n)).partner s.link.draws rest) := by
  obtain ⟨first, hfirst, hexec⟩ := exec_eq_issueFrom hi
  have hbusy : (s.begun i op).seq.busy = true := by rw [State.begun_seq]; rfl
  rw [hexec, issueFrom_accepted hidle first _ hcheck, hfirst, operation_reset hbusy (State.begun_performing i op s)
    (by rw [State.begun_bus, hin]) hx hn, finish, State.hardReset_begun]

end

/-! ## A reset that is still to come -/

/-- In a run that began in `b` a reset is the next input, with `rest` after it: the configuration and what the host has
read are as they were, and what was emitted since is on top of the trace. -/
structure State.Awaiting (b : State) (rest : List Input) (u : State) : Prop where
  cfg : u.cfg = b.cfg
  bus : ∃ n, u.bus = { b.bus with inputs := { gap := some n, act := .reset } :: rest }
  trace : ∃ before, u.link.trace = before ++ b.link.trace

/-- The reset has come in a run that began in `b`. -/
def State.CutShort (b : State) (rest : List Input) (t : State) : Prop :=
  ∃ (before : List LinkEvent) (partner : Partner) (draws : Nat), t = b.afterReset before partner draws rest

/-- How a run that awaits a reset may halt: where it is ended, by a fault of its own or by the reset. -/
def State.EndsAwaiting (b : State) (rest : List Input) (e : Halt) (t : State) : Prop :=
  e = .ended → b.Awaiting rest t ∨ b.CutShort rest t

/-- A run that awaits a reset still does so where it goes on. -/
structure Op.Awaits {α : Type} (b : State) (rest : List Input) (x : Op α) : Prop where
  leads : Op.Leads (b.Awaiting rest) x (fun _ => b.Awaiting rest) (b.EndsAwaiting rest)

section

variable {α β : Type} {b : State} {rest : List Input}

/-- A change of anything but the configuration, the host bus and the trace. -/
theorem State.Awaiting.of_eq {u t : State} (h : b.Awaiting rest u) (hcfg : t.cfg = u.cfg) (hbus : t.bus = u.bus)
    (htrace : t.link.trace = u.link.trace) : b.Awaiting rest t :=
  ⟨hcfg.trans h.cfg, by rw [hbus]; exact h.bus, by rw [htrace]; exact h.trace⟩

/-- The run is not yet over with the reset. -/
theorem State.Awaiting.inputs_ne {u : State} (h : b.Awaiting rest u) : u.bus.inputs ≠ rest := by
  obtain ⟨n, hbus⟩ := h.bus
  rw [hbus]
  exact List.cons_ne_self _ _

/-- The reset comes. -/
theorem State.Awaiting.hardReset {u : State} (h : b.Awaiting rest u) :
    b.CutShort rest (u.withInputs rest).hardReset := by
  obtain ⟨n, hbus⟩ := h.bus
  obtain ⟨before, htrace⟩ := h.trace
  refine ⟨before, u.link.partner, u.link.draws, ?_⟩
  simp [State.hardReset, State.afterReset, h.cfg, hbus, htrace]

theorem State.Awaiting.tick {u : State} (h : b.Awaiting rest u) : b.Awaiting rest u.tick := by
  obtain ⟨n, hbus⟩ := h.bus
  refine ⟨by rw [State.tick_cfg, h.cfg], ?_, by rw [State.tick_link]; exact h.trace⟩
  cases n with
  | zero => exact ⟨0, by simp [State.tick, hbus]⟩
  | succ n => exact ⟨n, by simp [State.tick, hbus]⟩

theorem Op.Awaits.bind {x : Op α} {f : α → Op β} (hx : x.Awaits b rest) (hf : ∀ a, (f a).Awaits b rest) :
    (x >>= f).Awaits b rest := ⟨hx.leads.bind fun a => (hf a).leads⟩

theorem Op.Awaits.of_run {x : Op α}
    (h : ∀ u, b.Awaiting rest u → Op.EndsIn (fun _ => b.Awaiting rest) (b.EndsAwaiting rest) (x u)) :
    x.Awaits b rest := ⟨⟨h⟩⟩

theorem Op.Awaits.pure (a : α) : (Pure.pure a : Op α).Awaits b rest := .of_run fun _ h => h

theorem Op.Awaits.ask (f : State → α) : (Machine.ask f).Awaits b rest := .of_run fun _ h => h

theorem Op.Awaits.forUp {f : Nat → Op Unit} (hf : ∀ i, (f i).Awaits b rest) (n start : Nat) :
    (Machine.forUp f n start).Awaits b rest :=
  ⟨.forUp (P := fun _ => b.Awaiting rest) n start fun i _ _ => (hf i).leads⟩

/-- Between two actions the reset comes, or it does not. -/
theorem hostWindow_awaits : hostWindow.Awaits b rest := .of_run fun u hu => by
  obtain ⟨n, hbus⟩ := hu.bus
  unfold hostWindow
  split
  case isFalse => exact hu
  case isTrue =>
    rw [hbus]
    cases n with
    | zero =>
      rw [serveDue, Op.bind_ok (Op.update_run _ u)]
      exact fun _ => .inr hu.hardReset
    | succ n => exact hu

/-- An action that goes on awaiting the reset, wherever it does, before the host's accesses. -/
theorem act_awaits {f : State → State} (hf : ∀ u, b.Awaiting rest u → b.Awaiting rest (f u)) :
    (act f).Awaits b rest := .of_run fun u hu => by
  cases hr : u.seq.replaying with
  | true =>
    rw [act_replaying hr]
    exact hu.of_eq u.passOver_cfg u.passOver_bus (congrArg LinkSide.trace u.passOver_link)
  | false =>
    rw [act_performed hr]
    exact hostWindow_awaits.leads.run _ (hf u hu).tick

theorem assign_awaits {f : State → State}
    (hf : ∀ u : State, (f u).cfg = u.cfg ∧ (f u).bus = u.bus ∧ (f u).link = u.link) :
    (assign f).Awaits b rest := act_awaits fun u hu => by
  obtain ⟨hcfg, hbus, hlink⟩ := hf u
  exact hu.of_eq hcfg hbus (congrArg LinkSide.trace hlink)

theorem emit_awaits (e : LinkEvent) : (emit e).Awaits b rest := act_awaits (f := fun s => s.record e) fun u hu => by
  obtain ⟨before, htrace⟩ := hu.trace
  exact ⟨hu.cfg, hu.bus, e :: before, congrArg (e :: ·) htrace⟩

theorem raise_awaits (c : Cause) (a : Addr) (e v : Word) : (raise c a e v : Op α).Awaits b rest :=
  .of_run fun _ hu _ => .inl (hu.of_eq rfl rfl rfl)

/-! ### Link transactions -/

theorem emitAll_awaits (es : List LinkEvent) : (emitAll es).Awaits b rest := by
  induction es with
  | nil => exact .pure ()
  | cons e es ih => exact (emit_awaits e).bind fun _ => ih

theorem sampledBit_awaits : sampledBit.Awaits b rest := .of_run fun u hu => by
  unfold sampledBit
  split
  · unfold takeAgain
    split
    · exact hu.of_eq rfl rfl rfl
    · exact hu
  · exact hu.of_eq rfl rfl (by unfold LinkSide.draw; split <;> (try split) <;> rfl)

theorem inCell_awaits : inCell.Awaits b rest := by
  have hsample : sample.Awaits b rest := sampledBit_awaits.bind fun v => (emit_awaits _).bind fun _ => .pure v
  exact (emitAll_awaits _).bind fun _ => hsample.bind fun v => (emitAll_awaits _).bind fun _ => .pure v

theorem inBits_awaits (n : Nat) : (inBits n).Awaits b rest := by
  induction n with
  | zero => exact .pure []
  | succ n ih => exact inCell_awaits.bind fun v => ih.bind fun vs => .pure (v :: vs)

theorem keepRx_awaits (w : Word) : (keepRx w).Awaits b rest := .of_run fun u hu => by
  unfold keepRx
  split
  · exact hu
  · exact hu.of_eq rfl rfl rfl

theorem readWord_awaits : readWord.Awaits b rest :=
  (emitAll_awaits _).bind fun _ => (inBits_awaits 8).bind fun _ => (emitAll_awaits _).bind fun _ =>
    (keepRx_awaits _).bind fun _ => .pure _

theorem readIcsp_awaits (f : IcspCodes → Nibble) : (readIcsp f).Awaits b rest :=
  (Op.Awaits.ask _).bind fun _ => (emitAll_awaits _).bind fun _ => readWord_awaits.bind fun _ => .pure _

theorem readPair_awaits (f g : IcspCodes → Nibble) : (do
    let lo ← readIcsp f
    let hi ← readIcsp g
    return hi ++ lo : Op Word).Awaits b rest :=
  (readIcsp_awaits f).bind fun _ => (readIcsp_awaits g).bind fun _ => .pure _

theorem sendCore_awaits (f : CoreWords → Word) : (sendCore f).Awaits b rest :=
  (Op.Awaits.ask _).bind fun _ => emitAll_awaits _

theorem sendIcsp_awaits (f : IcspCodes → Nibble) (p : Word) : (sendIcsp f p).Awaits b rest :=
  (Op.Awaits.ask _).bind fun _ => emitAll_awaits _

theorem sendStartp_awaits (f : IcspCodes → Nibble) (p : Word) : (sendStartp f p).Awaits b rest :=
  (sendIcsp_awaits f p).bind fun _ => (Op.Awaits.ask _).bind fun _ => emitAll_awaits _

theorem gotoAddress_awaits (a : Addr) : (gotoAddress a).Awaits b rest :=
  (Op.Awaits.ask _).bind fun _ => emitAll_awaits _

theorem gotoShort_awaits (o : Byte) : (gotoShort o).Awaits b rest :=
  (Op.Awaits.ask _).bind fun _ => emitAll_awaits _

theorem eraseRegion_awaits (r : Nat) : (eraseRegion r).Awaits b rest :=
  (Op.Awaits.ask _).bind fun _ => emitAll_awaits _

/-! ### Buffers, latches and reports -/

theorem memReadImg_awaits (w : Window) (i : Nat) : (memReadImg w i).Awaits b rest := .of_run fun u hu => by
  unfold memReadImg
  split
  · exact hu
  · exact nofun

theorem memRead8_awaits (w : Window) (i : Nat) : (memRead8 w i).Awaits b rest := .of_run fun u hu => by
  unfold memRead8
  split
  · exact hu
  · exact nofun

theorem memWriteImg_awaits (w : Window) (i : Nat) (e : ImgEntry) : (memWriteImg w i e).Awaits b rest :=
  assign_awaits fun _ => ⟨rfl, rfl, rfl⟩

theorem memWrite16_awaits (w : Window) (i : Nat) (v : Word) : (memWrite16 w i v).Awaits b rest :=
  assign_awaits fun _ => ⟨rfl, rfl, rfl⟩

theorem memWrite8_awaits (w : Window) (i : Nat) (v : Byte) : (memWrite8 w i v).Awaits b rest :=
  assign_awaits fun _ => ⟨rfl, rfl, rfl⟩

theorem assignIdent_awaits (f : Identity → Identity) : (assign fun s => { s with ident := f s.ident }).Awaits b rest :=
  assign_awaits fun _ => ⟨rfl, rfl, rfl⟩

theorem setSession_awaits (x : Session) : (assign fun s => s.setSession x).Awaits b rest :=
  assign_awaits fun _ => ⟨rfl, rfl, rfl⟩

theorem setCfgMm_awaits (v : Byte) : (assign fun s => s.setCfgMm v).Awaits b rest :=
  assign_awaits fun _ => ⟨rfl, rfl, rfl⟩

theorem setPolls_awaits (f : State → Word) : (assign fun s => s.setPolls (f s)).Awaits b rest :=
  assign_awaits fun _ => ⟨rfl, rfl, rfl⟩

theorem emitProgress_awaits (ph : Phase) (p : BitVec 7) : (emitProgress ph p).Awaits b rest :=
  assign_awaits fun s => ⟨s.reportProgress_cfg ph p, s.reportProgress_bus ph p, s.reportProgress_link ph p⟩

theorem walkProgress_awaits (ph : Phase) (n : Nat) : (walkProgress ph n).Awaits b rest :=
  (Op.Awaits.ask _).bind fun _ => emitProgress_awaits ph _

theorem clearGeometry_awaits : clearGeometry.Awaits b rest :=
  (assignIdent_awaits fun g => { g with codeSize := 0 }).bind fun _ =>
    (assignIdent_awaits fun g => { g with eraseBlocks := 0 }).bind fun _ =>
    assignIdent_awaits fun g => { g with wbufWords := 0 }

/-! ### The pseudocode of each operation -/

theorem enterBody_awaits : enterBody.Awaits b rest :=
  (Op.Awaits.ask _).bind fun _ => (emitAll_awaits _).bind fun _ =>
    (assignIdent_awaits fun g => { g with status := .unresolved }).bind fun _ =>
    (assignIdent_awaits fun g => { g with devid := 0 }).bind fun _ =>
    (assignIdent_awaits fun g => { g with rev := 0 }).bind fun _ => clearGeometry_awaits.bind fun _ =>
    (assignIdent_awaits fun g => { g with index := 0xFF }).bind fun _ => setSession_awaits _

theorem identNotFound_awaits (d : Word) : (identNotFound d).Awaits b rest :=
  (assignIdent_awaits fun g => { g with index := 0xFF }).bind fun _ => clearGeometry_awaits.bind fun _ =>
    (assignIdent_awaits fun g => { g with status := .notFound }).bind fun _ => raise_awaits _ _ _ _

theorem identResolved_awaits (k : Nat) (e : CatalogEntry) : (identResolved k e).Awaits b rest :=
  (assignIdent_awaits fun g => { g with index := BitVec.ofNat 8 k }).bind fun _ =>
    (assignIdent_awaits fun g => { g with codeSize := e.codeSize }).bind fun _ =>
    (assignIdent_awaits fun g => { g with eraseBlocks := e.eraseBlocks }).bind fun _ =>
    (assignIdent_awaits fun g => { g with wbufWords := e.wbufWords }).bind fun _ =>
    assignIdent_awaits fun g => { g with status := .resolved }

theorem allocate_awaits (words : Nat) : (allocate words).Awaits b rest :=
  (Op.Awaits.forUp (fun _ => memWriteImg_awaits _ _ _) words 0).bind fun _ =>
    .forUp (fun _ => memWriteImg_awaits _ _ _) 8 0

theorem identifyBody_awaits : identifyBody.Awaits b rest := by
  refine Op.Awaits.bind ((gotoAddress_awaits _).bind fun _ => readPair_awaits _ _) fun d => ?_
  refine (assignIdent_awaits fun g => { g with devid := d }).bind fun _ =>
    (assignIdent_awaits fun g => { g with rev := revision d }).bind fun _ => (Op.Awaits.ask _).bind fun found => ?_
  rcases found with _ | ⟨k, e⟩
  · exact identNotFound_awaits d
  · exact (identResolved_awaits k e).bind fun _ => (allocate_awaits _).bind fun _ => setCfgMm_awaits 0

theorem eraseRegions_awaits (total : Nat) (rs : List Nat) (finished : Nat) :
    (eraseRegions total finished rs).Awaits b rest := by
  induction rs generalizing finished with
  | nil => exact .pure ()
  | cons r rs ih =>
    exact (eraseRegion_awaits r).bind fun _ => (emitProgress_awaits _ _).bind fun _ => ih (finished + 1)

/-- A walk over the code memory (46_program_verify R212). -/
theorem codeWalk_awaits {f : Nat → Op Unit} (hf : ∀ a, (f a).Awaits b rest) : (codeWalk f).Awaits b rest :=
  (gotoAddress_awaits _).bind fun _ => (Op.Awaits.ask _).bind fun n => .forUp hf n 0

theorem blankCheckBody_awaits : blankCheckBody.Awaits b rest := by
  refine codeWalk_awaits fun a => (readPair_awaits _ _).bind fun d => ?_
  split
  · exact raise_awaits _ _ _ _
  · exact walkProgress_awaits _ _

theorem readBody_awaits : readBody.Awaits b rest :=
  codeWalk_awaits fun _ => (readPair_awaits _ _).bind fun _ => (memWriteImg_awaits _ _ _).bind fun _ =>
    walkProgress_awaits _ _

theorem verifyCode_awaits : verifyCode.Awaits b rest := by
  refine codeWalk_awaits fun a => (readPair_awaits _ _).bind fun d => (memReadImg_awaits _ _).bind fun e =>
    (Op.Awaits.ask _).bind fun cfg => ?_
  split
  · split
    · exact raise_awaits _ _ _ _
    · exact walkProgress_awaits _ _
  · exact walkProgress_awaits _ _

theorem programWord_awaits (width base i : Nat) : (programWord width base i).Awaits b rest := by
  refine (memReadImg_awaits _ _).bind fun e => ?_
  split
  · exact sendIcsp_awaits _ _
  · exact sendStartp_awaits _ _

theorem programCode_awaits : programCode.Awaits b rest :=
  (sendCore_awaits _).bind fun _ => (sendCore_awaits _).bind fun _ => (sendCore_awaits _).bind fun _ =>
    (gotoAddress_awaits _).bind fun _ => (Op.Awaits.ask _).bind fun _ =>
    .forUp (fun _ => (Op.Awaits.forUp (fun i => programWord_awaits _ _ i) _ 0).bind fun _ =>
      walkProgress_awaits _ _) _ 0

theorem cfgReadSlot_awaits (i : Nat) : (cfgReadSlot i).Awaits b rest :=
  (gotoAddress_awaits _).bind fun _ => readPair_awaits _ _

theorem cfgWriteSlot_awaits (i : Nat) (v : Word) : (cfgWriteSlot i v).Awaits b rest :=
  (Op.Awaits.ask _).bind fun _ => (gotoAddress_awaits _).bind fun _ => (sendStartp_awaits _ _).bind fun _ =>
    (gotoShort_awaits _).bind fun _ => sendStartp_awaits _ _

theorem cfgWriteOne_awaits (i : Nat) : (cfgWriteOne i).Awaits b rest := by
  refine (memReadImg_awaits _ _).bind fun c => ?_
  split
  · exact cfgWriteSlot_awaits i c.value
  · exact .pure ()

theorem cfgWritePass_awaits : cfgWritePass.Awaits b rest := by
  refine (Op.Awaits.ask _).bind fun any => ?_
  split
  · exact (sendCore_awaits _).bind fun _ => (sendCore_awaits _).bind fun _ => .forUp cfgWriteOne_awaits 8 0
  · exact .pure ()

theorem cfgVerifySlots_awaits (n i : Nat) (mm : Byte) : (cfgVerifySlots n i mm).Awaits b rest := by
  induction n generalizing i mm with
  | zero => exact .pure mm
  | succ n ih =>
    refine (memReadImg_awaits _ _).bind fun c => ?_
    split
    · exact (cfgReadSlot_awaits i).bind fun _ => (memWrite16_awaits _ _ _).bind fun _ => ih (i + 1) _
    · exact ih (i + 1) mm

theorem cfgVerifyPass_awaits : cfgVerifyPass.Awaits b rest :=
  (cfgVerifySlots_awaits 8 0 0).bind fun _ => setCfgMm_awaits _

theorem writeBody_awaits : writeBody.Awaits b rest := by
  refine programCode_awaits.bind fun _ => (Op.Awaits.ask _).bind fun verify => ?_
  cases verify with
  | true => exact verifyCode_awaits.bind fun _ => cfgWritePass_awaits.bind fun _ => cfgVerifyPass_awaits
  | false => exact cfgWritePass_awaits.bind fun _ => .pure ()

theorem sendCores_awaits (fs : List (CoreWords → Word)) : (sendCores fs).Awaits b rest := by
  induction fs with
  | nil => exact .pure ()
  | cons f fs ih => exact (sendCore_awaits f).bind fun _ => ih

theorem eeReadCell_awaits (e : Nat) : (eeReadCell e).Awaits b rest := by
  have haddress : (eeAddress e).Awaits b rest :=
    (sendCore_awaits _).bind fun _ => (sendCore_awaits _).bind fun _ => (sendCore_awaits _).bind fun _ =>
      (sendCore_awaits _).bind fun _ => (sendCore_awaits _).bind fun _ => sendCore_awaits _
  exact haddress.bind fun _ => (sendCore_awaits _).bind fun _ => (sendCore_awaits _).bind fun _ =>
    (sendCore_awaits _).bind fun _ => (sendCore_awaits _).bind fun _ => readIcsp_awaits _

theorem eePoll_awaits : eePoll.Awaits b rest := by
  rw [eePoll_eq]
  exact (sendCores_awaits _).bind fun _ => (readIcsp_awaits _).bind fun _ =>
    (setPolls_awaits fun s => s.seq.polls + 1).bind fun _ => .pure _

theorem eePollLoop_awaits (e : Nat) (d : Byte) (more : Nat) : (eePollLoop e d more).Awaits b rest := by
  induction more with
  | zero =>
    refine eePoll_awaits.bind fun st => (Op.Awaits.ask _).bind fun cfg => ?_
    split
    · exact .pure ()
    · exact raise_awaits _ _ _ _
  | succ more ih =>
    refine eePoll_awaits.bind fun st => (Op.Awaits.ask _).bind fun cfg => ?_
    split
    · exact .pure ()
    · exact ih

theorem eeWriteCell_awaits (e : Nat) (d : Byte) : (eeWriteCell e d).Awaits b rest := by
  rw [eeWriteCell_eq]
  exact (sendCores_awaits _).bind fun _ => (setPolls_awaits fun _ => 0).bind fun _ => (Op.Awaits.ask _).bind fun _ =>
    (eePollLoop_awaits e d _).bind fun _ => sendCore_awaits _

theorem eeSourceByte_awaits (e : Nat) : (eeSourceByte e).Awaits b rest := by
  refine (Op.Awaits.ask _).bind fun zero => ?_
  split
  · exact .pure _
  · exact memRead8_awaits _ _

theorem eraseBlockBody_awaits : eraseBlockBody.Awaits b rest :=
  (Op.Awaits.ask _).bind fun r => (eraseRegion_awaits r).bind fun _ => emitProgress_awaits _ _

theorem eepromReadBody_awaits : eepromReadBody.Awaits b rest :=
  (Op.Awaits.ask _).bind fun n => .forUp (fun e => (eeReadCell_awaits e).bind fun _ => memWrite8_awaits _ _ _) n 0

theorem eepromWriteBody_awaits : eepromWriteBody.Awaits b rest :=
  (Op.Awaits.ask _).bind fun n => .forUp (fun e => (eeSourceByte_awaits e).bind (eeWriteCell_awaits e)) n 0

theorem dumpUserIdBody_awaits : dumpUserIdBody.Awaits b rest :=
  (gotoAddress_awaits _).bind fun _ => .forUp (fun _ => (readIcsp_awaits _).bind fun _ => memWrite8_awaits _ _ _) 8 0

theorem dumpConfigBody_awaits : dumpConfigBody.Awaits b rest :=
  .forUp (fun i => (cfgReadSlot_awaits i).bind fun _ => memWrite16_awaits _ _ _) 8 0

theorem pseudocode_awaits (i : Instr) : (pseudocode i).Awaits b rest := by
  cases i with
  | enter => exact enterBody_awaits
  | exit => exact (emitAll_awaits _).bind fun _ => setSession_awaits _
  | identify => exact identifyBody_awaits
  | sendCmd | sendWord => exact (Op.Awaits.ask _).bind fun _ => emitAll_awaits _
  | readWord => exact readWord_awaits.bind fun _ => assign_awaits fun _ => ⟨rfl, rfl, rfl⟩
  | sendInsn => exact (Op.Awaits.ask _).bind fun _ => (Op.Awaits.ask _).bind fun _ => emitAll_awaits _
  | gotoAddr => exact (Op.Awaits.ask _).bind gotoAddress_awaits
  | gotoShort => exact (Op.Awaits.ask _).bind gotoShort_awaits
  | blankCheck => exact blankCheckBody_awaits
  | bulkErase => exact (Op.Awaits.ask _).bind fun rs => eraseRegions_awaits _ rs 0
  | eraseBlock => exact eraseBlockBody_awaits
  | read => exact readBody_awaits
  | write => exact writeBody_awaits
  | eepromRead => exact eepromReadBody_awaits
  | eepromWrite => exact eepromWriteBody_awaits
  | dumpUserId => exact dumpUserIdBody_awaits
  | dumpConfig => exact dumpConfigBody_awaits
  | _ => exact .pure ()

/-! ## The operation -/

theorem State.Awaiting.begun {s : State} {n : Nat} (hin : s.bus.inputs = { gap := some n, act := .reset } :: rest)
    (i : Instr) (op : Byte) : s.Awaiting rest (s.begun i op) := by
  obtain ⟨hcfg, -, -, hlink, -⟩ := s.begun_kept i op
  exact ⟨hcfg, ⟨n, by rw [State.begun_bus, ← hin]⟩, [], by rw [hlink]; rfl⟩

/-- An operation that began with a reset next ends with it next, or has been cut short by it. -/
theorem exec_awaiting {s t : State} {i : Instr} {n : Nat} (hidle : s.seq.busy = false) (hi : (hostOp i).isSome)
    (hin : s.bus.inputs = { gap := some n, act := .reset } :: rest) (h : exec i s = .next t) :
    s.Awaiting rest t ∨ s.CutShort rest t := by
  obtain ⟨⟨op, k⟩, hop⟩ := Option.isSome_iff_exists.1 hi
  obtain ⟨hbusy, -⟩ | ⟨-, -, hexec⟩ | ⟨-, -, hexec⟩ := exec_host_cases hop s
  · rw [hidle] at hbusy
    cases hbusy
  · rw [hexec] at h
    cases h
    exact .inl ⟨rfl, ⟨n, by rw [← hin]; rfl⟩, [], rfl⟩
  · have hrun := (hostWindow_awaits.bind fun _ => pseudocode_awaits i).leads.run _ (State.Awaiting.begun hin i op)
    rw [hexec] at h
    obtain ⟨u, hx, rfl⟩ | hx := finish_next h <;> rw [hx] at hrun
    · exact .inl (State.Awaiting.of_eq hrun rfl rfl rfl)
    · exact hrun rfl

end

/-- Settles O24: the operations that emit events first, with the reset among them, then any operation. -/
theorem resetDuringOperation : Obligations.ResetDuringOperation := by
  refine ⟨?events, ?anyOperation⟩
  case events =>
    intro s i es n rest hidle hin hn hop
    obtain ⟨hsession, rfl, hes⟩ | ⟨hsession, hmem⟩ | ⟨hsession, hid, rfl, hlegal, hes⟩ := hop
    · exact exec_reset rfl hidle (issueCheck_enter hsession 0x01) hin (by rw [hes]; exact enterBody_starts _) hn
    · simp only [List.mem_cons, List.not_mem_nil, or_false] at hmem
      obtain hop | hop | hop | hop | hop | hop := hmem <;> cases hop
      · exact exec_reset rfl hidle (issueCheck_exit hsession 0x02) hin (exitBody_starts _) hn
      all_goals exact exec_reset rfl hidle (issueCheck_raw hsession) hin (.of_eq rfl) hn
    · have hcheck : issueCheck .eraseBlock (s.accept 0x22) = .none := by
        rw [issueCheck_eraseBlock hsession hid, State.accept_region, if_pos hlegal]
      rw [← State.accept_region s 0x22] at hes
      exact exec_reset rfl hidle hcheck hin (by rw [hes]; exact eraseBlockBody_starts _) hn
  case anyOperation =>
    intro s t i n rest hidle hi hin h hrest
    exact (exec_awaiting hidle hi hin h).resolve_left fun hawaiting => hawaiting.inputs_ne hrest

end Sys2Proof.Machine
